-- ==== Sys2Proof/Word.lean ====
section
/-! DEFINITION. Word types of the GW-EP1 and their plainest names: the 64-bit register word, the byte, and the widths
that rows, predicates and descriptors have (spec/00_scope.md, 01_organisation.md R1-R3). -/

namespace Sys2Proof

/-- A 64-bit register word (R3). -/
abbrev Word := BitVec 64

/-- One byte, the smallest addressable unit (R3). -/
abbrev Byte := BitVec 8

/-- The 2,048 data bytes of a slab-store row, byte k at bits [8k+7:8k] (R109). -/
abbrev RowBits := BitVec 16384

/-- The 512-byte assay sideband of a row, byte k at bits [8k+7:8k] (R97, R109). -/
abbrev SideBits := BitVec 4096

/-- A predicate register, lane j at bit j (R228). -/
abbrev PredBits := BitVec 4096

/-- A 64-byte record or descriptor, byte k at bits [8k+7:8k]. -/
abbrev Rec64 := BitVec 512

end Sys2Proof
end

