-- ==== Sys2Proof/Machine/Bits.lean ====
section
/-! DEFINITION. Bit fields, sign extension and byte order (R2, R3), written once. -/

namespace Sys2Proof.Machine

/-- Bits [lo+w-1:lo] of a natural number. -/
def nbits (x lo w : Nat) : Nat := (x >>> lo) % 2 ^ w

/-- Byte i of a bit vector, little-endian. -/
def byteOf {n : Nat} (x : BitVec n) (i : Nat) : Byte := x.extractLsb' (8 * i) 8

/-- Bits [lo+w-1:lo] replaced by v. -/
def setField {n : Nat} (x : BitVec n) (lo : Nat) {w : Nat} (v : BitVec w) : BitVec n :=
  (x &&& ~~~((BitVec.allOnes w).setWidth n <<< lo)) ||| (v.setWidth n <<< lo)

/-- Field of width w at bit lo, replaced by the low w bits of a natural number. -/
def setNat {n : Nat} (x : BitVec n) (lo w : Nat) (v : Nat) : BitVec n := setField x lo (BitVec.ofNat w v)

/-- The low w bits of a natural number read as two's complement. -/
def sgn (w : Nat) (x : Nat) : Int :=
  let y := x % 2 ^ w
  if 2 ^ (w - 1) ≤ y then (y : Int) - (2 : Int) ^ w else (y : Int)

/-- An integer as its low w bits. -/
def wrapNat (w : Nat) (x : Int) : Nat := (x % (2 : Int) ^ w).toNat

/-- Sign extension to 64 bits. -/
def sx {n : Nat} (x : BitVec n) : Word := x.signExtend 64

/-- Zero extension to 64 bits. -/
def zx {n : Nat} (x : BitVec n) : Word := x.setWidth 64

/-- A Bool as a bit in a word. -/
def bit64 (b : Bool) (i : Nat) : Word := if b then (1 : Word) <<< i else 0

/-- The bytes of a natural number, little-endian. -/
def bytesLE : Nat → Nat → List Byte
  | 0, _ => []
  | n + 1, x => BitVec.ofNat 8 (x % 256) :: bytesLE n (x / 256)

/-- The natural number of bytes, little-endian. -/
def natLE : List Byte → Nat
  | [] => 0
  | b :: bs => b.toNat + 256 * natLE bs

/-- n bytes of a list from an offset; bytes past the end read zero. -/
def bytesAt (l : List Byte) (o n : Nat) : Nat := natLE ((l.drop o).take n)

/-- Position of the highest one bit (floor of log2) within w bits; 0 for 0. -/
def topBit : Nat → Nat → Nat
  | 0, _ => 0
  | w + 1, x => if x.testBit w then w else topBit w x

/-- Number of one bits among the low w. -/
def popCount : Nat → Nat → Nat
  | 0, _ => 0
  | w + 1, x => (if x.testBit w then 1 else 0) + popCount w x

/-- Lowest one bit among bits i to i + fuel − 1. -/
def lowBit : Nat → Nat → Nat → Option Nat
  | 0, _, _ => none
  | f + 1, i, x => if x.testBit i then some i else lowBit f (i + 1) x

/-- floor of the square root, bit by bit from bit b down. -/
def isqrtFrom : Nat → Nat → Nat → Nat
  | 0, r, x => if (r + 1) * (r + 1) ≤ x then r + 1 else r
  | b + 1, r, x =>
    let c := r + 2 ^ (b + 1)
    isqrtFrom b (if c * c ≤ x then c else r) x

/-- floor of the square root of a number below 2^(2w). -/
def isqrt (w x : Nat) : Nat := isqrtFrom (w - 1) 0 x

/-- Product of a list. -/
def prodNat (l : List Nat) : Nat := l.foldl (· * ·) 1

/-- The runs of true values of a list of flags, from position i, with an open run from o. -/
def runsFrom : List Bool → Nat → Option Nat → List (Nat × Nat)
  | [], i, some o => [(o, i - o)]
  | [], _, none => []
  | true :: t, i, some o => runsFrom t (i + 1) (some o)
  | true :: t, i, none => runsFrom t (i + 1) (some i)
  | false :: t, i, some o => (o, i - o) :: runsFrom t (i + 1) none
  | false :: t, i, none => runsFrom t (i + 1) none

/-- Bits from a list of flags, the first lowest. -/
def bitsOf (l : List Bool) : Nat := l.foldr (fun b x => (if b then 1 else 0) + 2 * x) 0

end Sys2Proof.Machine
end

