-- ==== Sys2Proof/Machine/Crypto.lean ====
section
/-! DEFINITION. The public algorithms that Bedrock and the memory path use (spec/05 R123; spec/16 R371 to R374, R376, R380, R385;
spec/22 R467): CRC-32C, SHAKE256 and KMAC256, AES-256 with XTS, counter mode, GHASH and GCM, key wrap and CTR_DRBG. Where the
spec names a standard, its published text is followed; byte strings are lists in address order. -/

namespace Sys2Proof.Machine

/-! ### CRC-32C (R123) -/

/-- Eight steps of the reflected polynomial. -/
def crcSteps : Nat → BitVec 32 → BitVec 32
  | 0, x => x
  | n + 1, x => crcSteps n (if x.getLsbD 0 then (x >>> 1) ^^^ 0x82F63B78 else x >>> 1)

/-- CRC-32C of bytes in address order. -/
def crc32c (l : List Byte) : BitVec 32 := (l.foldl (fun x b => crcSteps 8 (x ^^^ b.setWidth 32)) 0xFFFFFFFF) ^^^ 0xFFFFFFFF

/-! ### Keccak (SHAKE256, KMAC256) -/

def keccakRc : List (BitVec 64) :=
  [0x1, 0x8082, 0x800000000000808A, 0x8000000080008000, 0x808B, 0x80000001, 0x8000000080008081, 0x8000000000008009,
   0x8A, 0x88, 0x80008009, 0x8000000A] ++
  [0x8000808B, 0x800000000000008B, 0x8000000000008089, 0x8000000000008003, 0x8000000000008002, 0x8000000000000080,
   0x800A, 0x800000008000000A, 0x8000000080008081, 0x8000000000008080, 0x80000001, 0x8000000080008008]

def keccakRot : List Nat := [0, 1, 62, 28, 27, 36, 44, 6, 55, 20, 3, 10, 43, 25, 39, 41, 45, 15, 21, 8, 18, 2, 61, 56, 14]

/-- One round on the 25 lanes, lane (x, y) at x + 5y. -/
def keccakRound (a : List (BitVec 64)) (rc : BitVec 64) : List (BitVec 64) :=
  let c := (List.range 5).map fun x => (List.range 5).foldl (fun v y => v ^^^ a.getD (x + 5 * y) 0) 0
  let e := (List.range 25).map fun i => a.getD i 0 ^^^ c.getD ((i + 4) % 5) 0 ^^^ (c.getD ((i % 5 + 1) % 5) 0).rotateLeft 1
  let b := (List.range 25).map fun i =>
    let src := (i % 5 + 3 * (i / 5)) % 5 + 5 * (i % 5)
    (e.getD src 0).rotateLeft (keccakRot.getD src 0)
  (List.range 25).map fun i =>
    let row := i / 5 * 5
    let v := b.getD i 0 ^^^ (~~~(b.getD (row + (i + 1) % 5) 0) &&& b.getD (row + (i % 5 + 2) % 5) 0)
    if i = 0 then v ^^^ rc else v

def keccakF (a : List (BitVec 64)) : List (BitVec 64) := keccakRc.foldl keccakRound a

/-- A block of 136 bytes absorbed. -/
def keccakAbsorb (a : List (BitVec 64)) (blk : List Byte) : List (BitVec 64) :=
  keccakF ((List.range 25).map fun i => a.getD i 0 ^^^ if i < 17 then BitVec.ofNat 64 (bytesAt blk (8 * i) 8) else 0)

/-- Blocks of n bytes, the last one short. -/
def chunks (n : Nat) : Nat → List Byte → List (List Byte)
  | 0, _ => []
  | f + 1, l => if l.isEmpty then [] else l.take n :: chunks n f (l.drop n)

/-- n bytes squeezed. -/
def keccakSqueeze (n : Nat) : Nat → List (BitVec 64) → List Byte
  | 0, _ => []
  | f + 1, a =>
    let out := (a.take 17).flatMap fun v => bytesLE 8 v.toNat
    if n ≤ 136 then out.take n else out ++ keccakSqueeze (n - 136) f (keccakF a)

/-- The sponge of rate 136 with a domain byte. -/
def sponge (dom : Nat) (msg : List Byte) (n : Nat) : List Byte :=
  let k := 136 - (msg.length + 1) % 136
  let body := msg ++ [BitVec.ofNat 8 dom] ++ List.replicate (k % 136) 0
  let all := body.take (body.length - 1) ++ [body.getLastD 0 ^^^ 0x80]
  keccakSqueeze n (n / 136 + 1) ((chunks 136 (all.length / 136 + 1) all).foldl keccakAbsorb (List.replicate 25 0))

/-- SHAKE256 with n bytes of output. -/
def shake256 (msg : List Byte) (n : Nat) : List Byte := sponge 0x1F msg n

/-- SHAKE256 with 64 bytes of output as a number (R371, R380, R384). -/
def shake512 (msg : List Byte) : BitVec 512 := BitVec.ofNat 512 (natLE (shake256 msg 64))

/-- Bytes of a number, most significant first. -/
def bytesBE (n v : Nat) : List Byte := (bytesLE n v).reverse

/-- A number from bytes, most significant first. -/
def natBE (l : List Byte) : Nat := natLE l.reverse

/-- The fewest bytes that hold a number below 2^32, at least one. -/
def lenBytes (n : Nat) : Nat := if n < 2 ^ 8 then 1 else if n < 2 ^ 16 then 2 else if n < 2 ^ 24 then 3 else 4

def leftEncode (n : Nat) : List Byte := bytesBE 1 (lenBytes n) ++ bytesBE (lenBytes n) n
def rightEncode (n : Nat) : List Byte := bytesBE (lenBytes n) n ++ bytesBE 1 (lenBytes n)
def encodeString (l : List Byte) : List Byte := leftEncode (8 * l.length) ++ l

/-- A string padded to a multiple of the rate, behind the rate. -/
def bytepad (l : List Byte) : List Byte :=
  let x := leftEncode 136 ++ l
  x ++ List.replicate ((136 - x.length % 136) % 136) 0

/-- KMAC256 with n bytes of output and no customisation (R467). -/
def kmac256 (key msg : List Byte) (n : Nat) : List Byte :=
  sponge 0x04 (bytepad (encodeString [0x4B, 0x4D, 0x41, 0x43] ++ encodeString []) ++ bytepad (encodeString key) ++ msg
    ++ rightEncode (8 * n)) n

/-! ### AES-256 -/

/-- Doubling in GF(2^8). -/
def xtime (a : Nat) : Nat := if a < 128 then 2 * a else (2 * a) ^^^ 0x11B

/-- The product in GF(2^8). -/
def gmul : Nat → Nat → Nat → Nat
  | 0, _, _ => 0
  | f + 1, a, b => (if b % 2 = 1 then a else 0) ^^^ gmul f (xtime a) (b / 2)

/-- The 254th power: the inverse, and 0 for 0. -/
def ginv (a : Nat) : Nat :=
  let m := gmul 8
  let a2 := m a a
  let a4 := m a2 a2
  let a8 := m a4 a4
  let a16 := m a8 a8
  let a32 := m a16 a16
  let a64 := m a32 a32
  let a128 := m a64 a64
  m a128 (m a64 (m a32 (m a16 (m a8 (m a4 a2)))))

def sbox (x : Nat) : Nat :=
  let b := BitVec.ofNat 8 (ginv x)
  (b ^^^ b.rotateLeft 1 ^^^ b.rotateLeft 2 ^^^ b.rotateLeft 3 ^^^ b.rotateLeft 4 ^^^ 0x63).toNat

/-- Words 8 to 59 of the key schedule, from those before them, newest first. -/
def aesExpand : Nat → Nat → Nat → List (List Nat) → List (List Nat)
  | 0, _, _, ws => ws
  | f + 1, i, rcon, ws =>
    let t := ws.headD []
    let prev := ws.getD 7 []
    let t' := if i % 8 = 0 then
        (match t with
          | a :: r => (r ++ [a]).map sbox
          | [] => [])
      else if i % 8 = 4 then t.map sbox else t
    let t'' := if i % 8 = 0 then t'.zipIdx.map fun x => if x.2 = 0 then x.1 ^^^ rcon else x.1 else t'
    aesExpand f (i + 1) (if i % 8 = 0 then xtime rcon else rcon) (List.zipWith (· ^^^ ·) prev t'' :: ws)

/-- The 15 round keys of 16 bytes. -/
def aesKeys (key : List Byte) : List (List Nat) :=
  let k := (List.range 32).map fun i => (key.getD i 0).toNat
  let w0 := (List.range 8).map fun i => (k.drop (4 * i)).take 4
  let ws := (aesExpand 52 8 1 w0.reverse).reverse
  (List.range 15).map fun r => (ws.drop (4 * r)).take 4 |>.flatten

/-- SubBytes and ShiftRows. -/
def aesSubShift (s : List Nat) : List Nat := (List.range 16).map fun i => sbox (s.getD ((i + 4 * (i % 4)) % 16) 0)

def aesMix (s : List Nat) : List Nat :=
  (List.range 16).map fun i =>
    let c := i / 4 * 4
    let b (k : Nat) := s.getD (c + (i + k) % 4) 0
    xtime (b 0) ^^^ (xtime (b 1) ^^^ b 1) ^^^ b 2 ^^^ b 3

/-- One block under the round keys. -/
def aesRounds (ks : List (List Nat)) (blk : List Byte) : List Byte :=
  let s0 := List.zipWith (· ^^^ ·) (blk.map BitVec.toNat) (ks.headD [])
  let s1 := (List.range 13).foldl (fun s r => List.zipWith (· ^^^ ·) (aesMix (aesSubShift s)) (ks.getD (r + 1) [])) s0
  (List.zipWith (· ^^^ ·) (aesSubShift s1) (ks.getD 14 [])).map (BitVec.ofNat 8)

/-- AES-256 of one 16-byte block. -/
def aes256 (key blk : List Byte) : List Byte := aesRounds (aesKeys key) blk

/-- The inverse of `sbox`. -/
def sboxInv (y : Nat) : Nat :=
  let b := BitVec.ofNat 8 y
  ginv (b.rotateLeft 1 ^^^ b.rotateLeft 3 ^^^ b.rotateLeft 6 ^^^ 0x05).toNat

/-- The inverse of `aesSubShift`. -/
def aesUnshift (s : List Nat) : List Nat := (List.range 16).map fun i => sboxInv (s.getD ((i + 12 * (i % 4)) % 16) 0)

/-- The inverse of `aesMix`. -/
def aesUnmix (s : List Nat) : List Nat :=
  (List.range 16).map fun i =>
    let c := i / 4 * 4
    let b (k : Nat) := s.getD (c + (i + k) % 4) 0
    gmul 8 14 (b 0) ^^^ gmul 8 11 (b 1) ^^^ gmul 8 13 (b 2) ^^^ gmul 8 9 (b 3)

/-- One block deciphered under the round keys. -/
def aesUnround (ks : List (List Nat)) (blk : List Byte) : List Byte :=
  let s0 := List.zipWith (· ^^^ ·) (blk.map BitVec.toNat) (ks.getD 14 [])
  let s1 := (List.range 13).foldl (fun s r => aesUnmix (List.zipWith (· ^^^ ·) (aesUnshift s) (ks.getD (13 - r) []))) s0
  (List.zipWith (· ^^^ ·) (aesUnshift s1) (ks.headD [])).map (BitVec.ofNat 8)

/-- Exactly n bytes of a list. -/
def fitBytes (n : Nat) (l : List Byte) : List Byte := (l ++ List.replicate n 0).take n

/-- Byte strings combined by exclusive or, as far as the shorter goes. -/
def xorBytes (a b : List Byte) : List Byte := List.zipWith (· ^^^ ·) a b

/-! ### Modes -/

/-- Doubling of an XTS tweak, little-endian. -/
def xtsDouble (t : Nat) : Nat := if t < 2 ^ 127 then 2 * t else ((2 * t) % 2 ^ 128) ^^^ 0x87

/-- AES-256-XTS of a data unit of whole blocks; `key` is 64 bytes, the data key first. -/
def xtsEncrypt (key : List Byte) (tweak : Nat) (data : List Byte) : List Byte :=
  let ks := aesKeys (key.take 32)
  let t0 := natLE (aes256 (key.drop 32) (bytesLE 16 tweak))
  ((chunks 16 (data.length / 16 + 1) data).foldl (fun (acc : Nat × List Byte) b =>
    let t := bytesLE 16 acc.1
    (xtsDouble acc.1, acc.2 ++ xorBytes (aesRounds ks (xorBytes b t)) t)) (t0, [])).2

/-- The product of GHASH: bit 0 of a block is its most significant bit. -/
def ghMul : Nat → Nat → Nat → Nat → Nat
  | 0, _, _, z => z
  | f + 1, x, v, z =>
    ghMul f x (if v % 2 = 1 then (v / 2) ^^^ (0xE1 <<< 120) else v / 2) (if x.testBit f then z ^^^ v else z)

/-- GHASH of whole blocks under H. -/
def ghash (h : List Byte) (data : List Byte) : List Byte :=
  bytesBE 16 ((chunks 16 (data.length / 16 + 1) data).foldl (fun y b => ghMul 128 (y ^^^ natBE b) (natBE h) 0) 0)

def padBlock (l : List Byte) : List Byte := l ++ List.replicate ((16 - l.length % 16) % 16) 0

/-- Counter mode of GCM: the counter is the last 32 bits. -/
def gcmCtr (ks : List (List Nat)) (iv : List Byte) (ctr : Nat) (data : List Byte) : List Byte :=
  (chunks 16 (data.length / 16 + 1) data).zipIdx.flatMap fun b =>
    xorBytes b.1 (aesRounds ks (iv ++ bytesBE 4 ((ctr + b.2) % 2 ^ 32)))

def gcmTag (ks : List (List Nat)) (iv ct : List Byte) : List Byte :=
  let h := aesRounds ks (List.replicate 16 0)
  let s := ghash h (padBlock ct ++ bytesBE 8 0 ++ bytesBE 8 (8 * ct.length))
  xorBytes s (aesRounds ks (iv ++ bytesBE 4 1))

/-- AES-256-GCM with a 96-bit nonce and no associated data: the ciphertext and the tag. -/
def gcmSeal (key : List Byte) (nonce : Nat) (data : List Byte) : List Byte × List Byte :=
  let ks := aesKeys key
  let iv := bytesBE 12 nonce
  let ct := gcmCtr ks iv 2 data
  (ct, gcmTag ks iv ct)

/-- The plaintext where the tag verifies. -/
def gcmOpen (key : List Byte) (nonce : Nat) (ct tag : List Byte) : Option (List Byte) :=
  let ks := aesKeys key
  let iv := bytesBE 12 nonce
  if gcmTag ks iv ct = tag then some (gcmCtr ks iv 2 ct) else none

/-- The blocks of AES key wrap, and A, after one step per block. -/
def kwPass (ks : List (List Nat)) : List (List Byte) → Nat → List Byte → List (List Byte) → List Byte × List (List Byte)
  | [], _, a, out => (a, out)
  | r :: rs, t, a, out =>
    let b := aesRounds ks (a ++ r)
    kwPass ks rs (t + 1) (xorBytes (b.take 8) (bytesBE 8 t)) (out ++ [b.drop 8])

/-- AES key wrap of whole 8-byte blocks (SP 800-38F, KW). -/
def keyWrap (kek data : List Byte) : List Byte :=
  let ks := aesKeys kek
  let blocks := chunks 8 (data.length / 8 + 1) data
  let (a, r) := (List.range 6).foldl (fun (acc : List Byte × List (List Byte)) j =>
    kwPass ks acc.2 (blocks.length * j + 1) acc.1 []) (List.replicate 8 0xA6, blocks)
  a ++ r.flatten

/-- The blocks of AES key unwrap, last first, and A, after one step per block. -/
def kwUnpass (ks : List (List Nat)) : List (List Byte) → Nat → List Byte → List (List Byte) → List Byte × List (List Byte)
  | [], _, a, out => (a, out)
  | r :: rs, t, a, out =>
    let b := aesUnround ks (xorBytes a (bytesBE 8 t) ++ r)
    kwUnpass ks rs (t - 1) (b.take 8) (b.drop 8 :: out)

/-- What AES key wrap has wrapped, where its check value verifies (SP 800-38F, KW). -/
def keyUnwrap (kek data : List Byte) : Option (List Byte) :=
  let ks := aesKeys kek
  let blocks := chunks 8 (data.length / 8 + 1) (data.drop 8)
  let (a, r) := (List.range 6).foldl (fun (acc : List Byte × List (List Byte)) j =>
    kwUnpass ks acc.2.reverse (blocks.length * (6 - j)) acc.1 []) (data.take 8, blocks)
  if a = List.replicate 8 0xA6 then some r.flatten else none

/-! ### CTR_DRBG (AES-256, SP 800-90A, without a derivation function) -/

structure Drbg where
  key : List Byte
  v : Nat
  deriving DecidableEq, Repr, Inhabited

/-- n blocks of output, and the counter after them. -/
def drbgBlocks (ks : List (List Nat)) : Nat → Nat → List Byte × Nat
  | 0, v => ([], v)
  | n + 1, v =>
    let v' := (v + 1) % 2 ^ 128
    let (r, v'') := drbgBlocks ks n v'
    (aesRounds ks (bytesBE 16 v') ++ r, v'')

def Drbg.update (d : Drbg) (data : List Byte) : Drbg :=
  let (t, _) := drbgBlocks (aesKeys d.key) 3 d.v
  let x := xorBytes t (data ++ List.replicate (48 - data.length) 0)
  ⟨x.take 32, natBE (x.drop 32)⟩

def Drbg.instantiate (entropy : List Byte) : Drbg := Drbg.update ⟨List.replicate 32 0, 0⟩ entropy

/-- n bytes drawn. -/
def Drbg.generate (d : Drbg) (n : Nat) : List Byte × Drbg :=
  let (out, v) := drbgBlocks (aesKeys d.key) ((n + 15) / 16) d.v
  (out.take n, Drbg.update ⟨d.key, v⟩ [])

end Sys2Proof.Machine
end

