-- ==== Sys2Proof/Machine/Format.lean ====
section
/-! DEFINITION. The number formats of R61 and what the format code alone fixes: width, lanes and blocks (R227), the
floating-point parameters (R62), and the mapping of the 4-bit TYPE field (R183). -/

namespace Sys2Proof.Machine

/-- The number formats (R61). -/
inductive Fmt
  | i8 | i16 | i32 | i64 | n8 | n16 | n32 | n64 | i4 | n4
  | f64 | f32 | f16 | bf16 | e4m3 | e5m2 | e3m2 | e2m3 | e2m1
  | mx8 | mx6 | mx4 | mxi8 | xa
  deriving DecidableEq, Repr, Inhabited

/-- The formats in the order of their codes (R61). -/
def fmtList : List Fmt :=
  [.i8, .i16, .i32, .i64, .n8, .n16, .n32, .n64, .i4, .n4, .f64, .f32, .f16, .bf16, .e4m3, .e5m2,
   .e3m2, .e2m3, .e2m1, .mx8, .mx6, .mx4, .mxi8, .xa]

/-- The format of a 5-bit code; codes 0x18 to 0x1F are reserved (R61). -/
def fmtOfCode (c : BitVec 5) : Option Fmt := fmtList[c.toNat]?

/-- TYPE 0x0 to 0xE as a format code (R183); 0xF is the escape. -/
def typeToCode (t : BitVec 4) : BitVec 5 :=
  if t.toNat < 8 then t.setWidth 5
  else if t = 8 then 0x0B else if t = 9 then 0x0C else if t = 10 then 0x0D
  else if t = 11 then 0x0E else if t = 12 then 0x0F else if t = 13 then 0x12 else 0x17

/-- The element width W in bits; an MX element without its scale (R227). -/
def Fmt.width : Fmt → Nat
  | .i8 | .n8 | .e4m3 | .e5m2 | .mx8 | .mxi8 => 8
  | .i16 | .n16 | .f16 | .bf16 => 16
  | .i32 | .n32 | .f32 => 32
  | .i64 | .n64 | .f64 => 64
  | .i4 | .n4 | .e2m1 | .mx4 => 4
  | .e3m2 | .e2m3 | .mx6 => 6
  | .xa => 128

/-- The lane count L of a row (R227). FP64 has no row form; its count is that of its width. -/
def Fmt.lanes : Fmt → Nat
  | .xa => 128
  | .i64 | .n64 | .f64 => 256
  | .f32 | .i32 | .n32 => 512
  | .f16 | .bf16 | .i16 | .n16 => 1024
  | .e4m3 | .e5m2 | .i8 | .n8 | .e3m2 | .e2m3 => 2048
  | .e2m1 | .i4 | .n4 => 4096
  | .mx8 | .mxi8 | .mx6 | .mx4 => 1024

/-- A microscaling block format (R66). -/
def Fmt.isMx : Fmt → Bool
  | .mx8 | .mx6 | .mx4 | .mxi8 => true
  | _ => false

/-- A signed or unsigned integer format (R69). -/
def Fmt.isInt : Fmt → Bool
  | .i8 | .i16 | .i32 | .i64 | .n8 | .n16 | .n32 | .n64 | .i4 | .n4 => true
  | _ => false

/-- A signed integer format. -/
def Fmt.isSigned : Fmt → Bool
  | .i8 | .i16 | .i32 | .i64 | .i4 => true
  | _ => false

/-- A plain floating-point format (R62). -/
def Fmt.isFloat : Fmt → Bool
  | .f64 | .f32 | .f16 | .bf16 | .e4m3 | .e5m2 | .e3m2 | .e2m3 | .e2m1 => true
  | _ => false

/-- The formats whose assay belongs to a block of 32 lanes (R97, R227). -/
def Fmt.isBlock : Fmt → Bool
  | .e4m3 | .e5m2 | .e3m2 | .e2m3 | .e2m1 | .mx8 | .mxi8 | .mx6 | .mx4 => true
  | _ => false

/-- The element format of an MX format with floating-point elements (R66). -/
def Fmt.mxElem : Fmt → Fmt
  | .mx8 => .e4m3
  | .mx6 => .e2m3
  | .mx4 => .e2m1
  | f => f

/-- Exponent and significand widths e and m (R62). -/
def Fmt.expBits : Fmt → Nat
  | .f64 => 11 | .f32 => 8 | .f16 => 5 | .bf16 => 8 | .e5m2 => 5 | .e4m3 => 4 | .e3m2 => 3 | .e2m3 => 2 | .e2m1 => 2
  | _ => 0

def Fmt.sigBits : Fmt → Nat
  | .f64 => 52 | .f32 => 23 | .f16 => 10 | .bf16 => 7 | .e5m2 => 2 | .e4m3 => 3 | .e3m2 => 2 | .e2m3 => 3 | .e2m1 => 1
  | _ => 0

/-- The exponent bias (R62). -/
def Fmt.bias : Fmt → Nat
  | .f64 => 1023 | .f32 => 127 | .f16 => 15 | .bf16 => 127 | .e5m2 => 15 | .e4m3 => 7 | .e3m2 => 3 | .e2m3 => 1 | .e2m1 => 1
  | _ => 0

/-- The formats with infinities: E all ones is not finite (R62). -/
def Fmt.hasInf : Fmt → Bool
  | .f64 | .f32 | .f16 | .bf16 | .e5m2 => true
  | _ => false

/-- The formats with NaN encodings (R62). -/
def Fmt.hasNan : Fmt → Bool
  | .f64 | .f32 | .f16 | .bf16 | .e5m2 | .e4m3 => true
  | _ => false

/-- The formats whose overflow always saturates (R71). -/
def Fmt.saturates : Fmt → Bool
  | .e4m3 | .e3m2 | .e2m3 | .e2m1 => true
  | _ => false

/-- The FT field of scalar floating-point words (R176). -/
def ftFmt (t : BitVec 2) : Fmt :=
  if t = 0 then .f64 else if t = 1 then .f32 else if t = 2 then .f16 else .bf16

/-- The class F of R233. -/
def Fmt.inF : Fmt → Bool
  | .f32 | .f16 | .bf16 => true
  | _ => false

/-- The class I of R233: integers of 8 to 64 bits. -/
def Fmt.inI : Fmt → Bool
  | .i8 | .i16 | .i32 | .i64 | .n8 | .n16 | .n32 | .n64 => true
  | _ => false

/-- The class NF of R233. -/
def Fmt.inNF : Fmt → Bool
  | .e4m3 | .e5m2 | .e3m2 | .e2m3 | .e2m1 => true
  | _ => false

/-- The wide partner of a narrow type (R240). -/
def Fmt.wide : Fmt → Option Fmt
  | .i8 => some .i16 | .i16 => some .i32 | .i32 => some .i64 | .i64 => some .xa
  | .n8 => some .n16 | .n16 => some .n32 | .n32 => some .n64 | .n64 => some .xa
  | .f16 => some .f32 | .bf16 => some .f32
  | _ => none

end Sys2Proof.Machine
end

