-- ==== Sys2Proof/Syntax.lean ====
section
/-! DEFINITION. The instructions of the GW-EP1 as syntax: one constructor for each row of spec/opcode_table.json.

Scalar words carry their fields of R171. V, M and C words carry the fields of R180, R187 and R188, which are the same for
every instruction of the stream. The system forms of V, M and C words (R189) carry the engine stream that holds them. The
rows that are events of the part (spec/95_what_each_step_holds.md) carry what the event brings from outside the
machine, or what it names inside it. -/

namespace Sys2Proof

/-- The WAIT and SET clauses of an engine word, bits [18:0] (R180, R191, R192). -/
structure Clauses where
  /-- WAIT index, bits [18:13]. -/
  wi : BitVec 6
  /-- WAIT count, bits [12:9]. -/
  wn : BitVec 4
  /-- SET index, bits [8:3]. -/
  si : BitVec 6
  /-- SET operation, bits [2:0]. -/
  so : BitVec 3
  deriving DecidableEq, Repr, Inhabited

/-- The streams whose words carry clauses (R29). -/
inductive Engine | v | m | c
  deriving DecidableEq, Repr, Inhabited

/-- The fields of a V-stream word other than OP[6:0] (R180, R186). -/
structure VWord where
  /-- OP[7], the zeroing form (R186). -/
  z : Bool
  ty : BitVec 4
  pred : BitVec 5
  dst : BitVec 7
  sa : BitVec 7
  sb : BitVec 7
  sc : BitVec 7
  cl : Clauses
  deriving DecidableEq, Repr, Inhabited

/-- A system form in the V, M or C stream: the stream and the fields at the V positions of R180 (R189). -/
structure EngineWord where
  e : Engine
  w : VWord
  deriving DecidableEq, Repr, Inhabited

/-- The fields of an M-stream word other than OP (R187). -/
structure MWord where
  ty : BitVec 4
  slab : BitVec 4
  ix : BitVec 7
  xt : BitVec 5
  addr : BitVec 17
  cl : Clauses
  deriving DecidableEq, Repr, Inhabited

/-- The fields of a C-stream word other than OP (R188). `dop` and `sop` are DO and SO. -/
structure CWord where
  imm : BitVec 64
  ty : BitVec 4
  nst : BitVec 4
  dop : BitVec 7
  sop : BitVec 7
  aux : BitVec 15
  cl : Clauses
  deriving DecidableEq, Repr, Inhabited

/-- The instructions, in the order of the opcode table. -/
inductive Instr where
  /-- ADD (R201). Writes s[a] + s[b] to s[d]. -/
  | add (d : BitVec 6) (a : BitVec 6) (b : BitVec 6)
  /-- SUB (R201). Writes s[a] - s[b] to s[d]. -/
  | sub (d : BitVec 6) (a : BitVec 6) (b : BitVec 6)
  /-- MUL (R201). Writes the low 64 bits of s[a] x s[b] to s[d]. -/
  | mul (d : BitVec 6) (a : BitVec 6) (b : BitVec 6)
  /-- MULH (R201). Writes the high 64 bits of the signed product to s[d]. -/
  | mulh (d : BitVec 6) (a : BitVec 6) (b : BitVec 6)
  /-- MULH_N64 (R201). Writes the high 64 bits of the unsigned product to s[d]. -/
  | mulhN64 (d : BitVec 6) (a : BitVec 6) (b : BitVec 6)
  /-- DIV (R201). Signed division rounded toward zero, with fixed results for a zero divisor and for overflow. -/
  | div (d : BitVec 6) (a : BitVec 6) (b : BitVec 6)
  /-- DIV_N64 (R201). Unsigned division, giving all ones for a zero divisor. -/
  | divN64 (d : BitVec 6) (a : BitVec 6) (b : BitVec 6)
  /-- REM (R201). Signed remainder that matches DIV. -/
  | rem (d : BitVec 6) (a : BitVec 6) (b : BitVec 6)
  /-- REM_N64 (R201). Unsigned remainder. -/
  | remN64 (d : BitVec 6) (a : BitVec 6) (b : BitVec 6)
  /-- AND (R201). Bitwise AND of two s registers. -/
  | and (d : BitVec 6) (a : BitVec 6) (b : BitVec 6)
  /-- OR (R201). Bitwise OR of two s registers. -/
  | or (d : BitVec 6) (a : BitVec 6) (b : BitVec 6)
  /-- XOR (R201). Bitwise XOR of two s registers. -/
  | xor (d : BitVec 6) (a : BitVec 6) (b : BitVec 6)
  /-- SHL (R201). Shifts left by s[b][5:0]. -/
  | shl (d : BitVec 6) (a : BitVec 6) (b : BitVec 6)
  /-- SHR (R201). Logical right shift by s[b][5:0]. -/
  | shr (d : BitVec 6) (a : BitVec 6) (b : BitVec 6)
  /-- SRA (R201). Arithmetic right shift by s[b][5:0]. -/
  | sra (d : BitVec 6) (a : BitVec 6) (b : BitVec 6)
  /-- MIN (R201). Signed minimum. -/
  | min (d : BitVec 6) (a : BitVec 6) (b : BitVec 6)
  /-- MIN_N64 (R201). Unsigned minimum. -/
  | minN64 (d : BitVec 6) (a : BitVec 6) (b : BitVec 6)
  /-- MAX (R201). Signed maximum. -/
  | max (d : BitVec 6) (a : BitVec 6) (b : BitVec 6)
  /-- MAX_N64 (R201). Unsigned maximum. -/
  | maxN64 (d : BitVec 6) (a : BitVec 6) (b : BitVec 6)
  /-- CLZ (R201). Counts the leading zero bits of s[a]. -/
  | clz (d : BitVec 6) (a : BitVec 6)
  /-- POPC (R201). Counts the one bits of s[a]. -/
  | popc (d : BitVec 6) (a : BitVec 6)
  /-- SEL (R201). Selects s[a] or s[b] by a condition register. -/
  | sel (d : BitVec 6) (a : BitVec 6) (b : BitVec 6) (c : BitVec 3)
  /-- LEA (R201). Computes s[a] + s[b] x 2^h without any access. -/
  | lea (d : BitVec 6) (a : BitVec 6) (b : BitVec 6) (h : BitVec 3)
  /-- CMP (R204). Compares two s registers and writes a c register. -/
  | cmp (cond : BitVec 3) (c : BitVec 3) (a : BitVec 6) (b : BitVec 6)
  /-- ADDI (R202). Adds a sign-extended 14-bit immediate. -/
  | addi (d : BitVec 6) (a : BitVec 6) (imm : BitVec 14)
  /-- ANDI (R202). ANDs with a zero-extended immediate. -/
  | andi (d : BitVec 6) (a : BitVec 6) (imm : BitVec 14)
  /-- ORI (R202). ORs with a zero-extended immediate. -/
  | ori (d : BitVec 6) (a : BitVec 6) (imm : BitVec 14)
  /-- XORI (R202). XORs with a zero-extended immediate. -/
  | xori (d : BitVec 6) (a : BitVec 6) (imm : BitVec 14)
  /-- SHLI (R202). Shifts left by an immediate count. -/
  | shli (d : BitVec 6) (a : BitVec 6) (n : BitVec 6)
  /-- SHRI (R202). Logical right shift by an immediate count. -/
  | shri (d : BitVec 6) (a : BitVec 6) (n : BitVec 6)
  /-- SRAI (R202). Arithmetic right shift by an immediate count. -/
  | srai (d : BitVec 6) (a : BitVec 6) (n : BitVec 6)
  /-- CMPI (R204). Compares s[a] with a sign-extended immediate and writes a c register. -/
  | cmpi (cond : BitVec 3) (c : BitVec 3) (a : BitVec 6) (imm : BitVec 14)
  /-- BFX (R203). Extracts a bit field and zero-extends it. -/
  | bfx (d : BitVec 6) (a : BitVec 6) (lo : BitVec 6) (w : BitVec 6)
  /-- BFI (R203). Inserts a bit field into s[d]. -/
  | bfi (d : BitVec 6) (a : BitVec 6) (lo : BitVec 6) (w : BitVec 6)
  /-- LI (R205). Loads a sign-extended 20-bit immediate. -/
  | li (d : BitVec 6) (imm : BitVec 20)
  /-- LIH (R205). Replaces one 16-bit field of s[d]. -/
  | lih (d : BitVec 6) (h : BitVec 2) (imm : BitVec 16)
  /-- FADD (R207). Floating-point add, rounded once, with flags and assay. -/
  | fadd (d : BitVec 6) (a : BitVec 6) (b : BitVec 6) (r : BitVec 3) (t : BitVec 2)
  /-- FSUB (R207). Floating-point subtract. -/
  | fsub (d : BitVec 6) (a : BitVec 6) (b : BitVec 6) (r : BitVec 3) (t : BitVec 2)
  /-- FMUL (R207). Floating-point multiply. -/
  | fmul (d : BitVec 6) (a : BitVec 6) (b : BitVec 6) (r : BitVec 3) (t : BitVec 2)
  /-- FDIV (R207). Floating-point divide. -/
  | fdiv (d : BitVec 6) (a : BitVec 6) (b : BitVec 6) (r : BitVec 3) (t : BitVec 2)
  /-- FSQRT (R207). Floating-point square root. -/
  | fsqrt (d : BitVec 6) (a : BitVec 6) (r : BitVec 3) (t : BitVec 2)
  /-- FMIN (R208). Returns the smaller operand, without rounding. -/
  | fmin (d : BitVec 6) (a : BitVec 6) (b : BitVec 6) (t : BitVec 2)
  /-- FMAX (R208). Returns the larger operand, without rounding. -/
  | fmax (d : BitVec 6) (a : BitVec 6) (b : BitVec 6) (t : BitVec 2)
  /-- FMV (R209). Copies an f register with its stored assay. -/
  | fmv (d : BitVec 6) (a : BitVec 6)
  /-- FMA (R207). Fused multiply-add into f[d], rounded once. -/
  | fma (d : BitVec 6) (a : BitVec 6) (b : BitVec 6) (r : BitVec 3) (t : BitVec 2)
  /-- FCLASS (R210). Writes the class mask of an f register. -/
  | fclass (d : BitVec 6) (a : BitVec 6) (t : BitVec 2)
  /-- FASY (R210). Writes the effective assay of an f register to s[d]. -/
  | fasy (d : BitVec 6) (a : BitVec 6) (t : BitVec 2)
  /-- FSETASY (R210). Sets the stored assay of f[d]. -/
  | fsetasy (d : BitVec 6) (a : BitVec 6)
  /-- FCMP (R211). Floating-point compare into a c register. -/
  | fcmp (cond : BitVec 3) (c : BitVec 3) (a : BitVec 6) (b : BitVec 6) (t : BitVec 2)
  /-- FCVT (R212). Converts between the scalar formats. -/
  | fcvt (d : BitVec 6) (a : BitVec 6) (r : BitVec 3) (dst : BitVec 5) (src : BitVec 5) (sat : Bool)
  /-- LD (R215). Loads an integer into s[d]. -/
  | ld (d : BitVec 6) (a : BitVec 6) (sz : BitVec 3) (imm : BitVec 11)
  /-- ST (R215). Stores 1 to 8 bytes of an s register. -/
  | st (d : BitVec 6) (a : BitVec 6) (sz : BitVec 3) (imm : BitVec 11)
  /-- LDF (R215). Loads a floating-point value, with its assay taken from ASYLD. -/
  | ldf (d : BitVec 6) (a : BitVec 6) (sz : BitVec 3) (imm : BitVec 11)
  /-- STF (R215). Stores a narrowed floating-point value. -/
  | stf (d : BitVec 6) (a : BitVec 6) (sz : BitVec 3) (imm : BitVec 11)
  /-- LDA (R215). Loads the stored assay of f[d] from one byte. -/
  | lda (d : BitVec 6) (a : BitVec 6) (sz : BitVec 3) (imm : BitVec 11)
  /-- STA (R215). Stores the stored assay of f[d] as one byte. -/
  | sta (d : BitVec 6) (a : BitVec 6) (sz : BitVec 3) (imm : BitVec 11)
  /-- AMO (R217). Atomic read-modify-write at the home, with optional acquire and release. -/
  | amo (d : BitVec 6) (a : BitVec 6) (b : BitVec 6) (op : BitVec 3) (w : Bool) (u : Bool) (acq : Bool) (rel : Bool)
  /-- SACQ (R218). Reads a sync object, then performs the acquire actions. -/
  | sacq (d : BitVec 6) (a : BitVec 6)
  /-- SREL (R218). Performs the release actions, then writes a sync object. -/
  | srel (a : BitVec 6) (b : BitVec 6)
  /-- BIND (R128). Adds an entry to the binding table. -/
  | bind (d : BitVec 6) (a : BitVec 6) (b : BitVec 6)
  /-- UNBIND (R128). Removes an identical entry from the binding table. -/
  | unbind (d : BitVec 6) (a : BitVec 6) (b : BitVec 6)
  /-- PBT (R221). Prepares a PC-relative branch target in a b register. -/
  | pbt (t : BitVec 3) (off : BitVec 23)
  /-- PBTR (R221). Prepares a register-relative branch target in a b register. -/
  | pbtr (t : BitVec 3) (a : BitVec 6) (imm : BitVec 14)
  /-- BR (R222). Conditional branch with one delay slot. -/
  | br (t : BitVec 3) (ci : BitVec 3) (cm : BitVec 2)
  /-- CALL (R222). Call that pushes the shadow stack and writes the link register, with one delay slot. -/
  | call (t : BitVec 3) (ci : BitVec 3) (cm : BitVec 2) (lk : BitVec 6)
  /-- RET (R223). Return checked against the shadow stack, with one delay slot. -/
  | ret (t : BitVec 3) (ci : BitVec 3) (cm : BitVec 2)
  /-- SEMSET (R225). Sets a semaphore from s[a]. -/
  | semset (m : BitVec 6) (a : BitVec 6)
  /-- SEMADD (R225). Adds s[a] and an immediate to a semaphore. -/
  | semadd (m : BitVec 6) (a : BitVec 6) (imm : BitVec 14)
  /-- SEMWAIT (R226). Waits until a semaphore reaches n, optionally taking n. -/
  | semwait (m : BitVec 6) (take : Bool) (imm : BitVec 14)
  /-- FENCE (R135). Orders the covered predecessor accesses before the covered successor accesses at a scope. -/
  | fence (p : BitVec 8) (s : BitVec 8) (scope : BitVec 3)
  /-- RDCSR (R308). Reads a control register into s[d] (S stream). -/
  | rdcsr (d : BitVec 6) (csr : BitVec 12)
  /-- WRCSR (R308). Writes s[a] to a control register (S stream). -/
  | wrcsr (a : BitVec 6) (csr : BitVec 12)
  /-- CAIRN (R304). S-stream mark of an idempotent region start; waits for the matching commit. -/
  | cairn
  /-- RDV (R35). S-stream rendezvous of the vcore's four streams. -/
  | rdv
  /-- SSTEP (R304). S-stream end of superstep, or gang barrier. -/
  | sstep
  /-- HALT (R304). S stream stops fetching and issuing. -/
  | halt
  /-- YIELDACK (R305). S-stream acknowledgement of a polite pre-emption request. -/
  | yieldack
  /-- QFENCE (R164). S stream makes pending quarry configurations active and drops generated lines. -/
  | qfence
  /-- IFENCE (R140). Writes back dirty bytes and discards the instruction caches of all four sequencers. -/
  | ifence
  /-- TRAP (R306). S stream stops precisely and delivers a TRAP fault record. -/
  | trap (code : BitVec 12)
  /-- RDTIME (R307). Reads the global timer into s[d]. -/
  | rdtime (d : BitVec 6)
  /-- BANKMODE (R315). S stream issues a change of the mode of one core-store bank. -/
  | bankmode (d : BitVec 6) (a : BitVec 6)
  /-- QCFG (R316). S stream stages a quarry slot descriptor as the pending configuration. -/
  | qcfg (d : BitVec 6) (a : BitVec 6)
  /-- CTXSAVE (R318). S-stream privileged save of the whole vcore context. -/
  | ctxsave (a : BitVec 6)
  /-- CTXRST (R319). S-stream privileged restore of the whole vcore context. -/
  | ctxrst (a : BitVec 6)
  /-- TLBINV (R317). S stream issues a privileged stage-1 TLB invalidation. -/
  | tlbinv (d : BitVec 6) (a : BitVec 6) (b : BitVec 6)
  /-- CAIRN_VMC (R304). CAIRN as encoded in the V, M and C streams. -/
  | cairnE (w : EngineWord)
  /-- RDV_VMC (R35). RDV as encoded in the V, M and C streams. -/
  | rdvE (w : EngineWord)
  /-- SSTEP_VMC (R304). SSTEP as encoded in the V, M and C streams. -/
  | sstepE (w : EngineWord)
  /-- HALT_VMC (R304). HALT as encoded in the V, M and C streams. -/
  | haltE (w : EngineWord)
  /-- YIELDACK_VMC (R305). YIELDACK as encoded in the V, M and C streams. -/
  | yieldackE (w : EngineWord)
  /-- QFENCE_VMC (R164). QFENCE as encoded in the V, M and C streams. -/
  | qfenceE (w : EngineWord)
  /-- TRAP_VMC (R306). TRAP as encoded in the V, M and C streams. -/
  | trapE (w : EngineWord)
  /-- RDTIME_VMC (R307). Reads the global timer into a k register. -/
  | rdtimeE (w : EngineWord)
  /-- RDCSR_VMC (R308). Reads a control register into a k register. -/
  | rdcsrE (w : EngineWord)
  /-- WRCSR_VMC (R308). Writes a k register to a control register. -/
  | wrcsrE (w : EngineWord)
  /-- BANKMODE_VMC (R315). BANKMODE with its operand in a k register. -/
  | bankmodeE (w : EngineWord)
  /-- QCFG_VMC (R316). QCFG with a k-based descriptor address. -/
  | qcfgE (w : EngineWord)
  /-- CTXSAVE_VMC (R318). CTXSAVE as encoded in the V, M and C streams. -/
  | ctxsaveE (w : EngineWord)
  /-- CTXRST_VMC (R319). CTXRST as encoded in the V, M and C streams. -/
  | ctxrstE (w : EngineWord)
  /-- TLBINV_VMC (R317). TLBINV with its operands in k registers. -/
  | tlbinvE (w : EngineWord)
  /-- NOP (R190). V-, M- or C-stream no-operation that applies only its WAIT and SET clauses. -/
  | nop (e : Engine) (cl : Clauses)
  /-- VADD (R235). Lane-wise add. -/
  | vadd (w : VWord)
  /-- VSUB (R235). Lane-wise subtract. -/
  | vsub (w : VWord)
  /-- VMUL (R235). Lane-wise multiply. -/
  | vmul (w : VWord)
  /-- VFMA (R235). Lane-wise fused multiply-add. -/
  | vfma (w : VWord)
  /-- VDIV (R235). Lane-wise divide. -/
  | vdiv (w : VWord)
  /-- VMIN (R235). Lane-wise minimum. -/
  | vmin (w : VWord)
  /-- VMAX (R235). Lane-wise maximum. -/
  | vmax (w : VWord)
  /-- VABS (R237). Lane-wise absolute value. -/
  | vabs (w : VWord)
  /-- VNEG (R237). Lane-wise negation. -/
  | vneg (w : VWord)
  /-- VSQRT (R238). Correctly rounded square root. -/
  | vsqrt (w : VWord)
  /-- VRSQRT (R238). Correctly rounded reciprocal square root. -/
  | vrsqrt (w : VWord)
  /-- VRCP (R238). Correctly rounded reciprocal. -/
  | vrcp (w : VWord)
  /-- VEXP2 (R238). Correctly rounded 2^x. -/
  | vexp2 (w : VWord)
  /-- VLOG2 (R238). Correctly rounded log2 x. -/
  | vlog2 (w : VWord)
  /-- VCVT (R239). Converts the lanes of a row between formats. -/
  | vcvt (w : VWord)
  /-- VADDW (R240). Widening add. -/
  | vaddw (w : VWord)
  /-- VMULW (R240). Widening multiply. -/
  | vmulw (w : VWord)
  /-- VSAT (R241). Saturating narrowing of integer lanes. -/
  | vsat (w : VWord)
  /-- VAND (R242). Lane-wise AND. -/
  | vand (w : VWord)
  /-- VOR (R242). Lane-wise OR. -/
  | vor (w : VWord)
  /-- VXOR (R242). Lane-wise XOR. -/
  | vxor (w : VWord)
  /-- VNOT (R242). Lane-wise NOT. -/
  | vnot (w : VWord)
  /-- VSHL (R242). Lane-wise left shift. -/
  | vshl (w : VWord)
  /-- VSHR (R242). Lane-wise logical right shift. -/
  | vshr (w : VWord)
  /-- VSRA (R242). Lane-wise arithmetic right shift. -/
  | vsra (w : VWord)
  /-- VCMP (R243). Lane-wise compare into a predicate. -/
  | vcmp (w : VWord)
  /-- VSEL (R244). Lane-wise select by a predicate. -/
  | vsel (w : VWord)
  /-- VMOV (R245). Moves lanes between rows, handles and k registers. -/
  | vmov (w : VWord)
  /-- VSPLAT (R245). Converts a k value and writes it to every active lane. -/
  | vsplat (w : VWord)
  /-- VREDADD (R247). Exact sum reduction into lane 0. -/
  | vredadd (w : VWord)
  /-- VREDMAX (R247). Maximum reduction into lane 0. -/
  | vredmax (w : VWord)
  /-- VREDMIN (R247). Minimum reduction into lane 0. -/
  | vredmin (w : VWord)
  /-- VSCAN (R247). Exact prefix sums. -/
  | vscan (w : VWord)
  /-- VLD (R249). Loads a row from memory. -/
  | vld (w : VWord)
  /-- VST (R249). Stores the active lanes of a row. -/
  | vst (w : VWord)
  /-- VLDH (R250). Loads one handle entry from memory. -/
  | vldh (w : VWord)
  /-- VSTH (R250). Pops one handle entry and stores it. -/
  | vsth (w : VWord)
  /-- VADV (R250). Pops and discards n handle entries. -/
  | vadv (w : VWord)
  /-- VGATH (R251). Gathers lanes from indexed addresses. -/
  | vgath (w : VWord)
  /-- VSCAT (R251). Scatters lanes to indexed addresses. -/
  | vscat (w : VWord)
  /-- VASY (R252). Writes lane assays to a row as integers. -/
  | vasy (w : VWord)
  /-- VASYSET (R252). Sets the stored assays of a row. -/
  | vasyset (w : VWord)
  /-- VASYLT (R252). Tests lane assays against a threshold into a predicate. -/
  | vasylt (w : VWord)
  /-- VLDA (R253). Loads an assay plane into a row sideband. -/
  | vlda (w : VWord)
  /-- VSTA (R253). Stores a row's assay plane. -/
  | vsta (w : VWord)
  /-- PAND (R254). Predicate AND. -/
  | pand (w : VWord)
  /-- POR (R254). Predicate OR. -/
  | por (w : VWord)
  /-- PNOT (R254). Predicate NOT. -/
  | pnot (w : VWord)
  /-- PSET (R254). Sets the first n bits of a predicate. -/
  | pset (w : VWord)
  /-- VANY (R255). OR vote over the active lanes, written to every lane. -/
  | vany (w : VWord)
  /-- VALL (R255). AND vote over the active lanes, written to every lane. -/
  | vall (w : VWord)
  /-- VBR (R256). V-stream branch on lane 0 of the guard, which rotates registers when taken backward. -/
  | vbr (w : VWord)
  /-- VLOOP (R259). Replays a body over a loop nest, with rotation at each iteration. -/
  | vloop (w : VWord)
  /-- VROT (R246). Rotates lanes by n. -/
  | vrot (w : VWord)
  /-- SLABDEF (R261). Replaces a slab descriptor. -/
  | slabdef (w : VWord)
  /-- SLABRETYPE (R261). Changes a slab's element type. -/
  | slabretype (w : VWord)
  /-- SLABPWR (R262). Sets the power states of the row clusters. -/
  | slabpwr (w : VWord)
  /-- MLDB (R267). Starts loading a B tile into a latch bank. -/
  | mldb (w : MWord)
  /-- MLDB_T (R267). Starts loading a transposed B tile into a latch bank. -/
  | mldbT (w : MWord)
  /-- MLDBP (R267). Starts loading a permutation pattern into a latch bank. -/
  | mldbp (w : MWord)
  /-- MMA (R270). Gathers A rows and enters exact product terms into the chain. -/
  | mma (w : MWord)
  /-- MMAP (R274). Permutes row lanes through the latched pattern. -/
  | mmap (w : MWord)
  /-- MCHB (R271). Opens a chain on a slab. -/
  | mchb (w : MWord)
  /-- MCHE (R272). Settles and writes a chain, updating the counters and flags. -/
  | mche (w : MWord)
  /-- MZERO (R275). Zeroes a slab with full assays. -/
  | mzero (w : MWord)
  /-- MANCH (R275). Sets a slab's anchor and per-term mode. -/
  | manch (w : MWord)
  /-- MLOOP (R276). Replays an M-stream body over a loop nest. -/
  | mloop (w : MWord)
  /-- CNEST (R285). Loads a loop-nest descriptor. -/
  | cnest (w : CWord)
  /-- CCOPY (R289). Copies elements between memory, the core store and handles. -/
  | ccopy (w : CWord)
  /-- CMCAST (R293). Multicasts a tile to the core stores of cores in the cluster. -/
  | cmcast (w : CWord)
  /-- CGATH (R292). Gathers elements by index. -/
  | cgath (w : CWord)
  /-- CSCAT (R292). Scatters elements by index. -/
  | cscat (w : CWord)
  /-- CTRANS (R291). Transposes an R x 128 tile. -/
  | ctrans (w : CWord)
  /-- CFILL (R290). Fills destination elements with a pattern. -/
  | cfill (w : CWord)
  /-- CFOLL (R294). Copies a tile, then delivers a follow-on M-stream word. -/
  | cfoll (w : CWord)
  /-- CREM (R295). Copies, then increments a remote completion word. -/
  | crem (w : CWord)
  /-- CATOM (R296). Atomic read-modify-write at any home in the domain. -/
  | catom (w : CWord)
  /-- CLOOP (R297). Replays a C-stream body over a loop nest. -/
  | cloop (w : CWord)
  /-- LATCH_BANK_FILLED (R267). A latch-bank load completes and applies its SET clause. -/
  | latchBankFilled (core : Nat)
  /-- COPY_COMMAND_COMPLETE (R299). A copy command finishes its reads, writes and entries and applies its SET clause. -/
  | copyCommandComplete (core : Nat) (op : Nat) (upTo : Nat)
  /-- CMCAST_DELIVERY (R293). Delivery to one named core completes and increments its receiving semaphore. -/
  | cmcastDelivery (core : Nat) (op : Nat) (target : Nat)
  /-- CFOLL_DELIVERY (R294). Once the copy is written, the follow-on word enters the M-stream follow-on queue. -/
  | cfollDelivery (core : Nat) (op : Nat)
  /-- CREM_COMPLETION_WORD (R295). After every write is performed, the completion word is atomically incremented as a release. -/
  | cremCompletionWord (core : Nat) (op : Nat)
  /-- BANKMODE_COMPLETE (R108). A bank mode change takes effect, or completes LOCKED, and signals its semaphore. -/
  | bankmodeComplete (core : Nat) (op : Nat)
  /-- TLBINV_COMPLETE (R122). The invalidation has drained from every TLB and walk cache and signals its semaphore. -/
  | tlbinvComplete (core : Nat) (op : Nat)
  /-- RDV_MATCH (R35). Every stream reaches the matching RDV and all of them proceed. -/
  | rdvMatch (core : Nat)
  /-- CAIRN_COMMIT (R55). Matching CAIRNs and engine completion commit a snapshot of the carried state. -/
  | cairnCommit (core : Nat)
  /-- SUPERSTEP_END (R38). Every vcore of a BSP job ends the superstep; state is reset and the next superstep begins. -/
  | superstepEnd (core : Nat)
  /-- GANG_BARRIER (R45). A gang job's SSTEP barrier is passed, with an implicit commit. -/
  | gangBarrier (core : Nat)
  /-- CTXSAVE_COMMIT (R318). Matching CTXSAVEs commit and write the save area. -/
  | ctxsaveCommit (core : Nat)
  /-- CTXRST_MATCH (R319). Matching CTXRSTs replace the whole vcore state from a save area. -/
  | ctxrstMatch (core : Nat)
  /-- VCORE_COMPLETE (R37). All streams have halted and the engine operations are done, so the vcore completes. -/
  | vcoreComplete (core : Nat)
  /-- SLAB_WAKE_WINDOW_END (R443). 32 cycles after a wake, the rows of the cluster become accessible. -/
  | slabWakeWindowEnd (core : Nat) (cluster : Nat)
  /-- TICK_BOUNDARY (R322). Every 100 us the scheduler refreshes budgets, steps, slots, aging and pre-emption. -/
  | tickBoundary
  /-- POLITE_WINDOW_EXPIRY (R341). An unacknowledged request reaches YWIN ticks and becomes a cutback. -/
  | politeWindowExpiry (node : Nat)
  /-- IDLE_STEP_ZERO (R347). A chiplet idle for 16 ticks goes to step 0. -/
  | idleStepZero (chiplet : Nat)
  /-- ECLASS_DEMOTED (R495). After 8 overrunning ticks the node's effective ECLASS becomes 7. -/
  | eclassDemoted (node : Nat)
  /-- STALL (R491). A vcore stalled for TICKS boundaries delivers STALL records, and its domain stops. -/
  | stall (core : Nat)
  /-- VCORE_IMAGE (R426). After FHOLD ticks, stopped vcores are imaged and their cores freed. -/
  | vcoreImage (core : Nat)
  /-- NOTIFY_WRITE (R327). A write to a queue notify register submits nodes when it is accepted. -/
  | notifyWrite (queue : Nat) (value : BitVec 32)
  /-- MAPPER_READ (R328). The queue mapper visits a slot and reads one ring entry. -/
  | mapperRead (slot : Nat)
  /-- SELECTION (R335). The Trailhead selects the highest-level ready node when cores free up or at a tick. -/
  | selection
  /-- BINDER_PLACE (R337). The binder places the admitted vcores and writes OPSTART. -/
  | binderPlace (node : Nat)
  /-- POWER_SAMPLE (R346). Module power is measured every 10 us into the running average. -/
  | powerSample (watts : Nat)
  /-- VOLTAGE_TRIM (R343). Each column regulator trims its voltage every 10 us. -/
  | voltageTrim (column : Nat) (mv : Nat)
  /-- THERMAL_READING (R345). Each die reports its hottest sensor every 100 us. -/
  | thermalReading (chiplet : Nat) (temp : Nat)
  /-- THERMAL_EMERGENCY (R361). A die at 110 degrees C for 1 ms is taken offline, and its vcores migrate. -/
  | thermalEmergency (chiplet : Nat)
  /-- CHIPLET_ONLINE (R361). An offline chiplet that has stayed below 85 degrees C for 1 s returns at a tick boundary. -/
  | chipletOnline (chiplet : Nat)
  /-- HBM_TEMPERATURE_READING (R497). A stack temperature report changes its throttle level. -/
  | hbmTemperatureReading (stack : Nat) (temp : Nat)
  /-- CURRENT_MEASUREMENT (R494). Cluster current is measured every 1 us, and issue is gated above 110 A. -/
  | currentMeasurement (cluster : Nat) (amps : Nat)
  /-- CURT_PINS (R354). A value on CURT[1:0] that is stable for 3 samples triggers a grade. -/
  | curtPins (pins : BitVec 2)
  /-- CHIPLET_GATE (R358). A chiplet ready for gating is gated, one at a time. -/
  | chipletGate (chiplet : Nat)
  /-- CHIPLET_UNGATE (R358). A gated chiplet is ungated when admission needs its cores. -/
  | chipletUngate (chiplet : Nat)
  /-- CURT_LATE (R493). A grade's response bound expires before DONE. -/
  | curtLate
  /-- CURVE_MESSAGE (R351). A budget curve arrives as an MCTP message on the side-band port. -/
  | curveMessage (bytes : List (BitVec 8))
  /-- CMBLEN (R391). A write of CMBLEN starts the check of a curve in the host mailbox. -/
  | cmblen (value : BitVec 64)
  /-- CURVE_CHECK (R352). Basecamp finishes checking a curve and accepts or rejects it. -/
  | curveCheck
  /-- CURVE_START (R353). A pending curve becomes current at its VSTART. -/
  | curveStart
  /-- CURVE_LAPSE (R353). The current curve lapses at VEND, and the fallback power applies. -/
  | curveLapse
  /-- FAULT_RECORD_DELIVERY (R420). A fault record or notice is written to its fault queue, or dropped. -/
  | faultRecordDelivery (index : Nat)
  /-- RESUME (R423). FDCTL action 1 resumes a stopped fault domain once it has settled. -/
  | resume (fdom : Nat)
  /-- CUTBACK (R425). FDCTL action 2 cuts every stopped vcore back to its last commit. -/
  | cutback (fdom : Nat)
  /-- ABORT (R424). FDCTL action 3 ends the stopped nodes with FAULT. -/
  | abort (fdom : Nat)
  /-- WRITEBACK_RETRY (R479). The write-back of a locked line is retried every 10 us. -/
  | writebackRetry (core : Nat) (line : Nat)
  /-- WRITEBACK_LOST (R480). A line locked for 100 ms has its dirty bytes discarded. -/
  | writebackLost (core : Nat) (line : Nat)
  /-- PATROL_SCRUB (R472). HBM and the park tier are scrubbed every 24 hours, and uncorrectable blocks are poisoned. -/
  | patrolScrub
  /-- INJCTL (R478). A write arming INJCTL injects one test error. -/
  | injctl (value : BitVec 64)
  /-- MECNT_READ (R477). A read of MECNT returns the counts and clears them. -/
  | mecntRead (store : Nat)
  /-- MELOG_READ (R477). A read of MELOG returns the earliest event and clears it. -/
  | melogRead (store : Nat)
  /-- LERR_READ (R505). A read of a link error counter returns it and clears it. -/
  | lerrRead (port : Nat)
  /-- REGISTER_WRITE (R5). A write to a device register with no row of its own, by access code. -/
  | registerWrite (fn : Nat) (off : Nat) (size : Nat) (value : BitVec 64)
  /-- PARTCTL (R392). A LAYOUT write requests a new partitioning and stops admission to the changing quarters. -/
  | partctl (value : BitVec 64)
  /-- LAYOUT_APPLY (R392). Once the quarters are idle or parked, the new layout's regions are written and APPLIED is set. -/
  | layoutApply
  /-- WCREATE (R370). Bedrock creates a world in BUILDING. -/
  | wcreate
  /-- CCREATE (R370). Bedrock creates a compartment with fresh keys. -/
  | ccreate
  /-- S2MAP (R513). Bedrock maps a stage-2 leaf or refuses it. -/
  | s2map
  /-- S2UNMAP (R368). Bedrock removes a stage-2 leaf after draining. -/
  | s2unmap
  /-- CTXREG (R370). Bedrock registers a context and its stage-1 root. -/
  | ctxreg
  /-- WSEAL (R371). A world moves to RUNNING, and its measurement becomes final. -/
  | wseal
  /-- WDESTROY (R364). A world enters DESTROYING. -/
  | wdestroy
  /-- WORLD_FREED (R364). Once frames are zeroed and keys erased, DESTROYING ends in FREE. -/
  | worldFreed (world : Nat)
  /-- EVICT (R376). Bedrock encrypts a frame out to a host buffer and records its version. -/
  | pageEvict
  /-- RETURN (R376). Bedrock restores an evicted frame after checking its tag and version. -/
  | pageReturn
  /-- SECMSG (R370). Passes an SPDM message to Bedrock and writes the reply. -/
  | secmsg
  /-- SLEEP (R385). Bedrock wraps its keys and the device enters deep sleep. -/
  | sleep
  /-- RECORD (R382). Bedrock writes an offered configuration record over the older copy. -/
  | record
  /-- CKPT (R467). Bedrock writes an encrypted checkpoint of a compartment. -/
  | ckpt
  /-- CRESTORE (R467). Bedrock restores a quarantined compartment from its checkpoint. -/
  | crestore
  /-- CDESTROY (R467). Bedrock destroys a compartment. -/
  | cdestroy
  /-- HRELEASE (R512). HOST frames leave the PF's stage 2, are zeroed and become FREE. -/
  | hrelease
  /-- HGRANT (R512). FREE frames become HOST and are mapped for the PF. -/
  | hgrant
  /-- REKEY (R373). Bedrock re-keys a compartment before its counters are exhausted. -/
  | rekey
  /-- CLAIM (R380). An owner session claims a compartment. -/
  | claim (session : Nat) (bytes : List (BitVec 8))
  /-- KEY_IMPORT (R380). An owner replaces its compartment's keys. -/
  | keyImport (session : Nat) (bytes : List (BitVec 8))
  /-- GATE_OPEN (R377). One owner's request to open a gate; the second matching request opens it. -/
  | gateOpen (session : Nat) (bytes : List (BitVec 8))
  /-- GATE_CLOSE (R377). An owner closes a gate. -/
  | gateClose (session : Nat) (bytes : List (BitVec 8))
  /-- GATE_CLOSE_ANSWER (R379). GATE_CLOSE is answered after the copies in flight have completed. -/
  | gateCloseAnswer (gate : Nat)
  /-- GET_VERSION (R384). SPDM request for the supported versions. -/
  | getVersion (session : Nat) (bytes : List (BitVec 8))
  /-- GET_CAPABILITIES (R384). SPDM capabilities request. -/
  | getCapabilities (session : Nat) (bytes : List (BitVec 8))
  /-- NEGOTIATE_ALGORITHMS (R384). SPDM algorithm negotiation. -/
  | negotiateAlgorithms (session : Nat) (bytes : List (BitVec 8))
  /-- GET_DIGESTS (R384). SPDM certificate digests request. -/
  | getDigests (session : Nat) (bytes : List (BitVec 8))
  /-- GET_CERTIFICATE (R384). SPDM certificate request. -/
  | getCertificate (session : Nat) (bytes : List (BitVec 8))
  /-- CHALLENGE (R384). SPDM challenge. -/
  | challenge (session : Nat) (bytes : List (BitVec 8))
  /-- GET_MEASUREMENTS (R384). SPDM request for the measurement blocks. -/
  | getMeasurements (session : Nat) (bytes : List (BitVec 8))
  /-- KEY_EXCHANGE (R384). SPDM session key exchange. -/
  | keyExchange (session : Nat) (bytes : List (BitVec 8))
  /-- FINISH (R384). SPDM session finish. -/
  | finish (session : Nat) (bytes : List (BitVec 8))
  /-- END_SESSION (R384). SPDM session end. -/
  | endSession (session : Nat) (bytes : List (BitVec 8))
  /-- WAKE (R385). A side-band wake or WAKE_N restores the device from deep sleep. -/
  | wake
  /-- PLDM_FIRMWARE_UPDATE (R396). PLDM firmware update on the side-band. -/
  | pldmFirmwareUpdate (bytes : List (BitVec 8))
  /-- PLDM_PLATFORM_MONITORING (R396). PLDM platform monitoring request. -/
  | pldmPlatformMonitoring (bytes : List (BitVec 8))
  /-- MCTP_REGISTER_ACCESS (R506). Side-band vendor-defined register read or write. -/
  | mctpRegisterAccess (bytes : List (BitVec 8))
  /-- MEMORY_READ (R388). Host-port Memory Read request. -/
  | memoryRead (fn : Nat) (bar : Nat) (addr : Nat) (len : Nat)
  /-- MEMORY_WRITE (R388). Host-port Memory Write request. -/
  | memoryWrite (fn : Nat) (bar : Nat) (addr : Nat) (bytes : List (BitVec 8))
  /-- CONFIGURATION_REQUEST (R386). Host-port configuration request. -/
  | configurationRequest (fn : Nat) (write : Bool) (off : Nat) (value : BitVec 32)
  /-- HOSTPORT_DOWN (R503). The host port goes down or comes back. -/
  | hostportDown (down : Bool)
  /-- LINK_DOWN (R504). A scale-up port that fails to retrain within 10 ms goes down, or it comes back. -/
  | linkDown (port : Nat) (down : Bool)
  /-- REMOTE_TIMEOUT (R504). A remote access with no completion within 10 ms faults. -/
  | remoteTimeout (index : Nat)
  /-- SPAN_FLIT (R504). A Span flit received on a scale-up port is performed once. -/
  | spanFlit (port : Nat) (bytes : List (BitVec 8))
  /-- PTP_MESSAGE (R362). A PTP message disciplines the global timer. -/
  | ptpMessage (offset : BitVec 32) (lock : Bool)
  /-- POWER_GOOD (R398). From power good, the device runs bring-up phases 0 to 5. -/
  | powerGood
  /-- MODULE_RESET (R7). Module reset returns fields to their reset values. -/
  | moduleReset
  /-- DIE_FATAL_ERROR (R498). A fatal error takes a compute chiplet offline, and its vcores migrate or stop. -/
  | dieFatalError (chiplet : Nat)
  /-- LINK_RETRAINING (R504). A scale-up port loses training and begins to retrain; while it retrains, write-backs routed over it lock and its route may fail over to the alternate. -/
  | linkRetraining (port : Nat)
  /-- RETENTION_POWER_LOSS (R385). Retention power is lost while the device is in deep sleep, which destroys every world's wrapped keys and roots. -/
  | retentionPowerLoss
  deriving DecidableEq, Repr, Inhabited

end Sys2Proof
end

