-- ==== Sys2Proof/Machine/Legal.lean ====
section
/-! DEFINITION. The checks of a word's own fields, without regard to state: step 3 of R432 by the table of R433, with the
permitted types of R176, R233, R239 to R241, R264, R274 and R287, the operand kinds of R439, R445 and R448, and the clause
checks of R192. The opcode maps of R185, R187, R188 and R189 stand here as the three form functions, which the decoder, the
encoder and the checks share. -/

namespace Sys2Proof.Machine

/-- The class 0x1 codes that a word's own fields can raise, in the order of R430. -/
inductive IllegalCode
  | illegalOp | reservedCode | nonzeroField | regRange | illegalType | illegalOperand
  deriving DecidableEq, Repr, Inhabited

/-- The status of R430. -/
def IllegalCode.status : IllegalCode → BitVec 16
  | .illegalOp => 0x1001 | .reservedCode => 0x1002 | .nonzeroField => 0x1003
  | .regRange => 0x1004 | .illegalType => 0x1005 | .illegalOperand => 0x1006

/-- A fault found in a word: its code and INFO[31:0] (R430). -/
structure Illegal where
  code : IllegalCode
  info : BitVec 32
  deriving DecidableEq, Repr, Inhabited

/-- One check: the fault when the condition holds. -/
def flagIf (c : Bool) (k : IllegalCode) (info : BitVec 32 := 0) : List Illegal := if c then [⟨k, info⟩] else []

/-- The fault reported of those found: the lowest code, the first found of that code (R408, R432). -/
def firstIllegal : List Illegal → Option Illegal
  | [] => none
  | x :: xs =>
    match firstIllegal xs with
    | none => some x
    | some y => if y.code.status.toNat < x.code.status.toNat then some y else some x

/-- An f register index beyond 31 (R433). -/
def chkF (i : BitVec 6) : List Illegal := flagIf (31 < i.toNat) .regRange

/-- A rounding mode (R70). -/
def chkMode (r : BitVec 3) : List Illegal := flagIf (5 < r.toNat) .reservedCode

/-- WAIT and SET (R192, R433). -/
def chkClauses (c : Clauses) : List Illegal :=
  flagIf (3 < c.so.toNat) .reservedCode
  ++ flagIf (c.so == 3 && (c.si != c.wi || c.wn == 0)) .reservedCode
  ++ flagIf (c.wn == 0 && c.wi != 0) .nonzeroField
  ++ flagIf (c.so == 0 && c.si != 0) .nonzeroField

/-! ### Operand codes of R181 -/

def isRowCode (x : BitVec 7) : Bool := x.toNat < 64
def isHndCode (x : BitVec 7) : Bool := 64 ≤ x.toNat && x.toNat < 80
def isKCode (x : BitVec 7) : Bool := 80 ≤ x.toNat && x.toNat < 96

/-- What a 7-bit field of a V word holds (R181, R185, R439). -/
inductive Kind
  | zero | rowH | row | hnd | kreg | any | rowK | moveDst | pr | slab | nest | sem | slot | used
  | esc | sat | cond | half | predC
  deriving DecidableEq, Repr

/-- The check of one field; `n` is the field's number in the INFO of ILLEGAL_OPERAND (R430). -/
def chkKind (k : Kind) (n : BitVec 32) (esc : Bool) (x : BitVec 7) : List Illegal :=
  match k with
  | .zero => flagIf (x != 0) .nonzeroField
  | .rowH => flagIf (95 < x.toNat) .reservedCode ++ flagIf (isKCode x) .illegalOperand n
  | .row => flagIf (95 < x.toNat) .reservedCode ++ flagIf (x.toNat < 96 && !isRowCode x) .illegalOperand n
  | .hnd => flagIf (95 < x.toNat) .reservedCode ++ flagIf (x.toNat < 96 && !isHndCode x) .illegalOperand n
  | .kreg => flagIf (95 < x.toNat) .reservedCode ++ flagIf (x.toNat < 96 && !isKCode x) .illegalOperand n
  | .rowK => flagIf (95 < x.toNat) .reservedCode ++ flagIf (isHndCode x) .illegalOperand n
  | .any | .moveDst => flagIf (95 < x.toNat) .reservedCode
  | .pr | .predC | .slab => flagIf (15 < x.toNat) .nonzeroField
  | .nest => flagIf (7 < x.toNat) .nonzeroField
  | .sem => flagIf (63 < x.toNat) .nonzeroField
  | .slot => flagIf (15 < x.toNat) .regRange
  | .used => []
  | .esc => flagIf (if esc then 31 < x.toNat else x != 0) .nonzeroField
  | .sat => flagIf (x.extractLsb' 0 6 != 0) .nonzeroField
  | .cond => flagIf (7 < x.toNat) .nonzeroField
  | .half => flagIf (1 < x.toNat) .nonzeroField

/-- How a V word names its type, with the permitted set (R183, R233). -/
inductive TypeRule
  /-- no type: TYPE is zero -/
  | none
  /-- TYPE, or the escape code in SC[4:0] -/
  | sc (ok : Fmt → Bool)
  /-- TYPE only -/
  | direct (ok : Fmt → Bool)
  /-- TYPE, or the escape code in IMM14[4:0] (the memory forms) -/
  | mem (ok : Fmt → Bool)
  /-- VCVT (R239) -/
  | cvt
  /-- VSAT (R241) -/
  | vsat

/-- The form of a V word: OP[6:0], its fields, and what each field holds (R185, R186, R433, R439). -/
structure VForm where
  op : BitVec 7
  w : VWord
  zeroing : Bool
  type : TypeRule
  predicated : Bool
  d : Kind
  a : Kind
  b : Kind
  c : Kind

def setFIX (f : Fmt) : Bool := f.inF || f.inI || f == .xa
def setFI (f : Fmt) : Bool := f.inF || f.inI
def setAbs (f : Fmt) : Bool := setFIX f || f.inNF
def setCmp (f : Fmt) : Bool := setFIX f || f == .e4m3 || f == .e5m2 || f == .e2m1
def setLogic (f : Fmt) : Bool := f.inI || f == .i4 || f == .n4
def setSplat (f : Fmt) : Bool := setCmp f || f == .i4 || f == .n4 || f == .e3m2 || f == .e2m3
def setAll (f : Fmt) : Bool := f != .f64
def setGather (f : Fmt) : Bool := f.inF || f == .xa || (f.inI && f.width != 8)
def setAssay (f : Fmt) : Bool := f.inF || f.inNF || f.isMx || f == .xa
def setWiden (f : Fmt) : Bool := f.wide.isSome

/-- The V-stream opcode map (R185). -/
def vForm : Instr → Option VForm
  | .vadd w => some ⟨0x01, w, true, .sc setFIX, true, .rowH, .any, .any, .sat⟩
  | .vsub w => some ⟨0x02, w, true, .sc setFIX, true, .rowH, .any, .any, .sat⟩
  | .vmul w => some ⟨0x03, w, true, .sc setFI, true, .rowH, .any, .any, .sat⟩
  | .vfma w => some ⟨0x04, w, true, .direct Fmt.inF, true, .rowH, .any, .any, .any⟩
  | .vdiv w => some ⟨0x05, w, true, .sc setFI, true, .rowH, .any, .any, .sat⟩
  | .vmin w => some ⟨0x06, w, true, .sc setFI, true, .rowH, .any, .any, .esc⟩
  | .vmax w => some ⟨0x07, w, true, .sc setFI, true, .rowH, .any, .any, .esc⟩
  | .vabs w => some ⟨0x08, w, true, .sc setAbs, true, .rowH, .any, .zero, .esc⟩
  | .vneg w => some ⟨0x09, w, true, .sc setAbs, true, .rowH, .any, .zero, .esc⟩
  | .vsqrt w => some ⟨0x0A, w, true, .sc Fmt.inF, true, .rowH, .any, .zero, .esc⟩
  | .vrsqrt w => some ⟨0x0B, w, true, .sc Fmt.inF, true, .rowH, .any, .zero, .esc⟩
  | .vrcp w => some ⟨0x0C, w, true, .sc Fmt.inF, true, .rowH, .any, .zero, .esc⟩
  | .vexp2 w => some ⟨0x0D, w, true, .sc Fmt.inF, true, .rowH, .any, .zero, .esc⟩
  | .vlog2 w => some ⟨0x0E, w, true, .sc Fmt.inF, true, .rowH, .any, .zero, .esc⟩
  | .vcvt w => some ⟨0x10, w, true, .cvt, true, .rowH, .any, .used, .used⟩
  | .vaddw w => some ⟨0x11, w, true, .direct setWiden, true, .rowH, .any, .any, .half⟩
  | .vmulw w => some ⟨0x12, w, true, .direct setWiden, true, .rowH, .any, .any, .half⟩
  | .vsat w => some ⟨0x13, w, true, .vsat, true, .rowH, .any, .cond, .used⟩
  | .vand w => some ⟨0x18, w, true, .sc setLogic, true, .rowH, .any, .any, .esc⟩
  | .vor w => some ⟨0x19, w, true, .sc setLogic, true, .rowH, .any, .any, .esc⟩
  | .vxor w => some ⟨0x1A, w, true, .sc setLogic, true, .rowH, .any, .any, .esc⟩
  | .vnot w => some ⟨0x1B, w, true, .sc setLogic, true, .rowH, .any, .zero, .esc⟩
  | .vshl w => some ⟨0x1C, w, true, .sc setLogic, true, .rowH, .any, .any, .esc⟩
  | .vshr w => some ⟨0x1D, w, true, .sc setLogic, true, .rowH, .any, .any, .esc⟩
  | .vsra w => some ⟨0x1E, w, true, .sc setLogic, true, .rowH, .any, .any, .esc⟩
  | .vcmp w => some ⟨0x20, w, false, .direct setCmp, true, .pr, .any, .any, .cond⟩
  | .vsel w => some ⟨0x21, w, true, .direct setCmp, true, .rowH, .any, .any, .predC⟩
  | .vmov w => some ⟨0x22, w, true, .sc setAll, true, .moveDst, .any, .zero, .esc⟩
  | .vsplat w => some ⟨0x23, w, true, .sc setSplat, true, .rowH, .kreg, .zero, .esc⟩
  | .vredadd w => some ⟨0x28, w, true, .sc setFIX, true, .rowH, .any, .zero, .esc⟩
  | .vredmax w => some ⟨0x29, w, true, .sc setFIX, true, .rowH, .any, .zero, .esc⟩
  | .vredmin w => some ⟨0x2A, w, true, .sc setFIX, true, .rowH, .any, .zero, .esc⟩
  | .vscan w => some ⟨0x2B, w, true, .sc setFIX, true, .rowH, .any, .zero, .esc⟩
  | .vld w => some ⟨0x30, w, true, .mem setAll, true, .row, .kreg, .used, .used⟩
  | .vst w => some ⟨0x31, w, false, .mem setAll, true, .row, .kreg, .used, .used⟩
  | .vldh w => some ⟨0x32, w, false, .mem setAll, true, .hnd, .kreg, .used, .used⟩
  | .vsth w => some ⟨0x33, w, false, .mem setAll, true, .hnd, .kreg, .used, .used⟩
  | .vadv w => some ⟨0x34, w, false, .none, false, .zero, .hnd, .used, .used⟩
  | .vgath w => some ⟨0x35, w, true, .sc setGather, true, .row, .kreg, .row, .esc⟩
  | .vscat w => some ⟨0x36, w, false, .sc setGather, true, .row, .kreg, .row, .esc⟩
  | .vasy w => some ⟨0x38, w, true, .sc setAssay, true, .rowH, .any, .zero, .esc⟩
  | .vasyset w => some ⟨0x39, w, false, .sc setAssay, true, .row, .any, .zero, .esc⟩
  | .vasylt w => some ⟨0x3A, w, false, .sc setAssay, true, .pr, .any, .rowK, .esc⟩
  | .vlda w => some ⟨0x3B, w, false, .mem setAssay, false, .row, .kreg, .used, .used⟩
  | .vsta w => some ⟨0x3C, w, false, .mem setAssay, false, .row, .kreg, .used, .used⟩
  | .pand w => some ⟨0x40, w, false, .sc setAll, true, .pr, .pr, .pr, .esc⟩
  | .por w => some ⟨0x41, w, false, .sc setAll, true, .pr, .pr, .pr, .esc⟩
  | .pnot w => some ⟨0x42, w, false, .sc setAll, true, .pr, .pr, .zero, .esc⟩
  | .pset w => some ⟨0x43, w, false, .none, false, .pr, .zero, .used, .used⟩
  | .vany w => some ⟨0x44, w, false, .sc setAll, true, .pr, .pr, .zero, .esc⟩
  | .vall w => some ⟨0x45, w, false, .sc setAll, true, .pr, .pr, .zero, .esc⟩
  | .vbr w => some ⟨0x46, w, false, .none, true, .zero, .used, .used, .used⟩
  | .vloop w => some ⟨0x47, w, false, .none, false, .nest, .zero, .used, .zero⟩
  | .vrot w => some ⟨0x48, w, false, .direct setCmp, true, .rowH, .any, .used, .used⟩
  | .slabdef w => some ⟨0x50, w, false, .none, false, .slab, .kreg, .zero, .zero⟩
  | .slabretype w => some ⟨0x51, w, false, .sc setAll, false, .slab, .zero, .half, .esc⟩
  | .slabpwr w => some ⟨0x52, w, false, .none, false, .zero, .used, .used, .used⟩
  | _ => none

/-- The system forms of the V, M and C streams (R189). -/
def eForm : Instr → Option (BitVec 7 × EngineWord × Kind × Kind × Kind × Kind)
  | .cairnE w => some (0x70, w, .zero, .zero, .zero, .zero)
  | .rdvE w => some (0x71, w, .zero, .zero, .zero, .zero)
  | .sstepE w => some (0x72, w, .zero, .zero, .zero, .zero)
  | .haltE w => some (0x73, w, .zero, .zero, .zero, .zero)
  | .yieldackE w => some (0x74, w, .zero, .zero, .zero, .zero)
  | .qfenceE w => some (0x75, w, .zero, .zero, .zero, .zero)
  | .trapE w => some (0x76, w, .zero, .zero, .used, .used)
  | .rdtimeE w => some (0x77, w, .kreg, .zero, .zero, .zero)
  | .rdcsrE w => some (0x78, w, .kreg, .zero, .used, .used)
  | .wrcsrE w => some (0x79, w, .zero, .kreg, .used, .used)
  | .bankmodeE w => some (0x7A, w, .sem, .kreg, .zero, .zero)
  | .qcfgE w => some (0x7B, w, .slot, .kreg, .used, .used)
  | .ctxsaveE w => some (0x7C, w, .zero, .kreg, .zero, .zero)
  | .ctxrstE w => some (0x7D, w, .zero, .kreg, .zero, .zero)
  | .tlbinvE w => some (0x7E, w, .sem, .kreg, .kreg, .zero)
  | _ => none

/-- The M-stream opcode map (R187). -/
def mForm : Instr → Option (BitVec 7 × MWord)
  | .mldb w => some (0x01, w) | .mldbT w => some (0x02, w) | .mldbp w => some (0x03, w)
  | .mma w => some (0x04, w) | .mmap w => some (0x05, w) | .mchb w => some (0x06, w)
  | .mche w => some (0x07, w) | .mzero w => some (0x08, w) | .manch w => some (0x09, w)
  | .mloop w => some (0x0A, w)
  | _ => none

/-- The C-stream opcode map (R188). -/
def cForm : Instr → Option (BitVec 7 × CWord)
  | .cnest w => some (0x01, w) | .ccopy w => some (0x02, w) | .cmcast w => some (0x03, w)
  | .cgath w => some (0x04, w) | .cscat w => some (0x05, w) | .ctrans w => some (0x06, w)
  | .cfill w => some (0x07, w) | .cfoll w => some (0x08, w) | .crem w => some (0x09, w)
  | .catom w => some (0x0A, w) | .cloop w => some (0x0B, w)
  | _ => none

end Sys2Proof.Machine

namespace Sys2Proof

/-! ### Joined fields -/

/-- IMM14 of a V word, bits [32:19] (R180). -/
def VWord.imm14 (w : VWord) : BitVec 14 := w.sb ++ w.sc

/-- OFF21 of a V word, bits [39:19] (R180). -/
def VWord.off21 (w : VWord) : BitVec 21 := w.sa ++ w.imm14

/-- Bits [30:19] of a system form: register address or trap code (R189). -/
def VWord.low12 (w : VWord) : BitVec 12 := w.imm14.extractLsb' 0 12

/-- The state code of row cluster j in SLABPWR, bits [2j+20:2j+19] (R185). -/
def VWord.pwrCode (w : VWord) (j : Nat) : BitVec 2 := w.off21.extractLsb' (2 * j) 2

/-- PART of VCVT (R239). -/
def VWord.cvtPart (w : VWord) : Nat := (w.sb.extractLsb' 5 1 ++ w.sc.extractLsb' 5 2).toNat

/-- The escape code of a C word, AUX[33:29] (R188). -/
def CWord.esc (w : CWord) : BitVec 5 := w.aux.extractLsb' 10 5

/-- NST[51]: the command runs under a nest (R188). -/
def CWord.nested (w : CWord) : Bool := w.nst.getLsbD 3

end Sys2Proof

namespace Sys2Proof.Machine

/-- The format code that a V word names by `r` (R183, R233, R239). -/
def vTypeCode (r : TypeRule) (w : VWord) : BitVec 5 :=
  match r with
  | .none => 0
  | .sc _ => if w.ty = 0xF then w.sc.extractLsb' 0 5 else typeToCode w.ty
  | .direct _ | .vsat => typeToCode w.ty
  | .mem _ => if w.ty = 0xF then w.imm14.extractLsb' 0 5 else typeToCode w.ty
  | .cvt => w.sb.extractLsb' 0 5

/-- A format code outside a permitted set, with the code as INFO (R433). -/
def chkType (ok : Fmt → Bool) (code : BitVec 5) : List Illegal :=
  flagIf (match fmtOfCode code with | some f => !ok f | none => true) .illegalType (code.setWidth 32)

def chkVType (r : TypeRule) (w : VWord) : List Illegal :=
  match r with
  | .none => flagIf (w.ty != 0) .nonzeroField
  | .sc ok | .mem ok => chkType ok (vTypeCode r w)
  | .direct ok => if w.ty = 0xF then [⟨.illegalType, 0xF⟩] else chkType ok (typeToCode w.ty)
  | .cvt =>
    flagIf (w.ty != 0xF) .illegalType (w.ty.setWidth 32)
    ++ chkType setAll (w.sb.extractLsb' 0 5) ++ chkType setAll (w.sc.extractLsb' 0 5)
  | .vsat =>
    (if w.ty = 0xF then [⟨.illegalType, 0xF⟩] else chkType Fmt.inI (typeToCode w.ty))
    ++ chkType Fmt.inI (w.sc.extractLsb' 0 5) ++ flagIf (31 < w.sc.toNat) .nonzeroField

/-- PART against the ratio of two lane counts: at most 8, and PART below it (R239, R241, R439). -/
def chkPart (fd fs : Fmt) (part : Nat) : List Illegal :=
  let ratio := if fs.lanes ≤ fd.lanes then fd.lanes / fs.lanes else fs.lanes / fd.lanes
  flagIf (8 < ratio || ratio ≤ part) .illegalOperand 5

/-- The checks of one V word that its fields' kinds do not say. -/
def chkVExtra (i : Instr) : List Illegal :=
  match i with
  | .vcmp w =>
    let cond := w.sc.extractLsb' 0 3
    flagIf (cond == 7 || (cond == 6 && w.ty.toNat < 8)) .reservedCode
  | .vcvt w =>
    match fmtOfCode (w.sb.extractLsb' 0 5), fmtOfCode (w.sc.extractLsb' 0 5) with
    | some fd, some fs => chkPart fd fs w.cvtPart
    | _, _ => []
  | .vsat w =>
    match fmtOfCode (typeToCode w.ty), fmtOfCode (w.sc.extractLsb' 0 5) with
    | some fd, some fs => chkPart fd fs w.sb.toNat
    | _, _ => []
  | .vmov w =>
    flagIf (isKCode w.dst && !(w.ty == 3 && w.pred == 0 && isRowCode w.sa)) .illegalOperand 0
  | .pset w => flagIf (4096 < w.imm14.toNat) .illegalOperand 5
  | .vloop w => flagIf (31 < w.sb.toNat) .nonzeroField
  | .slabpwr w =>
    flagIf (3 < w.sa.toNat) .nonzeroField
    ++ flagIf ((List.range 8).any fun j => w.pwrCode j == 3) .reservedCode
  | _ => []

/-- k15 as the base of an MX memory form (R249, R439). -/
def chkMxBase (f : VForm) : List Illegal :=
  match f.type with
  | .mem _ =>
    match fmtOfCode (vTypeCode f.type f.w) with
    | some t => flagIf (t.isMx && f.w.sa == 95) .illegalOperand 1
    | none => []
  | _ => []

def chkV (i : Instr) (f : VForm) : List Illegal :=
  let e := f.w.ty == 0xF
  chkClauses f.w.cl ++ flagIf (!f.predicated && f.w.pred != 0) .nonzeroField
  ++ chkKind f.d 0 e f.w.dst ++ chkKind f.a 1 e f.w.sa ++ chkKind f.b (if f.b == .row then 4 else 2) e f.w.sb
  ++ chkKind f.c 3 e f.w.sc ++ chkVType f.type f.w ++ chkVExtra i ++ chkMxBase f

/-- System forms: TYPE, PRED and [55:47] zero, and [32:31] zero where [30:19] is used (R189). -/
def chkE (i : Instr) (w : VWord) (d a b c : Kind) : List Illegal :=
  chkClauses w.cl ++ flagIf (w.z || w.ty != 0 || w.pred != 0) .nonzeroField
  ++ chkKind d 0 false w.dst ++ chkKind a 1 false w.sa ++ chkKind b 2 false w.sb ++ chkKind c 3 false w.sc
  ++ (match i with
      | .trapE _ | .rdcsrE _ | .wrcsrE _ => flagIf (31 < w.sb.toNat) .nonzeroField
      | _ => [])

/-! ### M words -/

/-- The formats of MLDB, MLDB.t and MMA (R264). -/
def setMatrix (f : Fmt) : Bool :=
  match f with
  | .bf16 | .f16 | .e4m3 | .e5m2 | .i8 | .n8 | .e3m2 | .e2m3 | .e2m1 | .i4 | .n4 | .mx8 | .mxi8 | .mx6 | .mx4 => true
  | _ => false

/-- The types of MMAP (R274). -/
def setPermute (f : Fmt) : Bool :=
  match f with
  | .f32 | .f16 | .bf16 | .i16 | .i32 | .i64 | .n16 | .n32 | .n64 | .xa => true
  | _ => false

/-- The format code of an M word (R183, R187). -/
def mTypeCode (w : MWord) : BitVec 5 := if w.ty = 0xF then w.xt else typeToCode w.ty

/-- The fields of an M word; XT is zero in MLDBP and MMAP (R266). -/
def chkM (i : Instr) (w : MWord) : List Illegal :=
  let untyped := flagIf (w.ty != 0 || w.xt != 0) .nonzeroField
  let noSlab := flagIf (w.slab != 0) .nonzeroField
  let noIx := flagIf (w.ix != 0) .nonzeroField
  let ix := flagIf (95 < w.ix.toNat) .reservedCode
  let noAddr := flagIf (w.addr != 0) .nonzeroField
  let noExt := flagIf (w.xt != 0) .nonzeroField
  let typed (ok : Fmt → Bool) := chkType ok (mTypeCode w) ++ flagIf (w.ty != 0xF && w.xt != 0) .nonzeroField
  chkClauses w.cl ++
  match i with
  | .mldb _ | .mldbT _ => typed setMatrix ++ noSlab ++ noIx
  | .mldbp _ => chkType (· == .n16) (mTypeCode w) ++ noExt ++ noSlab ++ noIx
  | .mma _ => typed setMatrix ++ ix
  | .mmap _ =>
    chkType setPermute (mTypeCode w) ++ noExt ++ ix ++ flagIf (63 < w.addr.toNat) .nonzeroField
  | .mchb _ | .mche _ | .mzero _ => untyped ++ noIx ++ noAddr
  | .manch _ =>
    untyped ++ noIx ++ flagIf (1023 < w.addr.toNat) .nonzeroField
    ++ flagIf (128 ≤ (w.addr.extractLsb' 0 9).toNat && (w.addr.extractLsb' 0 9).toNat ≤ 255) .illegalOperand 5
  | .mloop _ => untyped ++ noIx ++ flagIf (7 < w.slab.toNat) .nonzeroField ++ flagIf (31 < w.addr.toNat) .nonzeroField
  | _ => []

/-! ### C words -/

def setCopy (f : Fmt) : Bool := f != .f64 && !f.isMx
/-- Codes of 8 bits or more, less FP64 and the block formats (R287). -/
def setCopy8 (f : Fmt) : Bool := setCopy f && 8 ≤ f.width
def setAtom (f : Fmt) : Bool := f == .i32 || f == .i64 || f == .n32 || f == .n64

def cTypeCode (w : CWord) : BitVec 5 := if w.ty = 0xF then w.esc else typeToCode w.ty

def chkC (i : Instr) (w : CWord) : List Illegal :=
  let typed (ok : Fmt → Bool) := chkType ok (cTypeCode w) ++ flagIf (w.ty != 0xF && w.esc != 0) .nonzeroField
  let direct (ok : Fmt → Bool) :=
    if w.ty = 0xF then [⟨.illegalType, 0xF⟩] else chkType ok (typeToCode w.ty)
  let untyped := flagIf (w.ty != 0) .nonzeroField
  let flat := flagIf (w.nst != 0) .nonzeroField
  let nested := flagIf (!w.nested) .nonzeroField
  let either := flagIf (!w.nested && w.nst != 0) .nonzeroField
  let narrow := flagIf (w.nested && (match fmtOfCode (cTypeCode w) with | some f => f.width < 8 | none => false))
    .illegalType ((cTypeCode w).setWidth 32)
  let kDst := chkKind .kreg 6 false w.dop
  let khDst := chkKind .any 6 false w.dop ++ flagIf (isRowCode w.dop) .illegalOperand 6
  let kSrc := chkKind .kreg 7 false w.sop
  let khSrc := chkKind .any 7 false w.sop ++ flagIf (isRowCode w.sop) .illegalOperand 7
  let dOff := flagIf (isHndCode w.dop && w.imm.extractLsb' 32 32 != 0) .nonzeroField
  let sOff := flagIf (isHndCode w.sop && w.imm.extractLsb' 0 32 != 0) .nonzeroField
  let nestDst := flagIf (7 < w.dop.toNat) .nonzeroField
  let ix := w.aux.extractLsb' 0 7
  let index := flagIf (95 < ix.toNat) .reservedCode ++ flagIf (isKCode ix) .illegalOperand 4
    ++ flagIf (w.aux.extractLsb' 8 2 == 3) .reservedCode ++ flagIf (w.aux.getLsbD 7) .nonzeroField
  chkClauses w.cl ++
  match i with
  | .cnest _ => untyped ++ flat ++ nestDst ++ kSrc ++ flagIf (w.aux != 0) .nonzeroField
  | .ccopy _ =>
    typed setCopy ++ either ++ narrow ++ khDst ++ khSrc ++ dOff ++ sOff
    ++ flagIf (w.nested && w.aux.extractLsb' 1 9 != 0) .nonzeroField
  | .cmcast _ =>
    direct setCopy8 ++ nested ++ kDst ++ kSrc ++ flagIf (w.aux.getLsbD 14) .nonzeroField
  | .cgath _ => typed setCopy8 ++ flat ++ khDst ++ kSrc ++ dOff ++ index
  | .cscat _ => typed setCopy8 ++ flat ++ kDst ++ khSrc ++ sOff ++ index
  | .ctrans _ => typed setCopy8 ++ either ++ kDst ++ kSrc ++ flagIf (w.aux.extractLsb' 8 2 != 0) .nonzeroField
  | .cfill _ =>
    typed setCopy ++ either ++ narrow ++ khDst ++ flagIf (w.sop != 0) .nonzeroField
    ++ flagIf (w.nested && w.aux.extractLsb' 0 10 != 0) .nonzeroField
  | .cfoll _ => typed setCopy8 ++ nested ++ kDst ++ kSrc
  | .crem _ =>
    typed setCopy ++ either ++ narrow ++ kDst ++ kSrc
    ++ flagIf (w.nested && w.aux.extractLsb' 1 9 != 0) .nonzeroField
  | .catom _ =>
    direct setAtom ++ flat ++ kDst ++ kSrc ++ flagIf (w.aux.extractLsb' 12 3 != 0) .nonzeroField
    ++ flagIf (w.aux.extractLsb' 3 2 != 0) .nonzeroField ++ flagIf (w.aux.extractLsb' 0 3 == 7) .reservedCode
    ++ flagIf (!w.aux.getLsbD 11 && w.aux.extractLsb' 7 4 != 0) .nonzeroField
    ++ flagIf (w.imm.extractLsb' 0 32 != 0) .nonzeroField
    ++ flagIf (w.aux.extractLsb' 0 3 == 2 && w.sop == 95) .illegalOperand 7
  | .cloop _ =>
    untyped ++ flat ++ nestDst ++ flagIf (w.sop != 0) .nonzeroField
    ++ flagIf (w.aux.extractLsb' 5 10 != 0) .nonzeroField ++ flagIf (w.imm != 0) .nonzeroField
  | _ => []

/-! ### S words -/

/-- The formats FCVT names (R176). -/
def setFcvt (f : Fmt) : Bool := f.inI || f == .f64 || f.inF

/-- A register of FCVT: an s register for an integer format, else an f register (R176). -/
def chkFcvtReg (code : BitVec 5) (i : BitVec 6) : List Illegal :=
  match fmtOfCode code with
  | some f => if f.isInt then [] else chkF i
  | none => []

def chkS : Instr → List Illegal
  | .fadd d a b r _ | .fsub d a b r _ | .fmul d a b r _ | .fdiv d a b r _ | .fma d a b r _ =>
    chkF d ++ chkF a ++ chkF b ++ chkMode r
  | .fsqrt d a r _ => chkF d ++ chkF a ++ chkMode r
  | .fmin d a b _ | .fmax d a b _ => chkF d ++ chkF a ++ chkF b
  | .fmv d a => chkF d ++ chkF a
  | .fclass _ a _ | .fasy _ a _ => chkF a
  | .fsetasy d _ => chkF d
  | .fcmp cond _ a b _ => flagIf (cond == 7) .reservedCode ++ chkF a ++ chkF b
  | .fcvt d a r dst src _ =>
    chkMode r ++ chkType setFcvt dst ++ chkType setFcvt src ++ chkFcvtReg dst d ++ chkFcvtReg src a
  | .ld _ _ sz _ => flagIf (sz == 7) .reservedCode
  | .st _ _ sz _ => flagIf (3 < sz.toNat) .reservedCode
  | .ldf d _ sz _ | .stf d _ sz _ => flagIf (3 < sz.toNat) .reservedCode ++ chkF d
  | .lda d _ sz _ | .sta d _ sz _ => flagIf (sz != 0) .reservedCode ++ chkF d
  | .amo _ _ _ op _ u _ _ =>
    flagIf (op == 7) .reservedCode ++ flagIf (u && op != 3 && op != 4) .nonzeroField
  | .br _ ci cm | .ret _ ci cm | .call _ ci cm _ =>
    flagIf (cm == 3) .reservedCode ++ flagIf (cm == 0 && ci != 0) .nonzeroField
  | .fence p s scope =>
    flagIf (p == 0 || s == 0 || 5 < scope.toNat) .reservedCode
    ++ flagIf (31 < p.toNat || 31 < s.toNat) .nonzeroField
  | .qcfg d _ => flagIf (15 < d.toNat) .regRange
  | _ => []

/-- Every fault of a word's own fields (R433). Events of the part have none. -/
def wordFaults (i : Instr) : List Illegal :=
  match vForm i with
  | some f => chkV i f ++ flagIf (f.w.z && !f.zeroing) .illegalOp
  | none =>
    match eForm i with
    | some (_, w, d, a, b, c) => chkE i w.w d a b c
    | none =>
      match mForm i with
      | some (_, w) => chkM i w
      | none =>
        match cForm i with
        | some (_, w) => chkC i w
        | none =>
          match i with
          | .nop _ cl => chkClauses cl
          | _ => chkS i

end Sys2Proof.Machine
end

