-- ==== Sys2Proof/Decode.lean ====
section
/-! DEFINITION. The decoder, total on any word, and the encoder (spec/08_instruction_formats.md R171 to R190; decoding order
by spec/21_instruction_faults.md R432, R433). A word is parsed by its OP and selector; a word that no constructor has is
rejected as ILLEGAL_OP. The parse drops the bits that no field of the constructor holds, and encoding the result again
shows whether one of them was not zero (NONZERO_FIELD). The lowest code of all faults found is the one reported. -/

namespace Sys2Proof

open Sys2Proof.Machine

/-- A word of one of the four streams (R170). -/
inductive Code
  | s (w : BitVec 32)
  | v (w : BitVec 64)
  | m (w : BitVec 64)
  | c (w : BitVec 128)
  deriving DecidableEq, Repr, Inhabited

/-- What the decoder answers: an instruction, or the fault of R430 that the word raises. -/
inductive Decoded
  | ok (i : Instr)
  | illegal (e : Illegal)
  deriving DecidableEq, Repr, Inhabited

/-! ### Encoding -/

/-- One bit of a Bool field. -/
def bitOf (b : Bool) : BitVec 1 := if b then 1 else 0

/-- Layout SR (R171). -/
def encSR (op d a b : BitVec 6) (fn : BitVec 8) : BitVec 32 := op ++ d ++ a ++ b ++ fn

/-- Layout SI (R171). -/
def encSI (op d a : BitVec 6) (imm : BitVec 14) : BitVec 32 := op ++ d ++ a ++ imm

/-- Layout SM (R171). -/
def encSM (op d a : BitVec 6) (sz : BitVec 3) (imm : BitVec 11) : BitVec 32 := op ++ d ++ a ++ sz ++ imm

/-- Layout SBX (R171). -/
def encSBX (op : BitVec 6) (t ci : BitVec 3) (cm : BitVec 2) (lk : BitVec 6) : BitVec 32 :=
  op ++ t ++ ci ++ cm ++ lk ++ (0 : BitVec 12)

/-- Layout SC (R171). -/
def encSC (d a : BitVec 6) (csr : BitVec 12) (w : BitVec 1) : BitVec 32 :=
  (0x31 : BitVec 6) ++ d ++ a ++ csr ++ (0 : BitVec 1) ++ w

/-- FN of FPA, FPB and FMA: mode, type and operation (R176). -/
def fnF (r : BitVec 3) (t : BitVec 2) (op : BitVec 3) : BitVec 8 := r ++ t ++ op

/-- The S-stream word of an instruction; none for a constructor of another stream (R173, R174, R176 to R179). -/
def encodeS : Instr → Option (BitVec 32)
  | .add d a b => some (encSR 0x00 d a b 0x00)
  | .sub d a b => some (encSR 0x00 d a b 0x01)
  | .mul d a b => some (encSR 0x00 d a b 0x02)
  | .mulh d a b => some (encSR 0x00 d a b 0x03)
  | .mulhN64 d a b => some (encSR 0x00 d a b 0x04)
  | .div d a b => some (encSR 0x00 d a b 0x05)
  | .divN64 d a b => some (encSR 0x00 d a b 0x06)
  | .rem d a b => some (encSR 0x00 d a b 0x07)
  | .remN64 d a b => some (encSR 0x00 d a b 0x08)
  | .and d a b => some (encSR 0x00 d a b 0x09)
  | .or d a b => some (encSR 0x00 d a b 0x0A)
  | .xor d a b => some (encSR 0x00 d a b 0x0B)
  | .shl d a b => some (encSR 0x00 d a b 0x0C)
  | .shr d a b => some (encSR 0x00 d a b 0x0D)
  | .sra d a b => some (encSR 0x00 d a b 0x0E)
  | .min d a b => some (encSR 0x00 d a b 0x0F)
  | .minN64 d a b => some (encSR 0x00 d a b 0x10)
  | .max d a b => some (encSR 0x00 d a b 0x11)
  | .maxN64 d a b => some (encSR 0x00 d a b 0x12)
  | .clz d a => some (encSR 0x00 d a 0 0x13)
  | .popc d a => some (encSR 0x00 d a 0 0x14)
  | .sel d a b c => some (encSR 0x00 d a b ((0x8 : BitVec 5) ++ c))
  | .lea d a b h => some (encSR 0x00 d a b ((0xA : BitVec 5) ++ h))
  | .cmp cond c a b => some (encSR 0x00 (cond ++ c) a b 0x58)
  | .addi d a imm => some (encSI 0x01 d a imm)
  | .andi d a imm => some (encSI 0x02 d a imm)
  | .ori d a imm => some (encSI 0x03 d a imm)
  | .xori d a imm => some (encSI 0x04 d a imm)
  | .shli d a n => some (encSI 0x05 d a ((0 : BitVec 8) ++ n))
  | .shri d a n => some (encSI 0x06 d a ((0 : BitVec 8) ++ n))
  | .srai d a n => some (encSI 0x07 d a ((0 : BitVec 8) ++ n))
  | .cmpi cond c a imm => some (encSI 0x08 (cond ++ c) a imm)
  | .bfx d a lo w => some (encSI 0x09 d a ((0 : BitVec 2) ++ lo ++ w))
  | .bfi d a lo w => some (encSI 0x0A d a ((0 : BitVec 2) ++ lo ++ w))
  | .li d imm => some ((0x0B : BitVec 6) ++ d ++ imm)
  | .lih d h imm => some ((0x0C : BitVec 6) ++ d ++ (0 : BitVec 2) ++ h ++ imm)
  | .fadd d a b r t => some (encSR 0x10 d a b (fnF r t 0))
  | .fsub d a b r t => some (encSR 0x10 d a b (fnF r t 1))
  | .fmul d a b r t => some (encSR 0x10 d a b (fnF r t 2))
  | .fdiv d a b r t => some (encSR 0x10 d a b (fnF r t 3))
  | .fsqrt d a r t => some (encSR 0x10 d a 0 (fnF r t 4))
  | .fmin d a b t => some (encSR 0x10 d a b (fnF 0 t 5))
  | .fmax d a b t => some (encSR 0x10 d a b (fnF 0 t 6))
  | .fmv d a => some (encSR 0x10 d a 0 (fnF 0 0 7))
  | .fma d a b r t => some (encSR 0x12 d a b (fnF r t 0))
  | .fclass d a t => some (encSR 0x11 d a 0 (fnF 0 t 0))
  | .fasy d a t => some (encSR 0x11 d a 0 (fnF 0 t 1))
  | .fsetasy d a => some (encSR 0x11 d a 0 (fnF 0 0 2))
  | .fcmp cond c a b t => some (encSR 0x11 (cond ++ c) a b (fnF 0 t 3))
  | .fcvt d a r dst src sat => some (encSR 0x13 d a (bitOf sat ++ src) (r ++ dst))
  | .ld d a sz imm => some (encSM 0x18 d a sz imm)
  | .st d a sz imm => some (encSM 0x19 d a sz imm)
  | .ldf d a sz imm => some (encSM 0x1A d a sz imm)
  | .stf d a sz imm => some (encSM 0x1B d a sz imm)
  | .lda d a sz imm => some (encSM 0x1C d a sz imm)
  | .sta d a sz imm => some (encSM 0x1D d a sz imm)
  | .amo d a b op w u acq rel => some (encSR 0x1E d a b (op ++ bitOf w ++ bitOf u ++ bitOf acq ++ bitOf rel ++ (0 : BitVec 1)))
  | .sacq d a => some (encSR 0x1F d a 0 0)
  | .srel a b => some (encSR 0x1F 0 a b 1)
  | .bind d a b => some (encSR 0x1F d a b 2)
  | .unbind d a b => some (encSR 0x1F d a b 3)
  | .pbt t off => some ((0x20 : BitVec 6) ++ t ++ off)
  | .pbtr t a imm => some ((0x21 : BitVec 6) ++ t ++ (0 : BitVec 3) ++ a ++ imm)
  | .br t ci cm => some (encSBX 0x22 t ci cm 0)
  | .call t ci cm lk => some (encSBX 0x23 t ci cm lk)
  | .ret t ci cm => some (encSBX 0x24 t ci cm 0)
  | .semset m a => some (encSR 0x28 m a 0 0)
  | .semadd m a imm => some (encSI 0x29 m a imm)
  | .semwait m take imm => some (encSI 0x2A m ((0 : BitVec 5) ++ bitOf take) imm)
  | .fence p s scope => some ((0x30 : BitVec 6) ++ p ++ s ++ scope ++ (0 : BitVec 7))
  | .rdcsr d csr => some (encSC d 0 csr 0)
  | .wrcsr a csr => some (encSC 0 a csr 1)
  | .cairn => some (encSR 0x32 0 0 0 0x00)
  | .rdv => some (encSR 0x32 0 0 0 0x01)
  | .sstep => some (encSR 0x32 0 0 0 0x02)
  | .halt => some (encSR 0x32 0 0 0 0x03)
  | .yieldack => some (encSR 0x32 0 0 0 0x04)
  | .qfence => some (encSR 0x32 0 0 0 0x05)
  | .ifence => some (encSR 0x32 0 0 0 0x06)
  | .trap code => some ((0x32 : BitVec 6) ++ (0 : BitVec 6) ++ code ++ (0x07 : BitVec 8))
  | .rdtime d => some (encSR 0x32 d 0 0 0x08)
  | .bankmode d a => some (encSR 0x32 d a 0 0x09)
  | .qcfg d a => some (encSR 0x32 d a 0 0x0A)
  | .ctxsave a => some (encSR 0x32 0 a 0 0x10)
  | .ctxrst a => some (encSR 0x32 0 a 0 0x11)
  | .tlbinv d a b => some (encSR 0x32 d a b 0x12)
  | _ => none

/-- WAIT and SET at [18:0] (R180). -/
def Clauses.bits (c : Clauses) : BitVec 19 := c.wi ++ c.wn ++ c.si ++ c.so

/-- A V-stream word (R180, R186). -/
def encV (op : BitVec 7) (w : VWord) : BitVec 64 :=
  bitOf w.z ++ op ++ w.ty ++ w.pred ++ w.dst ++ w.sa ++ w.sb ++ w.sc ++ w.cl.bits

/-- An M-stream word (R187). -/
def encM (op : BitVec 7) (w : MWord) : BitVec 64 :=
  (0 : BitVec 1) ++ op ++ w.ty ++ w.slab ++ w.ix ++ w.xt ++ w.addr ++ w.cl.bits

/-- A C-stream word, IMM64 high (R188). -/
def encC (op : BitVec 7) (w : CWord) : BitVec 128 :=
  w.imm ++ (0 : BitVec 1) ++ op ++ w.ty ++ w.nst ++ w.dop ++ w.sop ++ w.aux ++ w.cl.bits

/-- A 64-bit word as a word of an engine stream, with a C word's IMM64 zero (R189). -/
def engineCode (e : Engine) (x : BitVec 64) : Code :=
  match e with
  | .v => .v x
  | .m => .m x
  | .c => .c ((0 : BitVec 64) ++ x)

/-- The word of an instruction; none for an event of the part, which has no word. -/
def encode (i : Instr) : Option Code :=
  match vForm i with
  | some f => some (.v (encV f.op f.w))
  | none =>
    match eForm i with
    | some (op, w, _) => some (engineCode w.e (encV op w.w))
    | none =>
      match mForm i with
      | some (op, w) => some (.m (encM op w))
      | none =>
        match cForm i with
        | some (op, w) => some (.c (encC op w))
        | none =>
          match i with
          | .nop e cl => some (engineCode e (cl.bits.setWidth 64))
          | _ => (encodeS i).map .s

/-- The instructions that are words of a stream, and not events of the part. -/
def Instr.isWord (i : Instr) : Bool := (encode i).isSome

/-! ### Parsing -/

/-- OP 0x00: INT (R174). -/
def parseInt (d a b : BitVec 6) (fn : BitVec 8) : Option Instr :=
  match fn.toNat with
  | 0 => some (.add d a b)
  | 1 => some (.sub d a b)
  | 2 => some (.mul d a b)
  | 3 => some (.mulh d a b)
  | 4 => some (.mulhN64 d a b)
  | 5 => some (.div d a b)
  | 6 => some (.divN64 d a b)
  | 7 => some (.rem d a b)
  | 8 => some (.remN64 d a b)
  | 9 => some (.and d a b)
  | 10 => some (.or d a b)
  | 11 => some (.xor d a b)
  | 12 => some (.shl d a b)
  | 13 => some (.shr d a b)
  | 14 => some (.sra d a b)
  | 15 => some (.min d a b)
  | 16 => some (.minN64 d a b)
  | 17 => some (.max d a b)
  | 18 => some (.maxN64 d a b)
  | 0x13 => some (.clz d a)
  | 0x14 => some (.popc d a)
  | 0x58 => some (.cmp (d.extractLsb' 3 3) (d.extractLsb' 0 3) a b)
  | _ =>
    if fn.extractLsb' 3 5 = 0x8 then some (.sel d a b (fn.extractLsb' 0 3))
    else if fn.extractLsb' 3 5 = 0xA then some (.lea d a b (fn.extractLsb' 0 3))
    else none

/-- OP 0x10: FPA (R173, R176). -/
def parseFpa (d a b : BitVec 6) (r : BitVec 3) (t : BitVec 2) (op : BitVec 3) : Option Instr :=
  match op.toNat with
  | 0 => some (.fadd d a b r t)
  | 1 => some (.fsub d a b r t)
  | 2 => some (.fmul d a b r t)
  | 3 => some (.fdiv d a b r t)
  | 4 => some (.fsqrt d a r t)
  | 5 => some (.fmin d a b t)
  | 6 => some (.fmax d a b t)
  | _ => some (.fmv d a)

/-- OP 0x11: FPB (R173, R176). -/
def parseFpb (d a b : BitVec 6) (t : BitVec 2) (op : BitVec 3) : Option Instr :=
  match op.toNat with
  | 0 => some (.fclass d a t)
  | 1 => some (.fasy d a t)
  | 2 => some (.fsetasy d a)
  | 3 => some (.fcmp (d.extractLsb' 3 3) (d.extractLsb' 0 3) a b t)
  | _ => none

/-- OP 0x1F: SYNC (R173). -/
def parseSync (d a b : BitVec 6) (fn : BitVec 8) : Option Instr :=
  match fn.toNat with
  | 0 => some (.sacq d a)
  | 1 => some (.srel a b)
  | 2 => some (.bind d a b)
  | 3 => some (.unbind d a b)
  | _ => none

/-- OP 0x32: SYS (R179). -/
def parseSys (d a b : BitVec 6) (fn : BitVec 8) : Option Instr :=
  match fn.toNat with
  | 0x00 => some .cairn
  | 0x01 => some .rdv
  | 0x02 => some .sstep
  | 0x03 => some .halt
  | 0x04 => some .yieldack
  | 0x05 => some .qfence
  | 0x06 => some .ifence
  | 0x07 => some (.trap (a ++ b))
  | 0x08 => some (.rdtime d)
  | 0x09 => some (.bankmode d a)
  | 0x0A => some (.qcfg d a)
  | 0x10 => some (.ctxsave a)
  | 0x11 => some (.ctxrst a)
  | 0x12 => some (.tlbinv d a b)
  | _ => none

/-- The constructor of an S-stream word by OP and selector (R173); none: ILLEGAL_OP. -/
def parseS (w : BitVec 32) : Option Instr :=
  let d := w.extractLsb' 20 6
  let a := w.extractLsb' 14 6
  let b := w.extractLsb' 8 6
  let fn := w.extractLsb' 0 8
  let imm := w.extractLsb' 0 14
  let n := w.extractLsb' 0 6
  let t := w.extractLsb' 23 3
  let ci := w.extractLsb' 20 3
  let cm := w.extractLsb' 18 2
  let sz := w.extractLsb' 11 3
  let off := w.extractLsb' 0 11
  let mode := w.extractLsb' 5 3
  let ft := w.extractLsb' 3 2
  let sel := w.extractLsb' 0 3
  match (w.extractLsb' 26 6).toNat with
  | 0x00 => parseInt d a b fn
  | 0x01 => some (.addi d a imm)
  | 0x02 => some (.andi d a imm)
  | 0x03 => some (.ori d a imm)
  | 0x04 => some (.xori d a imm)
  | 0x05 => some (.shli d a n)
  | 0x06 => some (.shri d a n)
  | 0x07 => some (.srai d a n)
  | 0x08 => some (.cmpi t ci a imm)
  | 0x09 => some (.bfx d a (w.extractLsb' 6 6) n)
  | 0x0A => some (.bfi d a (w.extractLsb' 6 6) n)
  | 0x0B => some (.li d (w.extractLsb' 0 20))
  | 0x0C => some (.lih d (w.extractLsb' 16 2) (w.extractLsb' 0 16))
  | 0x10 => parseFpa d a b mode ft sel
  | 0x11 => parseFpb d a b ft sel
  | 0x12 => if sel = 0 then some (.fma d a b mode ft) else none
  | 0x13 => some (.fcvt d a mode (w.extractLsb' 0 5) (w.extractLsb' 8 5) (w.getLsbD 13))
  | 0x18 => some (.ld d a sz off)
  | 0x19 => some (.st d a sz off)
  | 0x1A => some (.ldf d a sz off)
  | 0x1B => some (.stf d a sz off)
  | 0x1C => some (.lda d a sz off)
  | 0x1D => some (.sta d a sz off)
  | 0x1E => some (.amo d a b mode (w.getLsbD 4) (w.getLsbD 3) (w.getLsbD 2) (w.getLsbD 1))
  | 0x1F => parseSync d a b fn
  | 0x20 => some (.pbt t (w.extractLsb' 0 23))
  | 0x21 => some (.pbtr t a imm)
  | 0x22 => some (.br t ci cm)
  | 0x23 => some (.call t ci cm (w.extractLsb' 12 6))
  | 0x24 => some (.ret t ci cm)
  | 0x28 => some (.semset d a)
  | 0x29 => some (.semadd d a imm)
  | 0x2A => some (.semwait d (w.getLsbD 14) imm)
  | 0x30 => some (.fence (w.extractLsb' 18 8) (w.extractLsb' 10 8) (w.extractLsb' 7 3))
  | 0x31 => if w.getLsbD 0 then some (.wrcsr a (w.extractLsb' 2 12)) else some (.rdcsr d (w.extractLsb' 2 12))
  | 0x32 => parseSys d a b fn
  | _ => none

/-- The clauses of an engine word (R180). -/
def parseClauses (w : BitVec 64) : Clauses :=
  ⟨w.extractLsb' 13 6, w.extractLsb' 9 4, w.extractLsb' 3 6, w.extractLsb' 0 3⟩

/-- The fields of a V-stream word (R180). -/
def parseVWord (w : BitVec 64) : VWord :=
  ⟨w.getLsbD 63, w.extractLsb' 52 4, w.extractLsb' 47 5, w.extractLsb' 40 7, w.extractLsb' 33 7, w.extractLsb' 26 7,
    w.extractLsb' 19 7, parseClauses w⟩

/-- The fields of an M-stream word (R187). -/
def parseMWord (w : BitVec 64) : MWord :=
  ⟨w.extractLsb' 52 4, w.extractLsb' 48 4, w.extractLsb' 41 7, w.extractLsb' 36 5, w.extractLsb' 19 17, parseClauses w⟩

/-- The fields of a C-stream word (R188). -/
def parseCWord (w : BitVec 128) : CWord :=
  ⟨w.extractLsb' 64 64, w.extractLsb' 52 4, w.extractLsb' 48 4, w.extractLsb' 41 7, w.extractLsb' 34 7,
    w.extractLsb' 19 15, parseClauses (w.extractLsb' 0 64)⟩

/-- A system form of the V, M or C stream by OP (R189). -/
def parseE (e : Engine) (op : BitVec 7) (x : BitVec 64) : Option Instr :=
  let w : EngineWord := ⟨e, parseVWord x⟩
  match op.toNat with
  | 0x70 => some (.cairnE w)
  | 0x71 => some (.rdvE w)
  | 0x72 => some (.sstepE w)
  | 0x73 => some (.haltE w)
  | 0x74 => some (.yieldackE w)
  | 0x75 => some (.qfenceE w)
  | 0x76 => some (.trapE w)
  | 0x77 => some (.rdtimeE w)
  | 0x78 => some (.rdcsrE w)
  | 0x79 => some (.wrcsrE w)
  | 0x7A => some (.bankmodeE w)
  | 0x7B => some (.qcfgE w)
  | 0x7C => some (.ctxsaveE w)
  | 0x7D => some (.ctxrstE w)
  | 0x7E => some (.tlbinvE w)
  | _ => none

/-- A V-stream word by OP (R185); a zeroing OP that R186 does not name is none. -/
def parseV (x : BitVec 64) : Option Instr :=
  let w := parseVWord x
  let op := x.extractLsb' 56 7
  match op.toNat with
  | 0x00 => if w.z then none else some (.nop .v w.cl)
  | 0x01 => some (.vadd w)
  | 0x02 => some (.vsub w)
  | 0x03 => some (.vmul w)
  | 0x04 => some (.vfma w)
  | 0x05 => some (.vdiv w)
  | 0x06 => some (.vmin w)
  | 0x07 => some (.vmax w)
  | 0x08 => some (.vabs w)
  | 0x09 => some (.vneg w)
  | 0x0A => some (.vsqrt w)
  | 0x0B => some (.vrsqrt w)
  | 0x0C => some (.vrcp w)
  | 0x0D => some (.vexp2 w)
  | 0x0E => some (.vlog2 w)
  | 0x10 => some (.vcvt w)
  | 0x11 => some (.vaddw w)
  | 0x12 => some (.vmulw w)
  | 0x13 => some (.vsat w)
  | 0x18 => some (.vand w)
  | 0x19 => some (.vor w)
  | 0x1A => some (.vxor w)
  | 0x1B => some (.vnot w)
  | 0x1C => some (.vshl w)
  | 0x1D => some (.vshr w)
  | 0x1E => some (.vsra w)
  | 0x20 => if w.z then none else some (.vcmp w)
  | 0x21 => some (.vsel w)
  | 0x22 => some (.vmov w)
  | 0x23 => some (.vsplat w)
  | 0x28 => some (.vredadd w)
  | 0x29 => some (.vredmax w)
  | 0x2A => some (.vredmin w)
  | 0x2B => some (.vscan w)
  | 0x30 => some (.vld w)
  | 0x31 => if w.z then none else some (.vst w)
  | 0x32 => if w.z then none else some (.vldh w)
  | 0x33 => if w.z then none else some (.vsth w)
  | 0x34 => if w.z then none else some (.vadv w)
  | 0x35 => some (.vgath w)
  | 0x36 => if w.z then none else some (.vscat w)
  | 0x38 => some (.vasy w)
  | 0x39 => if w.z then none else some (.vasyset w)
  | 0x3A => if w.z then none else some (.vasylt w)
  | 0x3B => if w.z then none else some (.vlda w)
  | 0x3C => if w.z then none else some (.vsta w)
  | 0x40 => if w.z then none else some (.pand w)
  | 0x41 => if w.z then none else some (.por w)
  | 0x42 => if w.z then none else some (.pnot w)
  | 0x43 => if w.z then none else some (.pset w)
  | 0x44 => if w.z then none else some (.vany w)
  | 0x45 => if w.z then none else some (.vall w)
  | 0x46 => if w.z then none else some (.vbr w)
  | 0x47 => if w.z then none else some (.vloop w)
  | 0x48 => if w.z then none else some (.vrot w)
  | 0x50 => if w.z then none else some (.slabdef w)
  | 0x51 => if w.z then none else some (.slabretype w)
  | 0x52 => if w.z then none else some (.slabpwr w)
  | _ => if w.z then none else parseE .v op x

/-- An M-stream word by OP (R187). -/
def parseM (x : BitVec 64) : Option Instr :=
  let w := parseMWord x
  match (x.extractLsb' 56 8).toNat with
  | 0x00 => some (.nop .m w.cl)
  | 0x01 => some (.mldb w)
  | 0x02 => some (.mldbT w)
  | 0x03 => some (.mldbp w)
  | 0x04 => some (.mma w)
  | 0x05 => some (.mmap w)
  | 0x06 => some (.mchb w)
  | 0x07 => some (.mche w)
  | 0x08 => some (.mzero w)
  | 0x09 => some (.manch w)
  | 0x0A => some (.mloop w)
  | _ => if x.getLsbD 63 then none else parseE .m (x.extractLsb' 56 7) x

/-- A C-stream word by OP (R188). -/
def parseC (x : BitVec 128) : Option Instr :=
  let w := parseCWord x
  match (x.extractLsb' 56 8).toNat with
  | 0x00 => some (.nop .c w.cl)
  | 0x01 => some (.cnest w)
  | 0x02 => some (.ccopy w)
  | 0x03 => some (.cmcast w)
  | 0x04 => some (.cgath w)
  | 0x05 => some (.cscat w)
  | 0x06 => some (.ctrans w)
  | 0x07 => some (.cfill w)
  | 0x08 => some (.cfoll w)
  | 0x09 => some (.crem w)
  | 0x0A => some (.catom w)
  | 0x0B => some (.cloop w)
  | _ => if x.getLsbD 63 then none else parseE .c (x.extractLsb' 56 7) (x.extractLsb' 0 64)

/-- The constructor a word's OP and selector settle: steps 1 and 2 of R432. -/
def parse : Code → Option Instr
  | .s w => parseS w
  | .v w => parseV w
  | .m w => parseM w
  | .c w => parseC w

/-- Decoding a word without regard to state: the three steps of R432. -/
def decode (x : Code) : Decoded :=
  match parse x with
  | none => .illegal ⟨.illegalOp, 0⟩
  | some i =>
    match firstIllegal (wordFaults i ++ flagIf (decide (encode i ≠ some x)) .nonzeroField) with
    | none => .ok i
    | some e => .illegal e

/-- The instruction a decoding answers, if it is legal. -/
def Decoded.instr? : Decoded → Option Instr
  | .ok i => some i
  | .illegal _ => none

/-- The host's question: the instruction of a word of `nbits` bits with value `w`. Up to 32 bits it is an S-stream word,
up to 64 bits a V-stream word or, where the V stream has none, an M-stream word, and beyond that a C-stream word. -/
def decodeTableWord (nbits w : Nat) : Option Instr :=
  if nbits ≤ 32 then (decode (.s (BitVec.ofNat 32 w))).instr?
  else if nbits ≤ 64 then
    match (decode (.v (BitVec.ofNat 64 w))).instr? with
    | some i => some i
    | none => (decode (.m (BitVec.ofNat 64 w))).instr?
  else (decode (.c (BitVec.ofNat 128 w))).instr?

end Sys2Proof
end

