-- ==== Sys2Proof/Machine/VcoreState.lean ====
section
/-! DEFINITION. The state of one vcore (R29 to R33, R320): its registers, its four streams, the array, handles, quarry
slots, slab store, core store and cache of the core it occupies, the engine operations it has in flight, and the snapshot
of its last commit. -/

namespace Sys2Proof.Machine

/-- The four streams (R29). -/
inductive StreamId | s | v | m | c
  deriving DecidableEq, Repr, Inhabited

/-- Which agent moves next (R34, R60, R121, R140): a stream of the vcore on a core issues, a row of the table that is an event
of the part happens, or hardware acts ahead of need: a sequencer fetches a block, a walk is made, a cache line leaves. -/
inductive Turn
  | stream (core : Nat) (st : StreamId)
  | event (i : Instr)
  | prefetch (core : Nat) (st : StreamId) (va : Word)
  | walk (core : Nat) (va : Word)
  | evict (core : Nat) (line : Nat)
  /-- an L2 slice takes in a block of HBM, or gives one up (R114) -/
  | l2Fill (block : Nat)
  | l2Evict (block : Nat)
  /-- an entry of a TLB or walk cache fails its parity or is replaced (R121, R472) -/
  | tlbLoss (entry : Nat)
  /-- a parity error in a register file, control register or semaphore file that a stream meets (R471, R476) -/
  | upset (core : Nat) (st : StreamId)
  deriving DecidableEq, Repr, Inhabited

/-- Memory as a list of address and byte pairs: addresses strictly rising, no byte zero (unlisted bytes read zero). -/
abbrev Memory := List Host.Cell

/-- Bits of a store that stand flipped, each by its place in bits from the store's first byte (R471, R478). -/
abbrev Flips := List Nat

/-- An f register: an FP64 pattern and its stored assay (R206). -/
structure FReg where
  v : Word
  asy : BitVec 7
  deriving DecidableEq, Repr, Inhabited

/-- One slab-store row: 2,048 data bytes and the 512-byte assay sideband (R109). -/
structure Row where
  data : RowBits
  side : SideBits
  deriving DecidableEq, Repr, Inhabited

/-- Row-cluster power states (R111). -/
inductive Power | powered | retained | gated
  deriving DecidableEq, Repr, Inhabited

/-- A row cluster: its power state, and whether its wake window is open (R111, R443). -/
structure Cluster where
  power : Power
  waking : Bool
  deriving DecidableEq, Repr, Inhabited

/-- One reserved entry of a handle's FIFO: its number, data and sideband, and whether it is fully written (R106). -/
structure Entry where
  id : Nat
  data : RowBits
  side : SideBits
  full : Bool
  deriving DecidableEq, Repr, Inhabited

/-- A handle h0 to h15 (R106, R107). `entries` are the reserved entries not yet popped, oldest first. -/
structure Handle where
  bound : Bool
  bank : BitVec 5
  esz : BitVec 3
  entries : List Entry
  free : Nat
  deriving DecidableEq, Repr, Inhabited

/-- A quarry-slot configuration: the descriptor image and the theta table (R152 to R154). -/
structure SlotCfg where
  desc : Rec64
  theta : BitVec 8192
  deriving DecidableEq, Repr, Inhabited

/-- A quarry slot (R163). -/
structure Slot where
  active : SlotCfg
  pending : Option SlotCfg
  deriving DecidableEq, Repr, Inhabited

/-- A line of the core data cache (R105, R464, R473, R479): block number, way, bytes, dirty mask, protection tag; `check` is how the
check value that came with it differs from that of the bytes it was filled with. `lockedAt` is the time since which its write-back
fails. -/
structure Line where
  block : Nat
  way : Nat
  data : BitVec 2048
  dirty : BitVec 256
  keyid : Nat
  prot : BitVec 2
  va : Word
  poisoned : Bool
  check : BitVec 32
  lockedAt : Option Nat
  deriving DecidableEq, Repr, Inhabited

/-- A block in an instruction cache (R140). -/
structure ILine where
  st : StreamId
  block : Nat
  data : BitVec 2048
  deriving DecidableEq, Repr, Inhabited

/-- One entry of the binding table (R128). -/
structure Binding where
  obj : Word
  base : Word
  len : Word
  deriving DecidableEq, Repr, Inhabited

/-- What WSTAT reports (R313). -/
structure Wait where
  waiting : Bool
  pc : BitVec 32
  cause : BitVec 3
  idx : BitVec 6
  n : BitVec 16
  deriving DecidableEq, Repr, Inhabited

/-- The forms at which all streams of a vcore meet (R35, R38, R55, R318, R319). -/
inductive PointKind
  | rdv | cairn | sstep
  | ctxsave (addr : Word)
  | ctxrst (addr : Word)
  deriving DecidableEq, Repr, Inhabited

/-- A stream waiting at one of them: the form, its address and its clauses. -/
structure Point where
  kind : PointKind
  pc : Word
  cl : Clauses
  deriving DecidableEq, Repr, Inhabited

/-- The transfer decided by a BR, CALL or RET whose delay slot has not completed (R222, R412). -/
structure Transfer where
  pc : Word
  target : Word
  taken : Bool
  deriving DecidableEq, Repr, Inhabited

/-- An active VLOOP, MLOOP or CLOOP (R259, R276, R297): the body's words, none where the fetch of one failed (R456), its first address,
the loop word's CMDIX, the word and iteration reached, the number of iterations, the nest read at issue, the loop word's SET, and the
engine operations it has issued. -/
structure LoopState where
  body : List (Option Code)
  start : Word
  ix : BitVec 32
  idx : Nat
  t : Nat
  count : Nat
  nest : Rec64
  cl : Clauses
  ops : List Nat
  deriving DecidableEq, Repr, Inhabited

/-- One stream: program counter and per-stream registers (R309), wait report, meeting point, loop. -/
structure Stream where
  pc : Word
  halted : Bool
  /-- FFLAGS [6:0]: WAKEHZ SAT NV DZ OF UF NX (R311) -/
  fflags : BitVec 7
  /-- FCTL (R312) -/
  fctl : Word
  /-- ASYLD [7:0]: USE, ASY (R98) -/
  asyld : BitVec 8
  /-- ASYTH [6:0]: TH (R98) -/
  asyth : BitVec 7
  /-- ASYTE [1:0]: LOW, TE (R98) -/
  asyte : BitVec 2
  /-- CMDIX (R411) -/
  cmdix : BitVec 32
  wait : Wait
  point : Option Point
  loop : Option LoopState
  /-- entries that a VADV whose WAIT has passed, and which waits for more, has popped (R250) -/
  part : Option Nat
  deriving DecidableEq, Repr, Inhabited

/-- A latch bank (R263, R268). A tile keeps the bytes read and the assay that R96 gives its elements' cap. -/
inductive Latch
  | empty
  | filling (op : Nat)
  | tile (fmt : Fmt) (transposed : Bool) (bytes : List Byte) (asyld : BitVec 8)
  | pattern (entries : List (BitVec 16))
  deriving DecidableEq, Repr, Inhabited

/-- One element of an open chain (R80, R82, R91): the 136-bit accumulator, the sum of its terms without wrap, saturation,
special terms, whether a NaN term arose from operands that are not quiet NaNs, the largest uncertainty position, and whether
every term so far is exact. -/
structure ChainAcc where
  acc : BitVec 136
  total : Int
  sat : Bool
  nan : Bool
  nanNew : Bool
  pinf : Bool
  ninf : Bool
  u : Option Int
  exact : Bool
  deriving DecidableEq, Repr, Inhabited

/-- An open chain (R271): its slab, the descriptor read at MCHB, and its R × 128 elements, row by row. -/
structure Chain where
  slab : BitVec 4
  desc : Word
  els : List ChainAcc
  deriving DecidableEq, Repr, Inhabited

/-- A word that CFOLL delivered: the word and the address of its CFOLL (R294, R415). -/
structure FollowWord where
  w : BitVec 64
  pc : Word
  deriving DecidableEq, Repr, Inhabited

/-- An entry that a command has popped and not yet freed, the bits of it already read (R288), and whether it held an uncorrectable error
(R475). -/
structure Popped where
  e : Entry
  pos : Nat
  bad : Bool
  deriving DecidableEq, Repr, Inhabited

/-- The entry that a command is filling: the bits already written, and the assays and bits of the elements that begin in it (R288). -/
structure Pushing where
  id : Nat
  data : RowBits
  pos : Nat
  asys : List (Nat × Nat)
  deriving DecidableEq, Repr, Inhabited

/-- A copy command in flight: its word, what it read at issue (R281 to R283), and how far it has come. -/
structure CopyOp where
  i : Instr
  /-- destination base with the loop offset (R282, R283) -/
  dbase : Word
  /-- source base with the loop offset -/
  sbase : Word
  /-- nest image read at issue (R283) -/
  nest : Rec64
  count : Nat
  /-- index row of CGATH and CSCAT (R292) -/
  index : RowBits
  /-- k[SO] and k[SO+1] of CATOM -/
  val : Word
  cmp : Word
  asyld : BitVec 8
  done : Nat
  popped : Option Popped
  pushing : Option Pushing
  /-- bits that the command has overwritten in memory, where its elements do not lie one over another: each bit's address, its value
  before, and the first bit of the element written last (R289) -/
  old : List (Nat × Bool × Nat)
  /-- cores of a CMCAST already delivered to -/
  delivered : List Nat
  /-- the CFOLL word has been delivered, the completion word written, or the atomic performed -/
  tailDone : Bool
  deriving DecidableEq, Repr, Inhabited

/-- The asynchronous engine operations (R125). -/
inductive OpKind
  | mldb (bank : Nat) (fmt : Fmt) (transposed : Bool) (cs : Nat) (asyld : BitVec 8)
  | mldbp (bank : Nat) (cs : Nat)
  | bankmode (operand : Word) (m : BitVec 6)
  | tlbinv (va ctl : Word) (m : BitVec 6)
  | copy (c : CopyOp)
  deriving DecidableEq, Repr, Inhabited

/-- An engine operation in flight: its number, the stream and word that issued it, and its SET. `stopped` holds after a
fault of the operation, until an action on its fault domain (R410). -/
structure EngOp where
  id : Nat
  st : StreamId
  /-- issued by a word that CFOLL delivered (R294) -/
  delivered : Bool
  pc : Word
  cmdix : BitVec 32
  cl : Clauses
  kind : OpKind
  stopped : Bool
  deriving DecidableEq, Repr, Inhabited

/-- A finished loop whose SET waits for engine operations of its body (R276, R297). -/
structure LoopEnd where
  st : StreamId
  pc : Word
  ix : BitVec 32
  ops : List Nat
  cl : Clauses
  deriving DecidableEq, Repr, Inhabited

/-- Where a vcore stands. -/
inductive Residence
  /-- no vcore: the record stands for none -/
  | absent
  /-- on a physical core (R15) -/
  | core (n : Nat)
  /-- admitted, waiting for a core or between cores: yielded, cut back, parked or not yet placed (R337, R341, R357) -/
  | off
  /-- imaged after a fault stop; the image lies in the save area that Bedrock allots (R426) -/
  | imaged
  /-- imaged at a virtual address of a fault queue's image area, under world and context (R426) -/
  | imagedAt (va : Word) (world : Nat) (ctx : BitVec 16)
  /-- complete (R37) -/
  | complete
  deriving DecidableEq, Repr, Inhabited

/-- Who and what a vcore is, fixed by its launch (R30, R331, R344): it is reached by no instruction but RDCSR. -/
structure Ident where
  /-- number of the node in Device.nodes -/
  node : Nat
  vcid : BitVec 10
  vcnt : BitVec 11
  gang : Bool
  priv : Bool
  ctx : BitVec 16
  world : Nat
  comp : Nat
  /-- effective fault domain (R50, R54) -/
  fdom : BitVec 12
  bankCfg : Word
  entry : Vector Word 4
  deriving DecidableEq, Repr, Inhabited

/-- The registers of a vcore that its words name. -/
structure Regs where
  /-- s0 to s63; s0 is kept zero (R199) -/
  s : Vector Word 64
  f : Vector FReg 32
  c : Vector Bool 8
  b : Vector Word 8
  k : Vector Word 16
  m : Vector (BitVec 16) 64
  /-- predicate storage, unrotated (R257) -/
  p : Vector PredBits 16
  /-- slab descriptors (R260) -/
  a : Vector Word 16
  /-- loop nests (R284) -/
  n : Vector Rec64 8
  /-- VWB.BASE (R110) -/
  vwb : BitVec 3
  /-- VRB.RB (R257) -/
  rb : BitVec 5
  /-- VRB.PB (R257) -/
  pb : BitVec 3
  mxcOvf : BitVec 32
  mxcNan : BitVec 32
  mxcSat : BitVec 32
  sstk : Word
  sscnt : BitVec 32
  /-- on-chip shadow stack, newest first, at most 64 (R223) -/
  shadow : List Word
  /-- BKLOCK (R311) -/
  bklock : BitVec 32
  /-- YSTAT.REQ (R311) -/
  ystat : Bool
  /-- YIELDACK recorded (R305) -/
  yieldack : Bool
  /-- S1ROOT (R117) -/
  s1root : Word
  deriving DecidableEq, Repr, Inhabited

/-- The snapshot of a commit (R55, R56, R224): the registers, from which a cutback takes the carried state of R42, the
semaphores and the shadow stack; the active slot configurations; and the streams with their resume addresses. -/
structure Snapshot where
  regs : Regs
  q : Vector SlotCfg 16
  sS : Stream
  sV : Stream
  sM : Stream
  sC : Stream
  deriving DecidableEq, Repr, Inhabited

/-- Errors held in a core's stores (R471, R474, R478): SCRATCH blocks that are poisoned, flipped bits of the core store and of the
slab store. -/
structure Marks where
  poison : List Nat
  flips : Flips
  rowFlips : Flips
  deriving DecidableEq, Repr, Inhabited

/-- A semaphore that an update has lowered, its value before, the stream of the update and its time: a WAIT test of the same cycle still
sees that value (R193). -/
structure Lowered where
  src : StreamId
  m : BitVec 6
  old : BitVec 16
  time : Nat
  deriving DecidableEq, Repr, Inhabited

/-- The storage of the core a vcore occupies. -/
structure Store where
  rows : Vector Row 256
  marks : Marks
  clusters : Vector Cluster 8
  /-- mode codes, bank b at [2b+1:2b] (R103, R311) -/
  bkmode : Word
  /-- SCRATCH contents by core-store address, unlisted bytes zero (R104, R108) -/
  scratch : Memory
  /-- handles h0 to h15 -/
  h : Vector Handle 16
  q : Vector Slot 16
  /-- streams whose next word began before the last QFENCE, with the configurations before it (R165) -/
  reading : List (StreamId × Vector SlotCfg 16)
  /-- M and C streams whose next word had issued before the last SLABPWR, with the clusters before it (R444) -/
  before : List (StreamId × Vector Cluster 8)
  /-- semaphores lowered in this cycle (R193) -/
  lowered : List Lowered
  cache : List Line
  icache : List ILine
  bindings : List Binding
  latch0 : Latch
  latch1 : Latch
  /-- the bank the next load fills (R268) -/
  nextBank : Bool
  chain : Option Chain
  follow : List FollowWord
  ops : List EngOp
  loopEnds : List LoopEnd
  /-- numbers given to operations and entries -/
  nextId : Nat
  deriving DecidableEq, Repr, Inhabited

/-- A vcore. -/
structure Vcore where
  id : Ident
  res : Residence
  regs : Regs
  sS : Stream
  sV : Stream
  sM : Stream
  sC : Stream
  /-- pending transfer of the S stream (R222) -/
  delay : Option Transfer
  st : Store
  /-- a non-idempotent operation since the last commit (R58, R416) -/
  ni : Bool
  /-- a cutback waits for the next commit (R58) -/
  cutbackDue : Bool
  /-- stopped with its fault domain (R413) -/
  stopped : Bool
  /-- the streams that may still issue before they reach their stop points, and the time of the stop: 10 µs at most (R413) -/
  late : List StreamId
  stoppedAt : Nat
  /-- the superstep it is in, and whether it has ended it (R38); in a gang job, whether it has yielded and waits for the job's
  other vcores (R44) -/
  superstep : Nat
  ended : Bool
  /-- the core to which the binder has bound it: the one it holds or held last, or is to have first (R337, R357) -/
  bound : Nat
  snap : Snapshot
  deriving DecidableEq, Repr, Inhabited

end Sys2Proof.Machine
end

