-- ==== Sys2Proof/Machine/DeviceState.lean ====
section
/-! DEFINITION. The state of the device outside its vcores: the scheduler and its nodes (spec/14), power and curtailment
(spec/15), Bedrock's worlds, frames, leaves and sessions (spec/16, 22), the host port, links and side-band (spec/17), fault
queues and error registers (spec/20, 22, 23). -/

namespace Sys2Proof.Machine

/-- The values of a region (R50, R333): the last accepted RCB image, its token bucket, and what is left of its energy (uJ)
and current (0.01 A) in the tick. -/
structure Region where
  bits : Rec64
  tokens : Nat
  eLeft : Int
  iLeft : Int
  deriving DecidableEq, Repr, Inhabited

/-- A queue beyond its in-memory descriptor (R328, R335, R488, R490). -/
structure Queue where
  /-- the one of the 32 slots that it holds -/
  slot : Option Nat
  /-- its place among the queues that wait for a slot -/
  waiting : Option Nat
  /-- the mapper reads no further entry until an action (R488) -/
  blocked : Bool
  /-- a NOTIFY_REJECTED notice was delivered in this tick (R490) -/
  noticed : Bool
  /-- sequence numbers of nodes that have ended with SHED or FAULT, and the code: nodes accepted later that name one as predecessor end
  with it (R356, R424, R488) -/
  gone : List (BitVec 32 × Nat)
  region : Region
  deriving DecidableEq, Repr, Inhabited

/-- How far a node has come (R334 to R341, R488). -/
inductive NodePhase
  /-- accepted, with predecessors incomplete -/
  | waiting
  /-- in the Trailhead -/
  | ready
  /-- in the Trailhead, held by a fault of its launch record (R488) -/
  | held
  /-- selected and admitted, not yet placed by the binder -/
  | selected
  /-- running -/
  | running
  /-- yielded, killed or parked: in the Trailhead with images (R341, R357) -/
  | resting (parked : Bool)
  /-- its completion record cannot be written (R488) -/
  | completing (code : BitVec 8)
  deriving DecidableEq, Repr, Inhabited

/-- A node that the graph unit has accepted and that is not complete (R329 to R341, R494, R495). -/
structure Node where
  key : Nat
  queue : Nat
  seq : BitVec 32
  world : Nat
  ctx : BitVec 16
  header : BitVec 2048
  table : List (BitVec 128)
  preds : List (BitVec 32)
  phase : NodePhase
  launch : Option Rec64
  hasRcb : Bool
  region : Region
  waited : Nat
  /-- entry in force, and entry at the start -/
  entry : Nat
  opStart : Nat
  started : Bool
  /-- the time of the first instruction (R332) -/
  start : Option Nat
  energy : Nat
  work : Nat
  changes : Nat
  preempts : Nat
  /-- physical cores that it holds -/
  cores : List Nat
  /-- polite request: ticks since it was made, and its window (R341, R357) -/
  polite : Option (Nat × Nat)
  /-- the request is part of a park, or the node is parked (R357); a vcore of it has left its core since the request -/
  parking : Bool
  begun : Bool
  /-- consecutive overrunning ticks, and the energy per core that charges use (R494, R495) -/
  overTicks : Nat
  measured : Nat
  demoted : Bool
  /-- parkings so far, the nonce of R374 -/
  parks : Nat
  /-- declared write ranges copied alongside the images of a park (R357): device offset, bytes, and where the sealed copy
  stands in the park tier -/
  saved : List (Nat × Nat × Nat)
  /-- a quarter of the ranges has changed partition since (R359) -/
  moved : Bool
  deriving DecidableEq, Repr, Inhabited

/-- Scheduler registers and memory (R323, R328, R335, R491). -/
structure Sched where
  /-- a selection pass is due; a job has been launched since reset (R335, R362) -/
  due : Bool
  launched : Bool
  qtbase : Word
  age : BitVec 8
  ywin : BitVec 8
  stallTicks : BitVec 8
  /-- values in force since the last tick boundary -/
  ageNow : BitVec 8
  ywinNow : BitVec 8
  stallNow : BitVec 8
  queues : List Queue
  nodes : List Node
  nextKey : Nat
  nextWait : Nat
  /-- the slot that the mapper's rotation visits next (R328) -/
  visit : Nat
  /-- last selected queue and its selections in succession (R335) -/
  lastSel : Option (Nat × Nat)
  /-- tick number of the last boundary -/
  tick : Nat
  root : Region
  /-- partition regions of the layout in force, in the order of R392 -/
  parts : List Region
  /-- partitions that admit nothing until module reset (R499), by quarter -/
  deadQuarters : Vector Bool 4
  /-- per node and vcore: consecutive stalled boundaries and CMDIX sums at the last one (R491) -/
  stalls : List (Nat × Nat × Nat)
  deriving DecidableEq, Repr, Inhabited

/-- A chiplet (R345, R347, R350, R358, R361). -/
structure Chip where
  offline : Bool
  fatal : Bool
  gated : Bool
  hot : Bool
  step : BitVec 4
  idle : Nat
  temp : Nat
  /-- time since which it has read 110 or more, and below 85 -/
  hotSince : Option Nat
  coolSince : Option Nat
  deriving DecidableEq, Repr, Inhabited

/-- A budget curve (R351). -/
structure Curve where
  seq : Word
  vstart : Nat
  vend : Nat
  bandpm : Nat
  bandw : Nat
  grade : BitVec 2
  thresh : Nat
  points : List (Nat × Nat)
  deriving DecidableEq, Repr, Inhabited

/-- Power and curtailment (R346 to R363). -/
structure Power6 where
  /-- samples of 10 us, newest first, at most 1,000, and their averages over 10 ms and 1 ms -/
  samples : List Nat
  avg : Nat
  avg1ms : Nat
  fixed : Nat
  /-- integ of R346 in eighths of a W, so that err / 8 is exact -/
  integ : Int
  target : Nat
  band : Nat
  floor : Bool
  grade : BitVec 2
  thresh : BitVec 5
  src : Bool
  done : Bool
  /-- the time at which DONE was last set (R493) -/
  doneAt : Nat
  since : BitVec 48
  trigger : Nat
  late : Bool
  pinTh : BitVec 5
  pinEn : Bool
  pinSamples : List (BitVec 2)
  pins : BitVec 2
  chips : Vector Chip 8
  etotal : Word
  /-- uJ not yet counted in ETOTAL -/
  eRest : Nat
  curvseq : Word
  current : Option Curve
  pending : Option Curve
  /-- the curve in effect since a tick boundary, and when it or its lapse took effect (R348, R353); the longest time that R58 has held
  back a cutback in the response of the grade in force (R357) -/
  inEffect : Option Curve
  curveAt : Nat
  heldBack : Nat
  /-- curve grade in force since the last boundary -/
  curveGrade : BitVec 2
  curveThresh : Nat
  /-- a curve being checked: its bytes, and whether it came through the host mailbox -/
  checking : Option (List Byte × Bool)
  /-- budgets left to the 32 clusters: energy uJ and current 0.01 A -/
  clusterE : Vector Int 32
  clusterI : Vector Int 32
  /-- clusters whose issue is gated by current (R494) -/
  clusterGated : Vector Bool 32
  /-- column voltages in mV, 8 per chiplet (R343) -/
  columns : Vector Nat 64
  /-- HBM stacks: level of R497 and last reading; self-refresh of each quarter (R357) -/
  hbmLevel : Vector Nat 12
  hbmTemp : Vector Nat 12
  /-- time since which each stack, and each base die and the IOD, has read 110 or more (R345, R497); the last readings of those dies -/
  hbmHot : Vector (Option Nat) 12
  dieHot : Vector (Option Nat) 5
  dieTemp : Vector Nat 5
  selfRefresh : Vector Bool 4
  lock : Bool
  offset : BitVec 32
  deriving DecidableEq, Repr, Inhabited

/-- A stage-2 leaf (R119, R366, R513). `world` none: the stage 2 of the physical function. -/
structure Leaf where
  world : Option Nat
  ipa : Nat
  /-- 0: 64 KiB, 1: 2 MiB, 2: 1 GiB -/
  size : Nat
  pa : Nat
  r : Bool
  w : Bool
  x : Bool
  keyid : Nat
  prot : BitVec 2
  shared : Bool
  deriving DecidableEq, Repr, Inhabited

/-- The owner of a 64 KiB frame (R366, R511). -/
inductive Frame
  | free
  | host
  | world (w keyid : Nat) (prot : BitVec 2) (shared : Bool)
  deriving DecidableEq, Repr, Inhabited

inductive WorldPhase | free | building | running | destroying
  deriving DecidableEq, Repr, Inhabited

/-- A compartment's keys (R372, R374, R380): the XTS key of 64 bytes, Kc, Km and the park key of 32 each. -/
structure CompKeys where
  xts : List Byte
  enc : List Byte
  mac : List Byte
  park : List Byte
  deriving DecidableEq, Repr, Inhabited

/-- A compartment (R364, R376, R380, R466, R467); `claim` is the public key bound to it. -/
structure Comp where
  created : Bool
  quarantined : Bool
  restored : Bool
  keys : CompKeys
  imported : Bool
  evictions : Nat
  epoch : Nat
  claim : Option (List Byte)
  deriving DecidableEq, Repr, Inhabited

structure World where
  phase : WorldPhase
  isOpen : Bool
  quarter : Nat
  /-- device offset of the stage-2 root table, once a leaf has been mapped (R117) -/
  s2root : Option Nat
  rcb : Nat
  wm : BitVec 512
  comps : Vector Comp 8
  region : Region
  deriving DecidableEq, Repr, Inhabited

/-- A registered context (R365, R370). -/
structure Ctx where
  ctx : BitVec 16
  world : Nat
  comp : Nat
  root : Word
  deriving DecidableEq, Repr, Inhabited

/-- A gate (R377): asked by one owner, open, or closing until the copies in flight have completed (R379). -/
inductive GatePhase | asked (bySrc : Bool) | isOpen | closing (ops : List (Nat × Nat × Nat))
  deriving DecidableEq, Repr, Inhabited

structure Gate where
  world : Nat
  no : Nat
  srcc : Nat
  dstc : Nat
  sipa : Nat
  slen : Nat
  dipa : Nat
  dlen : Nat
  phase : GatePhase
  session : Nat
  deriving DecidableEq, Repr, Inhabited

/-- An entry of the evicted-page table (R376): its version, and the leaf that it had. -/
structure Evicted where
  world : Nat
  comp : Nat
  ipa : Nat
  version : Nat
  leaf : Leaf
  deriving DecidableEq, Repr, Inhabited

/-- An SPDM session or connection (R384). -/
structure Session where
  id : Nat
  /-- 0 none, 1 versions, 2 capabilities, 3 algorithms, 4 key exchange, 5 secured -/
  stage : Nat
  transcript : List Byte
  /-- the peer's public key, by which it owns compartments (R380) -/
  key : List Byte
  /-- the AEAD keys of a secured session, of requests and of replies, and the number of messages taken since (R384) -/
  keys : List Byte
  count : Nat
  deriving DecidableEq, Repr, Inhabited

/-- One counter of the integrity tree that a compartment has in a quarter (R373): level 0 counts the write-backs of a 64-byte line, by
its number in the quarter, level k those of the blocks of 8 counters below it; `mac` is the MAC of that line or block under it. -/
structure Counter where
  world : Nat
  comp : Nat
  quarter : Nat
  level : Nat
  index : Nat
  count : Nat
  mac : Nat
  deriving DecidableEq, Repr, Inhabited

/-- What Bedrock derives at boot from the device secret (R381): the identity key pair, public and private, and two keys. -/
structure Secrets where
  device : List Byte
  identity : List Byte
  signing : List Byte
  wrapping : List Byte
  rollback : List Byte
  deriving DecidableEq, Repr, Inhabited

/-- The configuration record in force and its copies in flash (R382, R511, R515); an empty key slot holds no key. -/
structure Config6 where
  harvest : Vector (BitVec 32) 8
  trims : List Byte
  helper : List Byte
  certificate : List Byte
  ownerKey : List Byte
  keySlots : Vector (List Byte) 4
  versions : List Nat
  fallback : Nat
  rootRcb : Rec64
  partRcb : List (List Rec64)
  carve : Vector (BitVec 8) 4
  seq : Nat
  rollback : Nat
  /-- the two copies in flash with their sequence numbers -/
  copies : List (Nat × List Byte)
  deriving DecidableEq, Repr, Inhabited

/-- Whether the device is awake, in deep sleep, in deep sleep or a reset with retention lost, or dark since the loss of its IOD (R385,
R484, R500). -/
inductive Awake | awake | asleep | lost | dark
  deriving DecidableEq, Repr, Inhabited

/-- Bedrock (R364 to R385, R466 to R470, R511 to R514). -/
structure Bedrock where
  worlds : Vector World 16
  leaves : List Leaf
  /-- the frames whose state is not that of `frameDefault` -/
  frames : List (Nat × Frame)
  frameDefault : Frame
  /-- pages of 4 KiB of the carve-outs that hold stage-2 tables: device offset, world (R366) -/
  tables : List (Nat × Nat)
  /-- 16 KiB slots of integrity metadata by frame (R373, R511) -/
  metaSlots : List (Nat × Nat)
  counters : List Counter
  /-- the roots of the counter trees, one for each compartment and quarter, in Bedrock's on-chip store (R373) -/
  roots : List Counter
  ctxs : List Ctx
  gates : List Gate
  evicted : List Evicted
  poisoned : List (Nat × Nat × Nat)
  /-- a request in progress: PA of its block, and the block -/
  request : Option (Nat × Nat)
  seq : BitVec 16
  ovr : Bool
  wlost : Bool
  status : BitVec 16
  sessions : List Session
  sleep : Awake
  record : Config6
  /-- firmware update messages taken since the images that the part came with (R383, R396) -/
  firmware : List (List Byte)
  /-- measurements taken at boot: index and digest (R383, R384) -/
  measurements : List (Nat × BitVec 512)
  /-- the generator of keys and random values (R380) -/
  drbg : Drbg
  secrets : Secrets
  /-- the retention SRAM: keys, roots and sessions wrapped for deep sleep (R385) -/
  retention : List Byte
  deriving DecidableEq, Repr, Inhabited

/-- The host page, functions and outgoing messages (R386 to R392). -/
structure HostSide where
  devnum : BitVec 9
  idtag : Word
  ready : Bool
  phase : BitVec 3
  carve : Vector (BitVec 8) 4
  cpres : Vector (BitVec 32) 8
  cmbaddr : Word
  cmblen : BitVec 16
  cmbBusy : Bool
  cmbResult : BitVec 16
  layout : BitVec 3
  applied : BitVec 3
  /-- VFWORLDn: EN and WORLD -/
  vfworld : Vector (BitVec 5) 64
  portUp : Bool
  /-- MSI-X messages raised while the port is down, and messages sent: function and vector -/
  msixPending : List (Nat × Nat)
  msixSent : List (Nat × Nat)
  /-- failed requests recorded in the PF's AER status (R503) -/
  aer : Nat
  /-- configuration space writes of each function, by offset -/
  config : List (Nat × Nat × BitVec 32)
  /-- completions and messages sent on the host port -/
  sent : List (List Byte)
  /-- messages sent on the side-band port -/
  sideband : List (List Byte)
  deriving DecidableEq, Repr, Inhabited

/-- A scale-up port (R393, R395, R504, R505). -/
structure Port where
  up : Bool
  lanes : BitVec 4
  peer : BitVec 9
  peerPort : BitVec 5
  retraining : Bool
  retry : BitVec 32
  downs : BitVec 16
  /-- sequence number of the last flit performed -/
  lastFlit : Nat
  deriving DecidableEq, Repr, Inhabited

/-- A remote access sent and not answered (R504). -/
structure RemoteAccess where
  node : Nat
  vcid : BitVec 10
  st : StreamId
  dev : Nat
  va : Word
  isRead : Bool
  deriving DecidableEq, Repr, Inhabited

/-- A flit sent to another device: its address and payload, and whether its block is poisoned (R394, R474). -/
structure Flit where
  dev : Nat
  pa : Nat
  payload : List Byte
  poisoned : Bool
  deriving DecidableEq, Repr, Inhabited

structure Links where
  ports : Vector Port 18
  /-- primary and alternate port of each routed device -/
  routes : List (Nat × Nat × Nat)
  outstanding : List RemoteAccess
  sent : List Flit
  /-- the keys that the Bedrocks of this and another device have agreed (R374) -/
  keys : List (Nat × List Byte)
  deriving DecidableEq, Repr, Inhabited

/-- A fault record not yet delivered (R415, R420): its bits with PHASE and IMG zero, its domain, whether it is a notice,
the node and vcore it concerns, and, where it concerns no vcore but a node, that node's world and the node, if it is accepted (R492). -/
structure Record where
  bits : Rec64
  fdom : BitVec 12
  notice : Bool
  vc : Option (Nat × BitVec 10)
  about : Option (Nat × Option Nat)
  deriving DecidableEq, Repr, Inhabited

/-- A stopped fault domain (R413, R418, R421, R426). -/
structure Stop where
  fdom : BitVec 12
  ticks : Nat
  /-- a delivered record has RES = 0 -/
  final : Bool
  dropped : Bool
  /-- delivered records: index in the queue, node and vcore -/
  records : List (Nat × Nat × BitVec 10)
  deriving DecidableEq, Repr, Inhabited

/-- The fault page (R418, R477, R478). -/
structure Faults where
  fqtbase : Word
  busy : Bool
  ovr : Bool
  result : BitVec 2
  last : BitVec 2
  fdom : BitVec 12
  fhold : BitVec 8
  /-- FSTOP as the list of stopped domains -/
  stops : List Stop
  /-- an action in progress -/
  action : Option (BitVec 2 × BitVec 12)
  records : List Record
  ue : BitVec 32
  ce : BitVec 32
  melog : Word
  /-- when the event that MELOG holds was recorded (R6) -/
  melogAt : Nat
  injctl : Word
  injaddr : Word
  deriving DecidableEq, Repr, Inhabited

/-- Errors held in the stores (R471 to R474, R478): poisoned home blocks and damaged check values, by 256-byte block of device offset;
flipped bits of HBM and the park tier, and of L2. -/
structure Errors where
  poison : List Nat
  badCheck : List (Nat × BitVec 32)
  flips : Flips
  l2Flips : Flips
  deriving DecidableEq, Repr, Inhabited

/-- A line of an L2 slice (R114, R372): its block of device offset, its way, whether it differs from HBM, the world, KEYID and PROT of
its frame, and, while it is dirty, the plaintext of what HBM holds. -/
structure L2Line where
  block : Nat
  way : Nat
  dirty : Bool
  tag : Frame
  under : List Byte
  deriving DecidableEq, Repr, Inhabited

/-- Sealed bytes in the park tier (R115, R374): the node, the vcore of an image or none for a write range, device offset,
length without the tag, the nonce, and the poison and errors that travel with them: those of an image's core store and rows, or the
poisoned blocks of a range, by their number in it (R474). -/
structure ParkItem where
  node : Nat
  vcid : Option (BitVec 10)
  off : Nat
  len : Nat
  nonce : Nat
  marks : Marks
  deriving DecidableEq, Repr, Inhabited

/-- A table entry or leaf that a TLB or walk cache holds (R121): which (0 to 255 a core's, 256 to 287 a cluster's, 288 the
IOD's), of stage 2 or 1, its context, level, the address bits above it, the entry. -/
structure TlbEntry where
  holder : Nat
  stage2 : Bool
  world : Nat
  ctx : BitVec 16
  level : Nat
  vpn : Nat
  entry : Word
  deriving DecidableEq, Repr, Inhabited

/-- The device. -/
structure Device where
  /-- the global timer, ns (R362) -/
  time : Nat
  sched : Sched
  power : Power6
  bedrock : Bedrock
  host : HostSide
  links : Links
  faults : Faults
  errors : Errors
  tlb : List TlbEntry
  l2 : List L2Line
  park : List ParkItem
  deriving DecidableEq, Repr, Inhabited

end Sys2Proof.Machine
end

