-- ==== Sys2Proof/Config.lean ====
section
/-! DEFINITION. What one device or one run fixes and the spec leaves open. Every name here is opaque: no proof can see a
value of it, so a statement holds whatever it is. The first group is drawn afresh by applying it to a counter of State. The
second group are functions whose values only Bedrock's secrets or a public algorithm outside the spec fix. -/

namespace Sys2Proof.Config

open Sys2Proof.Machine

/-- The agent that moves at step n (log 2). -/
opaque schedule : Nat → Turn

/-- Nanoseconds that pass at step n (log 3). -/
opaque elapsed : Nat → Nat

/-- The forward step of the timer at reset, in ns: step (R362; log 3). -/
opaque forwardStep : Nat → Nat

/-- Whether a TLB or walk cache still holds an entry that a walk has read (R121; log 8): step, place in the list. -/
opaque tlbHeld : Nat → Nat → Bool

/-- Whether an instruction cache still holds a block (R140; log 9): step, place in the list. -/
opaque icacheHeld : Nat → Nat → Bool

/-- The way chosen for a new line of the core data cache (R105; log 10): step, block. -/
opaque way : Nat → Nat → Nat

/-- A byte of a declared write range after its node has been shed or aborted (R356, R424; log 14): step, device offset. -/
opaque undefinedByte : Nat → Nat → Byte

/-- The order in which requests and copies of a choice without a rule are taken (log 14). -/
opaque pick : Nat → Nat

/-- What a read of a remote device's memory returns: device, address, length, draw (R394; log 12). -/
opaque remoteRead : Nat → Nat → Nat → Nat → List Byte

/-- Whether a block that another device sends carries poison: device, block, step (R474; log 12). -/
opaque remotePoison : Nat → Nat → Nat → Bool

/-- The owner that another device's frame table gives a frame: device, frame, step (R463; log 12). -/
opaque remoteOwner : Nat → Nat → Nat → Frame

/-- Whether an element of a window that a word reads across a QFENCE is computed under the configuration before it (R165; log 10): step,
element. -/
opaque oldElement : Nat → Nat → Bool

/-- Whether a remote access is answered within 10 ms (R504; log 12). -/
opaque remoteAnswered : Nat → Bool

/-- Whether a remote device is entering or leaving deep sleep (R479; log 12): step, device. -/
opaque deviceAsleep : Nat → Nat → Bool

/-- Whether an event and a read of its register at one time fall into one cycle (R6; log 13): step. -/
opaque sameCycle : Nat → Bool

/-- Whether the word that a stream executes in a step had issued before the last SLABPWR of the V stream: step (R444; log 14). -/
opaque issuedBefore : Nat → Bool

/-- Whether a stream of a stopped domain issues one more word before its stop point: step (R413; log 18). -/
opaque stopsLate : Nat → Bool

/-- The device secret that the SRAM region of this device gives with helper data, at every boot the same (R381; log 5). -/
opaque deviceSecret : List Byte → List Byte

/-- What Bedrock derives from the device secret (R381; log 5): 0 the identity public key, 1 the sleep wrapping key, 2 the record
rollback key, 3 the identity private key. -/
opaque derive : Nat → List Byte → List Byte

/-- The 64 bytes of AEAD keys, of requests and of replies, that a session's key exchange agrees: transcript (R384; log 11). -/
opaque sessionKeys : List Byte → List Byte

/-- 48 bytes of the physical entropy source: step (R380; log 11). -/
opaque entropy : Nat → List Byte

/-- The public key that a peer has shown in a session: transcript (R380, R384; log 11). -/
opaque peerKey : List Byte → List Byte

/-- The key that two Bedrocks agree for the links: device, step (R374; log 12). -/
opaque linkKey : Nat → Nat → List Byte

/-- The count from which Bedrock may re-key a compartment (R373; log 11). -/
opaque rekeyAt : Nat

/-- Energy in µJ that a node has been measured to use in a tick (R494; log 17): step, node. -/
opaque measuredEnergy : Nat → Nat → Nat

/-- Current per core in 0.01 A that a node is measured to draw (R494; log 17): step, node. -/
opaque measuredCurrent : Nat → Nat → Nat

/-- The fixed part of the module's power over the last tick, in W (R346; log 17). -/
opaque fixedPower : Nat → Nat

/-- The least power in W that the device reaches in the grade in force (R349; log 17). -/
opaque leastPower : Nat → Nat

/-- Whether an SLH-DSA-SHAKE-256s signature over a message verifies under a public key: key, message, signature (R352; log 11). -/
opaque verifies : List Byte → List Byte → List Byte → Bool

/-- A reply that Bedrock's SPDM responder forms: session, transcript, request (R384; log 11). -/
opaque spdmReply : Nat → List Byte → List Byte → List Byte

/-- Whether an offered configuration record is valid under the owner key in force, and its sequence number: owner key, record (R382;
log 11). -/
opaque recordValid : List Byte → List Byte → Option Nat

/-- Field number of a valid configuration record: the record's layout is not given (R382, R515; log 5). -/
opaque recordField : List Byte → Nat → BitVec 512

/-- A section of a valid configuration record as bytes (R382; log 5): 0 trims, 1 helper data, 2 certificate, 3 owner key, 4 to 7 the
facility keys, 8 minimum firmware versions. -/
opaque recordBytes : List Byte → Nat → List Byte

/-- Whether a stack's self-refresh held while the device slept (R483, R484; log 17): step, stack. -/
opaque stackKept : Nat → Nat → Bool

/-- The device's number in its domain, set at bring-up (R390, R398; log 12). -/
opaque devnum : BitVec 9

/-- What a scale-up port trains to: peer device, peer port, lanes; none where it does not train (R395, R398; log 12). -/
opaque trained : Nat → Option (BitVec 9 × BitVec 5 × BitVec 4)

/-- The route table that Basecamp loads: device, primary and alternate port (R393, R398, R504; log 12). -/
opaque routes : List (Nat × Nat × Nat)

/-- What a configuration read returns: function, offset, the value last written (R386; log 12). -/
opaque configRead : Nat → Nat → Option (BitVec 32) → BitVec 32

/-- The key under which firmware images are signed (R383; log 11). -/
opaque firmwareKey : List Byte

/-- The contents of Bedrock's boot ROM (R384; log 11). -/
opaque bootRomImage : List Byte

/-- The firmware image that update messages have left, with its version and its signature: 0 Bedrock's, 1 Basecamp's; messages (R383,
R396; log 11). -/
opaque image : Nat → List (List Byte) → List Byte × Nat × List Byte

/-- A PLDM reply of Basecamp (R396; log 11). -/
opaque pldmReply : List Byte → List Byte

end Sys2Proof.Config
end

