-- ==== Sys2Proof/Machine/State.lean ====
section
/-! DEFINITION. The state of the machine, the reasons for which a step stops, and the state after module reset (R7). -/

namespace Sys2Proof.Machine

/-- The state of the whole machine: the vcore in focus and the others, home memory by device offset, the device. `turn`
and `steps` are the model's own: which agent moves next, and the steps made. -/
structure State where
  vc : Vcore
  others : List Vcore
  mem : Memory
  dev : Device
  turn : Turn
  steps : Nat
  deriving DecidableEq, Repr, Inhabited

/-- Reasons for which the machine stops: none. Every fault of the spec is a next state (R409, R413), and every row of the table
has an effect. -/
inductive Fault
  deriving DecidableEq, Repr

/-- Reasons for which the model gives no step. -/
inductive Refusal
  /-- raised by an arm of exec whose instruction has no meaning yet. Safe: the model makes no step. -/
  | notModelled (mnemonic : String)
  deriving DecidableEq, Repr

/-! ### Reset -/

/-- A register field of R333 that holds inherit in every place. -/
def rcbInherit : Rec64 :=
  (0x1FF : BitVec 512) <<< 160 ||| (0x1FF : BitVec 512) <<< 144 ||| (0x1FF : BitVec 512) <<< 128
  ||| (0xFFFFFFFF : BitVec 512) <<< 96 ||| (0xFFFFFFFF : BitVec 512) <<< 64
  ||| (0xFFF : BitVec 512) <<< 32 ||| (0xFFFF : BitVec 512) <<< 16 ||| (31 : BitVec 512)

/-- The device root and partition RCB of the model's configuration record (R515; log 5): priority 15, energy and current
without limit, all shares, no tokens, weight 1, fault domain 0. -/
def rcbRoot : Rec64 :=
  (0x100 : BitVec 512) <<< 160 ||| (0x100 : BitVec 512) <<< 144 ||| (0x100 : BitVec 512) <<< 128
  ||| (0xFFFFFFFE : BitVec 512) <<< 96 ||| (0xFFFFFFFE : BitVec 512) <<< 64
  ||| (1 : BitVec 512) <<< 8 ||| (15 : BitVec 512)

def regionOf (b : Rec64) : Region := ⟨b, 0, 0, 0⟩

/-- A stream that no launch has started: halted, control registers zero (R32, R33). -/
def streamOff : Stream where
  pc := 0
  halted := true
  fflags := 0
  fctl := 0
  asyld := 0
  asyth := 0
  asyte := 0
  cmdix := 0
  wait := ⟨false, 0, 0, 0, 0⟩
  point := none
  loop := none
  part := none

/-- The registers at launch, but for s1 to s3 (R33). -/
def regsZero : Regs where
  s := .replicate 64 0
  f := .replicate 32 ⟨0, 0⟩
  c := .replicate 8 false
  b := .replicate 8 0
  k := .replicate 16 0
  m := .replicate 64 0
  p := .replicate 16 0
  a := .replicate 16 0
  n := .replicate 8 0
  vwb := 0
  rb := 0
  pb := 0
  mxcOvf := 0
  mxcNan := 0
  mxcSat := 0
  sstk := 0
  sscnt := 0
  shadow := []
  bklock := 0
  ystat := false
  yieldack := false
  s1root := 0

/-- An unbound handle (R33, R107). -/
def handleOff : Handle := ⟨false, 0, 0, [], 0⟩

/-- An unconfigured quarry slot (R33, R152). -/
def slotOff : Slot := ⟨⟨0, 0⟩, none⟩

/-- The core's storage at launch under a bank configuration (R33). -/
def storeInit (banks : Word) : Store where
  rows := .replicate 256 ⟨0, 0⟩
  marks := ⟨[], [], []⟩
  clusters := .replicate 8 ⟨.powered, false⟩
  bkmode := banks
  scratch := []
  h := .replicate 16 handleOff
  q := .replicate 16 slotOff
  reading := []
  before := []
  lowered := []
  cache := []
  icache := []
  bindings := []
  latch0 := .empty
  latch1 := .empty
  nextBank := false
  chain := none
  follow := []
  ops := []
  loopEnds := []
  nextId := 0

def identNone : Ident := ⟨0, 0, 0, false, false, 0, 0, 0, 0, 0, .replicate 4 0⟩

/-- No vcore (log 6). -/
def vcoreAbsent : Vcore where
  id := identNone
  res := .absent
  regs := regsZero
  sS := streamOff
  sV := streamOff
  sM := streamOff
  sC := streamOff
  delay := none
  st := storeInit 0
  ni := false
  cutbackDue := false
  stopped := false
  late := []
  stoppedAt := 0
  superstep := 0
  ended := false
  bound := 0
  snap := ⟨regsZero, .replicate 16 ⟨0, 0⟩, streamOff, streamOff, streamOff, streamOff⟩

def queueOff : Queue := ⟨none, none, false, false, [], regionOf rcbInherit⟩

/-- Scheduler registers at reset (R323, R491). -/
def schedReset : Sched where
  due := false
  launched := false
  qtbase := 0
  age := 32
  ywin := 4
  stallTicks := 0
  ageNow := 32
  ywinNow := 4
  stallNow := 0
  queues := .replicate 1024 queueOff
  nodes := []
  nextKey := 0
  nextWait := 0
  visit := 0
  lastSel := none
  tick := 0
  root := regionOf rcbRoot
  parts := [regionOf rcbRoot]
  deadQuarters := .replicate 4 false
  stalls := []

/-- Power and curtailment at reset (R346, R350). -/
def powerReset : Power6 where
  samples := []
  avg := 0
  avg1ms := 0
  fixed := 0
  integ := 0
  target := 0
  band := 25
  floor := false
  grade := 0
  thresh := 16
  src := false
  done := false
  doneAt := 0
  since := 0
  trigger := 0
  late := false
  pinTh := 16
  pinEn := true
  pinSamples := []
  pins := 0
  chips := .replicate 8 ⟨false, false, false, false, 10, 0, 0, none, none⟩
  etotal := 0
  eRest := 0
  curvseq := 0
  current := none
  pending := none
  inEffect := none
  curveAt := 0
  heldBack := 0
  curveGrade := 0
  curveThresh := 16
  checking := none
  clusterE := .replicate 32 0
  clusterI := .replicate 32 0
  clusterGated := .replicate 32 false
  columns := .replicate 64 700
  hbmLevel := .replicate 12 0
  hbmTemp := .replicate 12 0
  hbmHot := .replicate 12 none
  dieHot := .replicate 5 none
  dieTemp := .replicate 5 0
  selfRefresh := .replicate 4 false
  lock := false
  offset := 0

def keysNone : CompKeys := ⟨[], [], [], []⟩

def compOff : Comp := ⟨false, false, false, keysNone, false, 0, 0, none⟩

def worldOff : World := ⟨.free, false, 0, none, 0, 0, .replicate 8 compOff, regionOf rcbInherit⟩

/-- The configuration record of the model (R382; log 5). -/
def recordReset : Config6 where
  harvest := .replicate 8 0xFFFFFFFF
  trims := []
  helper := []
  certificate := []
  ownerKey := []
  keySlots := .replicate 4 []
  versions := []
  fallback := 2600
  rootRcb := rcbRoot
  partRcb := [[rcbRoot], [rcbRoot, rcbRoot], [rcbRoot, rcbRoot, rcbRoot], [rcbRoot, rcbRoot, rcbRoot],
    [rcbRoot, rcbRoot, rcbRoot, rcbRoot]]
  carve := .replicate 4 2
  seq := 0
  rollback := 0
  copies := [(0, []), (0, [])]

def bedrockReset : Bedrock where
  worlds := .replicate 16 worldOff
  leaves := []
  frames := []
  frameDefault := .free
  tables := []
  metaSlots := []
  counters := []
  roots := []
  ctxs := []
  gates := []
  evicted := []
  poisoned := []
  request := none
  seq := 0
  ovr := false
  wlost := false
  status := 0
  sessions := []
  sleep := .awake
  record := recordReset
  firmware := []
  measurements := []
  drbg := ⟨[], 0⟩
  secrets := ⟨[], [], [], [], []⟩
  retention := []

/-- The host page and the information page at reset (R390, R391; dash resets: log 5). -/
def hostReset : HostSide where
  devnum := 0
  idtag := 0
  ready := false
  phase := 0
  carve := .replicate 4 2
  cpres := .replicate 8 0xFFFFFFFF
  cmbaddr := 0
  cmblen := 0
  cmbBusy := false
  cmbResult := 0
  layout := 0
  applied := 0
  vfworld := .replicate 64 0
  portUp := false
  msixPending := []
  msixSent := []
  aer := 0
  config := []
  sent := []
  sideband := []

def linksReset : Links where
  ports := .replicate 18 ⟨false, 0, 0, 0, false, 0, 0, 0⟩
  routes := []
  outstanding := []
  sent := []
  keys := []

/-- The fault page at reset (R418, R477, R478). -/
def faultsReset : Faults where
  fqtbase := 0
  busy := false
  ovr := false
  result := 0
  last := 0
  fdom := 0
  fhold := 16
  stops := []
  action := none
  records := []
  ue := 0
  ce := 0
  melog := 0
  melogAt := 0
  injctl := 0
  injaddr := 0

def errorsReset : Errors := ⟨[], [], [], []⟩

def deviceReset : Device where
  time := 0
  sched := schedReset
  power := powerReset
  bedrock := bedrockReset
  host := hostReset
  links := linksReset
  faults := faultsReset
  errors := errorsReset
  tlb := []
  l2 := []
  park := []

/-- The machine right after module reset (R7, R398): no vcore, memory with nothing listed, every register at its reset
value. The first step is the module's bring-up. -/
def State.reset : State where
  vc := vcoreAbsent
  others := []
  mem := []
  dev := deviceReset
  turn := .event .powerGood
  steps := 0

end Sys2Proof.Machine
end

