-- ==== Sys2Proof/Machine/Ops.lean ====
section
/-! DEFINITION. The named operations over memory and registers, taking a fault and retiring a word, which every meaning
uses. Taking a fault follows spec/20_fault_model.md R409, R412, R413, R415 to R417; memory R3; registers R199. -/

namespace Sys2Proof.Machine

/-- The outcome of a step. -/
abbrev Out := Host.Outcome State Fault Refusal

/-! ### Memory in canonical form (log 4) -/

/-- The byte at an address; an unlisted byte reads zero. -/
def Memory.read : Memory → Nat → Byte
  | [], _ => 0
  | (x, v) :: t, a => if x = a then v else Memory.read t a

/-- A byte written, in canonical form: writing zero removes the entry. -/
def Memory.write : Memory → Nat → Byte → Memory
  | [], a, v => if v = 0 then [] else [(a, v)]
  | (x, w) :: t, a, v =>
    if a < x then (if v = 0 then (x, w) :: t else (a, v) :: (x, w) :: t)
    else if a = x then (if v = 0 then t else (a, v) :: t)
    else (x, w) :: Memory.write t a v

/-- Every address of the list lies above b, rising, and no byte is zero. -/
def Memory.wfFrom : Nat → Memory → Bool
  | _, [] => true
  | b, (x, v) :: t => decide (b ≤ x) && decide (v ≠ 0) && Memory.wfFrom (x + 1) t

/-- The canonical form: addresses strictly rising, no entry equal to what an unlisted address reads as. -/
def Memory.wf (m : Memory) : Bool := Memory.wfFrom 0 m

/-- n bytes, little-endian. -/
def Memory.load (m : Memory) (a : Nat) : Nat → Nat
  | 0 => 0
  | n + 1 => (m.read a).toNat + 256 * Memory.load m (a + 1) n

/-- The low n bytes of v stored, little-endian. -/
def Memory.store (m : Memory) (a : Nat) : Nat → Nat → Memory
  | 0, _ => m
  | n + 1, v => Memory.store (m.write a (BitVec.ofNat 8 (v % 256))) (a + 1) n (v / 256)

/-- The bytes of a range. -/
def Memory.bytes (m : Memory) (a : Nat) : Nat → List Byte
  | 0 => []
  | n + 1 => m.read a :: Memory.bytes m (a + 1) n

/-- A list of bytes written from an address. -/
def Memory.putBytes (m : Memory) (a : Nat) : List Byte → Memory
  | [] => m
  | b :: bs => Memory.putBytes (m.write a b) (a + 1) bs

/-- A range set to zero. -/
def Memory.clear (m : Memory) (a n : Nat) : Memory := m.filter fun c => c.1 < a || a + n ≤ c.1

/-! ### Streams and registers -/

/-- A stream of the vcore in focus. -/
def State.stream (s : State) (st : StreamId) : Stream :=
  match st with
  | .s => s.vc.sS
  | .v => s.vc.sV
  | .m => s.vc.sM
  | .c => s.vc.sC

def Vcore.setStream (v : Vcore) (st : StreamId) (x : Stream) : Vcore :=
  match st with
  | .s => { v with sS := x }
  | .v => { v with sV := x }
  | .m => { v with sM := x }
  | .c => { v with sC := x }

def Vcore.stream (v : Vcore) (st : StreamId) : Stream :=
  match st with
  | .s => v.sS
  | .v => v.sV
  | .m => v.sM
  | .c => v.sC

def State.setStream (s : State) (st : StreamId) (x : Stream) : State := { s with vc := s.vc.setStream st x }

def State.setRegs (s : State) (r : Regs) : State := { s with vc := { s.vc with regs := r } }

def State.setStore (s : State) (x : Store) : State := { s with vc := { s.vc with st := x } }

/-- The errors held in the stores of the core in focus. -/
def State.setMarks (s : State) (m : Marks) : State := s.setStore { s.vc.st with marks := m }

def State.setDev (s : State) (d : Device) : State := { s with dev := d }

/-- s register i; s0 reads zero (R199). -/
def State.getS (s : State) (i : BitVec 6) : Word := if i = 0 then 0 else s.vc.regs.s.get i.toFin

/-- s register i written; a write to s0 is discarded (R199). -/
def State.setS (s : State) (i : BitVec 6) (v : Word) : State :=
  if i = 0 then s else s.setRegs { s.vc.regs with s := s.vc.regs.s.set i.toFin v }

/-- f register i; the decoder refuses an index above 31 (R433). -/
def State.getF (s : State) (i : BitVec 6) : FReg := s.vc.regs.f.get (i.setWidth 5).toFin

def State.setF (s : State) (i : BitVec 6) (v : FReg) : State :=
  s.setRegs { s.vc.regs with f := s.vc.regs.f.set (i.setWidth 5).toFin v }

def State.getC (s : State) (i : BitVec 3) : Bool := s.vc.regs.c.get i.toFin

def State.setC (s : State) (i : BitVec 3) (v : Bool) : State :=
  s.setRegs { s.vc.regs with c := s.vc.regs.c.set i.toFin v }

def State.getB (s : State) (i : BitVec 3) : Word := s.vc.regs.b.get i.toFin

def State.setB (s : State) (i : BitVec 3) (v : Word) : State :=
  s.setRegs { s.vc.regs with b := s.vc.regs.b.set i.toFin v }

def State.getK (s : State) (i : BitVec 4) : Word := s.vc.regs.k.get i.toFin

def State.setK (s : State) (i : BitVec 4) (v : Word) : State :=
  s.setRegs { s.vc.regs with k := s.vc.regs.k.set i.toFin v }

def State.getM (s : State) (i : BitVec 6) : BitVec 16 := s.vc.regs.m.get i.toFin

def State.setM (s : State) (i : BitVec 6) (v : BitVec 16) : State :=
  s.setRegs { s.vc.regs with m := s.vc.regs.m.set i.toFin v }

/-- Flags ORed into a stream's FFLAGS (R74, R75). -/
def State.orFlags (s : State) (st : StreamId) (fl : BitVec 7) : State :=
  s.setStream st { s.stream st with fflags := (s.stream st).fflags ||| fl }

/-- The address of a stream's next word: of a word that CFOLL delivered, its CFOLL (R294, R415). -/
def State.wordPc (s : State) (st : StreamId) : Word :=
  match st, s.vc.st.follow with
  | .m, f :: _ => f.pc
  | _, _ => (s.stream st).pc

/-- WSTAT of a stream that waits (R313). At a meeting point the stream waits for that point: a delivered word that stalls there
changes nothing of the report. -/
def State.setWait (s : State) (st : StreamId) (cause : BitVec 3) (idx : BitVec 6) (n : BitVec 16) : State :=
  s.setStream st { s.stream st with
    wait := if (s.stream st).point.isSome then (s.stream st).wait else ⟨true, (s.wordPc st).setWidth 32, cause, idx, n⟩ }

def waitNone : Wait := ⟨false, 0, 0, 0, 0⟩

/-! ### Every vcore of the device -/

/-- A function applied to every vcore, the one in focus included. -/
def State.mapVcores (s : State) (f : Vcore → Vcore) : State := { s with vc := f s.vc, others := s.others.map f }

/-- All vcores. -/
def State.vcores (s : State) : List Vcore := s.vc :: s.others

/-- The first vcore of a list that satisfies p, and the rest. -/
def pullVcore (p : Vcore → Bool) : List Vcore → Option (Vcore × List Vcore)
  | [] => none
  | v :: t =>
    if p v then some (v, t)
    else
      match pullVcore p t with
      | none => none
      | some (x, r) => some (x, v :: r)

/-- Focus moved to the first vcore that satisfies p, if there is one. -/
def State.focusBy (s : State) (p : Vcore → Bool) : Option State :=
  if p s.vc then some s
  else
    match pullVcore p s.others with
    | none => none
    | some (v, r) => some { s with vc := v, others := s.vc :: r }

/-- The vcore that occupies a core. -/
def Vcore.onCore (n : Nat) (v : Vcore) : Bool := v.res == .core n

/-- Focus moved to the vcore on a core. -/
def State.focusCore (s : State) (n : Nat) : Option State := s.focusBy (Vcore.onCore n)

/-- Focus moved to vcore `vcid` of a node. -/
def State.focusOn (s : State) (node : Nat) (vcid : BitVec 10) : Option State :=
  s.focusBy fun v => v.res != .absent && v.id.node == node && v.id.vcid == vcid

/-- The physical core of the vcore in focus; 0 where it occupies none. -/
def State.coreId (s : State) : Nat :=
  match s.vc.res with
  | .core n => n
  | _ => 0

/-- The node of a key. -/
def State.node? (s : State) (key : Nat) : Option Node := s.dev.sched.nodes.find? fun n => n.key == key

/-- A node replaced, by its key. -/
def State.setNode (s : State) (n : Node) : State :=
  { s with dev := { s.dev with sched := { s.dev.sched with
      nodes := s.dev.sched.nodes.map fun x => if x.key == n.key then n else x } } }

/-- A selection pass is due: cores have been freed, or a tick has begun (R335). -/
def State.selectDue (s : State) : State := { s with dev := { s.dev with sched := { s.dev.sched with due := true } } }

/-- The first instruction of a node executes: its START (R332). -/
def noteStart (s : State) : State :=
  match s.node? s.vc.id.node with
  | some n => if n.started && n.start.isNone then s.setNode { n with start := some s.dev.time } else s
  | none => s

/-- Non-idempotent operations are noted until the next commit (R58). -/
def State.setNi (s : State) : State := { s with vc := { s.vc with ni := true } }

/-! ### Faults -/

/-- What a fault reports beside where it was met: status, ADDR, INFO[31:0], and the device of a remote access; and the home
or SCRATCH block whose data failed, for the error registers (R477). -/
structure FaultInfo where
  status : BitVec 16
  addr : Word
  info : BitVec 32
  res : Bool
  remote : BitVec 9
  block : Option Nat
  deriving DecidableEq, Repr, Inhabited

/-- The statuses that are resumable (R407, R430, R451 to R453, R487, R502). -/
def resumable (st : BitVec 16) : Bool :=
  [0x0001, 0x0002, 0x1007, 0x1012, 0x1013, 0x2002, 0x2003, 0x2004, 0x2005, 0x2006, 0x2008, 0x200B, 0x3002,
    0x5001, 0x5002, 0x5003, 0x5005, 0x5008, 0x7003].contains st.toNat

/-- A fault with the resumability of its table. -/
def mkFault (status : BitVec 16) (addr : Word := 0) (info : BitVec 32 := 0) : FaultInfo :=
  ⟨status, addr, info, resumable status, 0, none⟩

/-- The fault reported of two: the lower status (R408). -/
def lowerFault (a b : FaultInfo) : FaultInfo := if b.status.toNat < a.status.toNat then b else a

/-- The lowest status of a list, the first of equals (R408, R455). -/
def firstFault : List FaultInfo → Option FaultInfo
  | [] => none
  | f :: fs =>
    match firstFault fs with
    | none => some f
    | some g => some (lowerFault f g)

/-- STREAM of a record (R416). -/
def StreamId.code : StreamId → Nat
  | .s => 0
  | .v => 1
  | .m => 2
  | .c => 3

/-- Where a fault stops its stream: the word, where the stream resumes, and how the record describes the stop (R409, R415,
R416). -/
structure StopPoint where
  pc : Word
  npc : Word
  ix : BitVec 32
  after : Bool
  ds : Bool
  taken : Bool
  tgt : Word
  follow : Bool
  deriving DecidableEq, Repr, Inhabited

/-- A 64-byte record from its eight dwords (R415). -/
def mkRecord (hdr who pc npc addr tgt info time : Word) : Rec64 :=
  time ++ info ++ tgt ++ addr ++ npc ++ pc ++ who ++ hdr

/-- HDR (R416); PHASE and IMG are written at delivery. -/
def mkHdr (stream : Nat) (res after ds taken ni follow : Bool) (ctx : BitVec 16) (remote : BitVec 9)
    (status : BitVec 16) : Word :=
  (BitVec.ofNat 64 stream <<< 56) ||| bit64 res 55 ||| bit64 after 54 ||| bit64 ds 53 ||| bit64 taken 52
  ||| bit64 ni 51 ||| bit64 follow 49 ||| (zx ctx <<< 32) ||| (zx remote <<< 23) ||| zx status

/-- WHO (R416). -/
def mkWho (seq : BitVec 32) (queue : Nat) (vcid : BitVec 10) (fdom : BitVec 12) : Word :=
  (zx seq <<< 32) ||| (zx (BitVec.ofNat 10 queue) <<< 22) ||| (zx vcid <<< 12) ||| zx fdom

/-- FSTOP bit d set: a stop of the domain begins (R413, R418). -/
def addStop (l : List Stop) (d : BitVec 12) : List Stop :=
  if l.any fun x => x.fdom == d then l else l ++ [⟨d, 0, false, false, []⟩]

/-- A fault domain stopped: FSTOP set, every vcore of the domain stopped, polite requests of its nodes and cutbacks that waited for a
commit withdrawn (R413, R414; log 18); while the host port is down, the side-band has a PLDM event of it (R506). -/
def stopDomain (s : State) (d : BitVec 12) : State :=
  let mark (v : Vcore) : Vcore :=
    if v.res != .absent && v.res != .complete && v.id.fdom == d then
      { v with
        stopped := true
        late := if v.stopped then v.late else [.s, .v, .m, .c]
        stoppedAt := if v.stopped then v.stoppedAt else s.dev.time
        cutbackDue := false
        regs := { v.regs with ystat := false } }
    else v
  let s1 := s.mapVcores mark
  let inDomain (n : Node) : Bool := s.vcores.any fun v => v.id.node == n.key && v.res != .absent && v.id.fdom == d
  let event := !s.dev.host.portUp && !(s.dev.faults.stops.any fun x => x.fdom == d)
  { s1 with dev := { s1.dev with
      host := if event then { s1.dev.host with sideband := s1.dev.host.sideband ++ [Config.pldmReply (bytesLE 2 d.toNat)] } else s1.dev.host
      sched := { s1.dev.sched with
        nodes := s1.dev.sched.nodes.map fun n => if inDomain n then { n with polite := none } else n },
      faults := { s1.dev.faults with stops := addStop s1.dev.faults.stops d } } }

/-- The timer brought to a time: it never steps backward, and its count of 64 bits holds at its greatest value (R362; log 3). -/
def advanceTime (now t : Nat) : Nat := max now (min t (2 ^ 64 - 1))

/-- A record handed to the fault-queue unit (R420). -/
def addRecord (s : State) (r : Record) : State :=
  { s with dev := { s.dev with faults := { s.dev.faults with records := s.dev.faults.records ++ [r] } } }

/-- The record of a fault of the vcore in focus (R415 to R417). -/
def vcoreRecord (s : State) (st : StreamId) (p : StopPoint) (f : FaultInfo) : Record :=
  let id := s.vc.id
  let (seq, q) := match s.node? id.node with
    | some n => (n.seq, n.queue)
    | none => (0, 0)
  ⟨mkRecord
      (mkHdr st.code f.res p.after p.ds p.taken s.vc.ni p.follow id.ctx f.remote f.status)
      (mkWho seq q id.vcid id.fdom) p.pc p.npc f.addr p.tgt (p.ix ++ f.info) (BitVec.ofNat 64 s.dev.time),
    id.fdom, false, some (id.node, id.vcid), none⟩

/-- A stream of the vcore in focus has reached its stop point (R413). -/
def stopStream (s : State) (st : StreamId) : State :=
  { s with vc := { s.vc with late := s.vc.late.filter (· != st) } }

/-- A stream of a stopped vcore that has not reached its stop point yet (R413). -/
def stopping (s : State) (v : Vcore) (st : StreamId) : Bool :=
  v.late.contains st && decide (s.dev.time ≤ v.stoppedAt + 10000)

/-- TAKING A FAULT: the record is built and queued, the stream is left at the address where it resumes, and the fault domain
stops, this stream at once (R409, R413, R415, R423). -/
def takeFault (s : State) (st : StreamId) (p : StopPoint) (f : FaultInfo) : State :=
  let r := vcoreRecord s st p f
  let s1 := s.setStream st { s.stream st with pc := p.npc, wait := waitNone }
  stopStream (stopDomain (addRecord s1 r) s.vc.id.fdom) st

/-- Whether the S stream is in a delay slot (R222). -/
def Vcore.inSlot (v : Vcore) : Bool :=
  match v.delay with
  | some t => v.sS.pc == t.pc + 4
  | none => false

/-- The stop point of a word that has had no effect: the stream stays at it (R409, R412); a word of the follow-on queue comes
before every other word of the M stream, and its record names its CFOLL (R294, R415). -/
def stopBefore (s : State) (st : StreamId) : StopPoint :=
  let x := s.stream st
  match st, s.vc.inSlot, s.vc.delay, s.vc.st.follow with
  | .s, true, some t, _ => ⟨x.pc, x.pc, x.cmdix, false, true, t.taken, t.target, false⟩
  | .m, _, _, f :: _ => ⟨f.pc, x.pc, x.cmdix, false, false, false, 0, true⟩
  | _, _, _, _ => ⟨x.pc, x.pc, x.cmdix, false, false, false, 0, false⟩

/-- A fault before the word's effect. -/
def faultBefore (s : State) (st : StreamId) (f : FaultInfo) : State := takeFault s st (stopBefore s st) f

/-- A fault of a word that has completed: `s0` is the state before it, `s` the state after it (R409). -/
def faultAfter (s0 s : State) (st : StreamId) (f : FaultInfo) : State :=
  let b := stopBefore s0 st
  takeFault s st { b with npc := (s.stream st).pc, after := true } f

/-! ### Retiring a word -/

/-- Word size of a stream in bytes (R170). -/
def StreamId.size : StreamId → Word
  | .s => 4
  | .v => 8
  | .m => 8
  | .c => 16

/-- The S stream after a word: past it, or past a delay slot to where the transfer goes (R222). A taken transfer to a
misaligned target is kept, so that the next fetch can report it (R436). -/
def sRetire (s : State) : State :=
  let x := s.vc.sS
  let y := { x with cmdix := x.cmdix + 1, wait := waitNone }
  match s.vc.inSlot, s.vc.delay with
  | true, some t =>
    if t.taken then
      let d := if t.target.extractLsb' 0 2 = 0 then none else some t
      { s with vc := { s.vc with sS := { y with pc := t.target }, delay := d } }
    else { s with vc := { s.vc with sS := { y with pc := x.pc + 4 }, delay := none } }
  | _, _ => { s with vc := { s.vc with sS := { y with pc := x.pc + 4 }, delay := none } }

/-- The result of an S word that completes. -/
def sNext (s : State) : Out := .next (sRetire s)

/-- The result of an S word that faults before its effect. -/
def sFault (s : State) (f : FaultInfo) : Out := .next (faultBefore s .s f)

/-- An S word that writes one s register. -/
def sWrite (s : State) (d : BitVec 6) (v : Word) : Out := sNext (s.setS d v)

/-- An S word that must wait: it stays, with WSTAT set (R313). -/
def sStall (s : State) (cause : BitVec 3) (idx : BitVec 6) (n : BitVec 16) : Out := .next (s.setWait .s cause idx n)

end Sys2Proof.Machine
end

