-- ==== Sys2Proof/Machine/Home.lean ====
section
/-! DEFINITION. The home of an address: where device offsets lie (spec/01 R15, R20; spec/05 R112, R113, R511), the L2 slices (R114, R372),
check values (R123, R124), what HBM holds of a protected block and its counters (spec/16 R372, R373), the error registers, poison and
the data checks (spec/22 R453, R465, R471 to R475, R477). `State.mem` holds the plaintext at the point of coherence (log 7). -/

namespace Sys2Proof.Machine

/-- An entry of a vector replaced where the index is in range. -/
def vecSet {α : Type} {n : Nat} (v : Vector α n) (i : Nat) (x : α) : Vector α n := if h : i < n then v.set i x else v

/-! ### Places of the device (R15, R20, R112, R113) -/

def hbmSize : Nat := 0x9000000000
def quarterSize : Nat := 0x2400000000
def parkBase : Nat := 0x100000000000
def parkSize : Nat := 0x20000000000
def regBase : Nat := 0x7F0000000000
def regSize : Nat := 0x10000000000

/-- This device's number. -/
def State.devId (s : State) : Nat := s.dev.host.devnum.toNat

/-- The full PA of a block of this device. -/
def State.blockPa (s : State) (b : Nat) : Nat := s.devId * 2 ^ 47 + b * 256

/-- A device offset that lies in the register space. -/
def isRegSpace (o : Nat) : Bool := regBase ≤ o && o < regBase + regSize

/-- A device offset in the park tier. -/
def isPark (o : Nat) : Bool := parkBase ≤ o && o < parkBase + parkSize

/-- A device offset inside the ranges of R112. -/
def inRanges (o : Nat) : Bool := o < hbmSize || isPark o || isRegSpace o

/-- The quarter of an HBM offset (R112). -/
def quarterOf (o : Nat) : Nat := o / quarterSize

/-- Where an HBM offset lies: stack, channel of the stack, byte of the channel, home slice. -/
structure HbmPlace where
  stack : Nat
  channel : Nat
  byte : Nat
  slice : Nat
  deriving DecidableEq, Repr, Inhabited

/-- The interleave of R113. -/
def hbmPlace (off : Nat) : HbmPlace :=
  let q := quarterOf off
  let o := off % quarterSize
  let g := o / 256
  let c := g % 96
  let channel := c % 32
  ⟨3 * q + c / 32, channel, g / 96 * 256 + o % 256, 12 * q + 4 * (c / 32) + channel / 8⟩

/-- A slice owns a channel of a stack (R20): slice 4 * stack + j owns channels 8j to 8j + 7. -/
def sliceOwns (slice stack channel : Nat) : Bool := slice / 4 == stack && slice % 4 == channel / 8

/-- The first park-tier offset of a quarter's four channels. The spec gives the park tier no map from address to channel: the
model lays the 16 channels of 128 GiB out in the order of their numbers (DESIGN CHOICE, log 7). -/
def parkStart (q : Nat) : Nat := parkBase + q * (parkSize / 4)

/-- The park-tier channel 4q + t of an offset (R20; log 7). -/
def parkChannel (o : Nat) : Nat := (o - parkBase) / 2 ^ 37

/-- The quarter of an offset of HBM or the park tier. -/
def tierQuarter (o : Nat) : Nat := if isPark o then parkChannel o / 4 else quarterOf o

/-- The voltage column of a core, eight to a chiplet: column 2l + floor(i / 4) of its chiplet (R15). -/
def columnOf (core : Nat) : Nat := core / 32 * 8 + (2 * (core % 32 / 8) + core % 8 / 4)

/-- Chiplet, device cluster and quarter of a core (R15). -/
def chipOf (core : Nat) : Nat := core / 32
def quarterOfCore (core : Nat) : Nat := core / 64
def clusterIdOf (core : Nat) : Nat := core / 8

/-- A device offset that is backed and whose quarter is in service (R112, R499). -/
def State.backed (s : State) (o : Nat) : Bool :=
  (o < hbmSize && !(s.dev.sched.deadQuarters.toList.getD (quarterOf o) false)) || isPark o || isRegSpace o

/-- The first offset of a quarter's carve-out, and the first beyond it (R511). -/
def State.carveStart (s : State) (q : Nat) : Nat := q * quarterSize + (144 - (s.dev.bedrock.record.carve.toList.getD q 2).toNat) * 2 ^ 30

def carveEnd (q : Nat) : Nat := (q + 1) * quarterSize

/-- The carve-outs at the top of each quarter's HBM (R511). -/
def State.inCarve (s : State) (o : Nat) : Bool := o < hbmSize && s.carveStart (quarterOf o) ≤ o

/-- The state of a 64 KiB frame (R366). -/
def State.frame (s : State) (n : Nat) : Frame :=
  match s.dev.bedrock.frames.find? fun x => x.1 == n with
  | some x => x.2
  | none => s.dev.bedrock.frameDefault

/-- An offset of a frame that is protected as ENC-IR, with its world and compartment (R372). -/
def State.encIr (s : State) (off : Nat) : Option (Nat × Nat) :=
  match s.frame (off / 2 ^ 16) with
  | .world w k p _ => if p = 2 then some (w, k) else none
  | _ => none

/-! ### Error registers (R477) and poison (R474) -/

/-- A counter of 32 bits that holds at its maximum (R477). -/
def satInc (x : BitVec 32) : BitVec 32 := if x = 0xFFFFFFFF then x else x + 1

/-- MELOG takes an event when it holds none (R477); pa is the full PA. -/
def logEvent (s : State) (src kind : Nat) (pa : Nat) : State :=
  if s.dev.faults.melog.getLsbD 56 then s
  else
    { s with dev := { s.dev with faults := { s.dev.faults with
        melog := (BitVec.ofNat 64 src <<< 60) ||| (BitVec.ofNat 64 kind <<< 57) ||| bit64 true 56
          ||| (BitVec.ofNat 64 (pa / 256 % 2 ^ 48) <<< 8)
        melogAt := s.dev.time } } }

def countUe (s : State) : State :=
  { s with dev := { s.dev with faults := { s.dev.faults with ue := satInc s.dev.faults.ue } } }

def countCe (s : State) : State :=
  { s with dev := { s.dev with faults := { s.dev.faults with ce := satInc s.dev.faults.ce } } }

def setErrors (s : State) (e : Errors) : State := { s with dev := { s.dev with errors := e } }

/-! ### ECC (R471) -/

/-- A bit flipped: a second flip of it restores it (R478). -/
def Flips.toggle (f : Flips) (b : Nat) : Flips := if f.contains b then f.filter (· != b) else b :: f

/-- A bit at b lies in an ECC word, of w bits, that some of n bits from lo belong to. -/
def inWords (w lo n b : Nat) : Bool := decide (0 < n) && decide (lo / w ≤ b / w) && decide (b / w ≤ (lo + n - 1) / w)

/-- The flips in the ECC words that n bits from lo touch, and those outside them. -/
def Flips.within (f : Flips) (w lo n : Nat) : Flips := f.filter (inWords w lo n)

def Flips.outside (f : Flips) (w lo n : Nat) : Flips := f.filter fun b => !inWords w lo n b

/-- Two symbols of one ECC word are wrong: the error is detected and not corrected (R471). Errors of three and more symbols, for which
the spec states no outcome, are taken as detected too (DESIGN CHOICE, log 34). -/
def Flips.bad (f : Flips) (sym w : Nat) : Bool := f.any fun x => f.any fun y => x / w == y / w && x / sym != y / sym

/-- The number of ECC words with an error. -/
def Flips.words (f : Flips) (w : Nat) : Nat := (f.map (· / w)).eraseDups.length

/-- The ECC of HBM and the park tier has symbols of 8 bits in words of 32 bytes, that of L2 words of 16 bytes, that of the core store and
the slab store words of 8 bytes (R471). -/
def hbmWord : Nat := 256
def l2Word : Nat := 128
def coreWord : Nat := 64

/-- The flips in a block. -/
def Flips.block (f : Flips) (b : Nat) : Flips := f.within 2048 (b * 2048) 2048

/-- The flips outside a block. -/
def Flips.without (f : Flips) (b : Nat) : Flips := f.outside 2048 (b * 2048) 2048

/-- Uncorrectable in HBM or the park tier. -/
def Errors.hbmUe (e : Errors) (b : Nat) : Bool := (e.flips.block b).bad 8 hbmWord

/-- A slab row holds an uncorrectable error (R471). -/
def Marks.rowUe (m : Marks) (row : Nat) : Bool := (m.rowFlips.within coreWord (row * 16384) 16384).bad 1 coreWord

/-- A block poisoned once; what was found in it is no longer held apart (R474). -/
def addPoison (s : State) (b : Nat) : State :=
  let e := s.dev.errors
  setErrors s { e with
    poison := if e.poison.contains b then e.poison else e.poison ++ [b]
    flips := e.flips.without b
    l2Flips := e.l2Flips.without b
    badCheck := e.badCheck.filter fun x => x.1 != b }

/-! ### Check values (R123, R124) -/

/-- How the stored check value of a block differs from that of its bytes; 0 where it matches. -/
def State.checkMask (s : State) (b : Nat) : BitVec 32 := ((s.dev.errors.badCheck.find? fun x => x.1 == b).map (·.2)).getD 0

/-- The check value that travels with a block: CRC-32C of its plaintext, but for bits that have been damaged. -/
def State.storedCheck (s : State) (b : Nat) : BitVec 32 := crc32c (s.mem.bytes (b * 256) 256) ^^^ s.checkMask b

/-! ### Keys and counters (R372, R373, R380) -/

/-- A compartment of a world. -/
def World.comp (w : World) (c : Nat) : Comp := w.comps.toList.getD c compOff

def State.world (s : State) (w : Nat) : World := s.dev.bedrock.worlds.toList.getD w worldOff

def setBedrock (s : State) (b : Bedrock) : State := { s with dev := { s.dev with bedrock := b } }

/-- A world replaced; nothing for a number out of range. -/
def setWorld (s : State) (w : Nat) (x : World) : State := setBedrock s { s.dev.bedrock with worlds := vecSet s.dev.bedrock.worlds w x }

def setComp (s : State) (w c : Nat) (x : Comp) : State := setWorld s w { s.world w with comps := vecSet (s.world w).comps c x }

/-- Keys from 160 bytes. -/
def keysOf (b : List Byte) : CompKeys := ⟨b.take 64, (b.drop 64).take 32, (b.drop 96).take 32, (b.drop 128).take 32⟩

/-- Fresh keys drawn (R380). -/
def drawKeys (s : State) : CompKeys × State :=
  let (b, d) := s.dev.bedrock.drbg.generate 160
  (keysOf b, setBedrock s { s.dev.bedrock with drbg := d })

/-- A frame belongs to a compartment. -/
def State.frameOf (s : State) (w c n : Nat) : Bool :=
  match s.frame n with
  | .world v k _ _ => v == w && k == c
  | _ => false

/-- The line that a slice holds. -/
def State.l2Line (s : State) (b : Nat) : Option L2Line := s.dev.l2.find? fun l => l.block == b

/-! ### What HBM holds (R372, R373) -/

/-- The plaintext of a block of HBM: that of memory, but where L2 holds a dirty line of it. -/
def hbmPlain (s : State) (b : Nat) : List Byte :=
  match s.l2Line b with
  | some l => if l.dirty then l.under else s.mem.bytes (b * 256) 256
  | none => s.mem.bytes (b * 256) 256

/-- The counter block of part j of a line. The order of its bytes is the model's: little-endian, as R372 has the XTS tweak (DESIGN
CHOICE, log 11). -/
def ctrBlock (line ctr j : Nat) : List Byte := bytesLE 16 (line * 2 ^ 78 + ctr * 2 ^ 22 + j * 2 ^ 20)

/-- A line of 64 bytes under ENC-IR. -/
def encLine (k : CompKeys) (line ctr : Nat) (p : List Byte) : List Byte :=
  (List.range 4).flatMap fun j => xorBytes ((p.drop (16 * j)).take 16) (aes256 k.enc (ctrBlock line ctr j))

/-- The MAC of a line of ciphertext; PA[55:6] and the counter fill 8 bytes each (log 11). -/
def lineMac (k : CompKeys) (line ctr : Nat) (c : List Byte) : Nat :=
  let h := aes256 k.mac (List.replicate 16 0)
  natLE (aes256 k.mac (ghash h (c ++ bytesLE 8 line ++ bytesLE 8 ctr))) % 2 ^ 64

/-- Levels of counters between a line and the root of a quarter: 8^11 lines of 64 bytes cover 144 GiB. -/
def treeLevels : Nat := 11

/-- The counters of a level: the roots are in Bedrock's own store. -/
def levelOfTree (b : Bedrock) (level : Nat) : List Counter := if level < treeLevels then b.counters else b.roots

/-- Two counters have one place in one tree. -/
def samePlace (x y : Counter) : Bool :=
  x.world == y.world && x.comp == y.comp && x.quarter == y.quarter && x.level == y.level && x.index == y.index

/-- A counter of a tree; one that has counted nothing is not listed. -/
def findCounter (b : Bedrock) (w c q level index : Nat) : Option Counter :=
  (levelOfTree b level).find? (samePlace ⟨w, c, q, level, index, 0, 0⟩)

def counterAt (b : Bedrock) (w c q level index : Nat) : Nat := ((findCounter b w c q level index).map (·.count)).getD 0

/-- A counter put in its place. -/
def putCounter (b : Bedrock) (x : Counter) : Bedrock :=
  if x.level < treeLevels then { b with counters := x :: b.counters.filter fun y => !samePlace x y }
  else { b with roots := x :: b.roots.filter fun y => !samePlace x y }

/-- The 64 bytes of a counter block: 8 counters of a level (log 11). -/
def counterBytes (b : Bedrock) (w c q level index : Nat) : List Byte :=
  (List.range 8).flatMap fun i => bytesLE 8 (counterAt b w c q level (8 * index + i))

/-- The MAC of a counter block under its parent counter, which the spec does not write out: that of a line, with the block's place for
its address (DESIGN CHOICE, log 11). -/
def blockMac (k : CompKeys) (q level index parent : Nat) (bytes : List Byte) : Nat :=
  lineMac k (q * 2 ^ 60 + level * 2 ^ 52 + index) parent bytes

/-- The first line of a quarter, in lines of 64 bytes of device offset. -/
def quarterLine (q : Nat) : Nat := q * quarterSize / 64

/-- A line written back with 64 bytes of plaintext: its counter rises, it is enciphered and its MAC stored under the new counter; so for
the counter blocks on its path, up to the root (R372, R373). -/
def countLine (s : State) (w c line : Nat) (p : List Byte) : State :=
  let k := ((s.world w).comp c).keys
  let q := quarterOf (line * 64)
  let i := line - quarterLine q
  let pa := s.devId * 2 ^ 41 + line
  let n := counterAt s.dev.bedrock w c q 0 i + 1
  let b0 := putCounter s.dev.bedrock ⟨w, c, q, 0, i, n, lineMac k pa n (encLine k pa n p)⟩
  let up (b : Bedrock) (lv : Nat) : Bedrock :=
    let j := i / 8 ^ (lv + 1)
    let m := counterAt b w c q (lv + 1) j + 1
    putCounter b ⟨w, c, q, lv + 1, j, m, blockMac k q (lv + 1) j m (counterBytes b w c q lv j)⟩
  setBedrock s ((List.range treeLevels).foldl up b0)

/-- Counters of a compartment. -/
def State.counts (_s : State) (w c : Nat) (x : Counter) : Bool := x.world == w && x.comp == c

/-- The counter tree of a compartment rebuilt: its counters begin again, and the lines that its frames had written back are enciphered
under them (R373, R467). -/
def rebuildTree (s : State) (w c : Nat) : State :=
  let b := s.dev.bedrock
  let lines := (b.counters.filter fun x => s.counts w c x && x.level == 0).map fun x => quarterLine x.quarter + x.index
  let s1 := setBedrock s { b with
    counters := b.counters.filter fun x => !s.counts w c x
    roots := b.roots.filter fun x => !s.counts w c x }
  (lines.filter fun l => s.encIr (l * 64) == some (w, c)).foldl (fun t l =>
    countLine t w c l (((hbmPlain s (l / 4)).drop (64 * (l % 4))).take 64)) s1

/-- A compartment re-keyed: fresh keys for its frames, which are enciphered anew (R373). The park key stays, so that what is sealed under
it outside the frames opens as before (R375). -/
def rekeyComp (s : State) (w c : Nat) : State :=
  let (k, s1) := drawKeys s
  let cm := (s1.world w).comp c
  rebuildTree (setComp s1 w c { cm with keys := { k with park := cm.keys.park } }) w c

/-- The last count that a counter may take (R373). -/
def countLimit : Nat := 2 ^ 56 - 2

/-- A block of an ENC-IR frame written back to HBM with its plaintext: its four lines are counted, the compartment re-keyed first where a
counter would reach 2^56 − 1 (R373). -/
def countBlock (s : State) (b : Nat) (p : List Byte) : State :=
  match s.encIr (b * 256) with
  | none => s
  | some (w, c) =>
    let full := (s.dev.bedrock.counters ++ s.dev.bedrock.roots).any fun x => s.counts w c x && decide (countLimit ≤ x.count)
    let s1 := if full then rekeyComp s w c else s
    (List.range 4).foldl (fun t i => countLine t w c (4 * b + i) ((p.drop (64 * i)).take 64)) s1

/-- The bytes of a block as HBM holds them: as they are, under XTS, or in counter mode. -/
def hbmBytes (s : State) (b : Nat) : List Byte :=
  let p := hbmPlain s b
  let pa := s.blockPa b
  let q := quarterOf (b * 256)
  match s.frame (b * 256 / 2 ^ 16) with
  | .world w c prot _ =>
    let k := ((s.world w).comp c).keys
    if prot = 1 then xtsEncrypt k.xts (pa / 256) p
    else if prot = 2 then
      (List.range 4).flatMap fun i =>
        encLine k (pa / 64 + i) (counterAt s.dev.bedrock w c q 0 (4 * b + i - quarterLine q)) ((p.drop (64 * i)).take 64)
    else p
  | _ => p

/-- Bytes with bits flipped. -/
def flipBytes (l : List Byte) (bits : List Nat) : List Byte :=
  l.zipIdx.map fun x => bits.foldl (fun b i => if i / 8 = x.2 then b ^^^ ((1 : Byte) <<< (i % 8)) else b) x.1

/-- The bytes of a block as the stack delivers them: what its ECC cannot correct comes as it is (R471). -/
def readHbm (s : State) (b : Nat) : List Byte :=
  let f := s.dev.errors.flips.block b
  flipBytes (hbmBytes s b)
    ((f.filter fun x => f.any fun y => x / hbmWord == y / hbmWord && x / 8 != y / 8).map fun x => x - b * 2048)

/-- The MAC of a line that is read differs from the one stored under its counter; a line never written back is one of zeros. -/
def lineFails (s : State) (w c line : Nat) (bytes : List Byte) : Bool :=
  let k := ((s.world w).comp c).keys
  let q := quarterOf (line * 64)
  let pa := s.devId * 2 ^ 41 + line
  match findCounter s.dev.bedrock w c q 0 (line - quarterLine q) with
  | some x => x.mac != lineMac k pa x.count bytes
  | none => lineMac k pa 0 (encLine k pa 0 (List.replicate 64 0)) != lineMac k pa 0 bytes

/-- A counter block on the path from a line to the root fails its MAC. -/
def pathFails (s : State) (w c line : Nat) : Bool :=
  let b := s.dev.bedrock
  let k := ((s.world w).comp c).keys
  let q := quarterOf (line * 64)
  let i := line - quarterLine q
  (List.range treeLevels).any fun lv =>
    let j := i / 8 ^ (lv + 1)
    let bytes := counterBytes b w c q lv j
    match findCounter b w c q (lv + 1) j with
    | some x => x.mac != blockMac k q (lv + 1) j x.count bytes
    | none => bytes.any (· != 0)

/-! ### L2 (R114, R372) -/

/-- Ways of a slice. -/
def l2Ways : Nat := 16

/-- The set of a block within its home slice. The spec gives 2,048 sets and no index: the model counts a slice's blocks in the
order of their channel bytes (DESIGN CHOICE, log 7; no program sees it). -/
def l2Set (b : Nat) : Nat :=
  let p := hbmPlace (b * 256)
  (p.byte / 256 * 8 + p.channel % 8) % 2048

/-- Two blocks that compete for the ways of one set. -/
def l2Rivals (a b : Nat) : Bool := (hbmPlace (a * 256)).slice == (hbmPlace (b * 256)).slice && l2Set a == l2Set b

def State.inL2 (s : State) (b : Nat) : Bool := s.dev.l2.any fun l => l.block == b

/-- A way that no line of the block's set takes. -/
def l2FreeWay (s : State) (b : Nat) : Option Nat :=
  (List.range l2Ways).find? fun w => !(s.dev.l2.any fun l => l.way == w && l2Rivals l.block b)

def setL2 (s : State) (l : List L2Line) : State := { s with dev := { s.dev with l2 := l } }

/-- A block stored into HBM with its plaintext: its ECC is new, and its ENC-IR lines are counted (R373, R471). -/
def hbmStore (s : State) (b : Nat) (p : List Byte) : State :=
  let s1 := countBlock s b p
  setErrors s1 { s1.dev.errors with flips := s1.dev.errors.flips.without b }

/-- A block written at its home, memory with the write made being `new`: dirty in L2 where the slice holds it or has room, else stored at
once. DEVICE accesses and the park tier allocate nothing (R114, R116). -/
def l2Write (s : State) (alloc : Bool) (new : Memory) (b : Nat) : State :=
  let under := s.mem.bytes (b * 256) 256
  if s.inL2 b then
    setL2 s (s.dev.l2.map fun l => if l.block == b && !l.dirty then { l with dirty := true, under := under } else l)
  else if alloc && decide (b * 256 < hbmSize) then
    match l2FreeWay s b with
    | some w => setL2 s (s.dev.l2 ++ [⟨b, w, true, s.frame (b * 256 / 2 ^ 16), under⟩])
    | none => hbmStore s b (new.bytes (b * 256) 256)
  else hbmStore s b (new.bytes (b * 256) 256)

/-- SRC of a home block (R453). -/
def State.blockSrc (s : State) (b : Nat) : Nat := if s.inL2 b then 1 else if b * 256 < hbmSize then 0 else 4

/-- An uncorrectable error where the block stands: in L2 where the slice holds it. -/
def State.blockUe (s : State) (b : Nat) : Bool :=
  if s.inL2 b then (s.dev.errors.l2Flips.block b).bad 1 l2Word else s.dev.errors.hbmUe b

/-- n errors corrected (R472, R477). -/
def countCes (s : State) : Nat → State
  | 0 => s
  | n + 1 => countCes (countCe s) n

/-- Errors that a read of a block corrects: each ECC word is counted and rewritten (R472). -/
def correctHome (s : State) (b : Nat) : State :=
  let e := s.dev.errors
  if s.blockUe b then s
  else if s.inL2 b then
    (if (e.l2Flips.block b).isEmpty then s
    else countCes (setErrors s { e with l2Flips := e.l2Flips.without b }) ((e.l2Flips.block b).words l2Word))
  else if (e.flips.block b).isEmpty then s
  else countCes (setErrors s { e with flips := e.flips.without b }) ((e.flips.block b).words hbmWord)

/-- The metadata slot of a frame: its device offset (R373, R511). -/
def metaSlot (s : State) (n : Nat) : Option Nat :=
  (s.dev.bedrock.metaSlots.find? fun x => x.1 == n).map fun x => carveEnd (quarterOf (n * 2 ^ 16)) - (x.2 + 1) * 2 ^ 14

/-- The metadata of a frame are damaged beyond their ECC: the counter blocks and MACs that they hold fail (log 11). -/
def metaLost (s : State) (n : Nat) : Bool :=
  match metaSlot s n with
  | none => false
  | some a =>
    (s.dev.errors.poison.any fun b => decide (a ≤ b * 256) && decide (b * 256 < a + 2 ^ 14))
    || (s.dev.errors.flips.within hbmWord (8 * a) (2 ^ 17)).bad 8 hbmWord

/-- Verification of the ENC-IR lines of a block that is read from HBM (R373, R465): the path to the root, then the MACs of the lines. The
answer is INFO. -/
def macFault (s : State) (off : Nat) : Option (BitVec 32) :=
  match s.encIr off with
  | none => none
  | some (w, c) =>
    let b := off / 256
    if s.inL2 b then none
    else if metaLost s (off / 2 ^ 16) || pathFails s w c (4 * b) then some 1
    else if (List.range 4).any fun i => lineFails s w c (4 * b + i) (((readHbm s b).drop (64 * i)).take 64) then some 0
    else none

/-- The old value of a block that a write covers in part: a mismatch or an uncorrectable error poisons it, is counted and logged
(R124, R474). -/
def mergeCheck (s : State) (b : Nat) : State :=
  if s.checkMask b != 0 then addPoison (logEvent (countUe s) (s.blockSrc b) 1 (s.blockPa b)) b
  else if s.blockUe b then addPoison (logEvent (countUe s) (s.blockSrc b) 0 (s.blockPa b)) b
  else correctHome s b

/-- A block wholly replaced by clean data: no error of it remains (R474). -/
def freshBlock (s : State) (b : Nat) : State :=
  let e := s.dev.errors
  setErrors s { e with
    poison := e.poison.filter (· != b)
    badCheck := e.badCheck.filter fun x => x.1 != b
    l2Flips := e.l2Flips.without b }

/-- What a write of n bytes at pa does to one block that it touches. Written in part, an ENC-IR block that fails its verification stays
as it is: its next read raises INTEGRITY_MAC (R465). -/
def blockWrite (alloc : Bool) (new : Memory) (pa n : Nat) (s : State) (b : Nat) : State :=
  if pa ≤ b * 256 ∧ b * 256 + 256 ≤ pa + n then l2Write (freshBlock s b) alloc new b
  else if (macFault s (b * 256)).isSome then s
  else l2Write (mergeCheck s b) alloc new b

/-- The blocks that n bytes at pa touch. -/
def blocksOf (pa n : Nat) : List Nat := if n = 0 then [] else (List.range ((pa + n - 1) / 256 - pa / 256 + 1)).map (pa / 256 + ·)

/-- Bytes written at the home of this device (R124, R127): the new blocks carry new check values. -/
def homeWriteWith (alloc : Bool) (s : State) (pa : Nat) (bs : List Byte) : State :=
  let new := s.mem.putBytes pa bs
  let s1 := (blocksOf pa bs.length).foldl (blockWrite alloc new pa bs.length) s
  { s1 with mem := new }

def homeWrite (s : State) (pa : Nat) (bs : List Byte) : State := homeWriteWith true s pa bs

/-- A table of descriptors of 64 bytes at a register's BASE covers an offset of this device. -/
def State.inTable (s : State) (base : Word) (count a : Nat) : Bool :=
  let b := base.toNat / 2 ^ 16 * 2 ^ 16
  b / 2 ^ 47 == s.devId && decide (b % 2 ^ 47 ≤ a) && decide (a < b % 2 ^ 47 + 64 * count)

/-- Bytes that the device alone writes (R5): READ and WRITE of a queue descriptor (R324), TAIL of a fault-queue descriptor (R419),
enabled or not (log 35). -/
def State.deviceOnly (s : State) (a : Nat) : Bool :=
  decide (32 ≤ a % 64) && decide (a % 64 < 40)
  && (s.inTable s.dev.sched.qtbase 1024 a || (decide (a % 64 < 36) && s.inTable s.dev.faults.fqtbase 4096 a))

/-- The bytes that a write by software leaves: those that the device alone writes keep their value (R5). -/
def softBytes (s : State) (pa : Nat) (bs : List Byte) : List Byte :=
  bs.zipIdx.map fun x => if s.deviceOnly (pa + x.2) then s.mem.read (pa + x.2) else x.1

/-- Bytes written at the home by a program, an engine operation, the host or another device. -/
def softWriteWith (alloc : Bool) (s : State) (pa : Nat) (bs : List Byte) : State := homeWriteWith alloc s pa (softBytes s pa bs)

def softWrite (s : State) (pa : Nat) (bs : List Byte) : State := softWriteWith true s pa bs

/-- A line filled from HBM ahead of its use (R114): what is wrong in HBM comes with it. -/
def l2Fill (s : State) (b : Nat) : State :=
  if s.inL2 b || decide (hbmSize ≤ b * 256) || !s.backed (b * 256) || (macFault s (b * 256)).isSome then s
  else
    match l2FreeWay s b with
    | none => s
    | some w =>
      let s1 := correctHome s b
      let s2 := if s1.blockUe b then addPoison (logEvent (countUe s1) (s1.blockSrc b) 0 (s1.blockPa b)) b else s1
      setL2 s2 (s2.dev.l2 ++ [⟨b, w, false, s.frame (b * 256 / 2 ^ 16), []⟩])

/-- A line leaves its slice (R114): dirty ones are written back, an error found in them poisons the block (R474). -/
def l2Evict (s : State) (b : Nat) : State :=
  match s.l2Line b with
  | none => s
  | some l =>
    let s1 := correctHome s b
    let s2 := if s1.blockUe b && l.dirty then addPoison (logEvent (countUe s1) 1 0 (s1.blockPa b)) b
      else setErrors s1 { s1.dev.errors with l2Flips := s1.dev.errors.l2Flips.without b }
    let s3 := setL2 s2 (s2.dev.l2.filter fun x => x.block != b)
    if l.dirty then hbmStore s3 b (s3.mem.bytes (b * 256) 256) else s3

/-! ### Data checks -/

/-- Data checks of a home block (R453, R475): CHECK_MISMATCH, UNCORRECTABLE or POISON, lowest code first; `flags` are INFO[31:30]. -/
def homeDataFault (s : State) (pa : Nat) (va : Word) (flags : BitVec 32) : Option FaultInfo :=
  let b := pa / 256
  let info := flags ||| BitVec.ofNat 32 (s.blockSrc b)
  if s.checkMask b != 0 then some { mkFault 0x4001 va info with block := some b }
  else if s.blockUe b then some { mkFault 0x4002 va info with block := some b }
  else if s.dev.errors.poison.contains b then some { mkFault 0x4003 va info with block := some b }
  else none

end Sys2Proof.Machine
end

