-- ==== Sys2Proof/Machine/Translate.lean ====
section
/-! DEFINITION. Translation and the checks of an access in the order of R454: address range and local window (R104, R462), the
stage-1 walk (R117, R118, R457, R458), permissions, memory types (R150, R460, R461), stage 2 (R119, R366), backing (R112),
owners and gates (R365, R378, R463, R464), poisoned IPAs (R468); and the data checks (R453, R473 to R475). -/

namespace Sys2Proof.Machine

/-- Under whose tables an access is translated. -/
structure Who where
  world : Nat
  ctx : BitVec 16
  comp : Nat
  root : Word
  /-- an access of a vcore, which has a local window and quarry slots -/
  vcore : Bool
  /-- the core whose TLBs serve it; none for the IOD's (R121) -/
  core : Option Nat
  deriving DecidableEq, Repr, Inhabited

/-- What an access is (R150, R451, R461). -/
structure Acc where
  r : Bool
  w : Bool
  x : Bool
  /-- AMO, SACQ, SREL, CATOM, completion word -/
  atomic : Bool
  /-- an S-stream load or store, which alone may reach DEVICE -/
  scalar : Bool
  /-- an access of a copy command, which alone may cross a gate (R378) -/
  copy : Bool
  /-- a spill or fill of the shadow stack: W is needed at stage 2 though not at stage 1 (R223) -/
  spill : Bool
  deriving DecidableEq, Repr, Inhabited

def accLoad : Acc := ⟨true, false, false, false, true, false, false⟩
def accStore : Acc := ⟨false, true, false, false, true, false, false⟩
def accRead : Acc := ⟨true, false, false, false, false, false, false⟩
def accWrite : Acc := ⟨false, true, false, false, false, false, false⟩
def accCopyRead : Acc := ⟨true, false, false, false, false, true, false⟩
def accCopyWrite : Acc := ⟨false, true, false, false, false, true, false⟩
def accAtomic : Acc := ⟨true, true, false, true, true, false, false⟩
def accObjRead : Acc := ⟨true, false, false, true, true, false, false⟩
def accObjWrite : Acc := ⟨false, true, false, true, true, false, false⟩
def accSpill : Acc := ⟨true, false, false, false, false, false, true⟩
def accFetch : Acc := ⟨false, false, true, false, false, false, false⟩

/-- The needed permissions as INFO[2:0] (R451). -/
def Acc.need (a : Acc) : BitVec 32 := (if a.r then 1 else 0) ||| (if a.w then 2 else 0) ||| (if a.x then 4 else 0)

/-- Where an access goes. -/
inductive Place
  /-- a store that SINK discards (R150) -/
  | sink
  /-- SCRATCH at a core-store address (R104) -/
  | scratch (csa : Nat)
  /-- a quarry slot at a window offset (R148) -/
  | quarry (slot : Nat) (off : Nat)
  /-- home memory of this device (R112), with the IPA and the protection carried (R119, R464) -/
  | home (pa : Nat) (ipa : Nat) (keyid : Nat) (prot : BitVec 2)
  /-- memory of another device, with the protection carried -/
  | remote (dev : Nat) (pa : Nat) (keyid : Nat) (prot : BitVec 2)
  /-- home memory, or another device's, through a DEVICE page: no cache holds it (R105, R116) -/
  | deviceHome (pa : Nat) (ipa : Nat)
  | deviceRemote (dev : Nat) (pa : Nat) (keyid : Nat) (prot : BitVec 2)
  /-- the register space, by device offset -/
  | device (off : Nat)
  deriving DecidableEq, Repr, Inhabited

/-- Whose access a vcore's access is (R365). -/
def State.who (s : State) : Who := ⟨s.vc.id.world, s.vc.id.ctx, s.vc.id.comp, s.vc.regs.s1root, true, some s.coreId⟩

def windowBase : Nat := 0x01FFFFFFFFD00000
def bankBytes : Nat := 0x18000
def coreStoreBytes : Nat := 0x300000

/-- The mode code of a core-store bank (R103). -/
def Store.bankMode (st : Store) (b : Nat) : Nat := nbits st.bkmode.toNat (2 * b) 2

/-- A BANKMODE on a bank has issued and not completed (R108). -/
def Store.bankBusy (st : Store) (b : Nat) : Bool :=
  st.ops.any fun o => match o.kind with
    | .bankmode w _ => nbits w.toNat 0 5 == b
    | _ => false

/-- A bank that may be addressed as SCRATCH now (R104, R462). -/
def Store.scratchOk (st : Store) (b : Nat) : Bool := st.bankMode b == 2 && !st.bankBusy b

/-- The first bank of a core-store range that is not addressable as SCRATCH; 32 for a range outside the core store. -/
def Store.badBank (st : Store) (csa n : Nat) : Option Nat :=
  if coreStoreBytes < csa + n then some 32
  else
    let b0 := csa / bankBytes
    let b1 := (csa + n - 1) / bankBytes
    if n = 0 then none
    else if !st.scratchOk b0 then some b0 else if !st.scratchOk b1 then some b1 else none

/-! ### Stage 2 and the home -/

/-- Bytes mapped by a leaf of a size code. -/
def leafBytes (size : Nat) : Nat := if size = 0 then 2 ^ 16 else if size = 1 then 2 ^ 21 else 2 ^ 30

/-- The physical function's stage 2: each HOST frame at its device offset, CLEAR, with R and W (R512). -/
def State.s2Host (s : State) (ipa : Nat) : Option Nat :=
  if ipa < hbmSize && !s.inCarve ipa && s.frame (ipa / 2 ^ 16) == .host then some ipa else none

/-- What a stage-2 leaf gives an IPA (R119): the PA, the permissions, the protection. -/
structure S2Hit where
  pa : Nat
  r : Bool
  w : Bool
  x : Bool
  keyid : Nat
  prot : BitVec 2
  deriving DecidableEq, Repr, Inhabited

/-- Lowest address bit of a level's index (R117), at both stages. -/
def levelShift (l : Nat) : Nat := if l = 0 then 48 else if l = 1 then 39 else if l = 2 then 30 else if l = 3 then 21 else 16

/-- Index bits of a level at stage 2 (R117). -/
def s2Bits (l : Nat) : Nat := if l = 0 then 8 else if l = 4 then 5 else 9

/-- The leaf that a stage-2 entry of a level is (R119). -/
def s2Leaf (e : Word) (level ipa : Nat) : S2Hit :=
  ⟨(e.extractLsb' 16 40).toNat * 2 ^ 16 + ipa % 2 ^ levelShift level, e.getLsbD 7, e.getLsbD 8, e.getLsbD 9,
    (e.extractLsb' 12 4).toNat, e.extractLsb' 10 2⟩

/-- The table that an entry with L = 0 names, as a device offset (R118, R119). -/
def s2Table (e : Word) : Nat := (e.extractLsb' 8 48).toNat * 256 % 2 ^ 47

/-- Where the entry of an IPA stands in a table of a level. -/
def s2EntryAt (table level ipa : Nat) : Nat := table + 8 * nbits ipa (levelShift level) (s2Bits level)

/-- The TLBs and walk caches that serve an access (R121): those of the core and of its cluster, or the IOD's. -/
def Who.holders (w : Who) : List Nat :=
  match w.core with
  | some c => [c, 256 + clusterIdOf c]
  | none => [288]

/-- An entry of a stage that a TLB or walk cache still holds for an address at a level (R121). -/
def heldEntry (s : State) (who : Who) (stage2 : Bool) (addr : Nat) (level : Nat) : Option Word :=
  let hit (x : TlbEntry × Nat) : Bool :=
    x.1.stage2 == stage2 && x.1.world == who.world && (stage2 || x.1.ctx == who.ctx) && x.1.level == level
    && x.1.vpn == addr >>> levelShift level && who.holders.contains x.1.holder && Config.tlbHeld s.steps x.2
  (s.dev.tlb.zipIdx.find? hit).map fun x => x.1.entry

/-- The deepest level of which an entry is held, with that entry. -/
def deepestHeld (s : State) (who : Who) (stage2 : Bool) (addr : Nat) : Option (Nat × Word) :=
  [4, 3, 2, 1, 0].findSome? fun l => (heldEntry s who stage2 addr l).map fun e => (l, e)

/-- The stage-2 walk from an entry of a level on (R117, R119, R457): the data of every entry read are checked (R453). -/
def s2From (s : State) (ipa : Nat) (va : Word) : Nat → Nat → Word → Except FaultInfo S2Hit
  | 0, level, _ => .error (mkFault 0x2005 (BitVec.ofNat 64 ipa) (BitVec.ofNat 32 level))
  | fuel + 1, level, e =>
    if !e.getLsbD 0 then .error (mkFault 0x2005 (BitVec.ofNat 64 ipa) (BitVec.ofNat 32 level))
    else if e.getLsbD 1 then .ok (s2Leaf e level ipa)
    else
      let a := s2EntryAt (s2Table e) (level + 1) ipa
      match homeDataFault s a va 0xC0000000 with
      | some f => .error f
      | none => s2From s ipa va fuel (level + 1) (BitVec.ofNat 64 (s.mem.load a 8))

/-- The stage-2 walk of a world's IPA (R117, R121): from the deepest entry that a cache holds, or from the root that Bedrock keeps. -/
def s2Walk (s : State) (who : Who) (ipa : Nat) (va : Word) : Except FaultInfo S2Hit :=
  match deepestHeld s who true ipa with
  | some (l, e) => s2From s ipa va (5 - l) l e
  | none =>
    match (s.world who.world).s2root with
    | none => .error (mkFault 0x2005 (BitVec.ofNat 64 ipa) 0)
    | some root =>
      let a := s2EntryAt root 0 ipa
      match homeDataFault s a va 0xC0000000 with
      | some f => .error f
      | none => s2From s ipa va 5 0 (BitVec.ofNat 64 (s.mem.load a 8))

/-- A frame at its home: whether it lies in a carve-out, and its owner (R366, R511). -/
structure HomeFrame where
  carve : Bool
  owner : Frame
  deriving DecidableEq, Repr, Inhabited

/-- The frame of an offset of this device. -/
def State.homeFrame (s : State) (o : Nat) : HomeFrame := ⟨s.inCarve o, s.frame (o / 2 ^ 16)⟩

/-- The frame of an offset of another device: the owner that its Bedrock's table gives (R463; log 12). -/
def State.remoteFrame (s : State) (dev o : Nat) : HomeFrame := ⟨false, Config.remoteOwner dev (o / 2 ^ 16) s.steps⟩

/-- The owner check of a frame (R365, R463): OWNER with the INFO of R452. `crossed` is a compartment that an open gate lets
the access read. -/
def ownerFault (who : Who) (fr : HomeFrame) (ipa : Nat) (crossed : Option Nat) : Option FaultInfo :=
  if fr.carve then some (mkFault 0x3001 (BitVec.ofNat 64 ipa) 0x300)
  else
    match fr.owner with
    | .free => some (mkFault 0x3001 (BitVec.ofNat 64 ipa) 0x200)
    | .host => some (mkFault 0x3001 (BitVec.ofNat 64 ipa) 0x100)
    | .world w k _ _ =>
      if w = who.world ∧ (k = who.comp ∨ crossed = some k) then none
      else some (mkFault 0x3001 (BitVec.ofNat 64 ipa) (BitVec.ofNat 32 (w + 16 * k)))

/-- The alias check: the PROT and KEYID carried against the frame table (R452, R464). -/
def aliasFault (fr : HomeFrame) (l : S2Hit) (ipa : Nat) : Option FaultInfo :=
  match fr.owner with
  | .world _ k p _ =>
    if k = l.keyid ∧ p = l.prot then none
    else some (mkFault 0x3002 (BitVec.ofNat 64 ipa) (BitVec.ofNat 32 (p.toNat + 16 * k)))
  | _ => none

/-- INFO of ALIAS for a frame: its PROT and KEYID (R452); zero where no world has it. -/
def aliasInfo (f : Frame) : BitVec 32 :=
  match f with
  | .world _ k p _ => BitVec.ofNat 32 (p.toNat + 16 * k)
  | _ => 0

/-- The tag of an L2 line differs from what the frame table says now (R464). -/
def l2TagBad (s : State) (b : Nat) : Bool := s.dev.l2.any fun l => l.block == b && l.tag != s.frame (b * 256 / 2 ^ 16)

/-- The tag of a line that the core data cache holds differs from the frame's owner (R464). -/
def cacheTagBad (s : State) (who : Who) (block : Nat) (fr : Frame) : Bool :=
  s.vc.st.cache.any fun l => l.block == block && fr != .world who.world l.keyid l.prot false && fr != .world who.world l.keyid l.prot true

/-- ALIAS for a line held under a tag that the frame table no longer gives (R464): the block is that of the line. A source without a
data cache, and a DEVICE access, meet the home's lines alone. -/
def tagFault (s : State) (who : Who) (cached : Bool) (dev : Nat) (fr : Frame) (o n ipa : Nat) : Option FaultInfo :=
  (blocksOf o n).findSome? fun b =>
    if (dev == s.devId && l2TagBad s b) || (cached && cacheTagBad s who (dev * 2 ^ 39 + b) fr) then
      some { mkFault 0x3002 (BitVec.ofNat 64 (ipa + (b * 256 - o))) (aliasInfo fr) with block := some (dev * 2 ^ 39 + b) }
    else none

/-- Whether a port is up and not retraining. -/
def State.portUp (s : State) (n : Nat) : Bool :=
  match s.dev.links.ports.toList[n]? with
  | some p => p.up && !p.retraining
  | none => false

/-- A device's route is present, and works through its primary or alternate port (R393, R504). -/
def State.route (s : State) (dev : Nat) : Option Bool :=
  (s.dev.links.routes.find? fun r => r.1 == dev).map fun r => s.portUp r.2.1 || s.portUp r.2.2

/-- INTEGRITY_MAC of n bytes at o, read at the home: the first ENC-IR block that fails, but for blocks that the core data cache holds
(`cached`), with the IPA of its first byte in the access (R372, R465). -/
def macFaults (s : State) (cached : Bool) (o n ipa : Nat) : Option FaultInfo :=
  if s.dev.errors.flips.isEmpty && s.dev.errors.poison.isEmpty then none
  else (blocksOf o n).findSome? fun b =>
    if cached && s.vc.st.cache.any fun l => l.block == s.devId * 2 ^ 39 + b then none
    else (macFault s (b * 256)).map fun i => { mkFault 0x3004 (BitVec.ofNat 64 (ipa + (b * 256 - o))) i with block := some b }

/-- An IPA that a failed RETURN or a failed MAC has poisoned (R465, R468). -/
def ipaPoisoned (s : State) (who : Who) (ipa : Nat) : Bool :=
  s.dev.bedrock.poisoned.any fun p => p.1 == who.world && p.2.1 == who.comp && p.2.2 == ipa / 2 ^ 16

/-- The checks at the home that precede integrity (R454, step 7): owner, alias, and the poisoned IPA. -/
def frameFault (s : State) (who : Who) (cached : Bool) (dev : Nat) (fr : HomeFrame) (l : S2Hit) (o n ipa : Nat) (crossed : Option Nat) :
    Option FaultInfo :=
  match ownerFault who fr ipa crossed, aliasFault fr l ipa, tagFault s who cached dev fr.owner o n ipa with
  | some f, _, _ => some f
  | none, some f, _ => some f
  | none, none, some f => some f
  | none, none, none => if ipaPoisoned s who ipa then some (mkFault 0x3005 (BitVec.ofNat 64 ipa)) else none

/-- The checks at this device's home (R454, step 7), with the integrity of the n bytes' ENC-IR lines (R465). A fetch makes the last one
itself, where no instruction cache serves it. -/
def homeFault (s : State) (who : Who) (acc : Acc) (cached : Bool) (l : S2Hit) (o n ipa : Nat) (crossed : Option Nat) : Option FaultInfo :=
  match frameFault s who cached s.devId (s.homeFrame o) l o n ipa crossed with
  | some f => some f
  | none => if acc.x then none else macFaults s cached o n ipa

/-- The permissions that an access needs at stage 2: the spill and the fill of the shadow stack need W beside R (R223, R451). -/
def Acc.need2 (a : Acc) : Acc := if a.spill then { a with w := true } else a

/-- What an access that reaches an IPA without a leaf raises: S2_FAULT, but INTEGRITY_VERSION where the page was poisoned (R468). -/
def s2Refusal (s : State) (who : Who) (ipa : Nat) (f : FaultInfo) : FaultInfo :=
  if f.status = 0x2005 ∧ ipaPoisoned s who ipa = true then mkFault 0x3005 (BitVec.ofNat 64 ipa) else f

/-- From the IPA of n bytes to their place: steps 5 to 7 of R454. `deviceOk` says that the stage-1 leaf has MT = DEVICE; `crossed` as
in ownerFault. -/
def resolveIpa (s : State) (who : Who) (acc : Acc) (ipa n : Nat) (va : Word) (deviceOk : Bool) (crossed : Option Nat) :
    Except FaultInfo Place :=
  match s2Walk s who ipa va with
  | .error f => .error (s2Refusal s who ipa f)
  | .ok l =>
    let dev := l.pa / 2 ^ 47
    let o := l.pa % 2 ^ 47
    let here : Bool := decide (dev = s.devId)
    let cached := who.core.isSome && !deviceOk
    let a2 := acc.need2
    if (a2.r && !l.r) || (a2.w && !l.w) || (a2.x && !l.x) then
      .error (mkFault 0x2006 (BitVec.ofNat 64 ipa) a2.need)
    else if (if here then !s.backed o else !inRanges o || (s.route dev).isNone) then .error (mkFault 0x200A va)
    else if isRegSpace o && !deviceOk then .error (mkFault 0x2009 va)
    else if here then
      (if isRegSpace o then .ok (.device o)
      else
        match homeFault s who acc cached l o n ipa crossed with
        | some f => .error f
        | none => .ok (if deviceOk then .deviceHome o ipa else .home o ipa l.keyid l.prot))
    else if s.route dev = some false then
      .error (mkFault 0x7003 va (BitVec.ofNat 32 dev))
    else
      match (if isRegSpace o then none else frameFault s who cached dev (s.remoteFrame dev o) l o n ipa crossed) with
      | some f => .error f
      | none => .ok (if deviceOk then .deviceRemote dev o l.keyid l.prot else .remote dev o l.keyid l.prot)

/-! ### Stage 1 -/

/-- Index bits of a level (R117). -/
def levelBits (l : Nat) : Nat := if l = 4 then 5 else 9

/-- A valid stage-1 entry that breaks R458. -/
def s1BadFormat (e : Word) (level : Nat) : Bool :=
  if e.getLsbD 1 then
    level < 2 || e.extractLsb' 60 4 != 0 || e.extractLsb' 12 4 != 0 || e.extractLsb' 2 5 != 0
    || e.extractLsb' 10 2 == 3 || (level == 3 && e.extractLsb' 16 5 != 0) || (level == 2 && e.extractLsb' 16 14 != 0)
    || (e.extractLsb' 10 2 == 1 && e.extractLsb' 40 16 != 0) || (e.extractLsb' 10 2 != 1 && e.extractLsb' 56 4 != 0)
  else
    level == 4 || e.extractLsb' 56 8 != 0 || e.extractLsb' 2 6 != 0 || (level < 3 && e.extractLsb' 8 4 != 0)

/-- Reading a stage-1 table entry: its IPA is itself translated, with its data checked (R117, R454). A table that stage 2 maps to another
device's memory is read from there (DESIGN CHOICE, log 12). -/
def readEntry (s : State) (who : Who) (ipa : Nat) (va : Word) : Except FaultInfo Word :=
  match resolveIpa s who accRead ipa 8 va false none with
  | .error f => .error f
  | .ok (.home pa _ _ _) =>
    match homeDataFault s pa va 0x80000000 with
    | some f => .error f
    | none => .ok (BitVec.ofNat 64 (s.mem.load pa 8))
  | .ok (.remote dev pa _ _) =>
    if Config.remotePoison dev (pa / 256) s.steps then .error (mkFault 0x4003 va 0x80000005)
    else .ok (BitVec.ofNat 64 (natLE ((Config.remoteRead dev pa 8 s.steps).take 8)))
  | .ok _ => .error (mkFault 0x200A va)

/-- The walk from an entry of a level on: the leaf and its level. -/
def walkEntry (s : State) (who : Who) (va : Word) : Nat → Nat → Word → Except FaultInfo (Word × Nat)
  | 0, level, _ => .error (mkFault 0x2004 va (BitVec.ofNat 32 level))
  | fuel + 1, level, e =>
    if !e.getLsbD 0 then .error (mkFault 0x2002 va (BitVec.ofNat 32 level))
    else if s1BadFormat e level then .error (mkFault 0x2004 va (BitVec.ofNat 32 level))
    else if e.getLsbD 1 then .ok (e, level)
    else
      let table := (e.extractLsb' 8 48).toNat * 256
      let ea := table + 8 * nbits va.toNat (levelShift (level + 1)) (levelBits (level + 1))
      match readEntry s who ea va with
      | .error f => .error f
      | .ok e' => walkEntry s who va fuel (level + 1) e'

/-- The stage-1 walk: from the deepest entry that a cache holds, or from the root (R117, R121). -/
def walk (s : State) (who : Who) (va : Word) : Except FaultInfo (Word × Nat) :=
  match deepestHeld s who false va.toNat with
  | some (l, e) => walkEntry s who va (5 - l) l e
  | none =>
    let ea := (who.root.extractLsb' 12 44).toNat * 4096 + 8 * nbits va.toNat 48 9
    match readEntry s who ea va with
    | .error f => .error f
    | .ok e => walkEntry s who va 5 0 e

/-! ### The blocks that a walk reads (R117, R472) -/

/-- Blocks read below a stage-2 entry of a level. -/
def s2Blocks (s : State) (ipa : Nat) : Nat → Nat → Word → List Nat
  | 0, _, _ => []
  | fuel + 1, level, e =>
    if !e.getLsbD 0 || e.getLsbD 1 then []
    else
      let a := s2EntryAt (s2Table e) (level + 1) ipa
      a / 256 :: s2Blocks s ipa fuel (level + 1) (BitVec.ofNat 64 (s.mem.load a 8))

/-- Blocks of stage-2 tables that the walk of an IPA reads. -/
def s2WalkBlocks (s : State) (who : Who) (ipa : Nat) : List Nat :=
  match deepestHeld s who true ipa, (s.world who.world).s2root with
  | some (l, e), _ => s2Blocks s ipa (5 - l) l e
  | none, some root =>
    let a := s2EntryAt root 0 ipa
    a / 256 :: s2Blocks s ipa 5 0 (BitVec.ofNat 64 (s.mem.load a 8))
  | none, none => []

/-- Blocks read for a stage-1 entry at an IPA: those of its own stage-2 walk, and its own. -/
def entryBlocks (s : State) (who : Who) (ea : Nat) (va : Word) : List Nat :=
  s2WalkBlocks s who ea ++ match resolveIpa s who accRead ea 8 va false none with
    | .ok (.home pa _ _ _) => [pa / 256]
    | _ => []

/-- Blocks read below a stage-1 entry of a level; for a leaf, those of the stage-2 walk of the page. -/
def s1Blocks (s : State) (who : Who) (va : Word) : Nat → Nat → Word → List Nat
  | 0, _, _ => []
  | fuel + 1, level, e =>
    if !e.getLsbD 0 || s1BadFormat e level then []
    else if e.getLsbD 1 then
      (if e.extractLsb' 10 2 = 1 then [] else s2WalkBlocks s who ((e.extractLsb' 16 40).toNat * 2 ^ 16 + va.toNat % 2 ^ levelShift level))
    else
      let ea := (e.extractLsb' 8 48).toNat * 256 + 8 * nbits va.toNat (levelShift (level + 1)) (levelBits (level + 1))
      entryBlocks s who ea va ++ match readEntry s who ea va with
        | .ok e' => s1Blocks s who va fuel (level + 1) e'
        | .error _ => []

/-- Blocks of tables that the translation of an address reads. -/
def walkBlocks (s : State) (who : Who) (va : Word) : List Nat :=
  if va.extractLsb' 57 7 != 0 || windowBase ≤ va.toNat then []
  else
    match deepestHeld s who false va.toNat with
    | some (l, e) => s1Blocks s who va (5 - l) l e
    | none =>
      let ea := (who.root.extractLsb' 12 44).toNat * 4096 + 8 * nbits va.toNat 48 9
      entryBlocks s who ea va ++ match readEntry s who ea va with
        | .ok e => s1Blocks s who va 5 0 e
        | .error _ => []

/-- Correctable errors of the table blocks that a translation reads are corrected and counted (R472). -/
def correctWalk (s : State) (who : Who) (va : Word) : State :=
  if s.dev.errors.flips.isEmpty && s.dev.errors.l2Flips.isEmpty then s else (walkBlocks s who va).foldl correctHome s

/-- KIND of a slot's active configuration (R152). -/
def SlotCfg.kind (c : SlotCfg) : Nat := nbits c.desc.toNat 20 4

/-- SINK of a slot's active configuration (R152). -/
def SlotCfg.sink (c : SlotCfg) : Bool := c.desc.getLsbD 31

def Store.slotCfg (st : Store) (n : Nat) : SlotCfg := (st.q.toList.getD n slotOff).active

/-- An access to a quarry window (R150, R460). -/
def quarryPlace (s : State) (who : Who) (acc : Acc) (slot off : Nat) (va : Word) : Except FaultInfo Place :=
  let cfg := s.vc.st.slotCfg slot
  let n := BitVec.ofNat 32 slot
  if !who.vcore || acc.x || acc.atomic || acc.spill then .error (mkFault 0x2007 va n)
  else if acc.w then (if cfg.sink && cfg.kind != 0 then .ok .sink else .error (mkFault 0x2007 va n))
  else if cfg.kind = 0 then .error (mkFault 0x2008 va n)
  else .ok (.quarry slot off)

/-- From a stage-1 leaf to the place: steps 3 to 7 of R454. -/
def leafPlace (s : State) (who : Who) (acc : Acc) (va : Word) (n : Nat) (crossed : Option Nat) (e : Word) (level : Nat) :
    Except FaultInfo Place :=
  let page := va.toNat % 2 ^ levelShift level
  let base := (e.extractLsb' 16 40).toNat * 2 ^ 16
  let mt := e.extractLsb' 10 2
  if (acc.r && !e.getLsbD 7) || (acc.w && !e.getLsbD 8) || (acc.x && !e.getLsbD 9) then
    .error (mkFault 0x2003 va acc.need)
  else if mt = 1 then quarryPlace s who acc (e.extractLsb' 56 4).toNat (base + page) va
  else if mt = 2 && (!acc.scalar || acc.atomic || acc.x || 8 < n || va.toNat % n != 0) then .error (mkFault 0x2009 va)
  else resolveIpa s who acc (base + page) n va (mt == 2) crossed

/-- The place of one access of n bytes that does not cross a 64 KiB page (R454). In the local window an access of the scheduler, which
is on no core, is LOCAL_BANK with INFO 0 (DESIGN CHOICE, log 35). -/
def placeOf (s : State) (who : Who) (acc : Acc) (va : Word) (n : Nat) (crossed : Option Nat) : Except FaultInfo Place :=
  if va.extractLsb' 57 7 != 0 then .error (mkFault 0x2001 va)
  else if windowBase ≤ va.toNat then
    let csa := va.toNat - windowBase
    if acc.x then .error (mkFault 0x200D va)
    else if acc.atomic then .error (mkFault 0x200C va)
    else if !who.vcore then .error (mkFault 0x200B va)
    else
      match s.vc.st.badBank csa 1 with
      | some b => .error (mkFault 0x200B va (BitVec.ofNat 32 b))
      | none => .ok (.scratch csa)
  else
    match walk s who va with
    | .error f => .error f
    | .ok (e, level) => leafPlace s who acc va n crossed e level

/-- One byte of place p, i bytes on. -/
def Place.plus (p : Place) (i : Nat) : Place :=
  match p with
  | .sink => .sink
  | .scratch c => .scratch (c + i)
  | .quarry q o => .quarry q (o + i)
  | .home a ipa k pr => .home (a + i) (ipa + i) k pr
  | .remote d a k pr => .remote d (a + i) k pr
  | .deviceHome a ipa => .deviceHome (a + i) (ipa + i)
  | .deviceRemote d a k pr => .deviceRemote d (a + i) k pr
  | .device o => .device (o + i)

/-- The bytes up to the next 64 KiB boundary, which is also a bank and page boundary short of none. -/
def pageLeft (va : Word) : Nat := 2 ^ 16 - va.toNat % 2 ^ 16

/-- A piece of an access: where it starts, and its bytes. -/
abbrev Piece := Place × Nat

/-- An access of n bytes as pieces, one for each 64 KiB page and bank it touches; the lower status wins, with ADDR that of the access.
No part of a split access may reach a DEVICE page (R116, R461). -/
def piecesOf (s : State) (who : Who) (acc : Acc) (crossed : Option Nat) :
    Nat → Word → Word → Nat → Except FaultInfo (List Piece)
  | 0, _, _, _ => .ok []
  | fuel + 1, va0, va, n =>
    if n = 0 then .ok []
    else
      let inBank := if windowBase ≤ va.toNat then bankBytes - (va.toNat - windowBase) % bankBytes else n
      let m := min n (min (pageLeft va) inBank)
      let here := placeOf s who { acc with scalar := acc.scalar && va == va0 && m == n } va m crossed
      let rest := piecesOf s who acc crossed fuel va0 (va + BitVec.ofNat 64 m) (n - m)
      let fix (f : FaultInfo) : FaultInfo := if f.addr = va then { f with addr := va0 } else f
      match here, rest with
      | .ok p, .ok l => .ok ((p, m) :: l)
      | .error f, .error g => .error (lowerFault (fix f) g)
      | .error f, .ok _ => .error (fix f)
      | .ok _, .error g => .error g

/-- The pieces of an access of n bytes at va. -/
def pieces (s : State) (who : Who) (acc : Acc) (va : Word) (n : Nat) : Except FaultInfo (List Piece) :=
  piecesOf s who acc none (n / 2 ^ 16 + 3) va va n

/-! ### What a memory fault does beside stopping its domain -/

/-- Where the core store keeps the line of way w that holds a block: its core-store block. The spec gives the banks no inner layout: the
sets follow each other (DESIGN CHOICE, log 10). -/
def lineBlock (l : Line) : Nat := l.way * 384 + l.block % 384

/-- A block of the core store poisoned by an error found in it: a SCRATCH block, or the line of the data cache that it holds (R474). -/
def poisonScratch (s : State) (b : Nat) : State :=
  let st := s.vc.st
  let held := st.cache.any fun l => lineBlock l == b
  s.setStore { st with
    cache := st.cache.map fun l => if lineBlock l == b then { l with poisoned := true } else l
    marks := { st.marks with
      flips := st.marks.flips.without b
      poison := if held || st.marks.poison.contains b then st.marks.poison else st.marks.poison ++ [b] } }

/-- A line held of a home block is poisoned with it (R473, R474). -/
def poisonLine (s : State) (block : Nat) : State :=
  s.setStore { s.vc.st with
    cache := s.vc.st.cache.map fun l => if l.block == block then { l with poisoned := true, check := 0 } else l }

/-- Quarantine of a compartment (R466): it is marked, every domain with a running or stopped vcore of it stops, and each such domain
but `own` receives one QUARANTINE record. -/
def quarantine (s : State) (w c : Nat) (own : Option (BitVec 12)) : State :=
  let wd := s.dev.bedrock.worlds.toList.getD w worldOff
  let cm := wd.comps.toList.getD c compOff
  let worlds := if h : w < 16 then
      if h' : c < 8 then
        s.dev.bedrock.worlds.set w { wd with comps := wd.comps.set c { cm with quarantined := true, restored := false } }
      else s.dev.bedrock.worlds
    else s.dev.bedrock.worlds
  let s1 := { s with dev := { s.dev with bedrock := { s.dev.bedrock with worlds := worlds } } }
  let active (v : Vcore) : Bool := match v.res with
    | .core _ => true
    | .absent => false
    | .complete => false
    | _ => v.stopped
  let doms := (s.vcores.filterMap fun v => if active v && v.id.world == w && v.id.comp == c then some v.id.fdom else none).eraseDups
  doms.foldl (fun st d =>
    let st1 := stopDomain st d
    if own = some d then st1
    else addRecord st1 ⟨mkRecord (mkHdr 5 false false false false false false 0 0 0x3006) 0 0 0 0 0
      (BitVec.ofNat 64 c) (BitVec.ofNat 64 st.dev.time), d, false, none, none⟩) s1

/-- The effects of failed data on the error registers, the log and the poison (R473, R474, R477). -/
def dataEffects (s : State) (f : FaultInfo) : State :=
  let src := f.info.toNat % 16
  match f.block with
  | some b =>
    if f.status = 0x4001 then poisonLine (addPoison (logEvent (countUe s) src 1 (s.blockPa b)) b) (s.devId * 2 ^ 39 + b)
    else if f.status = 0x4002 ∧ src = 2 then poisonScratch (logEvent (countUe s) 2 0 0) b
    else if f.status = 0x4002 then addPoison (logEvent (countUe s) src 0 (s.blockPa b)) b
    else s
  | none => if f.status = 0x4002 then logEvent (countUe s) src 0 0 else s

/-- An IPA poisoned in stage 2 (R465, R468). -/
def poisonIpa (s : State) (w c page : Nat) : State :=
  let b := s.dev.bedrock
  if b.poisoned.contains (w, c, page) then s else setBedrock s { b with poisoned := b.poisoned ++ [(w, c, page)] }

/-- What an integrity fault does (R465, R466, R468): a failed MAC poisons the line's frame in stage 2 and quarantines the frame's
compartment; an access to a poisoned IPA quarantines the compartment (w, c) that made it. `own` is a domain that has a record of
its own. -/
def integrityEffects (s : State) (f : FaultInfo) (w c : Nat) (own : Option (BitVec 12)) : State :=
  if f.status = 0x3004 then
    let k := ((f.block.bind fun b => s.encIr (b * 256)).map (·.2)).getD c
    quarantine (poisonIpa s w k (f.addr.toNat / 2 ^ 16)) w k own
  else if f.status = 0x3005 then quarantine s w c own
  else s


end Sys2Proof.Machine
end

