-- ==== Sys2Proof/Machine/Cache.lean ====
section
/-! DEFINITION. The core data cache and the home (spec/05 R105; spec/06 R127, R134; spec/22 R464, R473 to R475, R479 to R481):
reading and writing the bytes of a place, write-back, invalidation and flush. -/

namespace Sys2Proof.Machine

/-- Blocks of 256 bytes by full physical address. -/
def blockOf (dev pa : Nat) : Nat := (dev * 2 ^ 47 + pa) / 256

/-- The banks in CACHE mode in which new lines are allocated (R105, R108). -/
def Store.ways (st : Store) : List Nat := (List.range 32).filter fun b => st.bankMode b == 1 && !st.bankBusy b

def State.line (s : State) (block : Nat) : Option Line := s.vc.st.cache.find? fun l => l.block == block

def State.setCache (s : State) (c : List Line) : State := s.setStore { s.vc.st with cache := c }

/-- A byte string as a block. -/
def blockBits (bs : List Byte) : BitVec 2048 := BitVec.ofNat 2048 (natLE bs)

/-- The key of the links to a device, once the two Bedrocks have agreed it (R374). -/
def linkKeyOf (s : State) (dev : Nat) : Option (List Byte) := (s.dev.links.keys.find? fun x => x.1 == dev).map (·.2)

def setLinks (s : State) (l : Links) : State := { s with dev := { s.dev with links := l } }

/-- Protected traffic is preceded by the agreement of keys in an SPDM session between the two Bedrocks (R374; log 12). -/
def agreeLink (s : State) (dev : Nat) (prot : BitVec 2) : State :=
  if prot = 0 ∨ (linkKeyOf s dev).isSome then s
  else setLinks s { s.dev.links with keys := s.dev.links.keys ++ [(dev, Config.linkKey dev s.steps)] }

/-- Bytes written to another device: a flit is sent, its payload under AES-256-GCM where the frame is protected, with the poison flag of
what it carries (R374, R394, R474; log 12). -/
def remoteWrite (s : State) (dev pa : Nat) (prot : BitVec 2) (bs : List Byte) (poisoned : Bool := false) : State :=
  let s1 := agreeLink s dev prot
  let l := s1.dev.links
  let payload := match linkKeyOf s1 dev with
    | some k => if prot = 0 then bs else
        let x := gcmSeal k l.sent.length bs
        x.1 ++ x.2
    | none => bs
  setLinks s1 { l with sent := l.sent ++ [⟨dev, pa, payload, poisoned⟩] }

/-- The bytes of a block at its home. -/
def homeBlock (s : State) (dev pa : Nat) : List Byte :=
  if dev = s.devId then s.mem.bytes pa 256 else Config.remoteRead dev pa 256 s.steps

/-- A record with STREAM 4 for the vcore that occupies the core (R464, R480). -/
def stream4Record (s : State) (status : BitVec 16) (addr : Word) (info : BitVec 32) : Record :=
  let id := s.vc.id
  let (seq, q) := match s.node? id.node with
    | some n => (n.seq, n.queue)
    | none => (0, 0)
  ⟨mkRecord (mkHdr 4 (resumable status) false false false s.vc.ni false id.ctx 0 status)
      (mkWho seq q id.vcid id.fdom) 0 0 addr 0 (zx info) (BitVec.ofNat 64 s.dev.time), id.fdom, false, some (id.node, id.vcid), none⟩

/-- Bytes i to i + n − 1 of a line. -/
def lineBytes (l : Line) (i n : Nat) : List Byte := (List.range n).map fun j => byteOf l.data (i + j)

/-- The runs of dirty bytes of a line: first byte and length. -/
def dirtyRuns (l : Line) : List (Nat × Nat) := runsFrom ((List.range 256).map fun i => l.dirty.getLsbD i) 0 none

/-- The dirty bytes of a line written at the home, run by run; poison goes with them (R105, R474). -/
def writeDirty (s : State) (l : Line) : State :=
  let dev := l.block * 256 / 2 ^ 47
  let pa := l.block * 256 % 2 ^ 47
  let put (t : State) (r : Nat × Nat) : State :=
    if dev = t.devId then softWrite t (pa + r.1) (lineBytes l r.1 r.2)
    else remoteWrite t dev (pa + r.1) l.prot (lineBytes l r.1 r.2) l.poisoned
  let s1 := (dirtyRuns l).foldl put s
  if l.poisoned && l.dirty != 0 && dev == s.devId then addPoison s1 (pa / 256) else s1

/-- Whether a line's home refuses its write-back for now (R479). -/
def homeRefuses (s : State) (block : Nat) : Bool :=
  let dev := block * 256 / 2 ^ 47
  dev != s.devId && (s.route dev != some true || Config.deviceAsleep s.steps dev)

/-- The owner of a block's frame at its home, which may be another device (R463). -/
def ownerOf (s : State) (block : Nat) : Frame :=
  let pa := block * 256
  if pa / 2 ^ 47 = s.devId then s.frame (pa % 2 ^ 47 / 2 ^ 16) else (s.remoteFrame (pa / 2 ^ 47) (pa % 2 ^ 47)).owner

/-- Whether the frame table still gives a line's home the world, KEYID and PROT it was filled under (R464). -/
def lineMatches (s : State) (l : Line) : Bool :=
  match ownerOf s l.block with
  | .world w k p _ => w == s.vc.id.world && k == l.keyid && p == l.prot
  | _ => false

/-- An IPA at which the vcore's world maps a home block; 0 where it maps it no more. -/
def ipaOf (s : State) (pa : Nat) : Nat :=
  ((s.dev.bedrock.leaves.find? fun l => l.world == some s.vc.id.world && decide (l.pa ≤ pa) && decide (pa < l.pa + leafBytes l.size)).map
    fun l => l.ipa + (pa - l.pa)).getD 0

/-- The record of an ALIAS that a write-back met: STREAM 4, not resumable, with an IPA of the block (R452, R464; log 33). -/
def aliasRecord (s : State) (l : Line) : Record :=
  let pa := l.block * 256
  let r := stream4Record s 0x3002 (BitVec.ofNat 64 (ipaOf s pa)) (aliasInfo (ownerOf s l.block))
  { r with bits := r.bits &&& ~~~((1 : Rec64) <<< 55) }

/-- The core store's ECC over a line that leaves: an uncorrectable error found in it poisons it, and is counted and logged (R471, R474,
R477). -/
def leaveCheck (s : State) (l : Line) : Line × State :=
  if (s.vc.st.marks.flips.block (lineBlock l)).bad 1 coreWord then
    ({ l with poisoned := true }, poisonScratch (logEvent (countUe s) 2 0 0) (lineBlock l))
  else (l, s)

/-- A write-back (R134, R464, R479): the line comes back clean, or locked where its home refuses; a line whose attributes no
longer match loses its bytes and raises ALIAS with STREAM 4. -/
def writeBack (s : State) (l : Line) : Line × State :=
  if l.dirty = 0 then (l, s)
  else if !lineMatches s l then ({ l with dirty := 0 }, stopDomain (addRecord s (aliasRecord s l)) s.vc.id.fdom)
  else if homeRefuses s l.block then
    ({ l with lockedAt := some (l.lockedAt.getD s.dev.time) }, s)
  else
    let (l1, s1) := leaveCheck s l
    ({ l1 with dirty := 0, lockedAt := none }, writeDirty s1 l1)

def replaceLine (s : State) (l : Line) : State := s.setCache (s.vc.st.cache.map fun x => if x.block == l.block then l else x)

/-- Every line that p selects is written back; with `drop`, those that end clean leave the cache (R134). -/
def cleanLines (s : State) (p : Line → Bool) (drop : Bool) : State :=
  let step (acc : List Line × State) (l : Line) : List Line × State :=
    if p l then
      let (l', s') := writeBack acc.2 l
      if drop && l'.dirty == 0 then (acc.1, s') else (acc.1 ++ [l'], s')
    else (acc.1 ++ [l], acc.2)
  let (ls, s') := s.vc.st.cache.foldl step ([], s)
  s'.setCache ls

/-- Every line written back and dropped (R134: SSTEP, a vcore leaving a core, a notify write). -/
def flushAll (s : State) : State := cleanLines s (fun _ => true) true

/-- The line was last accessed through an address of a region [base, base + len), which consists of whole blocks (R128). -/
def inRegion (base len : Word) (l : Line) : Bool :=
  let a := l.va.toNat / 256 * 256
  decide (base.toNat ≤ a) && decide (a < base.toNat + len.toNat)

/-- The line's block is what some page of a region translates to, through whatever address it was accessed (R134; log 21). -/
def regionHolds (s : State) (base len : Word) (l : Line) : Bool :=
  (List.range (len.toNat / 2 ^ 16 + 2)).any fun i =>
    let page := (base.toNat / 2 ^ 16 + i) * 2 ^ 16
    let a := page + l.block * 256 % 2 ^ 16
    let holds (dev pa : Nat) : Bool := l.block / 256 == (dev * 2 ^ 47 + pa) / 2 ^ 16
    decide (base.toNat ≤ a) && decide (a < base.toNat + len.toNat) &&
      match placeOf s s.who accRead (BitVec.ofNat 64 page) 1 none with
      | .ok (.home pa _ _ _) => holds s.devId pa
      | .ok (.remote d pa _ _) => holds d pa
      | _ => false

/-- The lines of a region bound to an object (R134). -/
def boundTo (s : State) (obj : Word) (l : Line) : Bool :=
  s.vc.st.bindings.any fun b => b.obj == obj && (inRegion b.base b.len l || regionHolds s b.base b.len l)

/-- Dirty lines remain locked among those p selects: a release, fence or move waits for them (R479). -/
def someLocked (s : State) (p : Line → Bool) : Bool := s.vc.st.cache.any fun l => p l && l.dirty != 0 && homeRefuses s l.block

/-- Room made in way w for block b: the line that holds its set's place leaves (R105). -/
def evictFor (s : State) (w b : Nat) : State :=
  cleanLines s (fun l => l.way == w && l.block % 384 == b % 384) true

/-- What came with a block from its home: whether it is poisoned, and how its check value differs. A check value of a remote block is made
at the port (R124, R474). -/
def homeMark (s : State) (dev pa : Nat) : Bool × BitVec 32 :=
  if dev = s.devId then (s.dev.errors.poison.contains (pa / 256), s.checkMask (pa / 256))
  else (Config.remotePoison dev (pa / 256) s.steps, 0)

/-- A new line enters the cache: its place in the core store has new ECC (R105, R471). -/
def addLine (s : State) (l : Line) : State :=
  let st := s.vc.st
  s.setStore { st with cache := st.cache ++ [l], marks := { st.marks with flips := st.marks.flips.without (lineBlock l) } }

/-- The line of a block, filled from the home where the cache does not hold it; none where no bank is in CACHE mode. What is wrong with
the block comes with it (R473, R474): an uncorrectable error that a store's fill finds poisons it. -/
def fillLine (s : State) (dev pa : Nat) (keyid : Nat) (prot : BitVec 2) (va : Word) : Option Line × State :=
  let b := blockOf dev pa
  match s.line b with
  | some l => (some { l with va := va }, s.setCache (s.vc.st.cache.map fun x => if x.block == b then { x with va := va } else x))
  | none =>
    match s.vc.st.ways with
    | [] => (none, s)
    | w :: ws =>
      let way := (w :: ws).getD (Config.way s.steps b % (w :: ws).length) w
      let s0 := evictFor s way b
      let s1 :=
        if dev ≠ s0.devId then s0
        else if s0.blockUe (pa / 256) then
          addPoison (logEvent (countUe s0) (s0.blockSrc (pa / 256)) 0 (s0.blockPa (pa / 256))) (pa / 256)
        else correctHome s0 (pa / 256)
      if s1.vc.st.cache.any fun l => l.way == way && l.block % 384 == b % 384 then (none, s1)
      else
        let l : Line := ⟨b, way, blockBits (homeBlock s1 dev (pa / 256 * 256)), 0, keyid, prot, va, (homeMark s1 dev pa).1,
          (homeMark s1 dev pa).2, none⟩
        (some l, addLine s1 l)

/-- Bytes written into a line from byte i on, and marked dirty. -/
def lineWrite (l : Line) (i : Nat) : List Byte → Line
  | [] => l
  | b :: bs => lineWrite { l with data := setField l.data (8 * i) b, dirty := l.dirty ||| (1 <<< i) } (i + 1) bs

/-- Errors that a read of n bits of the core store from bit lo corrects (R472). -/
def correctCore (s : State) (lo n : Nat) : State :=
  let m := s.vc.st.marks
  let f := m.flips.within coreWord lo n
  if f.isEmpty || f.bad 1 coreWord then s
  else countCes (s.setMarks { m with flips := m.flips.outside coreWord lo n }) (f.words coreWord)

/-- ECC words of the core store that a write of n bytes at csa covers have new ECC (R471). -/
def coreWritten (s : State) (csa n : Nat) : State :=
  let m := s.vc.st.marks
  let lo := (csa + 7) / 8
  let hi := (csa + n) / 8
  if m.flips.isEmpty then s else s.setMarks { m with flips := m.flips.outside coreWord (64 * lo) (64 * (hi - lo)) }

/-- A held line whose check value did not match, re-read from a home where it does: its clean bytes are the home's, and the re-read is
counted (R473). -/
def recheck (s : State) (dev pa : Nat) : State :=
  match s.line (blockOf dev pa) with
  | none => s
  | some l =>
    if l.check = 0 then s
    else
      let home := homeBlock s dev (pa / 256 * 256)
      let d := natLE ((List.range 256).map fun i => if l.dirty.getLsbD i then byteOf l.data i else home.getD i 0)
      countCe (replaceLine s { l with data := BitVec.ofNat 2048 d, check := 0 })

/-- Bytes read from NORMAL memory through the core data cache, block by block (R105). -/
def cachedRead (s : State) (dev pa : Nat) (keyid : Nat) (prot : BitVec 2) (va : Word) : Nat → Nat → List Byte × State
  | 0, _ => ([], s)
  | fuel + 1, n =>
    if n = 0 then ([], s)
    else
      let m := min n (256 - pa % 256)
      let (ol, s1) := fillLine (recheck s dev pa) dev pa keyid prot va
      let here := match ol with
        | some l => lineBytes l (pa % 256) m
        | none =>
          if dev = s1.devId then s1.mem.bytes pa m else (Config.remoteRead dev pa m s1.steps).take m
      let s2 := match ol with
        | some l => correctCore s1 (8 * (lineBlock l * 256 + pa % 256)) (8 * m)
        | none => if dev = s1.devId then correctHome s1 (pa / 256) else s1
      let (rest, s3) := cachedRead s2 dev (pa + m) keyid prot (va + BitVec.ofNat 64 m) fuel (n - m)
      (here ++ rest, s3)

/-- Bytes written to NORMAL memory through the core data cache, block by block (R105); a write of a whole block clears its poison (R474). -/
def cachedWrite (s : State) (dev pa : Nat) (keyid : Nat) (prot : BitVec 2) (va : Word) : Nat → List Byte → State
  | 0, _ => s
  | fuel + 1, bs =>
    if bs.isEmpty then s
    else
      let m := min bs.length (256 - pa % 256)
      let (ol, s1) := fillLine s dev pa keyid prot va
      let s2 := match ol with
        | some l =>
          let l1 := lineWrite l (pa % 256) (bs.take m)
          coreWritten (replaceLine s1 (if m = 256 then { l1 with poisoned := false, check := 0 } else l1)) (lineBlock l * 256 + pa % 256) m
        | none => if dev = s1.devId then softWrite s1 pa (bs.take m) else remoteWrite s1 dev pa prot (bs.take m)
      cachedWrite s2 dev (pa + m) keyid prot (va + BitVec.ofNat 64 m) fuel (bs.drop m)

/-- A SCRATCH block's poison cleared by a write that covers it (R474). -/
def scratchWrite (s : State) (csa : Nat) (bs : List Byte) : State :=
  let st := s.vc.st
  let part (b : Nat) : Bool := !(decide (csa ≤ b * 256) && decide (b * 256 + 256 ≤ csa + bs.length))
  coreWritten (s.setStore { st with
    scratch := st.scratch.putBytes csa bs
    marks := { st.marks with poison := st.marks.poison.filter part } }) csa bs.length

/-- Correctable errors of SCRATCH bytes that are read: counted, and the stored words rewritten (R472). -/
def correctScratch (s : State) (csa n : Nat) : State := correctCore s (8 * csa) (8 * n)

/-- The lines of a block invalidated: dirty bytes written back, the line dropped (R134). -/
def invalidateBlock (s : State) (b : Nat) : State := cleanLines s (fun l => l.block == b) true

/-- Lines of generated data stand in the cache under numbers beyond every block of physical memory: slot and window block (R167). -/
def genBlock (slot b : Nat) : Nat := 2 ^ 48 + slot * 2 ^ 32 + b

/-- Every line of generated data is dropped (R164, R167). -/
def dropGenerated (s : State) : State := s.setCache (s.vc.st.cache.filter fun l => decide (l.block < 2 ^ 48))

/-- Bytes that an engine operation writes: performed at the home, and put into a line that the cache holds. Those bytes of the line
are clean from then on: the engine's write has taken their place in the order (R127, R134). -/
def engineWrite (s : State) (dev pa : Nat) (prot : BitVec 2) (bs : List Byte) (poisoned : Bool := false) : State :=
  let s1 := if dev = s.devId then softWrite s pa bs else remoteWrite s dev pa prot bs poisoned
  let put (l : Line) (i : Nat) (b : Byte) : Line :=
    let a := dev * 2 ^ 47 + pa + i
    if a / 256 = l.block then
      { l with data := setField l.data (8 * (a % 256)) b, dirty := l.dirty &&& ~~~((1 : BitVec 256) <<< (a % 256)) }
    else l
  s1.setCache (s1.vc.st.cache.map fun l => (bs.zipIdx).foldl (fun x y => put x y.2 y.1) l)

/-- Bytes that an engine operation reads: a line that the cache holds, else the home (R134). -/
def engineRead (s : State) (dev pa n : Nat) : List Byte :=
  (List.range n).map fun i =>
    match s.line (blockOf dev (pa + i)) with
    | some l => byteOf l.data ((pa + i) % 256)
    | none => if dev = s.devId then s.mem.read (pa + i) else (Config.remoteRead dev (pa + i) 1 s.steps).headD 0

/-! ### Data consumed -/

/-- An uncorrectable error in the ECC words of n bytes of the core store (R471). -/
def coreUe (s : State) (csa n : Nat) : Bool := (s.vc.st.marks.flips.within coreWord (8 * csa) (8 * n)).bad 1 coreWord

/-- The data check of the bytes from a to e of one block of a place: `a` and `e` are device offsets, or core-store addresses (R453, R473,
R475). -/
def blockFault (s : State) (va : Word) (p : Place) (b a e : Nat) : Option FaultInfo :=
  let held (l : Line) : Option FaultInfo :=
    let at' := lineBlock l * 256 + (a - b * 256)
    if l.check ≠ 0 ∧ s.checkMask b ≠ 0 then some { mkFault 0x4001 va 2 with block := some b }
    else if coreUe s at' (e - a) then some { mkFault 0x4002 va 2 with block := some (lineBlock l) }
    else if l.poisoned then some (mkFault 0x4003 va 2)
    else none
  let far (d : Nat) : Option FaultInfo :=
    if Config.remotePoison d b s.steps then some (mkFault 0x4003 va 5) else none
  match p with
  | .scratch _ =>
    if coreUe s a (e - a) then some { mkFault 0x4002 va 2 with block := some b }
    else if s.vc.st.marks.poison.contains b then some (mkFault 0x4003 va 2)
    else none
  | .home _ _ _ _ =>
    match s.line (blockOf s.devId (b * 256)) with
    | some l => held l
    | none => homeDataFault s (b * 256) va 0
  | .deviceHome _ _ => homeDataFault s (b * 256) va 0
  | .remote d _ _ _ =>
    match s.line (blockOf d (b * 256)) with
    | some l => held l
    | none => far d
  | .deviceRemote d _ _ _ => far d
  | _ => none

/-- The first byte of a place that lies in blocks; none elsewhere. -/
def Place.start (p : Place) : Option Nat :=
  match p with
  | .scratch a => some a
  | .home a _ _ _ => some a
  | .deviceHome a _ => some a
  | .remote _ a _ _ => some a
  | .deviceRemote _ a _ _ => some a
  | _ => none

/-- The data checks of one piece that a word consumes, block by block (R453, R475); `at'` gives the address that a fault of a byte of the
piece reports (R455). -/
def pieceFaultAt (s : State) (at' : Nat → Word) (p : Piece) : Option FaultInfo :=
  match p.1.start with
  | none => none
  | some a0 => firstFault ((blocksOf a0 p.2).filterMap fun b =>
      blockFault s (at' (max a0 (b * 256) - a0)) p.1 b (max a0 (b * 256)) (min (a0 + p.2) (b * 256 + 256)))

/-- The data checks of one piece, reported at one address. -/
def pieceFault (s : State) (va : Word) (p : Piece) : Option FaultInfo := pieceFaultAt s (fun _ => va) p

/-- The data checks of an access (R454, step 8). -/
def dataFault (s : State) (va : Word) (ps : List Piece) : Option FaultInfo := firstFault (ps.filterMap (pieceFault s va))

/-- Some piece lies on another device that has not answered yet (R504; log 12). -/
def remotePending (s : State) (ps : List Piece) : Bool :=
  (ps.any fun p => match p.1 with
    | .remote d pa _ _ => (s.line (blockOf d pa)).isNone
    | .deviceRemote .. => true
    | _ => false) && !Config.remoteAnswered s.steps

/-- The device of the first remote piece. -/
def remoteOf (ps : List Piece) : Nat :=
  (ps.findSome? fun p => match p.1 with
    | .remote d _ _ _ => some d
    | .deviceRemote d _ _ _ => some d
    | _ => none).getD 0

/-- A stream waits for a remote completion: the access is outstanding (R504). -/
def noteRemote (s : State) (st : StreamId) (ps : List Piece) (va : Word) (isRead : Bool) : State :=
  let a : RemoteAccess := ⟨s.vc.id.node, s.vc.id.vcid, st, remoteOf ps, va, isRead⟩
  if s.dev.links.outstanding.contains a then s
  else { s with dev := { s.dev with links := { s.dev.links with outstanding := s.dev.links.outstanding ++ [a] } } }

/-- A line held under a tag that its frame no longer has leaves every cache: what is dirty in the core's loses its bytes (R464). -/
def dropTagged (s : State) (block : Nat) : State :=
  let s1 := invalidateBlock s block
  if block / 2 ^ 39 = s1.devId then l2Evict s1 (block % 2 ^ 39) else s1

/-- The side effects of an access fault of the vcore in focus: those of failed data, of a failed integrity check, and of a line whose tag no
longer fits. -/
def faultEffects (s : State) (f : FaultInfo) : State :=
  let s1 := match f.block with
    | some b => if f.status = 0x3002 then dropTagged s b else s
    | none => s
  integrityEffects (dataEffects s1 f) f s.vc.id.world s.vc.id.comp (some s.vc.id.fdom)

/-- An access fault of a word that has had no effect. -/
def accessFault (s : State) (st : StreamId) (f : FaultInfo) : State := faultBefore (faultEffects s f) st f

/-- An access fault of an S word. -/
def sAccessFault (s : State) (f : FaultInfo) : Out := .next (accessFault s .s f)

/-- Answered accesses of a stream are outstanding no longer. -/
def clearRemote (s : State) (st : StreamId) : State :=
  { s with dev := { s.dev with links := { s.dev.links with outstanding := s.dev.links.outstanding.filter fun a =>
      !(a.node == s.vc.id.node && a.vcid == s.vc.id.vcid && a.st == st) } } }

end Sys2Proof.Machine
end

