-- ==== Sys2Proof/Machine/Flags.lean ====
section
/-! DEFINITION. The flags of FFLAGS [6:0] (spec/03_arithmetic.md R74, spec/13 R311), and the rounding decisions from which
they follow (R70 to R72). -/

namespace Sys2Proof.Machine

/-- A set of flags in the places of FFLAGS: WAKEHZ SAT NV DZ OF UF NX. -/
abbrev Flags := BitVec 7

def flNX : Flags := 1
def flUF : Flags := 2
def flOF : Flags := 4
def flDZ : Flags := 8
def flNV : Flags := 16
def flSAT : Flags := 32
def flWAKEHZ : Flags := 64

/-- A flag under its condition. -/
def flIf (c : Bool) (f : Flags) : Flags := if c then f else 0

/-- Rounding modes (R70). -/
def rmRNE : BitVec 3 := 0
def rmRZ : BitVec 3 := 1
def rmRU : BitVec 3 := 2
def rmRD : BitVec 3 := 3
def rmRNA : BitVec 3 := 4
def rmSR : BitVec 3 := 5

/-- Whether the magnitude moves to its upper neighbour (R70, R72): r of 2^k units lie above the lower neighbour, and more if
`st`; `odd` is the lower neighbour's lowest bit, `u` the draw. -/
def roundsUp (mode : BitVec 3) (u : Nat) (neg odd : Bool) (r k : Nat) (st : Bool) : Bool :=
  let inexact := r != 0 || st
  if mode = rmRNE then decide (2 ^ k < 2 * r) || (2 * r == 2 ^ k && (st || odd))
  else if mode = rmRU then !neg && inexact
  else if mode = rmRD then neg && inexact
  else if mode = rmRNA then decide (2 ^ k ≤ 2 * r)
  else if mode = rmSR then inexact && decide (2 ^ 16 ≤ r * 2 ^ 16 / 2 ^ k + u)
  else false

/-- Whether a rounded magnitude above the largest finite value becomes infinity under the IEEE policy; `up` says that the
draw of R72 chose the upper neighbour (R71). Under SR a value above the largest finite one that needs no draw, such as 2^128
in FP32, becomes the largest finite value: the spec leaves it open (log 29). -/
def overflowsToInf (mode : BitVec 3) (neg up : Bool) : Bool :=
  mode == rmRNE || mode == rmRNA || (mode == rmRU && !neg) || (mode == rmRD && neg) || (mode == rmSR && up)

end Sys2Proof.Machine
end

