-- ==== Sys2Proof/Machine/Float.lean ====
section
/-! DEFINITION. Values of the number formats and their rounding (spec/03_arithmetic.md R62 to R64, R69 to R76, R84, R85): a
pattern is decoded exactly, an operation computes exactly, and one function rounds. -/

namespace Sys2Proof.Machine

/-- An exact value: (−1)^neg × sig × 2^e, and between that magnitude and the next, (sig + 1) × 2^e, where `st` holds; an
infinity; or a NaN, signalling or quiet. -/
inductive Val
  | fin (neg : Bool) (sig : Nat) (e : Int) (st : Bool)
  | inf (neg : Bool)
  | nan (sn : Bool)
  deriving DecidableEq, Repr, Inhabited

def Val.zero (neg : Bool) : Val := .fin neg 0 0 false

/-- An integer as a value. -/
def Val.ofInt (n : Int) : Val := .fin (decide (n < 0)) n.natAbs 0 false

/-- An integer in units of 2^e. -/
def Val.scaled (n : Int) (e : Int) : Val := .fin (decide (n < 0)) n.natAbs e false

def Val.isZero : Val → Bool
  | .fin _ s _ st => s == 0 && !st
  | _ => false

def Val.isFin : Val → Bool
  | .fin .. => true
  | _ => false

def Val.isNan : Val → Bool
  | .nan _ => true
  | _ => false

def Val.isSnan : Val → Bool
  | .nan b => b
  | _ => false

def Val.isInf : Val → Bool
  | .inf _ => true
  | _ => false

def Val.sign : Val → Bool
  | .fin n .. => n
  | .inf n => n
  | .nan _ => false

def Val.neg : Val → Val
  | .fin n s e st => .fin (!n) s e st
  | .inf n => .inf (!n)
  | .nan b => .nan b

def Val.abs : Val → Val
  | .fin _ s e st => .fin false s e st
  | .inf _ => .inf false
  | .nan b => .nan b

/-- lead(v) = floor(log2 |v|) of a finite non-zero value (R87). -/
def Val.lead : Val → Int
  | .fin _ s e _ => (Nat.log2 s : Int) + e
  | _ => 0

/-- A finite value as an integer number of units 2^u, exact where u is at most its exponent. -/
def Val.units (u : Int) : Val → Int
  | .fin n s e _ =>
    let m : Int := if u ≤ e then s <<< (e - u).toNat else s >>> (u - e).toNat
    if n then -m else m
  | _ => 0

/-- The exponent a value is kept under. -/
def Val.exp : Val → Int
  | .fin _ _ e _ => e
  | _ => 0

/-- NV for a signalling operand. -/
def nvOf (l : List Val) : Flags := flIf (l.any Val.isSnan) flNV

/-! ### Decoding patterns -/

/-- The exponent of the smallest subnormal (R62). -/
def Fmt.lsbMin (f : Fmt) : Int := 1 - (f.bias : Int) - (f.sigBits : Int)

/-- A floating-point pattern as a value (R62 to R64). -/
def decodeF (f : Fmt) (x : Nat) : Val :=
  let m := f.sigBits
  let s := x.testBit (f.expBits + m)
  let e := nbits x m f.expBits
  let mm := nbits x 0 m
  let top := 2 ^ f.expBits - 1
  if f.hasInf && e == top then (if mm = 0 then .inf s else .nan (!(mm.testBit (m - 1))))
  else if f.hasNan && e == top && mm == 2 ^ m - 1 then .nan false
  else if e = 0 then .fin s mm f.lsbMin false
  else .fin s (2 ^ m + mm) ((e : Int) - f.bias - m) false

/-- An integer pattern as an integer (R69). -/
def decodeI (f : Fmt) (x : Nat) : Int := if f.isSigned then sgn f.width x else (x % 2 ^ f.width : Nat)

/-- An element of an MX block under its scale byte (R66). -/
def decodeMx (f : Fmt) (scale x : Nat) : Val :=
  if scale = 255 then .nan false
  else
    let k := (scale : Int) - 127
    let v := if f = .mxi8 then Val.scaled (sgn 8 x) (-6) else decodeF f.mxElem x
    match v with
    | .fin n s e st => .fin n s (e + k) st
    | y => y

/-- The anchor-and-mode pair of an XA128 value (R78): L, and the per-term mode RD. -/
structure Anchor where
  l : Int
  rd : Bool
  deriving DecidableEq, Repr, Inhabited

def xmax : Nat := 2 ^ 127 - 2
def xaPosInf : Nat := 2 ^ 127 - 1
def xaNegInf : Nat := 2 ^ 127 + 1
def xaNan : Nat := 2 ^ 127

/-- An XA128 pattern as a value (R78). -/
def decodeXa (l : Int) (x : Nat) : Val :=
  if x = xaPosInf then .inf false else if x = xaNegInf then .inf true else if x = xaNan then .nan false
  else Val.scaled (sgn 128 x) l

/-! ### Rounding -/

/-- A magnitude rounded to units of 2^lsb: the number of units, whether inexact, and whether the upper neighbour was taken. -/
def roundAt (mode : BitVec 3) (u : Nat) (neg : Bool) (sig : Nat) (e : Int) (st : Bool) (lsb : Int) : Nat × Bool × Bool :=
  if lsb ≤ e then (sig <<< (e - lsb).toNat, st, false)
  else
    let k := (lsb - e).toNat
    let q := sig >>> k
    let r := sig % 2 ^ k
    let up := roundsUp mode u neg (q.testBit 0) r k st
    ((if up then q + 1 else q), r != 0 || st, up)

/-- The canonical NaN (R64); +0 in a format without NaN (R84). -/
def canonNan (f : Fmt) : Nat :=
  if f.hasInf then ((2 ^ f.expBits - 1) <<< f.sigBits) + 2 ^ (f.sigBits - 1) else if f.hasNan then 0x7F else 0

/-- The largest finite magnitude as a pattern (R62). -/
def maxFinite (f : Fmt) : Nat :=
  if f.hasInf then ((2 ^ f.expBits - 1) <<< f.sigBits) - 1
  else if f.hasNan then 0x7E else 2 ^ (f.expBits + f.sigBits) - 1

def signBit (f : Fmt) (neg : Bool) : Nat := if neg then 2 ^ (f.expBits + f.sigBits) else 0

def infPat (f : Fmt) (neg : Bool) : Nat := signBit f neg + ((2 ^ f.expBits - 1) <<< f.sigBits)

/-- A value rounded once to a floating-point format: the pattern, and OF, UF, NX by R71 and R74. An infinity or NaN is
converted by R84 and R85; `sat` selects the saturating policy. -/
def roundF (f : Fmt) (mode : BitVec 3) (u : Nat) (sat : Bool) (v : Val) : Nat × Flags :=
  match v with
  | .nan _ => (canonNan f, flIf (!f.hasNan) flNV)
  | .inf n => if f.hasInf then (infPat f n, 0) else (signBit f n + maxFinite f, flOF ||| flNX)
  | .fin n 0 _ false => (signBit f n, 0)
  | .fin n s e st =>
    let m := f.sigBits
    let lead : Int := (Nat.log2 s : Int) + e
    let lsb := max (lead - m) f.lsbMin
    let (q, inexact, up) := roundAt mode u n s e st lsb
    let pat : Nat := if q < 2 ^ m then q else ((lsb + m + f.bias - 1).toNat <<< m) + q
    if maxFinite f < pat then
      let inf := f.hasInf && !sat && overflowsToInf mode n up
      ((if inf then infPat f n else signBit f n + maxFinite f), flOF ||| flNX)
    else
      let free := (roundAt mode u n s e st (lead - m)).1
      let tiny := decide (lead < -(f.bias : Int)) || (lead == -(f.bias : Int) && decide (free < 2 ^ (m + 1)))
      (signBit f n + pat, flIf inexact flNX ||| flIf (inexact && tiny) flUF)

/-- Bounds of an integer format (R69). -/
def intMin (f : Fmt) : Int := if f.isSigned then -(2 : Int) ^ (f.width - 1) else 0
def intMax (f : Fmt) : Int := if f.isSigned then (2 : Int) ^ (f.width - 1) - 1 else (2 : Int) ^ f.width - 1

/-- A value converted to an integer format: rounded by mode; out of range the nearer bound with NV, and with NX as it differs
from the exact value (R74); 0 with NV for a NaN (R84, R85). -/
def roundI (f : Fmt) (mode : BitVec 3) (u : Nat) (v : Val) : Nat × Flags :=
  match v with
  | .nan _ => (0, flNV)
  | .inf n => (wrapNat f.width (if n then intMin f else intMax f), flNV ||| flNX)
  | .fin n s e st =>
    let (q, inexact, _) := roundAt mode u n s e st 0
    let x : Int := if n then -(q : Int) else q
    if x < intMin f then (wrapNat f.width (intMin f), flNV ||| flNX)
    else if intMax f < x then (wrapNat f.width (intMax f), flNV ||| flNX)
    else (wrapNat f.width x, flIf inexact flNX)

/-- An integer result in an integer format: wrapped, or with `sat` the nearest bound and SAT (R69). -/
def fitI (f : Fmt) (sat : Bool) (x : Int) : Nat × Flags :=
  if sat && decide (x < intMin f) then (wrapNat f.width (intMin f), flSAT)
  else if sat && decide (intMax f < x) then (wrapNat f.width (intMax f), flSAT)
  else (wrapNat f.width x, 0)

/-! ### Exact arithmetic (R73, R76) -/

/-- The sign of an exact zero sum of operands that are not all of one sign. -/
def cancelSign (mode : BitVec 3) : Bool := mode == rmRD

/-- The exact sum of two finite values; the sign of a zero by R73. -/
def sumFin (mode : BitVec 3) (x y : Val) : Val :=
  let u := min x.exp y.exp
  let t := x.units u + y.units u
  if t = 0 then
    if x.isZero && y.isZero && x.sign == y.sign then .zero x.sign else .zero (cancelSign mode)
  else .scaled t u

/-- x + y. -/
def addV (mode : BitVec 3) (x y : Val) : Val × Flags :=
  match x, y with
  | .nan a, .nan b => (.nan false, flIf (a || b) flNV)
  | .nan a, _ => (.nan false, flIf a flNV)
  | _, .nan b => (.nan false, flIf b flNV)
  | .inf a, .inf b => if a = b then (.inf a, 0) else (.nan false, flNV)
  | .inf a, _ => (.inf a, 0)
  | _, .inf b => (.inf b, 0)
  | _, _ => (sumFin mode x y, 0)

/-- x × y. -/
def mulV (x y : Val) : Val × Flags :=
  let sg := x.sign != y.sign
  match x, y with
  | .nan a, .nan b => (.nan false, flIf (a || b) flNV)
  | .nan a, _ => (.nan false, flIf a flNV)
  | _, .nan b => (.nan false, flIf b flNV)
  | .inf _, y => if y.isZero then (.nan false, flNV) else (.inf sg, 0)
  | x, .inf _ => if x.isZero then (.nan false, flNV) else (.inf sg, 0)
  | .fin _ s e _, .fin _ t g _ => (.fin sg (s * t) (e + g) false, 0)

/-- x × y + z with the product unrounded. -/
def fmaV (mode : BitVec 3) (x y z : Val) : Val × Flags :=
  let (p, fl) := mulV x y
  let (r, fl') := addV mode p z
  (r, fl ||| fl')

/-- x / y, with enough bits of the quotient for every format and a sticky rest. -/
def divV (x y : Val) : Val × Flags :=
  let sg := x.sign != y.sign
  match x, y with
  | .nan a, .nan b => (.nan false, flIf (a || b) flNV)
  | .nan a, _ => (.nan false, flIf a flNV)
  | _, .nan b => (.nan false, flIf b flNV)
  | .inf _, .inf _ => (.nan false, flNV)
  | .inf _, _ => (.inf sg, 0)
  | _, .inf _ => (.zero sg, 0)
  | .fin _ s e _, .fin _ t g _ =>
    if t = 0 then (if s = 0 then (.nan false, flNV) else (.inf sg, flDZ))
    else if s = 0 then (.zero sg, 0)
    else
      let n := s <<< 200
      (.fin sg (n / t) (e - g - 200) (n % t != 0), 0)

/-- √x (R238). -/
def sqrtV (x : Val) : Val × Flags :=
  match x with
  | .nan a => (.nan false, flIf a flNV)
  | .inf n => if n then (.nan false, flNV) else (.inf false, 0)
  | .fin n s e _ =>
    if s = 0 then (.zero n, 0)
    else if n then (.nan false, flNV)
    else
      let odd := e % 2 != 0
      let a := (if odd then 2 * s else s) <<< 160
      let r := isqrt 128 a
      (.fin false r ((if odd then e - 1 else e) / 2 - 80) (r * r != a), 0)

/-- 1/√x (R238). -/
def rsqrtV (x : Val) : Val × Flags :=
  match x with
  | .nan a => (.nan false, flIf a flNV)
  | .inf n => if n then (.nan false, flNV) else (.zero false, 0)
  | .fin n s e _ =>
    if s = 0 then (.inf n, flDZ)
    else if n then (.nan false, flNV)
    else
      let odd := e % 2 != 0
      let a := if odd then 2 * s else s
      let q := 2 ^ 320 / a
      let r := isqrt 170 q
      (.fin false r (-((if odd then e - 1 else e) / 2) - 160) (2 ^ 320 % a != 0 || r * r != q), 0)

/-- 1/x (R238). -/
def rcpV (x : Val) : Val × Flags := divV (.fin false 1 0 false) x

/-! ### Comparison -/

/-- x < y for values that are not NaNs, −0 equal to +0. -/
def ltV (x y : Val) : Bool :=
  match x, y with
  | .nan _, _ => false
  | _, .nan _ => false
  | .inf a, .inf b => a && !b
  | .inf a, _ => a
  | _, .inf b => !b
  | _, _ => decide (x.units (min x.exp y.exp) < y.units (min x.exp y.exp))

/-- x = y as numbers. -/
def eqV (x y : Val) : Bool :=
  match x, y with
  | .nan _, _ => false
  | _, .nan _ => false
  | .inf a, .inf b => a == b
  | .inf _, _ => false
  | _, .inf _ => false
  | _, _ => x.units (min x.exp y.exp) == y.units (min x.exp y.exp)

/-- x before y in the order of R208, in which −0 lies below +0. -/
def beforeV (x y : Val) : Bool := ltV x y || (x.isZero && y.isZero && x.sign && !y.sign)

/-- A floating-point condition (R175, R211): the bit, and NV. -/
def condF (c : BitVec 3) (x y : Val) : Bool × Flags :=
  let un := x.isNan || y.isNan
  let quiet := nvOf [x, y]
  let loud := flIf un flNV
  match c.toNat with
  | 0 => (eqV x y, quiet)
  | 1 => (!eqV x y, quiet)
  | 2 => (ltV x y, loud)
  | 3 => (ltV x y || eqV x y, loud)
  | 4 => (ltV y x, loud)
  | 5 => (ltV y x || eqV x y, loud)
  | _ => (un, quiet)

end Sys2Proof.Machine
end

