-- ==== Sys2Proof/Machine/Assay.lean ====
section
/-! DEFINITION. Assays (spec/04_assay.md R87 to R94, R96, R99): effective assays, caps, and the assay of a result by the
class of its operation. -/

namespace Sys2Proof.Machine

/-- A format in which a value is kept, with the exponent of its lowest bit: the smallest subnormal, offset by an MX scale,
or the anchor (R88). -/
structure Kept where
  f : Fmt
  lsb : Int
  deriving DecidableEq, Repr, Inhabited

def Kept.plain (f : Fmt) : Kept := ⟨f, f.lsbMin⟩

def Kept.xa (a : Anchor) : Kept := ⟨.xa, a.l⟩

/-- A block under a scale byte. -/
def Kept.mx (f : Fmt) (scale : Nat) : Kept :=
  ⟨f, (if f = .mxi8 then -6 else f.mxElem.lsbMin) + ((scale : Int) - 127)⟩

/-- The precision p of R88. -/
def Fmt.prec (f : Fmt) : Nat :=
  match f with
  | .xa => 127
  | .mxi8 => 8
  | .mx8 | .mx6 | .mx4 => f.mxElem.sigBits + 1
  | _ => f.sigBits + 1

/-- The assay width of R88. -/
def Fmt.assayBits (f : Fmt) : Nat :=
  match f with
  | .f64 | .xa => 7
  | .f32 => 5
  | _ => if f.isInt then 0 else 4

/-- lsb_pos (R89). -/
def lsbPos (r : Val) (k : Kept) : Int := if k.f = .xa then k.lsb else max (r.lead - k.f.prec + 1) k.lsb

/-- cap (R89). -/
def capOf (r : Val) (k : Kept) : Nat :=
  if !r.isFin then 0 else if r.isZero then k.f.prec else (r.lead - lsbPos r k + 1).toNat

/-- An operand: its value, stored assay, effective assay and cap (R90). -/
structure Opnd where
  v : Val
  stored : Nat
  eff : Nat
  cap : Nat
  deriving DecidableEq, Repr, Inhabited

/-- An operand read in a format (R90). -/
def mkOpnd (k : Kept) (v : Val) (stored : Nat) : Opnd :=
  if v.isFin then ⟨v, stored, min stored (capOf v k), capOf v k⟩ else ⟨v, stored, 0, 0⟩

/-- Exact: the effective assay equals the cap (R90). An infinity, which has no cap, counts as exact, as R92 has it for the
exponential of −∞ (log 24). -/
def Opnd.exact (x : Opnd) : Bool := !x.v.isNan && x.eff == x.cap

/-- unc (R91); none stands for −∞. -/
def Opnd.unc (x : Opnd) : Option Int := if x.v.isFin && !x.v.isZero then some (x.v.lead - x.eff + 1) else none

def maxU (a b : Option Int) : Option Int :=
  match a, b with
  | none, y => y
  | x, none => x
  | some x, some y => some (max x y)

/-- clamp(n, 0, hi). -/
def clampNat (n : Int) (hi : Nat) : Nat := min n.toNat hi

/-- assay_of (R91). -/
def assayOf (u : Option Int) (r : Val) (k : Kept) (exactZero : Bool) : Nat :=
  if !r.isFin then 0
  else if r.isZero then (if exactZero then k.f.prec else 0)
  else
    let l := lsbPos r k
    let top := match u with
      | none => l
      | some x => max x l
    clampNat (r.lead - top + 1) (capOf r k)

/-- Add and subtract; `e` is the exact result (R92). -/
def asyAdd (x y : Opnd) (e r : Val) (k : Kept) : Nat := assayOf (maxU x.unc y.unc) r k (e.isZero && x.exact && y.exact)

/-- The uncertainty of a product or quotient e (R92). -/
def uMul (x y : Opnd) (e : Val) : Option Int :=
  if e.isFin && !e.isZero then
    let t : Int := (min x.eff y.eff : Nat) - (if x.exact || y.exact then 0 else 1)
    some (e.lead - t + 1)
  else none

/-- Multiply and divide (R92). -/
def asyMul (x y : Opnd) (e r : Val) (k : Kept) : Nat := assayOf (uMul x y e) r k (e.isZero && x.exact && y.exact)

/-- Fused multiply-add: p is the exact product, e the exact result (R92). -/
def asyFma (x y c : Opnd) (p e r : Val) (k : Kept) : Nat :=
  assayOf (maxU (uMul x y p) c.unc) r k (e.isZero && x.exact && y.exact && c.exact)

/-- Square roots (R92). -/
def asySqrt (x : Opnd) (e r : Val) (k : Kept) : Nat :=
  if !r.isFin then 0
  else if r.isZero then assayOf none r k (e.isZero && x.exact)
  else min (x.eff + 1) (capOf r k)

/-- The exponential (R92). -/
def asyExp2 (x : Opnd) (r : Val) (k : Kept) : Nat :=
  if !r.isFin then 0
  else if r.isZero then (if x.v.isInf then k.f.prec else 0)
  else
    match x.unc with
    | none => capOf r k
    | some u => clampNat (-u) (capOf r k)

/-- The logarithm (R92). -/
def asyLog2 (x : Opnd) (e r : Val) (k : Kept) : Nat :=
  assayOf (some (2 - (x.eff : Int))) r k (e.isZero && x.exact)

/-- Integer to floating point: cap (R92). -/
def asyFromInt (r : Val) (k : Kept) : Nat := if r.isFin then capOf r k else 0

/-- Other conversions; a zero from a non-zero value is 0 (R92). -/
def asyConvert (x : Opnd) (r : Val) (k : Kept) : Nat :=
  if !r.isFin then 0 else if r.isZero && !x.v.isZero then 0 else min x.eff (capOf r k)

/-- A loaded element (R96). A NaN and an infinity have no cap; their assay is 0 (DEDUCED, log 24). -/
def asyLoad (asyld : BitVec 8) (v : Val) (k : Kept) : Nat :=
  if v.isFin then (if asyld.getLsbD 7 then min (asyld.extractLsb' 0 7).toNat (capOf v k) else capOf v k) else 0

/-- One element of a block: its value, its computed assay, and whether it is an exact zero (R94). -/
structure BlockElem where
  v : Val
  asy : Nat
  exactZero : Bool
  deriving DecidableEq, Repr, Inhabited

/-- The assay of a block (R94). -/
def blockAssay (p : Nat) (l : List BlockElem) : Nat :=
  let live := l.filter fun x => x.v.isFin && !x.v.isZero
  match live with
  | [] => if l.all fun x => x.v.isZero && x.exactZero then p else 0
  | x :: xs => xs.foldl (fun m y => min m y.asy) x.asy

/-- Whether a checked result is low under a threshold (R99). -/
def isLow (th : BitVec 7) (r : Val) (eff : Nat) : Bool := r.isFin && decide (eff < th.toNat)

/-- The choice of R208 between two operands: the chosen pattern and stored assay, and NV. `lower` selects the minimum. -/
def chooseV (lower : Bool) (f : Fmt) (x y : Opnd) (px py : Nat) : Nat × Nat × Flags :=
  let fl := nvOf [x.v, y.v]
  match x.v.isNan, y.v.isNan with
  | true, true => (canonNan f, 0, fl)
  | true, false => (py, y.stored, fl)
  | false, true => (px, x.stored, fl)
  | false, false =>
    let first := if lower then beforeV x.v y.v else beforeV y.v x.v
    let second := if lower then beforeV y.v x.v else beforeV x.v y.v
    if first then (px, x.stored, fl) else if second then (py, y.stored, fl) else (px, min x.stored y.stored, fl)

end Sys2Proof.Machine
end

