-- ==== Sys2Proof/Machine/Quarry.lean ====
section
/-! DEFINITION. The generators of the quarry unit (spec/07_quarry_windows.md R149, R152 to R161), the assays of generated
values (spec/04 R95, R162), and the limits of a slot descriptor (R152 to R154). -/

namespace Sys2Proof.Machine

/-! ### The descriptor -/

def SlotCfg.fld (c : SlotCfg) (lo w : Nat) : Nat := nbits c.desc.toNat lo w

def SlotCfg.mode (c : SlotCfg) : Nat := c.fld 16 4

/-- FMT, where it names a format. -/
def SlotCfg.fmt (c : SlotCfg) : Fmt := (fmtOfCode (BitVec.ofNat 5 (c.fld 24 5))).getD .i8

/-- RAND in raw-bits mode. -/
def SlotCfg.isRaw (c : SlotCfg) : Bool := nbits c.desc.toNat 20 4 == 4 && !c.desc.getLsbD 16

/-- θ[i] (R158). -/
def SlotCfg.thetaAt (c : SlotCfg) (i : Nat) : Nat := nbits c.theta.toNat (32 * i) 32

/-! ### The quarter-wave table -/

/-- Fraction bits of the evaluation of the table's entries. -/
def sinP : Nat := 160

/-- atan(1/n) in fixed point: the alternating series with the term t. -/
def atanInvFrom (n2 : Nat) : Nat → Nat → Nat → Int → Int → Int
  | 0, _, _, _, acc => acc
  | f + 1, k, t, sg, acc => atanInvFrom n2 f (k + 2) (t / n2) (-sg) (acc + sg * (t / k : Nat))

/-- π in fixed point, by Machin's formula. -/
def piFx : Nat :=
  let at5 := atanInvFrom 25 80 1 (2 ^ sinP / 5) 1 0
  let at239 := atanInvFrom 57121 80 1 (2 ^ sinP / 239) 1 0
  (16 * at5 - 4 * at239).toNat

/-- The alternating sine series: term t in fixed point, n the last factor divided by. -/
def sinSeries (x2 : Nat) : Nat → Nat → Nat → Int → Int → Int
  | 0, _, _, _, acc => acc
  | f + 1, n, t, sg, acc =>
    let t' := (t * x2) >>> sinP / ((n + 1) * (n + 2))
    sinSeries x2 f (n + 2) t' (-sg) (acc - sg * (t' : Nat))

/-- T[k] for k from 0 to 1,026 (R159). -/
def sinTable (k : Nat) : Int :=
  if k = 1024 then 2 ^ 30
  else
    let k' := if 1024 < k then 2048 - k else k
    let x := piFx * k' / 2048
    let y := sinSeries ((x * x) >>> sinP) 30 1 x 1 (x : Int)
    ((y.toNat >>> (sinP - 31)) + 1) / 2

/-- sin_q30 (R159). -/
def sinQ30 (phase : Nat) : Int :=
  let q := nbits phase 30 2
  let x0 := nbits phase 0 30
  let x := if q = 1 ∨ q = 3 then 2 ^ 30 - x0 else x0
  let k := x / 2 ^ 20
  let t : Int := (x % 2 ^ 20 : Nat)
  let d1 := sinTable (k + 1) - sinTable k
  let d2 := sinTable (k + 2) - 2 * sinTable (k + 1) + sinTable k
  let y := (sinTable k * 2 ^ 41 + d1 * t * 2 ^ 21 + d2 * t * (t - 2 ^ 20) + 2 ^ 40) / 2 ^ 41
  let y' := min y (2 ^ 30)
  if 2 ≤ q then -y' else y'

/-! ### RAND -/

def rotl32 (v s : Nat) : Nat := (v <<< s) % 2 ^ 32 ||| v >>> (32 - s)

/-- The rounds of QR10 (R160). -/
def qr10 : Nat → Nat → Nat → Nat → Nat → Nat → Nat → Nat
  | 0, x0, x1, x2, x3, _, _ => x0 + x1 * 2 ^ 32 + x2 * 2 ^ 64 + x3 * 2 ^ 96
  | n + 1, x0, x1, x2, x3, ka, kb =>
    let pa := x0 * 0xCD2B9A57
    let pb := x2 * 0xE3A70B1D
    qr10 n (pb >>> 32 ^^^ x1 ^^^ ka) (rotl32 (pb % 2 ^ 32) 7) (pa >>> 32 ^^^ x3 ^^^ kb) (rotl32 (pa % 2 ^ 32) 13)
      ((ka + 0x6A09E667) % 2 ^ 32) ((kb + 0xBB67AE85) % 2 ^ 32)

/-- Block c of a RAND slot: 16 bytes. -/
def qr10Block (key strm c : Nat) : Nat :=
  qr10 10 (nbits c 0 32) (nbits c 32 32) strm 0 (nbits key 0 32) (nbits key 32 32)

/-- n bytes of the raw stream from an offset. -/
def SlotCfg.raw (c : SlotCfg) (off n : Nat) : Nat :=
  let blk (i : Nat) := qr10Block (c.fld 64 64) (c.fld 128 32) (off / 16 + i)
  (blk 0 + blk 1 * 2 ^ 128) >>> (8 * (off % 16)) % 2 ^ (8 * n)

/-! ### Elements -/

/-- An exact value rounded to FMT by RNE (R154). -/
def genRound (f : Fmt) (v : Val) : Nat := (roundF f rmRNE 0 false v).1

/-- RAMP (R156). -/
def rampElem (c : SlotCfg) (e : Nat) : Nat :=
  let n0 := c.fld 256 24
  let n1 := c.fld 288 24
  let a : Int := sgn 64 (c.fld 64 64) + sgn 32 (c.fld 128 32) * (e % n0 : Nat) + sgn 32 (c.fld 160 32) * (e / n0 % n1 : Nat)
    + sgn 32 (c.fld 192 32) * (e / (n0 * n1) : Nat)
  if c.fmt.isInt then wrapNat c.fmt.width a else genRound c.fmt (.scaled a (sgn 8 (c.fld 224 8)))

/-- MASK (R157). -/
def maskElem (c : SlotCfg) (e : Nat) : Nat :=
  let wid := c.fld 192 32
  let i : Int := (c.fld 256 32 + e / wid : Nat)
  let j : Int := (c.fld 288 32 + e % wid : Nat)
  let lo := sgn 32 (c.fld 320 32)
  let hi := sgn 32 (c.fld 352 32)
  let br : Int := c.fld 384 32
  let bc : Int := c.fld 416 32
  let keep := match nbits c.mode 0 2 with
    | 0 => decide (j ≤ i + hi)
    | 1 => decide (i + lo ≤ j) && decide (j ≤ i + hi)
    | 2 => i / br == j / bc
    | _ => decide (j / bc ≤ i / br)
  (if keep then c.fld 64 64 else c.fld 128 64) % 2 ^ c.fmt.width

/-- A zero of a format is given as +0 (R159). -/
def plusZero (f : Fmt) (x : Nat) : Nat := if x % 2 ^ (f.width - 1) = 0 then 0 else x

/-- ROPE (R158, R159). -/
def ropeElem (c : SlotCfg) (e : Nat) : Nat :=
  let dim := c.fld 160 9
  let pair := e / 2
  let pos := (c.fld 128 32 + pair / dim) % 2 ^ 32
  let ph := (pos * c.thetaAt (pair % dim)) % 2 ^ 32
  plusZero c.fmt <| genRound c.fmt (.scaled (sinQ30 (if e % 2 = 0 then (ph + 0x40000000) % 2 ^ 32 else ph)) (-30))

/-- Uniform RAND (R160). -/
def uniformElem (c : SlotCfg) (e : Nat) : Nat :=
  let b := min c.fmt.prec (-c.fmt.lsbMin).toNat
  genRound c.fmt (.scaled (c.raw (8 * e) 8 / 2 ^ (64 - b) : Nat) (-(b : Int)))

/-- Element e of a slot's window as a pattern (R149). -/
def SlotCfg.elem (c : SlotCfg) (e : Nat) : Nat :=
  match nbits c.desc.toNat 20 4 with
  | 1 => rampElem c e
  | 2 => maskElem c e
  | 3 => ropeElem c e
  | 4 => uniformElem c e
  | 5 => c.fld 64 64 % 2 ^ c.fmt.width
  | _ => 0

/-- Byte `off` of a slot's window (R149). -/
def SlotCfg.byte (c : SlotCfg) (off : Nat) : Byte :=
  if c.isRaw then BitVec.ofNat 8 (c.raw off 1)
  else
    let w := c.fmt.width
    let j := 8 * off / w
    let x := if 8 ≤ w then c.elem j else c.elem j + c.elem (j + 1) * 2 ^ w + c.elem (j + 2) * 2 ^ (2 * w)
    BitVec.ofNat 8 (x >>> (8 * off - w * j))

/-- The bytes of a window range. -/
def SlotCfg.bytes (c : SlotCfg) (off n : Nat) : List Byte := (List.range n).map fun i => c.byte (off + i)

/-- The assay of a generated element (R95): its pattern is x. -/
def SlotCfg.elemAssay (c : SlotCfg) (x : Nat) : Nat :=
  let f := c.fmt
  if f.isInt then 0
  else
    let v := decodeF f x
    if nbits c.desc.toNat 20 4 = 3 then assayOf (some (-21)) v (.plain f) true
    else if v.isFin then capOf v (.plain f) else 0

/-- The assay that a loaded element of format f at bit position `bit` of the window takes, where it is one generated element
(R162). -/
def SlotCfg.loadAssay (c : SlotCfg) (f : Fmt) (bit : Nat) : Option Nat :=
  if !c.isRaw && c.fmt == f && bit % f.width == 0 then some (c.elemAssay (c.elem (bit / f.width))) else none

/-- The 16-bit draw of R72. -/
def SlotCfg.draw (c : SlotCfg) (i : Nat) : Nat := c.raw (2 * (i % 2 ^ 39)) 2

/-! ### Limits of a descriptor -/

/-- The bits of a descriptor that a kind uses, as (lowest bit, width) pairs (R152, R153). -/
def kindFields (kind : Nat) (raw : Bool) : List (Nat × Nat) :=
  let head := [(20, 4), (31, 1)] ++ if raw then [] else [(24, 5)]
  match kind with
  | 1 => head ++ [(64, 64), (128, 32), (160, 32), (192, 32), (224, 8), (256, 24), (288, 24)]
  | 2 => head ++ [(16, 2), (64, 64), (128, 64), (192, 32), (256, 32), (288, 32), (320, 32), (352, 32), (384, 32), (416, 32)]
  | 3 => head ++ [(64, 64), (128, 32), (160, 9)]
  | 4 => head ++ [(16, 1), (64, 64), (128, 32)]
  | 5 => head ++ [(64, 64)]
  | _ => head

def maskOf (l : List (Nat × Nat)) : Nat := l.foldl (fun m x => m ||| ((2 ^ x.2 - 1) <<< x.1)) 0

/-- A pattern field that has bits above W: its lowest such bit (R153). -/
def highBits (d lo w : Nat) : List Nat :=
  match lowBit (64 - w) (lo + w) d with
  | some b => if b < lo + 64 then [b] else []
  | none => []

/-- The offending bits of a descriptor, the lowest of which DESCRIPTOR reports (R152 to R154, R449): bits that must be zero, and
the lowest bit of each field out of range. -/
def slotBad (c : Rec64) : List Nat :=
  let d := c.toNat
  let kind := nbits d 20 4
  let code := nbits d 24 5
  let raw := kind == 4 && !d.testBit 16
  let zero := match lowBit 512 0 (d &&& ((2 ^ 512 - 1) ^^^ maskOf (kindFields kind raw))) with
    | some b => [b]
    | none => []
  let f := (fmtOfCode (BitVec.ofNat 5 code)).getD .i8
  let fmtBad : Bool := decide (0x12 < code) || (!raw && f.isInt && (kind == 3 || kind == 4))
  let bad (c : Bool) (b : Nat) : List Nat := if c then [b] else []
  if kind = 0 then []
  else if 5 < kind then 20 :: zero
  else
    zero ++ bad (!raw && fmtBad) 24
    ++ (match kind with
      | 1 => (if f.isInt then (lowBit 8 224 d).toList else []) ++ bad (nbits d 256 24 == 0) 256 ++ bad (nbits d 288 24 == 0) 288
      | 2 =>
        highBits d 64 f.width ++ highBits d 128 f.width ++ bad (nbits d 192 32 == 0) 192
        ++ bad (d.testBit 17 && nbits d 384 32 == 0) 384 ++ bad (d.testBit 17 && nbits d 416 32 == 0) 416
      | 3 => (lowBit 8 64 d).toList ++ bad (nbits d 160 9 == 0 || 256 < nbits d 160 9) 160
      | 5 => highBits d 64 f.width
      | _ => [])

/-- A configuration without the bits that its kind ignores: BR and BC under CAUSAL and BAND (R153). -/
def SlotCfg.effective (c : SlotCfg) : SlotCfg :=
  if c.fld 20 4 = 2 ∧ !c.desc.getLsbD 17 then { c with desc := c.desc &&& ~~~((2 ^ 64 - 1 : BitVec 512) <<< 384) } else c

/-- The lowest offending bit. -/
def slotFault (c : Rec64) : Option Nat :=
  match slotBad c with
  | [] => none
  | x :: xs => some (xs.foldl min x)

end Sys2Proof.Machine
end

