-- ==== Sys2Proof/Machine/Access.lean ====
section
/-! DEFINITION. Reading and writing the bytes of a place (spec/05 R103 to R105, R112; spec/07 R149 to R151), the runs of bytes
that a row access reaches (R249, R455), and stochastic-rounding draws (R72, R176, R232). -/

namespace Sys2Proof.Machine

/-! ### Quarry windows (R149, R165, R167) -/

/-- The unit in which a word that reads across a QFENCE takes one configuration or the other at a byte of a window: an element; where
the two configurations disagree on its width, 48 bytes, which hold whole elements of both (R165; log 10). -/
def mixUnit (a b : SlotCfg) (off : Nat) : Nat :=
  if !a.isRaw && !b.isRaw && a.fmt.width == b.fmt.width then 8 * off / a.fmt.width else off / 48

/-- The configuration of a slot before the last QFENCE, where the word that now executes began before it (R165). -/
def oldCfg (s : State) (q : Nat) : Option SlotCfg :=
  match s.turn with
  | .stream _ st => (s.vc.st.reading.find? fun r => r.1 == st).map fun r => r.2.toList.getD q ⟨0, 0⟩
  | _ => none

/-- The configuration under which the element at a byte of a slot's window is computed (R163, R165). -/
def cfgAt (s : State) (q off : Nat) : SlotCfg :=
  let x := s.vc.st.slotCfg q
  match oldCfg s q with
  | none => x
  | some o => if o.kind != 0 && Config.oldElement s.steps (mixUnit o x off) then o else x

/-- n bytes of a slot's window. -/
def windowBytes (s : State) (q off n : Nat) : List Byte :=
  match oldCfg s q with
  | none => (s.vc.st.slotCfg q).bytes off n
  | some _ => (List.range n).map fun i => (cfgAt s q (off + i)).byte (off + i)

/-- A block of a window enters the data cache (R105, R167): it is tagged by slot and window offset, and never dirty. Whatever changes the
slot's active configuration drops it, so that its bytes are always those of the active configuration. -/
def fillGenerated (s : State) (q : Nat) (va : Word) (b : Nat) : State :=
  match s.line (genBlock q b), s.vc.st.ways, oldCfg s q with
  | none, w :: ws, none =>
    let n := genBlock q b
    let way := (w :: ws).getD (Config.way s.steps n % (w :: ws).length) w
    let s1 := evictFor s way n
    if s1.vc.st.cache.any fun l => l.way == way && l.block % 384 == n % 384 then s1
    else addLine s1 ⟨n, way, blockBits ((s1.vc.st.slotCfg q).bytes (256 * b) 256), 0, 0, 0, va, false, 0, none⟩
  | _, _, _ => s

/-- The bytes of one piece read by a word of a stream. -/
def readPiece (s : State) (va : Word) (p : Piece) : List Byte × State :=
  match p.1 with
  | .sink => (List.replicate p.2 0, s)
  | .scratch csa => (s.vc.st.scratch.bytes csa p.2, correctScratch s csa p.2)
  | .quarry q off => (windowBytes s q off p.2, (blocksOf off p.2).foldl (fun t b => fillGenerated t q va b) s)
  | .home pa _ k pr => cachedRead (correctWalk s s.who va) s.devId pa k pr va (p.2 / 256 + 2) p.2
  | .remote dev pa k pr => cachedRead (agreeLink (correctWalk s s.who va) dev pr) dev pa k pr va (p.2 / 256 + 2) p.2
  | .deviceHome pa _ => (s.mem.bytes pa p.2, (blocksOf pa p.2).foldl correctHome (correctWalk s s.who va))
  | .deviceRemote dev pa _ pr => ((Config.remoteRead dev pa p.2 s.steps).take p.2, agreeLink s dev pr)
  | .device _ => (List.replicate p.2 0, s)

/-- The bytes of an access read piece by piece. -/
def readPieces (s : State) (va : Word) : List Piece → List Byte × State
  | [] => ([], s)
  | p :: ps =>
    let (x, s1) := readPiece s va p
    let (y, s2) := readPieces s1 (va + BitVec.ofNat 64 p.2) ps
    (x ++ y, s2)

/-- The bytes of one piece written by a word of a stream. -/
def writePiece (s : State) (va : Word) (p : Piece) (bs : List Byte) : State :=
  match p.1 with
  | .scratch csa => scratchWrite s csa bs
  | .home pa _ k pr => cachedWrite (correctWalk s s.who va) s.devId pa k pr va (bs.length / 256 + 2) bs
  | .remote dev pa k pr => cachedWrite (correctWalk s s.who va) dev pa k pr va (bs.length / 256 + 2) bs
  | .deviceHome pa _ => softWriteWith false (correctWalk s s.who va) pa bs
  | .deviceRemote dev pa _ pr => remoteWrite s dev pa pr bs
  | _ => s

/-- The bytes of an access written piece by piece. -/
def writePieces (s : State) (va : Word) : List Piece → List Byte → State
  | [], _ => s
  | p :: ps, bs => writePieces (writePiece s va p (bs.take p.2)) (va + BitVec.ofNat 64 p.2) ps (bs.drop p.2)

/-- The bytes of a place read by an engine operation: the cache is looked up and not filled. A window's element is computed as it is
read. -/
def readPieceE (s : State) (p : Piece) : List Byte :=
  match p.1 with
  | .scratch csa => s.vc.st.scratch.bytes csa p.2
  | .quarry q off => (s.vc.st.slotCfg q).bytes off p.2
  | .home pa _ _ _ => engineRead s s.devId pa p.2
  | .remote dev pa _ _ => engineRead s dev pa p.2
  | _ => List.replicate p.2 0

/-- What an engine operation's read does beside: correctable errors are corrected (R472), a link's keys agreed (R374). -/
def correctPieces (s : State) (ps : List Piece) : State :=
  ps.foldl (fun t p =>
    match p.1 with
    | .home pa _ _ _ => (blocksOf pa p.2).foldl (fun u b =>
        match u.line (blockOf u.devId (b * 256)) with
        | some l => correctCore (recheck u u.devId (b * 256)) (8 * (lineBlock l * 256 + (max pa (b * 256) - b * 256)))
            (8 * (min (pa + p.2) (b * 256 + 256) - max pa (b * 256)))
        | none => correctHome u b) t
    | .scratch csa => correctScratch t csa p.2
    | .remote dev _ _ pr => agreeLink t dev pr
    | _ => t) s

/-- The bytes of a place written by an engine operation. -/
def writePieceE (s : State) (p : Piece) (bs : List Byte) : State :=
  match p.1 with
  | .scratch csa => scratchWrite s csa bs
  | .home pa _ _ _ => engineWrite s s.devId pa 0 bs
  | .remote dev pa _ pr => engineWrite s dev pa pr bs
  | _ => s

def writePiecesE (s : State) : List Piece → List Byte → State
  | [], _ => s
  | p :: ps, bs => writePiecesE (writePieceE s p (bs.take p.2)) ps (bs.drop p.2)

/-! ### Row accesses -/

/-- A part of a row access: its first byte within the access, its address, where it goes, its length. -/
structure Part where
  off : Nat
  va : Word
  place : Place
  len : Nat
  deriving DecidableEq, Repr, Inhabited

/-- The parts of n bytes at offset `off` of an access at `ea`, one for each page and bank; a fault of a part is reported at the
address of the lane, of w bits, that its first byte belongs to (R455). -/
def partsOf (s : State) (who : Who) (acc : Acc) (ea : Word) (w : Nat) :
    Nat → Nat → Nat → List (Except FaultInfo Part)
  | 0, _, _ => []
  | fuel + 1, off, n =>
    if n = 0 then []
    else
      let va := ea + BitVec.ofNat 64 off
      let inBank := if windowBase ≤ va.toNat then bankBytes - (va.toNat - windowBase) % bankBytes else n
      let m := min n (min (pageLeft va) inBank)
      let lane := ea + BitVec.ofNat 64 (8 * off / w * w / 8)
      let here := match placeOf s who acc va m none with
        | .ok p => .ok ⟨off, va, p, m⟩
        | .error f => .error (if f.addr = va then { f with addr := lane } else f)
      here :: partsOf s who acc ea w fuel (off + m) (n - m)

/-- All parts, or the fault that R455 reports. -/
def collect (l : List (Except FaultInfo Part)) : Except FaultInfo (List Part) :=
  let bad := l.filterMap fun x => match x with | .error f => some f | .ok _ => none
  match firstFault bad with
  | some f => .error f
  | none => .ok (l.filterMap fun x => match x with | .ok p => some p | .error _ => none)

/-- The parts of the runs of bytes (offset, length) of a row access. -/
def rowParts (s : State) (who : Who) (acc : Acc) (ea : Word) (w : Nat) (runs : List (Nat × Nat)) :
    Except FaultInfo (List Part) :=
  collect (runs.flatMap fun r => partsOf s who acc ea w (r.2 / 2 ^ 16 + 3) r.1 r.2)

def Part.piece (p : Part) : Piece := (p.place, p.len)

/-- The data checks of the parts read (R454, R455): a fault is reported at the address of the lane that the first byte in the failing block
belongs to. -/
def partsFault (s : State) (ea : Word) (w : Nat) (ps : List Part) : Option FaultInfo :=
  firstFault (ps.filterMap fun p => pieceFaultAt s (fun i => ea + BitVec.ofNat 64 (8 * (p.off + i) / w * w / 8)) p.piece)

/-- The bytes of the parts read, each with its offset. -/
def readParts (s : State) : List Part → List (Nat × List Byte) × State
  | [] => ([], s)
  | p :: ps =>
    let (x, s1) := readPiece s p.va p.piece
    let (y, s2) := readParts s1 ps
    ((p.off, x) :: y, s2)

/-- The parts written from an image of n bytes of the access. -/
def writeParts (s : State) (img : Nat) : List Part → State
  | [] => s
  | p :: ps => writeParts (writePiece s p.va p.piece (bytesLE p.len (img >>> (8 * p.off)))) img ps

/-- Byte runs put into an image. -/
def putRuns (img : Nat) (l : List (Nat × List Byte)) : Nat :=
  l.foldl (fun x r =>
    let m := (2 ^ (8 * r.2.length) - 1) <<< (8 * r.1)
    (x ^^^ (x &&& m)) ||| (natLE r.2 <<< (8 * r.1))) img

/-- The runs of bytes that hold bits of active lanes of width w (R249): `act` gives the n lanes. -/
def activeRuns (act : Nat) (n w : Nat) : List (Nat × Nat) :=
  runsFrom ((List.range ((n * w + 7) / 8)).map fun b =>
    (List.range ((8 + w - 1) / w + 1)).any fun i =>
      let j := 8 * b / w + i
      decide (j < n) && decide (j * w < 8 * b + 8) && act.testBit j) 0 none

/-! ### Draws -/

/-- Whether FCTL.SLOT names a RAND slot in raw-bits mode (R435). -/
def drawReady (s : State) (fctl : Word) : Bool := (s.vc.st.slotCfg (nbits fctl.toNat 4 4)).isRaw

/-- FCTL fields (R312). -/
def fctlMode (fctl : Word) : BitVec 3 := fctl.extractLsb' 0 3
def fctlSlot (fctl : Word) : Nat := nbits fctl.toNat 4 4
def fctlDraw (fctl : Word) : Nat := nbits fctl.toNat 32 32

/-- The draw of lane j (R72, R176, R232); 0 in modes other than SR. -/
def drawAt (s : State) (mode : BitVec 3) (fctl : Word) (j : Nat) : Nat :=
  if mode = rmSR then (s.vc.st.slotCfg (fctlSlot fctl)).draw (fctlDraw fctl + j) else 0

/-- The fault of a rounding word with mode SR whose slot is no raw RAND slot (R435). -/
def drawFault (s : State) (mode : BitVec 3) (fctl : Word) : List FaultInfo :=
  if mode == rmSR && !drawReady s fctl then [mkFault 0x1006 0 8] else []

end Sys2Proof.Machine
end

