-- ==== Sys2Proof/Machine/Fetch.lean ====
section
/-! DEFINITION. Instruction fetch (spec/06_consistency.md R140; spec/22 R456): translation with X, the instruction cache of the
stream, and the home. -/

namespace Sys2Proof.Machine

/-- The block that an instruction cache still holds (R140; log 9). -/
def heldBlock (s : State) (st : StreamId) (block : Nat) : Option (BitVec 2048) :=
  (s.vc.st.icache.zipIdx.find? fun x => x.1.st == st && x.1.block == block && Config.icacheHeld s.steps x.2).map fun x => x.1.data

/-- n bytes fetched by a stream at va, or the fault that the word raises when it would issue. -/
def fetch (s : State) (st : StreamId) (va : Word) (n : Nat) : Except FaultInfo Nat :=
  match placeOf s s.who accFetch va n none with
  | .error f => .error f
  | .ok (.home pa ipa _ _) =>
    match heldBlock s st (blockOf s.devId pa) with
    | some d => .ok (nbits d.toNat (8 * (pa % 256)) (8 * n))
    | none =>
      match macFaults s false pa n ipa, homeDataFault s pa va 0 with
      | some f, _ => .error f
      | none, some f => .error f
      | none, none => .ok (s.mem.load pa n)
  | .ok (.remote dev pa _ _) =>
    match heldBlock s st (blockOf dev pa) with
    | some d => .ok (nbits d.toNat (8 * (pa % 256)) (8 * n))
    | none =>
      if Config.remotePoison dev (pa / 256) s.steps then .error (mkFault 0x4003 va 5)
      else .ok (bytesAt (Config.remoteRead dev pa n s.steps) 0 n)
  | .ok _ => .error (mkFault 0x2009 va)

/-- The correctable errors that the fetch of n bytes at va meets, in tables and in the block itself, are corrected and counted (R472). -/
def afterFetch (s : State) (st : StreamId) (va : Word) (n : Nat) : State :=
  if s.dev.errors.flips.isEmpty && s.dev.errors.l2Flips.isEmpty then s
  else
    match placeOf s s.who accFetch va n none with
    | .ok (.home pa _ _ _) =>
      let s1 := correctWalk s s.who va
      if (heldBlock s st (blockOf s.devId pa)).isSome then s1 else correctHome s1 (pa / 256)
    | _ => correctWalk s s.who va

/-- A word's bits as a word of its stream. -/
def codeOf (st : StreamId) (w : Nat) : Code :=
  match st with
  | .s => .s (BitVec.ofNat 32 w)
  | .v => .v (BitVec.ofNat 64 w)
  | .m => .m (BitVec.ofNat 64 w)
  | .c => .c (BitVec.ofNat 128 w)

/-- Word size of a stream in bytes, as a number. -/
def StreamId.bytes (st : StreamId) : Nat := st.size.toNat

/-! ### Whether a stream's next word has begun (R165) -/

/-- WAIT is satisfied (R191). -/
def waitOk (s : State) (cl : Clauses) : Bool := decide (cl.wn.toNat ≤ (s.getM cl.wi).toNat)

/-- The WAIT test of a word of stream st: in the cycle in which the SET of a stream before it lowers the semaphore, the test still sees
the value before (R193; DEDUCED, log 13). A take tests the value that the takes before it have left, which those SETs follow. -/
def waitMet (s : State) (st : StreamId) (cl : Clauses) : Bool :=
  waitOk s cl || (cl.so != 3 && Config.sameCycle s.steps && s.vc.st.lowered.any fun g =>
    g.m == cl.wi && g.time == s.dev.time && decide (g.src.code < st.code) && decide (cl.wn.toNat ≤ g.old.toNat))

/-- A semaphore lowered by an update of stream st (R193). -/
def noteLowered (s : State) (st : StreamId) (m : BitVec 6) (old : BitVec 16) : State :=
  s.setStore { s.vc.st with lowered := (s.vc.st.lowered.filter fun g => g.time == s.dev.time) ++ [⟨st, m, old, s.dev.time⟩] }

/-- A word waits for its WAIT clause: an S word has none. -/
def codeWaits (s : State) (x : Code) : Bool :=
  match x with
  | .s _ => false
  | .v w => !waitOk s (parseClauses w)
  | .m w => !waitOk s (parseClauses w)
  | .c w => !waitOk s (parseClauses (w.extractLsb' 0 64))

/-- The next word of a stream waits for no semaphore, so that it may have begun already: it is not ordered after what another stream does
now (R131, R165). -/
def mayHaveBegun (s : State) (st : StreamId) : Bool :=
  let x := s.stream st
  match st, s.vc.st.follow with
  | .m, f :: _ => !codeWaits s (.m f.w)
  | _, _ =>
    if x.halted || x.point.isSome then false
    else
      match x.loop with
      | some l => match l.body[l.idx]? with
        | some (some c) => !codeWaits s c
        | _ => false
      | none => match fetch s st x.pc st.bytes with
        | .ok w => !codeWaits s (codeOf st w)
        | .error _ => false

/-- The streams beside st whose next word may have begun. -/
def begunBeside (s : State) (st : StreamId) : List StreamId := [.s, .v, .m, .c].filter fun x => x != st && mayHaveBegun s x

/-- n words of a stream from va: a loop body (R259); none for a word whose fetch fails (R456). -/
def fetchBody (s : State) (st : StreamId) : Nat → Word → List (Option Code)
  | 0, _ => []
  | n + 1, va =>
    (match fetch s st va st.bytes with
    | .error _ => none
    | .ok w => some (codeOf st w)) :: fetchBody s st n (va + st.size)

end Sys2Proof.Machine
end

