-- ==== Sys2Proof/Machine/Control.lean ====
section
/-! DEFINITION. Scalar control transfer with its delay slot and shadow stack, and the semaphore forms
(spec/09_scalar_instructions.md R221 to R226; spec/21 R436, R438). -/

namespace Sys2Proof.Machine

/-! ### Transfers -/

/-- PBT: b[BT] := pc + 4 × off (R221). -/
def execPbt (t : BitVec 3) (off : BitVec 23) (s : State) : Out :=
  sNext (s.setB t (s.vc.sS.pc + (sx off <<< 2)))

/-- PBTR: b[BT] := s[a] + imm (R221). -/
def execPbtr (t : BitVec 3) (a : BitVec 6) (imm : BitVec 14) (s : State) : Out := sNext (s.setB t (s.getS a + sx imm))

/-- Whether a transfer is taken (R222). -/
def takenBy (s : State) (ci : BitVec 3) (cm : BitVec 2) : Bool :=
  if cm = 0 then true else if cm = 1 then s.getC ci else !s.getC ci

/-- A transfer word retires into its delay slot: the decision and the target are kept (R222). -/
def intoSlot (s : State) (target : Word) (taken : Bool) : Out :=
  let x := s.vc.sS
  .next { s with vc := { s.vc with
    sS := { x with pc := x.pc + 4, cmdix := x.cmdix + 1, wait := waitNone }
    delay := some ⟨x.pc, target, taken⟩ } }

/-- DELAY_SLOT for a transfer word in a delay slot (R436). -/
def notInSlot (s : State) (k : Out) : Out := if s.vc.inSlot then sFault s (mkFault 0x100C) else k

/-- BR (R222). -/
def execBr (t ci : BitVec 3) (cm : BitVec 2) (s : State) : Out :=
  notInSlot s (intoSlot s (s.getB t) (takenBy s ci cm))

/-- A shadow-stack entry in memory, read or written as an 8-byte access of the S stream: the pieces that its checks give
(R223, R456). An entry in the local window reaches SCRATCH, and one on a quarry page is QUARRY_ACCESS: the spec names no outcome
(DESIGN CHOICE, log 35). -/
def spillPlace (s : State) (va : Word) (reads : Bool) : Except FaultInfo (List Piece) :=
  match pieces s s.who accSpill va 8 with
  | .error f => .error f
  | .ok ps =>
    match (if reads then dataFault s va ps else none) with
    | some f => .error f
    | none => .ok ps

/-- shadow_push (R223): with 64 entries on chip, the oldest is spilled first. -/
def shadowPush (s : State) (ra : Word) : Except FaultInfo State :=
  let r := s.vc.regs
  if r.shadow.length < 64 then .ok (s.setRegs { r with shadow := ra :: r.shadow })
  else
    match spillPlace s r.sstk false with
    | .error f => .error f
    | .ok ps =>
      let s1 := writePieces s r.sstk ps (bytesLE 8 (r.shadow.getLastD 0).toNat)
      .ok (s1.setRegs { s1.vc.regs with
        shadow := ra :: r.shadow.dropLast, sstk := r.sstk + 8, sscnt := r.sscnt + 1 })

/-- CALL (R222, R223). -/
def execCall (t ci : BitVec 3) (cm : BitVec 2) (lk : BitVec 6) (s : State) : Out :=
  notInSlot s <|
    if takenBy s ci cm then
      match shadowPush s (s.vc.sS.pc + 8) with
      | .error f => sAccessFault s f
      | .ok s1 => intoSlot (s1.setS lk (s.vc.sS.pc + 8)) (s.getB t) true
    else intoSlot s (s.getB t) false

/-- RETURN_MISMATCH (R407, R417): before the RET and its delay slot. -/
def returnMismatch (s : State) (tgt : Word) (top : Option Word) : Out :=
  .next (takeFault s .s { stopBefore s .s with tgt := tgt }
    (mkFault 0x0003 (top.getD 0) (if top.isNone then 1 else 0)))

/-- RET (R222, R223): the shadow stack's top must be the target; a spilled entry is read from memory, and taking it is not
idempotent (R224). -/
def execRet (t ci : BitVec 3) (cm : BitVec 2) (s : State) : Out :=
  let tgt := s.getB t
  let r := s.vc.regs
  notInSlot s <|
    if takenBy s ci cm then
      match r.shadow with
      | e :: rest => if e = tgt then intoSlot (s.setRegs { r with shadow := rest }) tgt true else returnMismatch s tgt (some e)
      | [] =>
        if r.sscnt = 0 then returnMismatch s tgt none
        else
          match spillPlace s (r.sstk - 8) true with
          | .error f => sAccessFault s f
          | .ok ps =>
            let (bs, s1) := readPieces s (r.sstk - 8) ps
            let e := BitVec.ofNat 64 (natLE bs)
            if e = tgt then
              intoSlot (s1.setRegs { s1.vc.regs with sstk := r.sstk - 8, sscnt := r.sscnt - 1 }).setNi tgt true
            else returnMismatch s1 tgt (some e)
    else intoSlot s tgt false

/-! ### Semaphores -/

/-- SEM_RANGE (R430, R438). -/
def semRange (m : BitVec 6) : FaultInfo := mkFault 0x100E 0 (zx m |>.setWidth 32)

/-- An update by an integer: none where it leaves 0 to 0xFFFF (R438). -/
def semAdd (x : BitVec 16) (n : Int) : Option (BitVec 16) :=
  let y := (x.toNat : Int) + n
  if 0 ≤ y ∧ y ≤ 0xFFFF then some (BitVec.ofInt 16 y) else none

/-- A semaphore written by the S stream (R193, R225). -/
def loweredTo (s : State) (m : BitVec 6) (v : BitVec 16) : State :=
  if v.toNat < (s.getM m).toNat then noteLowered (s.setM m v) .s m (s.getM m) else s.setM m v

/-- SEMSET (R225). -/
def execSemset (m a : BitVec 6) (s : State) : Out :=
  if 0xFFFF < (s.getS a).toNat then sFault s (semRange m)
  else sNext (loweredTo s m ((s.getS a).setWidth 16))

/-- SEMADD (R225). -/
def execSemadd (m a : BitVec 6) (imm : BitVec 14) (s : State) : Out :=
  match semAdd (s.getM m) ((s.getS a).toNat + imm.toInt) with
  | none => sFault s (semRange m)
  | some v => sNext (loweredTo s m v)

/-- SEMWAIT: waits until m ≥ n; with take, subtracts n in the same step (R225, R226). -/
def execSemwait (m : BitVec 6) (take : Bool) (imm : BitVec 14) (s : State) : Out :=
  if (s.getM m).toNat < imm.toNat then sStall s 0 m (imm.setWidth 16)
  else sNext (if take then s.setM m (s.getM m - imm.setWidth 16) else s)

end Sys2Proof.Machine
end

