-- ==== Sys2Proof/Machine/Operands.lean ====
section
/-! DEFINITION. Every operand form: f registers in a type (spec/09 R206), slab-store rows with their wake windows (spec/05 R109,
R111; spec/21 R443), vector registers and predicates under rotation (spec/05 R110, spec/10 R228, R257), handle entries
(spec/05 R106, R107), lanes with their assays (spec/10 R227; spec/04 R90, R97), slab descriptors and anchors (R231, R260). -/

namespace Sys2Proof.Machine

/-! ### f registers (R206) -/

/-- An FP64 pattern narrowed to type t: the pattern in t, with the flags of R85; a NaN keeps its sign and top bits. -/
def narrowF (t : Fmt) (x : Nat) : Nat × Flags :=
  match decodeF .f64 x with
  | .nan _ =>
    let m := nbits x (52 - t.sigBits) t.sigBits
    (signBit t (x.testBit 63) + ((2 ^ t.expBits - 1) <<< t.sigBits) + (if m = 0 then 1 else m), 0)
  | v => if t = .f64 then (x, 0) else roundF t rmRNE 0 false v

/-- A value of type t widened to an FP64 pattern. -/
def widenF (t : Fmt) (x : Nat) : Nat :=
  if t = .f64 then x
  else
    match decodeF t x with
    | .nan _ => signBit .f64 (x.testBit (t.expBits + t.sigBits)) + (0x7FF <<< 52) + (nbits x 0 t.sigBits <<< (52 - t.sigBits))
    | v => (roundF .f64 rmRNE 0 false v).1

/-- read_t of an f register: its pattern and flags in t, and the operand with its effective assay, which the conversion rule
gives (R90, R92). -/
def readFt (t : Fmt) (r : FReg) : Nat × Flags × Opnd :=
  let (x, fl) := narrowF t r.v.toNat
  let v := decodeF t x
  let o := mkOpnd (.plain t) v r.asy.toNat
  (x, fl, { o with eff := asyConvert (mkOpnd (.plain .f64) (decodeF .f64 r.v.toNat) r.asy.toNat) v (.plain t) })

/-- A result of type t as an f register. -/
def fregOf (t : Fmt) (x asy : Nat) : FReg := ⟨BitVec.ofNat 64 (widenF t x), BitVec.ofNat 7 asy⟩

/-! ### Low results (R99, R100) -/

/-- ASSAY_LOW (R407, R417): the lowest low lane or block and its effective assay. -/
def assayLow (lane asy : Nat) : FaultInfo :=
  mkFault 0x0002 0 (BitVec.ofNat 32 (lane * 2 ^ 16 + asy))

/-- LOW set in a stream (R98). -/
def setLow (s : State) (st : StreamId) : State :=
  s.setStream st { s.stream st with asyte := (s.stream st).asyte ||| 2 }

/-! ### Slab descriptors (R260) -/

def slabRow0 (a : Word) : Nat := nbits a.toNat 0 8
def slabRows (a : Word) : Nat := nbits a.toNat 8 9
def slabFmt (a : Word) : BitVec 5 := a.extractLsb' 17 5
def slabAnchor (a : Word) : Anchor := ⟨sgn 9 (nbits a.toNat 22 9), a.getLsbD 31⟩
def slabHas (a : Word) (row : Nat) : Bool := decide (slabRow0 a ≤ row) && decide (row < slabRow0 a + slabRows a)
def slabIsXa (a : Word) : Bool := slabFmt a == 0x17

/-- The anchor of a row: that of the lowest-numbered XA128 slab whose rows include it (R231). -/
def State.rowAnchor (s : State) (row : Nat) : Option Anchor :=
  (s.vc.regs.a.toList.find? fun a => slabIsXa a && slabHas a row).map slabAnchor

/-! ### Rows -/

/-- The cluster of a row (R111). -/
def clusterOf (row : Nat) : Nat := row / 32

def Store.cluster (st : Store) (j : Nat) : Cluster := st.clusters.toList.getD j ⟨.powered, false⟩

/-- Power states as SLABPWR codes them (R111). -/
def Power.code : Power → Nat
  | .powered => 0
  | .retained => 1
  | .gated => 2

/-- GATED_ROW for the lowest row of those named whose cluster is not POWERED, the clusters being in given states (R442). -/
def gatedIn (power : Nat → Power) (rows : List Nat) : List FaultInfo :=
  let bad := rows.filter fun r => power (clusterOf r) != .powered
  match bad with
  | [] => []
  | r :: rs =>
    let m := rs.foldl min r
    [mkFault 0x1007 0 (BitVec.ofNat 32 (m + 256 * (power (clusterOf m)).code))]

/-- GATED_ROW of a V word (R442). -/
def gatedFault (s : State) (rows : List Nat) : List FaultInfo := gatedIn (fun j => (s.vc.st.cluster j).power) rows

/-- The clusters as the word of an M or C stream met them at its issue, which may lie before the V stream's last SLABPWR (R444). -/
def issuedPower (s : State) (st : StreamId) (j : Nat) : Power :=
  match s.vc.st.before.find? fun b => b.1 == st && Config.issuedBefore s.steps with
  | some b => (b.2.toList.getD j ⟨.powered, false⟩).power
  | none => (s.vc.st.cluster j).power

/-- GATED_ROW of an M or C word (R442, R444). -/
def gatedAt (s : State) (st : StreamId) (rows : List Nat) : List FaultInfo := gatedIn (issuedPower s st) rows

/-- An access to a row is hazardous in its wake window, or after its cluster left POWERED (R443, R444). -/
def Store.hazard (st : Store) (row : Nat) : Bool :=
  (st.cluster (clusterOf row)).waking || (st.cluster (clusterOf row)).power != .powered

/-- An uncorrectable error of a slab row (R471, R478). -/
def rowUeFault (s : State) (rows : List Nat) : List FaultInfo :=
  if rows.any fun r => s.vc.st.marks.rowUe r then [mkFault 0x4002 0 3] else []

/-- A row read; in its wake window zero with assay 0, and WAKEHZ (R443). A correctable error is counted and rewritten (R472). -/
def readRow (s : State) (st : StreamId) (row : Nat) : Row × State :=
  if s.vc.st.hazard row then (⟨0, 0⟩, s.orFlags st flWAKEHZ)
  else
    let r := s.vc.st.rows.toList.getD row ⟨0, 0⟩
    let m := s.vc.st.marks
    let f := m.rowFlips.within coreWord (row * 16384) 16384
    if f.isEmpty then (r, s)
    else (r, countCes (s.setMarks { m with rowFlips := m.rowFlips.outside coreWord (row * 16384) 16384 }) (f.words coreWord))

/-- A row's storage replaced, without a check. -/
def putRow (s : State) (row : Nat) (x : Row) : State :=
  if h : row < 256 then
    let m := s.vc.st.marks
    s.setStore { s.vc.st with
      rows := s.vc.st.rows.set row x
      marks := { m with rowFlips := m.rowFlips.outside coreWord (row * 16384) 16384 } }
  else s

/-- A row written; in its wake window the write is discarded, with WAKEHZ (R443). -/
def writeRow (s : State) (st : StreamId) (row : Nat) (x : Row) : State :=
  if s.vc.st.hazard row then s.orFlags st flWAKEHZ else putRow s row x

/-- The row that backs v[j] (R110, R257). -/
def State.vRow (s : State) (j : Nat) : Nat :=
  let base := 32 * s.vc.regs.vwb.toNat
  if j < 32 then (base + j) % 256 else (base + 32 + (j - 32 + s.vc.regs.rb.toNat) % 32) % 256

/-! ### Predicates -/

/-- The storage behind p[j] (R257). -/
def State.pIdx (s : State) (j : Nat) : Nat := if j < 8 then j else 8 + (j - 8 + s.vc.regs.pb.toNat) % 8

def State.getP (s : State) (j : Nat) : PredBits := s.vc.regs.p.toList.getD (s.pIdx j) 0

def State.setP (s : State) (j : Nat) (v : PredBits) : State :=
  if h : s.pIdx j < 16 then s.setRegs { s.vc.regs with p := s.vc.regs.p.set (s.pIdx j) v } else s

/-- The active lanes under PRED, over the first l lanes (R182, R228). -/
def State.active (s : State) (pred : BitVec 5) (l : Nat) : Nat :=
  let all := 2 ^ l - 1
  if pred = 0 then all
  else
    let g := (s.getP (pred.extractLsb' 0 4).toNat).toNat &&& all
    if pred.getLsbD 4 then all ^^^ g else g

/-! ### Lanes of a row image -/

/-- Bits of lane j of format f in a row or entry image (R65, R227). -/
def laneBits (f : Fmt) (data : Nat) (j : Nat) : Nat := nbits data (f.width * j) f.width

/-- The scale byte of block b of an MX row (R227). -/
def mxScale (data : Nat) (b : Nat) : Nat := nbits data (8 * (2016 + b)) 8

/-- The format in which lane j is kept: its smallest bit depends on its block's scale, or on the anchor. -/
def laneKept (f : Fmt) (an : Anchor) (data : Nat) (j : Nat) : Kept :=
  if f.isMx then .mx f (mxScale data (j / 32)) else if f = .xa then .xa an else .plain f

/-- The value of a pattern of format f; `data` gives the scale of an MX lane. -/
def laneVal (f : Fmt) (an : Anchor) (data : Nat) (j : Nat) (x : Nat) : Val :=
  if f.isMx then decodeMx f (mxScale data (j / 32)) x
  else if f = .xa then decodeXa an.l x
  else if f.isInt then .ofInt (decodeI f x)
  else decodeF f x

/-- The stored assay of lane j in a sideband (R97). -/
def laneAssay (f : Fmt) (side : Nat) (j : Nat) : Nat :=
  if f.isInt then 0
  else if f.isBlock then nbits side (8 * (j / 32)) 4
  else
    match f with
    | .xa => nbits side (8 * j) 7
    | .f32 => nbits side (8 * j) 5
    | _ => nbits side (4 * j) 4

/-- Where the assay of a lane, or of a block, lies in the sideband: lowest bit, and width. -/
def assayPlace (f : Fmt) (j : Nat) : Nat × Nat :=
  if f.isBlock then (8 * (j / 32), 4)
  else
    match f with
    | .xa => (8 * j, 7)
    | .f32 => (8 * j, 5)
    | _ => (4 * j, 4)

/-- One lane of an operand. -/
structure Lane where
  x : Nat
  o : Opnd
  deriving DecidableEq, Repr, Inhabited

/-- The lane of a row image. -/
def laneOf (f : Fmt) (an : Anchor) (r : Row) (j : Nat) : Lane :=
  let d := r.data.toNat
  let x := laneBits f d j
  ⟨x, mkOpnd (laneKept f an d j) (laneVal f an d j x) (laneAssay f r.side.toNat j)⟩

/-- A pattern given to every lane: exact, with its cap (R229). In an MX format, for which the spec names no scale, it is read under
scale byte 0 (DESIGN CHOICE, log 22). -/
def laneConst (f : Fmt) (an : Anchor) (x : Nat) : Lane :=
  let v := laneVal f an 0 0 x
  let k := laneKept f an 0 0
  ⟨x, mkOpnd k v (capOf v k)⟩

/-- The low W bits of a k register as a lane pattern; sign-extended under .xa (R229). -/
def kPattern (f : Fmt) (k : Word) : Nat :=
  if f = .xa then (k.signExtend 128).toNat else k.toNat % 2 ^ f.width

/-! ### Building row images -/

/-- A field of w bits at bit lo. -/
structure Put where
  lo : Nat
  w : Nat
  v : Nat
  deriving DecidableEq, Repr, Inhabited

/-- Fields put into an image. The fields replace what lies under them. -/
def putAll (img : Nat) (l : List Put) : Nat :=
  l.foldl (fun x p =>
    let m := (2 ^ p.w - 1) <<< p.lo
    (x ^^^ (x &&& m)) ||| ((p.v % 2 ^ p.w) <<< p.lo)) img

/-- The bits of the used range of a row of format f: elements, and scales of an MX row (R227). -/
def usedMask (f : Fmt) : Nat :=
  let el := 2 ^ (f.lanes * f.width) - 1
  if f.isMx then el ||| ((2 ^ 256 - 1) <<< (8 * 2016)) else el

/-- The bits of a sideband that format f uses (R97). -/
def sideMask (f : Fmt) : Nat :=
  if f.isInt then 0
  else
    let n := if f.isBlock then f.lanes / 32 else f.lanes
    (List.range n).foldl (fun m j =>
      let (lo, w) := assayPlace f (if f.isBlock then 32 * j else j)
      m ||| ((2 ^ w - 1) <<< lo)) 0

def rowOfNat (d sd : Nat) : Row := ⟨BitVec.ofNat 16384 d, BitVec.ofNat 4096 sd⟩

/-! ### Handles (R106, R107) -/

/-- Entry bytes of a size code (R107). -/
def entryBytes (esz : Nat) : Nat := 64 * 2 ^ esz

def Store.handle (st : Store) (n : Nat) : Handle := st.h.toList.getD n handleOff

def setHandle (s : State) (n : Nat) (x : Handle) : State :=
  if h : n < 16 then s.setStore { s.vc.st with h := s.vc.st.h.set n x } else s

/-- The number of filled entries that can be popped: those before the first that is not full. -/
def Handle.fill (h : Handle) : Nat := (h.entries.takeWhile (·.full)).length

/-- Where a FIFO bank keeps an entry: its core-store address. The spec gives the bank no inner layout: places are taken in turn by the
entries' numbers (DESIGN CHOICE, log 34; only an injected error tells). -/
def Handle.place (h : Handle) (id : Nat) : Nat :=
  h.bank.toNat * bankBytes + id % (bankBytes / entryBytes h.esz.toNat) * entryBytes h.esz.toNat

/-- An uncorrectable error in the entry that a pop would take after i others (R471, R475). -/
def entryBad (s : State) (n : Nat) (i : Nat := 0) : Bool :=
  let h := s.vc.st.handle n
  match h.entries[i]? with
  | some e => e.full && coreUe s (h.place e.id) (entryBytes h.esz.toNat)
  | none => false

/-- UNCORRECTABLE of an entry that a word pops (R453, R475). -/
def popFault (s : State) (n : Nat) (i : Nat := 0) : List FaultInfo := if entryBad s n i then [mkFault 0x4002 0 2] else []

/-- The same of the entries that a word pops from handles, one after another. -/
def popFaults (s : State) (hs : List Nat) : List FaultInfo := hs.zipIdx.flatMap fun x => popFault s x.1 ((hs.take x.2).count x.1)

/-- The correctable errors of an entry that is read are corrected (R472). -/
def correctEntry (s : State) (n id : Nat) : State :=
  let h := s.vc.st.handle n
  correctCore s (8 * h.place id) (8 * entryBytes h.esz.toNat)

/-- One entry taken off a handle for an operation that reads it over time: its place is not free yet (R106, R288). -/
def takeEntry (s : State) (n : Nat) : Option (Entry × State) :=
  let h := s.vc.st.handle n
  match h.entries with
  | e :: es => if e.full then some (e, setHandle (correctEntry s n e.id) n { h with entries := es }) else none
  | [] => none

/-- The place of an entry that has been read is free (R106). -/
def freePlace (s : State) (n : Nat) : State :=
  let h := s.vc.st.handle n
  setHandle s n { h with free := h.free + 1 }

/-- One entry popped and read (R106): the row image, and its place is free. -/
def popEntry (s : State) (n : Nat) : Option (Entry × State) :=
  let h := s.vc.st.handle n
  match h.entries with
  | e :: es => if e.full then some (e, setHandle (correctEntry s n e.id) n { h with entries := es, free := h.free + 1 }) else none
  | [] => none

/-- One full entry pushed (R106). -/
def pushEntry (s : State) (n : Nat) (data : RowBits) (side : SideBits) : State :=
  let h := s.vc.st.handle n
  let id := s.vc.st.nextId
  let s0 := coreWritten s (h.place id) (entryBytes h.esz.toNat)
  let s1 := setHandle s0 n { h with entries := h.entries ++ [⟨id, data, side, true⟩], free := h.free - 1 }
  s1.setStore { s1.vc.st with nextId := id + 1 }

/-- HANDLE_STATE of a handle used as a row operand: it must be bound with ESZ 5 (R229, R439). -/
def handleFault (s : State) (n : Nat) : List FaultInfo :=
  let h := s.vc.st.handle n
  if !h.bound || h.esz != 5 then [mkFault 0x1014 0 (BitVec.ofNat 32 n)] else []

/-- HSTn (R107). -/
def Handle.hst (h : Handle) : Word :=
  if !h.bound then 0
  else bit64 true 31 ||| (zx h.bank <<< 26) ||| (zx h.esz <<< 23) ||| (BitVec.ofNat 64 (h.fill % 2048) <<< 11)
    ||| BitVec.ofNat 64 (h.free % 2048)

end Sys2Proof.Machine
end

