-- ==== Sys2Proof/Machine/Engine.lean ====
section
/-! DEFINITION. Issuing a word of the V, M or C stream: its WAIT clause, its checks, its SET clause (spec/08 R190 to R192; spec/21
R429, R432, R438), the follow-on queue (spec/12 R294), loops (spec/10 R258, R259; spec/11 R276; spec/12 R297; spec/21 R450), and
the operations an engine has in flight (spec/06 R125, R138). -/

namespace Sys2Proof.Machine

/-- The stream of an engine word. -/
def engineStream (e : Engine) : StreamId :=
  match e with
  | .v => .v
  | .m => .m
  | .c => .c

/-! ### Nests (R284) -/

def nestBound (n : Rec64) (d : Nat) : Nat := nbits n.toNat (64 * d) 32
def nestStride (n : Rec64) (d : Nat) : Int := sgn 32 (nbits n.toNat (64 * d + 32) 32)

/-- The product of the non-zero bounds; 0 where every bound is zero (R259, R283). -/
def nestCount (n : Rec64) : Nat :=
  match ((List.range 6).map (nestBound n)).filter (· != 0) with
  | [] => 0
  | l => prodNat l

/-- The offset of ordinal t: mixed radix over the used dimensions, dimension 0 fastest (R259). -/
def nestOffset (n : Rec64) (t : Nat) : Int :=
  ((List.range 6).foldl (fun (acc : Int × Nat) d =>
    let b := nestBound n d
    if b = 0 then acc else (acc.1 + (acc.2 % b : Nat) * nestStride n d, acc.2 / b)) (0, t)).1

/-- Nest n0 to n7 of the vcore. -/
def State.nest (s : State) (i : Nat) : Rec64 := s.vc.regs.n.toList.getD i 0

/-! ### The word that a stream is at -/

/-- The M stream's next word is one that CFOLL delivered (R294). -/
def isDelivered (s : State) (st : StreamId) : Bool := st == .m && !s.vc.st.follow.isEmpty

/-- The nest offset of the enclosing loop iteration; 0 outside a body and for a delivered word (R248, R276, R294, R297). -/
def loopOffset (s : State) (st : StreamId) : Int :=
  if isDelivered s st then 0
  else
    match (s.stream st).loop with
    | some l => nestOffset l.nest l.t
    | none => 0

/-- The iteration number of the enclosing loop; 0 outside a body (R232). -/
def loopIter (s : State) (st : StreamId) : Nat :=
  match (s.stream st).loop with
  | some l => l.t
  | none => 0

/-! ### Clauses -/

/-- A take subtracts the WAIT count at issue (R192). -/
def takeAt (s : State) (cl : Clauses) : State :=
  if cl.so = 3 then s.setM cl.wi (s.getM cl.wi - cl.wn.setWidth 16) else s

/-- A SET applied at completion; out of range it is not applied and faults after the word at `p` (R192, R438). -/
def applySet (s : State) (st : StreamId) (p : StopPoint) (cl : Clauses) : State :=
  let up (n : Int) : State :=
    match semAdd (s.getM cl.si) n with
    | some v => s.setM cl.si v
    | none => takeFault s st { p with npc := (s.stream st).pc, after := true } (semRange cl.si)
  if cl.so = 1 then up 1 else if cl.so = 2 then noteLowered (up (-1)) st cl.si (s.getM cl.si) else s

/-! ### Advancing -/

/-- A closing event (R258). -/
def rotate (s : State) : State := s.setRegs { s.vc.regs with rb := s.vc.regs.rb - 1, pb := s.vc.regs.pb - 1 }

/-- The stop point of a loop word: its address and its CMDIX (R411, R417). -/
def loopWordPoint (s : State) (st : StreamId) (pc : Word) (ix : BitVec 32) : StopPoint :=
  ⟨pc, (s.stream st).pc, ix, true, false, false, 0, false⟩

/-- A loop whose last iteration has run: its SET is applied, or waits for the operations of its body (R259, R276, R297). -/
def endLoop (s : State) (st : StreamId) (l : LoopState) : State :=
  let pending := l.ops.filter fun i => s.vc.st.ops.any fun o => o.id == i
  if pending.isEmpty then applySet s st (loopWordPoint s st (l.start - st.size) l.ix) l.cl
  else s.setStore { s.vc.st with loopEnds := s.vc.st.loopEnds ++ [⟨st, l.start - st.size, l.ix, pending, l.cl⟩] }

/-- The loop whose last iteration ends with the stream's next word. -/
def lastOf (s : State) (st : StreamId) : Option LoopState :=
  if isDelivered s st then none
  else (s.stream st).loop.bind fun l => if l.idx + 1 < l.body.length ∨ l.t + 1 < l.count then none else some l

/-- After a word, its own SET included, the loop that it ends: `s0` is the state before it left its place (R259). -/
def afterLast (s0 : State) (st : StreamId) (s : State) : State :=
  match lastOf s0 st with
  | some l => endLoop s st l
  | none => s

/-- The stream past the word it has issued: past the follow-on queue's head, on in a loop, or to the next address. -/
def advance (s : State) (st : StreamId) : State :=
  let x := s.stream st
  if isDelivered s st then
    (s.setStore { s.vc.st with follow := s.vc.st.follow.tail }).setStream st
      { x with cmdix := x.cmdix + 1, wait := if x.point.isSome then x.wait else waitNone }
  else
    let y := { x with cmdix := x.cmdix + 1, wait := waitNone, part := none }
    match x.loop with
    | none => s.setStream st { y with pc := x.pc + st.size }
    | some l =>
      if l.idx + 1 < l.body.length then
        s.setStream st { y with pc := x.pc + st.size, loop := some { l with idx := l.idx + 1 } }
      else
        let s1 := if st = .v then rotate s else s
        if l.t + 1 < l.count then
          s1.setStream st { y with pc := l.start, loop := some { l with idx := 0, t := l.t + 1 } }
        else s1.setStream st { y with pc := x.pc + st.size, loop := none }

/-! ### Issue -/

/-- What a word does once its WAIT clause and its checks have passed. -/
inductive Eff
  /-- it completes: its SET is applied; `low` is the lowest low lane of a checked result -/
  | done (s : State) (low : Option (Nat × Nat))
  /-- an engine operation has been issued, which applies the SET at its completion -/
  | issued (s : State)
  /-- it has issued and stays at its place -/
  | holds (s : State)
  /-- it completes, and a fault follows it -/
  | traps (s : State) (f : FaultInfo)
  /-- it completes and the stream goes on at an address -/
  | jumps (s : State) (pc : Word)
  /-- it cannot issue yet (R313) -/
  | stalls (s : State) (cause : BitVec 3) (idx : BitVec 6) (n : BitVec 16)
  /-- it waits for another device to answer; nothing of it has happened (R504) -/
  | pends (s : State)
  /-- it faults before its effect -/
  | faults (f : FaultInfo)

/-- The SET of a word that reports TRAP or ASSAY_LOW: one that is out of range is not applied, and the word reports nothing more
(R408; DEDUCED, log 13). -/
def setFitting (s : State) (st : StreamId) (cl : Clauses) : State :=
  let up (n : Int) : State :=
    match semAdd (s.getM cl.si) n with
    | some v => s.setM cl.si v
    | none => s
  if cl.so = 1 then up 1 else if cl.so = 2 then noteLowered (up (-1)) st cl.si (s.getM cl.si) else s

/-- Issue of a word of stream st (R191, R192, R429): the WAIT test, the state checks, the effect, the take, the SET, and the end of the
loop that the word ends. -/
def issue (st : StreamId) (cl : Clauses) (s : State) (checks : List FaultInfo) (eff : Eff) : Out :=
  if !waitMet s st cl then .next (s.setWait st 0 cl.wi (cl.wn.setWidth 16))
  else
    match firstFault checks with
    | some f => .next (accessFault s st f)
    | none =>
      let p := stopBefore s st
      match eff with
      | .stalls s1 cause idx n => .next (s1.setWait st cause idx n)
      | .faults f => .next (accessFault s st f)
      | .pends s1 => .next s1
      | .holds s1 => .next (takeAt s1 cl)
      | .issued s1 => .next (afterLast (takeAt s1 cl) st (advance (takeAt s1 cl) st))
      | .traps s1 f =>
        let s2 := afterLast (takeAt s1 cl) st (setFitting (advance (takeAt s1 cl) st) st cl)
        .next (takeFault s2 st { p with npc := (s2.stream st).pc, after := true } f)
      | .jumps s1 pc =>
        let s2 := takeAt s1 cl
        let x := s2.stream st
        .next (applySet (s2.setStream st { x with pc := pc, cmdix := x.cmdix + 1, wait := waitNone }) st p cl)
      | .done s1 low =>
        let s2 := advance (takeAt s1 cl) st
        match low with
        | none => .next (afterLast (takeAt s1 cl) st (applySet s2 st p cl))
        | some (j, a) =>
          .next (if (s2.stream st).asyte.getLsbD 0 then
            let s3 := setLow (afterLast (takeAt s1 cl) st (setFitting s2 st cl)) st
            takeFault s3 st { p with npc := (s3.stream st).pc, after := true } (assayLow j a)
          else setLow (afterLast (takeAt s1 cl) st (applySet s2 st p cl)) st)

/-- An engine operation put in flight (R125, R138). -/
def startOp (s : State) (st : StreamId) (cl : Clauses) (kind : OpKind) : State :=
  let p := stopBefore s st
  let o : EngOp := ⟨s.vc.st.nextId, st, isDelivered s st, p.pc, p.ix, cl, kind, false⟩
  let s1 := s.setStore { s.vc.st with ops := s.vc.st.ops ++ [o], nextId := o.id + 1 }
  match (s1.stream st).loop, isDelivered s st with
  | some l, false => s1.setStream st { s1.stream st with loop := some { l with ops := l.ops ++ [o.id] } }
  | _, _ => s1

/-- The stop point of an operation's word: for a completion or a fault that comes after its issue. -/
def opPoint (s : State) (o : EngOp) (after : Bool) : StopPoint :=
  ⟨o.pc, (s.stream o.st).pc, o.cmdix, after, false, false, 0, o.delivered⟩

/-- Loops whose last operation has ended apply their SET. -/
def settleLoops (s : State) : State :=
  let live (l : LoopEnd) : Bool := l.ops.any fun i => s.vc.st.ops.any fun o => o.id == i
  let fin := s.vc.st.loopEnds.filter fun l => !live l
  let s1 := s.setStore { s.vc.st with loopEnds := s.vc.st.loopEnds.filter live }
  fin.foldl (fun t l => applySet t l.st (loopWordPoint t l.st l.pc l.ix) l.cl) s1

/-- An operation completes: it leaves, and its SET is applied (R138, R192, R299). -/
def endOp (s : State) (o : EngOp) : State :=
  let s1 := s.setStore { s.vc.st with ops := s.vc.st.ops.filter fun x => x.id != o.id }
  settleLoops (applySet s1 o.st (opPoint s1 o true) o.cl)

/-- An operation faults: it is marked stopped, and its record, as `r` says, names its word (R409, R410); `f` is the fault of the
access itself. -/
def faultOpAs (s : State) (o : EngOp) (f r : FaultInfo) : State :=
  let s1 := s.setStore { s.vc.st with ops := s.vc.st.ops.map fun x => if x.id == o.id then { x with stopped := true } else x }
  let p := opPoint s1 o false
  takeFault (faultEffects s1 f) o.st p r

def faultOp (s : State) (o : EngOp) (f : FaultInfo) : State := faultOpAs s o f f

def State.op? (s : State) (i : Nat) : Option EngOp := s.vc.st.ops.find? fun o => o.id == i

/-! ### Loops -/

/-- A word that no loop body may hold (R450). -/
def loopForbids (x : Code) : Bool :=
  match parse x with
  | some i =>
    match i with
    | .vloop _ | .mloop _ | .cloop _ | .vbr _ | .slabpwr _ | .cairnE _ | .rdvE _ | .sstepE _ | .haltE _ | .yieldackE _
    | .ctxsaveE _ | .ctxrstE _ | .bankmodeE _ | .qcfgE _ | .tlbinvE _ => true
    | _ => false
  | none => false

/-- The offset of the first forbidden word of a body; a word whose fetch fails is none here: it faults when it would issue (R456). -/
def firstForbidden (l : List (Option Code)) : Option Nat := l.findIdx? fun x => (x.map loopForbids).getD false

/-- LOOP_BODY of a forbidden word at an offset of the body (R450). -/
def loopBodyFault (i : Nat) : FaultInfo := mkFault 0x100B 0 (BitVec.ofNat 32 i)

/-- A loop word: LOOP_BODY, or the body is held and its first word is next; with count 0 it completes at issue (R259, R276,
R297, R450). -/
def issueLoop (st : StreamId) (cl : Clauses) (nest len : Nat) (s : State) : Out :=
  let x := s.stream st
  let start := x.pc + st.size
  let body := fetchBody s st len start
  match firstForbidden body with
  | some i => issue st cl s [loopBodyFault i] (.faults (loopBodyFault i))
  | none =>
    let n := s.nest nest
    let count := nestCount n
    if count = 0 then issue st cl s [] (.jumps s (start + st.size * BitVec.ofNat 64 len))
    else
      let l : LoopState := ⟨body, start, x.cmdix, 0, 0, count, n, cl, []⟩
      let y := { x with pc := start, cmdix := x.cmdix + 1, wait := waitNone, loop := some l }
      if waitMet s st cl then .next ((takeAt s cl).setStream st y) else issue st cl s [] (.done s none)

/-! ### Operands of engine words -/

/-- The k register of an operand code (R181). -/
def State.kCode (s : State) (x : BitVec 7) : Word := s.getK (x.setWidth 4)

/-- A k register written through an operand code: codes 80 to 95 name k0 to k15. -/
def State.setKCode (s : State) (x : BitVec 7) (v : Word) : State := s.setK (x.setWidth 4) v

/-- NOP (R190). -/
def execNop (e : Engine) (cl : Clauses) (s : State) : Out := issue (engineStream e) cl s [] (.done s none)

end Sys2Proof.Machine
end

