-- ==== Sys2Proof/Machine/Csr.lean ====
section
/-! DEFINITION. The control-register map (spec/13_system_instructions.md R308 to R314; spec/07 R168; spec/10 R257). -/

namespace Sys2Proof.Machine

/-- QSTAT (R168). -/
def qstat (st : Store) : Word :=
  let conf := (st.q.toList.zipIdx).foldl (fun w x => w ||| bit64 (x.1.active.kind != 0) x.2) 0
  (st.q.toList.zipIdx).foldl (fun w x =>
    w ||| bit64 (match x.1.pending with | some p => p.effective != x.1.active.effective | none => false) (16 + x.2)) conf

/-- WSTAT (R313). -/
def Wait.word (w : Wait) : Word :=
  if w.waiting then
    (zx w.pc <<< 32) ||| bit64 true 31 ||| (zx w.cause <<< 28) ||| (zx w.idx <<< 16) ||| zx w.n
  else 0

/-- A per-stream register of stream x (R309). -/
def streamCsr (v : Vcore) (x : StreamId) (a : Nat) : Word :=
  let r := v.stream x
  match a with
  | 0x00 => zx r.fflags
  | 0x01 => r.fctl
  | 0x02 => zx r.asyld
  | 0x03 => zx r.asyth
  | 0x04 => zx r.asyte
  | 0x05 => if x = .s then v.regs.sstk else 0
  | 0x06 => if x = .s then zx v.regs.sscnt else 0
  | 0x08 => if x = .v then zx v.regs.vwb <<< 5 else 0
  | 0x09 => if x = .v then (zx v.regs.pb <<< 8) ||| zx v.regs.rb else 0
  | 0x0A => if x = .v then qstat v.st else 0
  | 0x0C => if x = .m then zx v.regs.mxcOvf else 0
  | 0x0D => if x = .m then zx v.regs.mxcNan else 0
  | 0x0E => if x = .m then zx v.regs.mxcSat else 0
  | 0x10 => r.wait.word
  | _ => 0

/-- SLABST (R311). -/
def slabst (st : Store) : Word :=
  (st.clusters.toList.zipIdx).foldl (fun w x => w ||| (BitVec.ofNat 64 x.1.power.code <<< (2 * x.2))) 0

/-- The shared registers (R311). -/
def sharedCsr (s : State) (a : Nat) : Word :=
  let v := s.vc
  if 0x40 ≤ a ∧ a < 0x50 then s.getK (BitVec.ofNat 4 (a - 0x40))
  else if 0x50 ≤ a ∧ a < 0x60 then (v.st.handle (a - 0x50)).hst
  else
    match a with
    | 0x20 => zx v.id.vcid
    | 0x21 => zx v.id.vcnt
    | 0x22 => BitVec.ofNat 64 s.coreId
    | 0x23 => zx v.id.ctx
    | 0x24 => BitVec.ofNat 64 s.dev.time
    | 0x25 => BitVec.ofNat 64 (((s.node? v.id.node).map (·.energy)).getD 0)
    | 0x26 => v.st.bkmode
    | 0x27 => zx v.regs.bklock
    | 0x28 => slabst v.st
    | 0x29 => bit64 v.regs.ystat 0
    | 0x80 => v.regs.s1root
    | _ => 0

/-- The stream of block x of the cross view (R309). -/
def crossStream (x : Nat) : StreamId := if x = 0 then .s else if x = 1 then .v else if x = 2 then .m else .c

/-- RDCSR of address a by stream st; a reserved address reads zero (R308, R309, R434). -/
def readCsr (s : State) (st : StreamId) (a : Nat) : Word :=
  if a < 0x20 then streamCsr s.vc st a
  else if 0x100 ≤ a ∧ a < 0x180 then streamCsr s.vc (crossStream ((a - 0x100) / 32)) ((a - 0x100) % 32)
  else sharedCsr s a

/-- A write to the executing stream's own registers (R5, R309 to R312, R98, R110, R257, R277). -/
def writeStreamCsr (s : State) (st : StreamId) (a : Nat) (v : Word) : State :=
  let x := s.stream st
  let r := s.vc.regs
  match a with
  | 0x00 => s.setStream st { x with fflags := x.fflags &&& ~~~(v.extractLsb' 0 7) }
  | 0x01 => s.setStream st { x with fctl := v &&& 0xFFFFFFFF000000F7 }
  | 0x02 => s.setStream st { x with asyld := v.extractLsb' 0 8 }
  | 0x03 => s.setStream st { x with asyth := v.extractLsb' 0 7 }
  | 0x04 => s.setStream st { x with asyte := (x.asyte &&& 2 &&& ~~~(v.extractLsb' 0 2)) ||| (v.extractLsb' 0 2 &&& 1) }
  | 0x05 => if st = .s then s.setRegs { r with sstk := v &&& ~~~7 } else s
  | 0x06 => if st = .s then s.setRegs { r with sscnt := v.extractLsb' 0 32 } else s
  | 0x08 => if st = .v then s.setRegs { r with vwb := v.extractLsb' 5 3 } else s
  | 0x09 => if st = .v then s.setRegs { r with rb := v.extractLsb' 0 5, pb := v.extractLsb' 8 3 } else s
  | 0x0C => if st = .m then s.setRegs { r with mxcOvf := v.extractLsb' 0 32 } else s
  | 0x0D => if st = .m then s.setRegs { r with mxcNan := v.extractLsb' 0 32 } else s
  | 0x0E => if st = .m then s.setRegs { r with mxcSat := v.extractLsb' 0 32 } else s
  | _ => s

/-- WRCSR of address a by stream st; writes to read-only and reserved registers are ignored (R308, R311, R434). -/
def writeCsr (s : State) (st : StreamId) (a : Nat) (v : Word) : State :=
  if a < 0x20 then writeStreamCsr s st a v
  else if 0x40 ≤ a ∧ a < 0x50 then s.setK (BitVec.ofNat 4 (a - 0x40)) v
  else if a = 0x27 then s.setRegs { s.vc.regs with bklock := s.vc.regs.bklock &&& ~~~(v.extractLsb' 0 32) }
  else if a = 0x80 then s.setRegs { s.vc.regs with s1root := v &&& 0xFFFFFFFFFFFFFF }
  else s

/-- PRIVILEGED (R303, R430). -/
def privFault (s : State) : List FaultInfo := if s.vc.id.priv then [] else [mkFault 0x1011]

/-- RDCSR and WRCSR of S1ROOT need PRIV (R434). -/
def csrFault (s : State) (a : Nat) : List FaultInfo := if a = 0x80 then privFault s else []

end Sys2Proof.Machine
end

