-- ==== Sys2Proof/Machine/Sync.lean ====
section
/-! DEFINITION. Atomics, sync objects, bindings and fences (spec/09_scalar_instructions.md R217 to R220; spec/06 R128 to R137,
R140, R141, R144; spec/21 R437; spec/07 R164). -/

namespace Sys2Proof.Machine

/-! ### Accesses at the home -/

/-- n bytes read at the home of a place. -/
def homeLoad (s : State) (p : Place) (n : Nat) : Nat × State :=
  match p with
  | .home pa _ _ _ =>
    let s1 := correctHome s (pa / 256)
    (s1.mem.load pa n, s1)
  | .remote dev pa _ _ => (bytesAt (Config.remoteRead dev pa n s.steps) 0 n, s)
  | _ => (0, s)

/-- n bytes written at the home of a place. -/
def homeStore (s : State) (p : Place) (n v : Nat) : State :=
  match p with
  | .home pa _ _ _ => softWrite s pa (bytesLE n v)
  | .remote dev pa _ pr => remoteWrite s dev pa pr (bytesLE n v)
  | _ => s

/-- The block of a place. -/
def placeBlock (s : State) (p : Place) : Nat :=
  match p with
  | .home pa _ _ _ => blockOf s.devId pa
  | .remote dev pa _ _ => blockOf dev pa
  | _ => 0

/-- Release actions on O (R134). -/
def releaseActions (s : State) (o : Word) : State := cleanLines s (boundTo s o) false

/-- Acquire actions on O (R134). -/
def acquireActions (s : State) (o : Word) : State := cleanLines s (boundTo s o) true

/-- The line of the location is invalidated before the access at the home (R134). -/
def homeAccess (s : State) (p : Place) : State := invalidateBlock s (placeBlock s p)

/-- An object or atomic access of n bytes: its place after the checks of R454. -/
def atomicPlace (s : State) (acc : Acc) (va : Word) (n : Nat) : Except FaultInfo Place :=
  match placeOf s s.who acc va n none with
  | .error f => .error f
  | .ok p => match (if acc.r then dataFault s va [(p, n)] else none) with
    | some f => .error f
    | none => .ok p

/-- A step of an S word whose access is answered, or waits for a remote device (R504). -/
def whenAnswered (s : State) (ps : List Piece) (va : Word) (reads : Bool) (k : Out) : Out :=
  if remotePending s ps then .next (noteRemote s .s ps va reads) else k

/-- ATOMIC_ALIGN (R437). -/
def atomicAlign (va : Word) : FaultInfo := mkFault 0x1010 va

/-! ### AMO -/

/-- The value that an AMO writes; none where a CAS fails (R217). `n` is 4 or 8 bytes. -/
def amoNew (op : BitVec 3) (u : Bool) (n old src cmp : Nat) : Option Nat :=
  let less (x y : Nat) : Bool := if u then decide (x < y) else decide (sgn (8 * n) x < sgn (8 * n) y)
  match op.toNat with
  | 0 => some ((old + src) % 2 ^ (8 * n))
  | 1 => some src
  | 2 => if old = cmp then some src else none
  | 3 => some (if less src old then src else old)
  | 4 => some (if less old src then src else old)
  | 5 => some (old &&& src)
  | _ => some (old ||| src)

/-- AMO (R217, R130, R437). An acquire writes the bound lines back before it is performed: while one of them is locked, it waits, so that
every bound line is invalidated before a later access (R134, R479). -/
def execAmo (d a b : BitVec 6) (op : BitVec 3) (w u acq rel : Bool) (s : State) : Out :=
  let va := s.getS a
  let n := if w then 8 else 4
  if va.toNat % n ≠ 0 ∨ ((acq || rel) && (!w || va.toNat % 64 != 0)) then sFault s (atomicAlign va)
  else
    match atomicPlace s accAtomic va n with
    | .error f => sAccessFault s f
    | .ok p =>
      whenAnswered s [(p, n)] va false <|
        let s1 := homeAccess (if rel || acq then releaseActions s va else s) p
        if ((rel || acq) && someLocked s1 (boundTo s1 va)) || someLocked s1 (fun l => l.block == placeBlock s1 p) then
          .next (s1.setWait .s 5 0 0)
        else
          let (old, s2) := homeLoad s1 p n
          let src := (s.getS b).toNat % 2 ^ (8 * n)
          let cmp := (s.getS d).toNat % 2 ^ (8 * n)
          let s3 := match amoNew op u n old src cmp with
            | some v => homeStore s2 p n v
            | none => s2
          let s4 := if acq then acquireActions s3 va else s3
          sNext ((clearRemote s4 .s).setS d
            (if u || w then BitVec.ofNat 64 old else BitVec.ofInt 64 (sgn 32 old))).setNi

/-! ### Sync objects -/

/-- SACQ (R130, R218); it waits for locked bound lines as an AMO with acq does. -/
def execSacq (d a : BitVec 6) (s : State) : Out :=
  let va := s.getS a
  if va.toNat % 64 ≠ 0 then sFault s (atomicAlign va)
  else
    match atomicPlace s accObjRead va 8 with
    | .error f => sAccessFault s f
    | .ok p =>
      whenAnswered s [(p, 8)] va true <|
        let s1 := homeAccess (releaseActions s va) p
        if someLocked s1 (boundTo s1 va) || someLocked s1 (fun l => l.block == placeBlock s1 p) then .next (s1.setWait .s 5 0 0)
        else
          let (v, s2) := homeLoad s1 p 8
          sNext ((acquireActions (clearRemote s2 .s) va).setS d (BitVec.ofNat 64 v)).setNi

/-- SREL (R130, R218). -/
def execSrel (a b : BitVec 6) (s : State) : Out :=
  let va := s.getS a
  if va.toNat % 64 ≠ 0 then sFault s (atomicAlign va)
  else
    match atomicPlace s accObjWrite va 8 with
    | .error f => sAccessFault s f
    | .ok p =>
      let s1 := homeAccess (releaseActions s va) p
      if someLocked s1 (boundTo s1 va) || someLocked s1 (fun l => l.block == placeBlock s1 p) then
        .next (s1.setWait .s 5 0 0)
      else sNext (homeStore s1 p 8 (s.getS b).toNat).setNi

/-- The operands of BIND and UNBIND are in range (R128, R437). -/
def bindOk (o base len : Word) : Bool :=
  o.toNat % 64 == 0 && base.toNat % 256 == 0 && len.toNat % 256 == 0 && decide (256 ≤ len.toNat) && decide (len.toNat ≤ 2 ^ 40)

/-- BIND_LIMIT with the object as ADDR (R430, R431). -/
def bindLimit (s : State) (o : Word) : FaultInfo := mkFault 0x100F o (BitVec.ofNat 32 s.vc.st.bindings.length)

/-- BIND (R128). -/
def execBind (d a b : BitVec 6) (s : State) : Out :=
  let e : Binding := ⟨s.getS d, s.getS a, s.getS b⟩
  let t := s.vc.st.bindings
  if !bindOk e.obj e.base e.len then sFault s (bindLimit s e.obj)
  else if t.contains e then sNext s
  else if 256 ≤ t.length then sFault s (bindLimit s e.obj)
  else sNext (s.setStore { s.vc.st with bindings := t ++ [e] })

/-- UNBIND (R128). -/
def execUnbind (d a b : BitVec 6) (s : State) : Out :=
  let e : Binding := ⟨s.getS d, s.getS a, s.getS b⟩
  if !bindOk e.obj e.base e.len then sFault s (bindLimit s e.obj)
  else sNext (s.setStore { s.vc.st with bindings := s.vc.st.bindings.filter (· != e) })

/-! ### Fences -/

/-- Every pending slot configuration becomes active (R163, R164). The next words of the streams `readers` began before: they may still read
under the configurations before it (R165). -/
def activateSlots (s : State) (readers : List StreamId) : State :=
  dropGenerated (s.setStore { s.vc.st with
    q := s.vc.st.q.map fun x => ⟨x.pending.getD x.active, none⟩
    reading := readers.map fun st => (st, s.vc.st.q.map (·.active)) })

/-- An engine operation that may read a quarry window: a load of a latch bank reads core store, a copy reads its source
(R150, R164). -/
def OpKind.isCopy : OpKind → Bool
  | .copy _ => true
  | _ => false

/-- An engine operation of the vcore is in flight. -/
def Store.busy (st : Store) (p : EngOp → Bool) : Bool := st.ops.any p

/-- Instruction caches discarded (R140). -/
def dropICaches (s : State) : State := s.setStore { s.vc.st with icache := [] }

/-- The effect of a fence whose predecessor accesses have been performed: none while a line cannot be written back (R134, R135,
R479). -/
def fenceActions (s : State) (p q : BitVec 8) (scope : BitVec 3) : State × Bool :=
  let above := scope != 0
  let back := (p.getLsbD 1 && above) || q.getLsbD 3
  let s1 := if back then cleanLines s (fun _ => true) false else s
  let s2 := if q.getLsbD 0 && above then flushAll s1 else s1
  let stuck := (back || (q.getLsbD 0 && above)) && someLocked s2 (fun _ => true)
  let s3 := if q.getLsbD 3 then dropICaches s2 else s2
  let s4 := if p.getLsbD 4 && (q.getLsbD 0 || q.getLsbD 2) then activateSlots s3 (begunBeside s3 .s) else s3
  (if stuck then s2 else s4, !stuck)

/-- Whether a fence still waits for the engine operations of the vcore, which e covers (R135). The window reads that q covers are those
that happen before the fence: an operation in flight has signalled nothing yet, so none of its reads does (R141, R164; log 14). -/
def fenceWaits (s : State) (p _q : BitVec 8) : Bool := p.getLsbD 2 && s.vc.st.busy fun _ => true

/-- FENCE (R135, R219). -/
def execFence (p q : BitVec 8) (scope : BitVec 3) (s : State) : Out :=
  if fenceWaits s p q then sStall s 5 0 0
  else
    let (s1, ok) := fenceActions s p q scope
    if ok then sNext s1 else .next (s1.setWait .s 5 0 0)

/-- IFENCE: fence rw, i, core (R140, R220). -/
def execIfence (s : State) : Out :=
  let (s1, ok) := fenceActions s 3 8 0
  if ok then sNext s1 else .next (s1.setWait .s 5 0 0)

end Sys2Proof.Machine
end

