-- ==== Sys2Proof/Machine/System.lean ====
section
/-! DEFINITION. The system forms of the four streams (spec/13_system_instructions.md R302 to R308, R315 to R319; spec/07 R154,
R163, R164; spec/21 R446, R449): each effect once, then one definition for its S form and one for its V, M, C form. -/

namespace Sys2Proof.Machine

/-- Issue of an S word whose effect is given as for an engine word: an S word has no clauses. -/
def issueS (s : State) (checks : List FaultInfo) (eff : Eff) : Out :=
  match firstFault checks with
  | some f => sFault s f
  | none =>
    match eff with
    | .done s1 _ => sNext s1
    | .issued s1 => sNext s1
    | .holds s1 => .next s1
    | .traps s1 f => .next (faultAfter s (sRetire s1) .s f)
    | .jumps s1 _ => sNext s1
    | .stalls s1 cause idx n => .next (s1.setWait .s cause idx n)
    | .pends s1 => .next s1
    | .faults f => sAccessFault s f

/-- Clauses of a word that has none. -/
def noClauses : Clauses := ⟨0, 0, 0, 0⟩

/-- Issue of the V, M or C form. -/
def issueE (w : EngineWord) (s : State) (checks : List FaultInfo) (eff : Eff) : Out :=
  issue (engineStream w.e) w.w.cl s checks eff

/-! ### Meeting points -/

/-- CHAIN_STATE of a chain that is open (R430, R446). -/
def chainFault (slab : Nat) (isOpen : Bool) : FaultInfo :=
  mkFault 0x1009 0 (BitVec.ofNat 32 (slab + if isOpen then 16 else 0))

/-- Words that the M stream must not issue while a chain is open (R446). -/
def chainClosed (s : State) (st : StreamId) : List FaultInfo :=
  match st, s.vc.st.chain with
  | .m, some c => [chainFault c.slab.toNat true]
  | _, _ => []

/-- The stream reaches a meeting point and waits there (R35, R55, R304, R313). -/
def reach (s : State) (st : StreamId) (cl : Clauses) (k : PointKind) : Eff :=
  let x := s.stream st
  .holds (s.setStream st { x with point := some ⟨k, x.pc, cl⟩, wait := ⟨true, x.pc.setWidth 32, 3, 0, 0⟩ })

/-- CAIRN (R304). -/
def execCairn (s : State) : Out := issueS s [] (reach s .s noClauses .cairn)

/-- CAIRN of V, M, C (R304). -/
def execCairnE (w : EngineWord) (s : State) : Out :=
  issueE w s (chainClosed s (engineStream w.e)) (reach s (engineStream w.e) w.w.cl .cairn)

/-- RDV (R35, R304). -/
def execRdv (s : State) : Out := issueS s [] (reach s .s noClauses .rdv)

/-- RDV of V, M, C (R35, R304). -/
def execRdvE (w : EngineWord) (s : State) : Out :=
  issueE w s (chainClosed s (engineStream w.e)) (reach s (engineStream w.e) w.w.cl .rdv)

/-- SSTEP (R304). -/
def execSstep (s : State) : Out := issueS s [] (reach s .s noClauses .sstep)

/-- SSTEP of V, M, C (R304). -/
def execSstepE (w : EngineWord) (s : State) : Out :=
  issueE w s (chainClosed s (engineStream w.e)) (reach s (engineStream w.e) w.w.cl .sstep)

/-- A stream halted (R37). -/
def haltStream (s : State) (st : StreamId) : State := s.setStream st { s.stream st with halted := true }

/-- HALT (R304). -/
def execHalt (s : State) : Out := issueS s [] (.done (haltStream s .s) none)

/-- HALT of V, M, C (R304, R446). -/
def execHaltE (w : EngineWord) (s : State) : Out :=
  issueE w s (chainClosed s (engineStream w.e)) (.done (haltStream s (engineStream w.e)) none)

/-- An acknowledgement recorded if a request is pending (R305). -/
def ackYield (s : State) : State :=
  if s.vc.regs.ystat then s.setRegs { s.vc.regs with yieldack := true } else s

/-- YIELDACK (R305). -/
def execYieldack (s : State) : Out := issueS s [] (.done (ackYield s) none)

/-- YIELDACK of V, M, C (R305). -/
def execYieldackE (w : EngineWord) (s : State) : Out := issueE w s [] (.done (ackYield s) none)

/-! ### QFENCE, TRAP, RDTIME, control registers -/

/-- QFENCE: every pending configuration becomes active. Window reads that happen before it are complete: those of earlier words and of
copies whose completion has been observed (R164, R165; log 14). -/
def qfenceEff (s : State) (st : StreamId) : Eff :=
  .done (activateSlots s (begunBeside s st)) none

/-- QFENCE (R164). -/
def execQfence (s : State) : Out := issueS s [] (qfenceEff s .s)

/-- QFENCE of V, M, C (R164). -/
def execQfenceE (w : EngineWord) (s : State) : Out := issueE w s [] (qfenceEff s (engineStream w.e))

/-- TRAP (R306, R407, R417): it waits for the engine operations that earlier words of its stream have issued; then the word
completes, and the record names the code. R313 gives no CAUSE for that wait; 5 is the model's (DESIGN CHOICE, log 36). -/
def trapEff (s : State) (st : StreamId) (code : BitVec 12) : Eff :=
  if s.vc.st.ops.any (fun o => o.st == st) then .stalls s 5 0 0 else .traps s.setNi (mkFault 0x0001 0 (code.setWidth 32))

/-- TRAP (R306). -/
def execTrap (code : BitVec 12) (s : State) : Out := issueS s [] (trapEff s .s code)

/-- TRAP of V, M, C (R306). -/
def execTrapE (w : EngineWord) (s : State) : Out := issueE w s [] (trapEff s (engineStream w.e) w.w.low12)

/-- RDTIME (R307). -/
def execRdtime (d : BitVec 6) (s : State) : Out := sWrite s d (BitVec.ofNat 64 s.dev.time)

/-- RDTIME of V, M, C (R307). -/
def execRdtimeE (w : EngineWord) (s : State) : Out :=
  issueE w s [] (.done (s.setKCode w.w.dst (BitVec.ofNat 64 s.dev.time)) none)

/-- RDCSR (R308). -/
def execRdcsr (d : BitVec 6) (csr : BitVec 12) (s : State) : Out :=
  issueS s (csrFault s csr.toNat) (.done (s.setS d (readCsr s .s csr.toNat)) none)

/-- RDCSR of V, M, C (R308); it waits no more when it reads (R313). -/
def execRdcsrE (w : EngineWord) (s : State) : Out :=
  let a := w.w.low12.toNat
  issueE w s (csrFault s a) (.done (s.setKCode w.w.dst (readCsr (s.setStream (engineStream w.e) { s.stream (engineStream w.e) with wait := waitNone })
    (engineStream w.e) a)) none)

/-- WRCSR (R308). -/
def execWrcsr (a : BitVec 6) (csr : BitVec 12) (s : State) : Out :=
  issueS s (csrFault s csr.toNat) (.done (writeCsr s .s csr.toNat (s.getS a)) none)

/-- WRCSR of V, M, C (R308). -/
def execWrcsrE (w : EngineWord) (s : State) : Out :=
  let a := w.w.low12.toNat
  issueE w s (csrFault s a) (.done (writeCsr s (engineStream w.e) a (s.kCode w.w.sa)) none)

/-! ### BANKMODE and TLBINV -/

/-- DESCRIPTOR: the lowest offending bit and the kind of operand (R430). -/
def descriptorFault (kind bit : Nat) (addr : Word) : FaultInfo := mkFault 0x1012 addr (BitVec.ofNat 32 (bit + 2 ^ 12 * kind))

/-- The lowest offending bit of a control operand under a mask of bits that must be zero. -/
def operandBad (x : Word) (zeroMask : Nat) : Option Nat := lowBit 64 0 (x.toNat &&& zeroMask)

/-- Fields of a BANKMODE operand (R315). -/
def bmBank (x : Word) : Nat := nbits x.toNat 0 5
def bmMode (x : Word) : Nat := nbits x.toNat 5 2
def bmHandle (x : Word) : Nat := nbits x.toNat 8 4
def bmEsz (x : Word) : Nat := nbits x.toNat 12 3
def bmForce (x : Word) : Bool := x.getLsbD 15

/-- The handle bound to a bank. -/
def Store.handleOf (st : Store) (b : Nat) : Option (Nat × Handle) :=
  (st.h.toList.zipIdx.find? fun x => x.1.bound && x.1.bank.toNat == b).map fun x => (x.2, x.1)

/-- The checks of BANKMODE (R433, R449). -/
def bankmodeChecks (s : State) (x : Word) : List FaultInfo :=
  let fifo := bmMode x == 3
  let mask := 0xFFFFFFFFFFFF0080 + if fifo then 0 else 0x7F00
  let st := s.vc.st
  (if 5 < bmEsz x then [mkFault 0x1002] else [])
  ++ (match operandBad x mask with
      | some b => [descriptorFault 3 b 0]
      | none => [])
  ++ (if fifo && (st.handle (bmHandle x)).bound then [mkFault 0x1014 0 (BitVec.ofNat 32 (bmHandle x))] else [])
  ++ (match st.handleOf (bmBank x) with
      | some (n, h) => if h.entries.isEmpty then [] else [mkFault 0x1014 0 (BitVec.ofNat 32 n)]
      | none => [])

/-- BANKMODE (R108, R315). -/
def execBankmode (d a : BitVec 6) (s : State) : Out :=
  issueS s (bankmodeChecks s (s.getS a)) (.issued (startOp s .s noClauses (.bankmode (s.getS a) d)))

/-- BANKMODE of V, M, C (R108, R315). -/
def execBankmodeE (w : EngineWord) (s : State) : Out :=
  let x := s.kCode w.w.sa
  issueE w s (bankmodeChecks s x)
    (.issued (startOp s (engineStream w.e) w.w.cl (.bankmode x (w.w.dst.setWidth 6))))

/-- The checks of TLBINV (R303, R317, R433, R449). -/
def tlbinvChecks (s : State) (ctl : Word) : List FaultInfo :=
  (if nbits ctl.toNat 0 2 = 3 then [mkFault 0x1002] else []) ++ privFault s
  ++ (match operandBad ctl 0xFFFFFFFF0000FFFC with
      | some b => [descriptorFault 4 b 0]
      | none => [])

/-- TLBINV (R317). -/
def execTlbinv (d a b : BitVec 6) (s : State) : Out :=
  issueS s (tlbinvChecks s (s.getS b)) (.issued (startOp s .s noClauses (.tlbinv (s.getS a) (s.getS b) d)))

/-- TLBINV of V, M, C (R317). -/
def execTlbinvE (w : EngineWord) (s : State) : Out :=
  let ctl := s.kCode w.w.sb
  issueE w s (tlbinvChecks s ctl)
    (.issued (startOp s (engineStream w.e) w.w.cl (.tlbinv (s.kCode w.w.sa) ctl (w.w.dst.setWidth 6))))

/-! ### QCFG -/

/-- Bytes of an ordinary load of a stream: the value and the state, or the fault (R154). -/
def loadBytes (s : State) (acc : Acc) (va : Word) (n : Nat) : Except FaultInfo (Nat × State) :=
  match pieces s s.who acc va n with
  | .error f => .error f
  | .ok ps =>
    match dataFault s va ps with
    | some f => .error f
    | none =>
      let (bs, s1) := readPieces s va ps
      .ok (natLE bs, s1)

/-- A slot's pending configuration (R163). -/
def stageSlot (s : State) (q : Nat) (c : SlotCfg) : State :=
  if h : q < 16 then
    s.setStore { s.vc.st with q := s.vc.st.q.set q { s.vc.st.q.get ⟨q, h⟩ with pending := some c } }
  else s

/-- An ordinary load that another device has not answered yet: the state that waits for it (R154, R504). -/
def loadWaits (s : State) (st : StreamId) (va : Word) (n : Nat) : Option State :=
  match pieces s s.who accRead va n with
  | .error _ => none
  | .ok ps => if (dataFault s va ps).isNone && remotePending s ps then some (noteRemote s st ps va true) else none

/-- The configuration that a descriptor makes: OFF is the unconfigured state, whatever its other bits (R33, R152). -/
def slotOf (desc : BitVec 512) (table : BitVec 8192) : SlotCfg := if nbits desc.toNat 20 4 = 0 then slotOff.active else ⟨desc, table⟩

/-- QCFG of slot q from the descriptor at va (R154, R316, R449). -/
def qcfgEff (s : State) (st : StreamId) (q : Nat) (va : Word) : Eff :=
  match loadWaits s st va 64, loadBytes s accRead va 64 with
  | some t, _ => .pends t
  | none, .error f => .faults f
  | none, .ok (d, s1) =>
    let desc := BitVec.ofNat 512 d
    match slotFault desc with
    | some b => .faults (descriptorFault 0 b va)
    | none =>
      if nbits d 20 4 = 3 then
        let at' := BitVec.ofNat 64 (nbits d 64 64)
        match loadWaits s1 st at' 1024, loadBytes s1 accRead at' 1024 with
        | some t, _ => .pends t
        | none, .error f => .faults f
        | none, .ok (t, s2) => .done (stageSlot (clearRemote s2 st) q (slotOf desc (BitVec.ofNat 8192 t))) none
      else .done (stageSlot (clearRemote s1 st) q (slotOf desc 0)) none

/-- A descriptor that is not 64-byte aligned (R449). -/
def qcfgChecks (va : Word) : List FaultInfo := if va.toNat % 64 = 0 then [] else [descriptorFault 0 0 va]

/-- QCFG (R316). -/
def execQcfg (d a : BitVec 6) (s : State) : Out :=
  issueS s (qcfgChecks (s.getS a)) (qcfgEff s .s d.toNat (s.getS a))

/-- QCFG of V, M, C (R316). -/
def execQcfgE (w : EngineWord) (s : State) : Out :=
  let va := s.kCode w.w.sa + (sx w.w.imm14 <<< 6)
  issueE w s (qcfgChecks va) (qcfgEff s (engineStream w.e) w.w.dst.toNat va)

/-! ### Context save and restore -/

/-- CTXSAVE (R303, R318). -/
def execCtxsave (a : BitVec 6) (s : State) : Out := issueS s (privFault s) (reach s .s noClauses (.ctxsave (s.getS a)))

/-- CTXSAVE of V, M, C (R303, R318, R446). -/
def execCtxsaveE (w : EngineWord) (s : State) : Out :=
  issueE w s (chainClosed s (engineStream w.e) ++ privFault s)
    (reach s (engineStream w.e) w.w.cl (.ctxsave (s.kCode w.w.sa)))

/-- CTXRST (R303, R319). -/
def execCtxrst (a : BitVec 6) (s : State) : Out := issueS s (privFault s) (reach s .s noClauses (.ctxrst (s.getS a)))

/-- CTXRST of V, M, C (R303, R319). -/
def execCtxrstE (w : EngineWord) (s : State) : Out :=
  issueE w s (privFault s) (reach s (engineStream w.e) w.w.cl (.ctxrst (s.kCode w.w.sa)))

end Sys2Proof.Machine
end

