-- ==== Sys2Proof/Machine/Funcs.lean ====
section
/-! DEFINITION. 2^x and log2 x (spec/10_vector_instructions.md R238), computed in fixed point with 320 fraction bits and a
sticky rest, so that one rounding gives the correctly rounded result (log 16). -/

namespace Sys2Proof.Machine

/-- Fraction bits of the fixed-point evaluation. -/
def fxP : Nat := 320

/-- The sum of the terms t, t × a / (b × 1), … of the exponential series in y: term n is y^n / n!. -/
def expSeries (y : Nat) : Nat → Nat → Nat → Nat → Nat
  | 0, _, _, acc => acc
  | f + 1, n, t, acc =>
    let t' := (t * y) >>> fxP / n
    expSeries y f (n + 1) t' (acc + t')

/-- Σ z^(2k+1) / (2k+1), where z2 is z². -/
def atanhSeries (z2 : Nat) : Nat → Nat → Nat → Nat → Nat
  | 0, _, _, acc => acc
  | f + 1, k, t, acc => atanhSeries z2 f (k + 2) ((t * z2) >>> fxP) (acc + t / k)

/-- ln 2 = 2 atanh(1/3) in fixed point. -/
def ln2Fx : Nat :=
  let z := 2 ^ fxP / 3
  2 * atanhSeries ((z * z) >>> fxP) 110 1 z 0

/-- 2^f for a fraction f in fixed point. -/
def exp2Frac (f : Nat) : Nat :=
  let y := (f * ln2Fx) >>> fxP
  expSeries y 90 1 (2 ^ fxP) (2 ^ fxP)

/-- log2 of a number in [1, 2) in fixed point. -/
def log2Frac (m : Nat) : Nat :=
  let z := ((m - 2 ^ fxP) <<< fxP) / (m + 2 ^ fxP)
  ((2 * atanhSeries ((z * z) >>> fxP) 110 1 z 0) <<< fxP) / ln2Fx

/-- A number n × 2^e in fixed point, rounded down, and whether a rest was cut off. -/
def fxFloor (n e : Int) : Int × Bool :=
  if -(fxP : Int) ≤ e then (n * (2 ^ (e + fxP).toNat : Nat), false)
  else
    let d : Int := (2 ^ (-(fxP : Int) - e).toNat : Nat)
    (n / d, n % d != 0)

/-- 2^x (R238). The fraction of x gives the significand. A whole part beyond ±4,096 is taken at that bound, which lies above
the largest finite value, or below half the smallest, of every format: the draw of R72 sees the same fraction. -/
def exp2V (x : Val) : Val × Flags :=
  match x with
  | .nan a => (.nan false, flIf a flNV)
  | .inf n => (if n then .zero false else .inf false, 0)
  | .fin n s e _ =>
    let (fx, rest) := fxFloor (if n then -(s : Int) else s) e
    let whole := max (-4096) (min 4096 (fx / (2 ^ fxP : Nat)))
    let frac := (fx % (2 ^ fxP : Nat)).toNat
    if frac = 0 && !rest then (.fin false 1 whole false, 0) else (.fin false (exp2Frac frac) (whole - fxP) true, 0)

/-- log2 x (R238). -/
def log2V (x : Val) : Val × Flags :=
  match x with
  | .nan a => (.nan false, flIf a flNV)
  | .inf n => if n then (.nan false, flNV) else (.inf false, 0)
  | .fin n s e _ =>
    if s = 0 then (.inf true, flDZ)
    else if n then (.nan false, flNV)
    else
      let k := Nat.log2 s
      let whole : Int := (k : Int) + e
      if s = 2 ^ k then (.ofInt whole, 0)
      else
        let m := (s <<< fxP) >>> k
        let r : Int := whole * (2 ^ fxP : Nat) + (log2Frac m : Nat)
        if 0 ≤ r then (.fin false r.toNat (-(fxP : Int)) true, 0)
        else (.fin true (r.natAbs - 1) (-(fxP : Int)) true, 0)

end Sys2Proof.Machine
end

