-- ==== Sys2Proof/Machine/Chain.lean ====
section
/-! DEFINITION. Exact accumulation: XA128 chains (spec/03_arithmetic.md R79 to R84) and floating-point sums that round once
(R77), with the assay of R92 for both. -/

namespace Sys2Proof.Machine

/-- A chain without terms. -/
def chainZero : ChainAcc := ⟨0, 0, false, false, false, false, false, none, true⟩

/-- A term of a chain: its exact value, its uncertainty, whether its operands are exact, and whether a NaN of it arises from
operands that are not quiet NaNs. -/
structure Term where
  v : Val
  u : Option Int
  exact : Bool
  nv : Bool
  deriving DecidableEq, Repr, Inhabited

/-- An operand as a term: an addend or the prior value (R79). -/
def Opnd.term (x : Opnd) : Term := ⟨x.v, x.unc, x.exact, x.v.isSnan⟩

/-- A product of operands as a term (R79, R82). A signalling-NaN operand counts for NV as R74 lists it (log 29). -/
def mulTerm (x y : Opnd) : Term :=
  let (p, fl) := mulV x.v y.v
  ⟨p, uMul x y p, x.exact && y.exact, fl != 0⟩

/-- A finite value in units of the anchor, rounded by the per-term mode (R80). -/
def termUnits (a : Anchor) (neg : Bool) (sig : Nat) (e : Int) (st : Bool) : Int × Bool :=
  let (n, inexact, _) := roundAt (if a.rd then rmRD else rmRNE) 0 neg sig e st a.l
  (if neg then -(n : Int) else n, inexact)

/-- A term added to a chain (R80, R82). A term clamped to ±XMAX counts as inexact (log 29). -/
def ChainAcc.add (c : ChainAcc) (a : Anchor) (t : Term) : ChainAcc :=
  match t.v with
  | .nan _ => { c with nan := true, nanNew := c.nanNew || t.nv, exact := false }
  | .inf n => { c with pinf := c.pinf || !n, ninf := c.ninf || n, exact := false }
  | .fin n s e st =>
    let (i, inexact) := termUnits a n s e st
    let beyond := decide ((xmax : Int) < i) || decide (i < -(xmax : Int))
    let i' : Int := if (xmax : Int) < i then xmax else if i < -(xmax : Int) then -(xmax : Int) else i
    { c with
      acc := c.acc + BitVec.ofInt 136 i'
      total := c.total + i'
      sat := c.sat || beyond
      u := maxU c.u t.u
      exact := c.exact && t.exact && !inexact && !beyond }

/-- The events of a chain (R82). -/
inductive ChainEvent | none | nan | ovf | sat
  deriving DecidableEq, Repr, Inhabited

/-- A settled chain: the XA128 pattern, its event, and whether it sets NV (R80, R82). -/
def ChainAcc.settle (c : ChainAcc) : Nat × ChainEvent × Bool :=
  if c.nan || (c.pinf && c.ninf) then (xaNan, .nan, c.nanNew || (c.pinf && c.ninf))
  else if c.pinf then (xaPosInf, .ovf, false)
  else if c.ninf then (xaNegInf, .ovf, false)
  else
    let v := c.acc.toInt
    if (xmax : Int) < v then (xmax, .sat, false)
    else if v < -(xmax : Int) then (wrapNat 128 (-(xmax : Int)), .sat, false)
    else (wrapNat 128 v, if c.sat then .sat else .none, false)

/-- The pattern, assay and flags of a settled chain in a vector stream (R80, R82, R92). A zero is exact only where the sum of
the terms is zero, not where the accumulator has wrapped to it (R81, R91). -/
def ChainAcc.result (c : ChainAcc) (a : Anchor) : Nat × Nat × Flags :=
  let (x, ev, nv) := c.settle
  (x, assayOf c.u (decodeXa a.l x) (.xa a) (c.exact && c.total == 0), flIf (ev == .sat) flSAT ||| flIf nv flNV)

/-- A chain of some terms. -/
def chainOf (a : Anchor) (l : List Term) : Nat × Nat × Flags := (l.foldl (fun c t => c.add a t) chainZero).result a

/-- An exact floating-point sum in units of 2^lsb (R77): the total, the special terms, the uncertainty, and what settles the
sign of a zero (R73). -/
structure SumAcc where
  total : Int
  nan : Bool
  nv : Bool
  pinf : Bool
  ninf : Bool
  u : Option Int
  exact : Bool
  any : Bool
  allNegZero : Bool
  allPosZero : Bool
  deriving DecidableEq, Repr, Inhabited

def sumZero : SumAcc := ⟨0, false, false, false, false, none, true, false, true, true⟩

/-- An operand of format f added. -/
def SumAcc.add (s : SumAcc) (f : Fmt) (x : Opnd) : SumAcc :=
  match x.v with
  | .nan b => { s with nan := true, nv := s.nv || b, exact := false, any := true }
  | .inf n => { s with pinf := s.pinf || !n, ninf := s.ninf || n, exact := false, any := true }
  | v =>
    { s with
      total := s.total + v.units f.lsbMin
      u := maxU s.u x.unc
      exact := s.exact && x.exact
      any := true
      allNegZero := s.allNegZero && v.isZero && v.sign
      allPosZero := s.allPosZero && v.isZero && !v.sign }

/-- The exact sum and NV. -/
def SumAcc.value (s : SumAcc) (f : Fmt) (mode : BitVec 3) : Val × Flags :=
  if s.nan || (s.pinf && s.ninf) then (.nan false, flIf (s.nv || (s.pinf && s.ninf)) flNV)
  else if s.pinf then (.inf false, 0)
  else if s.ninf then (.inf true, 0)
  else if s.total = 0 then
    (.zero (if !s.any || s.allPosZero then false else if s.allNegZero then true else cancelSign mode), 0)
  else (.scaled s.total f.lsbMin, 0)

/-- The rounded sum with its assay and flags (R77, R92). -/
def SumAcc.result (s : SumAcc) (f : Fmt) (mode : BitVec 3) (u : Nat) : Nat × Nat × Flags :=
  let (e, fl) := s.value f mode
  let (x, fl') := roundF f mode u false e
  (x, assayOf s.u (decodeF f x) (.plain f) (e.isZero && s.exact), fl ||| fl')

/-- A value converted into XA128: a chain of one term (R84, R92). -/
def toXa (a : Anchor) (x : Opnd) : Nat × Nat × Flags := chainOf a [x.term]

end Sys2Proof.Machine
end

