-- ==== Sys2Proof/Machine/VectorLanes.lean ====
section
/-! DEFINITION. What every lane-parallel V word shares (spec/10_vector_instructions.md R227 to R234; spec/21 R439 to R443;
spec/04 R94, R97, R99): its sources with their anchors, its checks, the pops and the push, and the writing of its result with
the assays of lanes and blocks. -/

namespace Sys2Proof.Machine

/-! ### Sources -/

/-- A source of a V word as its lanes are read: a row image of a format under an anchor, or a k register (R229). -/
inductive VSrc
  | img (f : Fmt) (an : Anchor) (r : Row)
  | cst (f : Fmt) (an : Anchor) (x : Word)
  deriving DecidableEq, Repr, Inhabited

def VSrc.lane : VSrc → Nat → Lane
  | .img f an r, j => laneOf f an r j
  | .cst f an x, _ => laneConst f an (kPattern f x)

/-- Lane j of source i. -/
def srcLane (xs : List VSrc) (i j : Nat) : Lane := (xs.getD i default).lane j

/-- The anchor that the destination gives (R231). -/
def dstAnchor (s : State) (pdst : Bool) (dst : BitVec 7) (codes : List (BitVec 7)) : Option Anchor :=
  let first := (codes.find? isRowCode).bind fun c => s.rowAnchor (s.vRow c.toNat)
  if pdst then first else if isRowCode dst then s.rowAnchor (s.vRow dst.toNat) else first

/-- The anchor of a source (R231). -/
def srcAnchor (s : State) (d : Option Anchor) (c : BitVec 7) (f : Fmt) : Option Anchor :=
  if f != .xa then some ⟨0, false⟩ else if isRowCode c then s.rowAnchor (s.vRow c.toNat) else d

/-- SLAB_STATE where no anchor is found (R231, R430). -/
def noAnchor : FaultInfo := mkFault 0x1008 0 0x80000000

/-- The rows and handles that operand codes name. -/
def rowsOf (s : State) (codes : List (BitVec 7)) : List Nat := (codes.filter isRowCode).map fun c => s.vRow c.toNat
def handlesOf (codes : List (BitVec 7)) : List Nat := (codes.filter isHndCode).map fun c => c.toNat - 64

/-- The faults of a word that rounds by FCTL (R433, R435). -/
def roundFaults (s : State) (st : StreamId) : List FaultInfo :=
  let fctl := (s.stream st).fctl
  (if 5 < (fctlMode fctl).toNat then [mkFault 0x1002] else []) ++ drawFault s (fctlMode fctl) fctl

/-- The checks of a lane-parallel word (R439 to R442): a predicate destination names neither row nor handle. -/
def vChecks (s : State) (w : VWord) (srcs : List (BitVec 7 × Fmt)) (fd : Fmt) (pdst rounds : Bool) : List FaultInfo :=
  let codes := srcs.map (·.1)
  let all := if pdst then codes else w.dst :: codes
  let d := dstAnchor s pdst w.dst codes
  (handlesOf all).flatMap (handleFault s)
  ++ gatedFault s (rowsOf s all)
  ++ (if (fd == .xa && !pdst && d.isNone) || (srcs.any fun x => (srcAnchor s d x.1 x.2).isNone) then [noAnchor] else [])
  ++ (if rounds then roundFaults s .v else [])
  ++ rowUeFault s (rowsOf s codes) ++ popFaults s (handlesOf codes)

/-- The wait of a word for an entry of a handle that it pops, or for room in the one that it pushes (R106, R313). -/
def vStall (s : State) (pops : List Nat) (push : Option Nat) : Option (BitVec 3 × Nat × Nat) :=
  match pops.find? fun h => decide ((s.vc.st.handle h).fill < pops.count h) with
  | some h => some (1, h, pops.count h)
  | none =>
    match push with
    | some h => if (s.vc.st.handle h).free + pops.count h = 0 then some (2, h, 1) else none
    | none => none

/-- The sources read in field order: rows, popped entries, k registers (R229). -/
def takeSrcs (s : State) : List (BitVec 7 × Fmt × Anchor) → List VSrc × State
  | [] => ([], s)
  | (c, f, an) :: t =>
    let (x, s1) : VSrc × State :=
      if isRowCode c then
        let (r, s1) := readRow s .v (s.vRow c.toNat)
        (.img f an r, s1)
      else if isHndCode c then
        match popEntry s (c.toNat - 64) with
        | some (e, s1) => (.img f an ⟨e.data, e.side⟩, s1)
        | none => (.img f an ⟨0, 0⟩, s)
      else (.cst f an (s.kCode c), s)
    let (xs, s2) := takeSrcs s1 t
    (x :: xs, s2)

/-- A V word that reads sources and has a destination of format fd, or a predicate: its checks, its waits, its pops, and
what it does with the sources and the destination's anchor. -/
def vWord (w : VWord) (s : State) (srcs : List (BitVec 7 × Fmt)) (fd : Fmt) (pdst rounds : Bool)
    (k : List VSrc → Anchor → State → Eff) : Out :=
  let codes := srcs.map (·.1)
  let d := dstAnchor s pdst w.dst codes
  let push := if !pdst && isHndCode w.dst then some (w.dst.toNat - 64) else none
  issue .v w.cl s (vChecks s w srcs fd pdst rounds) <|
    match vStall s (handlesOf codes) push with
    | some (c, i, n) => .stalls s c (BitVec.ofNat 6 i) (BitVec.ofNat 16 n)
    | none =>
      let (xs, s1) := takeSrcs s (srcs.map fun x => (x.1, x.2, (srcAnchor s d x.1 x.2).getD ⟨0, false⟩))
      k xs (d.getD ⟨0, false⟩) s1

/-! ### Results -/

/-- The result of one lane: its pattern, and the assay that R92 computes or the lane carries. -/
structure LaneOut where
  j : Nat
  x : Nat
  asy : Nat
  fl : Flags
  deriving DecidableEq, Repr, Inhabited

/-- The result of a word: lanes written, lanes written as zero, scales written, whether the assays are carried from the
sources, whether the results are checked (R92), and whether they are integers whatever the format (R252). -/
structure VRes where
  f : Fmt
  outs : List LaneOut
  zeroed : Nat
  scales : List (Nat × Nat)
  carried : Bool
  checked : Bool
  ints : Bool
  deriving DecidableEq, Repr, Inhabited

/-- The lanes of a mask. -/
def lanesIn (act n : Nat) : List Nat := (List.range n).filter act.testBit

/-- The lanes that a zeroing form writes as zero (R186, R230). -/
def zeroOf (w : VWord) (act n : Nat) : Nat := if w.z then (2 ^ n - 1) &&& ((2 ^ n - 1) ^^^ act) else 0

/-- The assay of one result block (R94): lanes written count with their assays, zeroed lanes with 0, lanes left in place with
their effective assays. Where a whole block of a source is moved, the block takes its assay (R237, R245, R246; log 25). -/
def newBlock (f : Fmt) (an : Anchor) (data oldAsy : Nat) (r : VRes) (b : Nat) : Nat :=
  let mine := r.outs.filter fun o => o.j / 32 == b
  let same := match mine with
    | o :: t => mine.length == 32 && t.all (fun p => p.asy == o.asy)
    | [] => false
  if r.carried && same then (mine.headD default).asy
  else
    blockAssay f.prec ((List.range 32).map fun i =>
      let j := 32 * b + i
      let v := laneVal f an data j (laneBits f data j)
      let a := match mine.find? fun o => o.j == j with
        | some o => o.asy
        | none => if r.zeroed.testBit j then 0 else (mkOpnd (laneKept f an data j) v oldAsy).eff
      ⟨v, a, decide (f.prec ≤ a)⟩)

/-- The blocks that a result reaches. -/
def VRes.blocks (r : VRes) : List Nat :=
  (List.range (r.f.lanes / 32)).filter fun b => (r.outs.any fun o => o.j / 32 == b) || nbits r.zeroed (32 * b) 32 != 0

/-- The row image after a result (R227, R230, R97). A block of an MX row all of whose lanes are written as zero has scale 0. -/
def buildRow (an : Anchor) (old : Row) (r : VRes) : Row :=
  let f := r.f
  let d0 := old.data.toNat &&& usedMask f
  let zl := (lanesIn r.zeroed f.lanes).map fun j => Put.mk (f.width * j) f.width 0
  let zs := if f.isMx then
      ((List.range 32).filter fun b => nbits r.zeroed (32 * b) 32 == 2 ^ 32 - 1).map fun b => Put.mk (8 * (2016 + b)) 8 0
    else []
  let sc := r.scales.map fun x => Put.mk (8 * (2016 + x.1)) 8 x.2
  let d1 := putAll d0 (zl ++ zs ++ (r.outs.map fun o => Put.mk (f.width * o.j) f.width o.x) ++ sc)
  let side :=
    if f.isInt || r.ints then 0
    else
      let s0 := old.side.toNat &&& sideMask f
      let put (j a : Nat) : Put := let (lo, wd) := assayPlace f j; ⟨lo, wd, a⟩
      if f.isBlock then
        putAll s0 (r.blocks.map fun b => put (32 * b) (newBlock f an d1 (nbits s0 (8 * b) 4) r b))
      else
        putAll s0 (((lanesIn r.zeroed f.lanes).map fun j => put j 0) ++ r.outs.map fun o => put o.j o.asy)
  rowOfNat d1 side

/-- The lowest low lane of a checked result, or the lowest low block with an active finite result (R99, R100). -/
def lowOf (th : BitVec 7) (an : Anchor) (img : Row) (r : VRes) : Option (Nat × Nat) :=
  if !r.checked || r.f.isInt || th = 0 then none
  else
    let d := img.data.toNat
    let fin (o : LaneOut) : Bool := (laneVal r.f an d o.j (laneBits r.f d o.j)).isFin
    if r.f.isBlock then
      let bs := ((r.outs.filter fin).map fun o => o.j / 32).eraseDups
      let asy (b : Nat) : Nat := nbits img.side.toNat (8 * b) 4
      (bs.find? fun b => decide (asy b < th.toNat)).map fun b => (b, asy b)
    else (r.outs.find? fun o => fin o && decide (o.asy < th.toNat)).map fun o => (o.j, o.asy)

/-- The result written to the destination of a word: a row, or one pushed entry (R230). -/
def vFinish (w : VWord) (an : Anchor) (r : VRes) (s : State) : Eff :=
  let s1 := s.orFlags .v (r.outs.foldl (fun a o => a ||| o.fl) 0)
  if isHndCode w.dst then
    let img := buildRow an ⟨0, 0⟩ { r with zeroed := 0 }
    .done (pushEntry s1 (w.dst.toNat - 64) img.data img.side) (lowOf s.vc.sV.asyth an img r)
  else
    let row := s.vRow w.dst.toNat
    let img := buildRow an (s.vc.st.rows.toList.getD row ⟨0, 0⟩) r
    .done (writeRow s1 .v row img) (lowOf s.vc.sV.asyth an img r)

/-- The draw of a lane under FCTL (R232). -/
def vDraw (s : State) (f : Fmt) (j : Nat) : Nat :=
  let fctl := s.vc.sV.fctl
  drawAt s (fctlMode fctl) fctl (j + f.lanes * loopIter s .v)

/-- The rounding mode of the V stream (R232). -/
def vMode (s : State) : BitVec 3 := fctlMode s.vc.sV.fctl

/-- A word whose result is one value for each active lane of a row or entry of format fd: `op` gives lane j's pattern, assay
and flags from the sources under the destination's anchor. -/
def vLanes (w : VWord) (s : State) (srcs : List (BitVec 7 × Fmt)) (fd : Fmt) (rounds carried checked : Bool)
    (op : List VSrc → Anchor → Nat → Nat × Nat × Flags) : Out :=
  vWord w s srcs fd false rounds fun xs an s1 =>
    let act := s.active w.pred fd.lanes
    let outs := (lanesIn act fd.lanes).map fun j => let (x, a, fl) := op xs an j; LaneOut.mk j x a fl
    vFinish w an ⟨fd, outs, zeroOf w act fd.lanes, [], carried, checked, false⟩ s1

/-- A predicate written over lanes below l: active lanes take their bit and NV, bits from l up are zero (R228, R230). -/
def vPred (w : VWord) (s : State) (l : Nat) (bits : List (Nat × Bool)) : State :=
  let old := (s.getP w.dst.toNat).toNat % 2 ^ l
  s.setP w.dst.toNat (BitVec.ofNat 4096 (putAll old (bits.map fun b => Put.mk b.1 1 (if b.2 then 1 else 0))))

/-- A word whose result is one bit for each active lane of a predicate. -/
def vBits (w : VWord) (s : State) (srcs : List (BitVec 7 × Fmt)) (f : Fmt) (op : List VSrc → Nat → Bool × Flags) : Out :=
  vWord w s srcs f true false fun xs _ s1 =>
    let rs := (lanesIn (s.active w.pred f.lanes) f.lanes).map fun j => (j, op xs j)
    .done (vPred w (s1.orFlags .v (rs.foldl (fun a r => a ||| r.2.2) 0)) f.lanes (rs.map fun r => (r.1, r.2.1))) none

/-- The format of a V word by its type rule; the decoder has refused every other code. -/
def vFmt (w : VWord) : Fmt := (fmtOfCode (vTypeCode (.sc setAll) w)).getD .i8

/-- A pattern moved into XA128 under another anchor: a chain of one term (R83). -/
def reanchor (f : Fmt) (an : Anchor) (l : Lane) : Nat × Flags :=
  if f = .xa then
    let (x, _, fl) := toXa an l.o
    (x, fl)
  else (l.x, 0)

end Sys2Proof.Machine
end

