-- ==== Sys2Proof/Machine/VectorArith.lean ====
section
/-! DEFINITION. Vector arithmetic, special functions, logic, compare and select (spec/10_vector_instructions.md R235 to R238,
R242 to R244, R246). -/

namespace Sys2Proof.Machine

/-- A floating-point lane: the exact result of an operation rounded once to f, its assay and flags; the draw counts the lanes
of TYPE's format t (R76, R227, R232). -/
def fLane (s : State) (t f : Fmt) (sat : Bool) (j : Nat) (e : Val × Flags) (asy : Val → Val → Nat) : Nat × Nat × Flags :=
  let (x, fl) := roundF f (vMode s) (vDraw s t j) sat e.1
  (x, asy e.1 (decodeF f x), e.2 ||| fl)

/-- An integer lane. -/
def iLane (f : Fmt) (sat : Bool) (n : Int) : Nat × Nat × Flags :=
  let (x, fl) := fitI f sat n
  (x, 0, fl)

/-- The integer value of a lane. -/
def Lane.int (l : Lane) (f : Fmt) : Int := decodeI f l.x

/-- The sign of an addend changed: its assay stays (R236). -/
def Opnd.negate (x : Opnd) : Opnd := { x with v := x.v.neg }

/-- SAT of VADD, VSUB, VMUL and VDIV (R235). -/
def vSat (w : VWord) : Bool := w.sc.getLsbD 6

/-- VADD and VSUB: the operation on values, on integers, and whether the second term is negated. -/
def vAddLike (w : VWord) (s : State) (opF : Val → Val → Val × Flags) (opI : Int → Int → Int) (neg : Bool) : Out :=
  let f := vFmt w
  vLanes w s [(w.sa, f), (w.sb, f)] f f.inF false true fun xs an j =>
    let x := srcLane xs 0 j
    let y := srcLane xs 1 j
    if f = .xa then chainOf an [x.o.term, (if neg then y.o.negate else y.o).term]
    else if f.isInt then iLane f (vSat w) (opI (x.int f) (y.int f))
    else fLane s f f (vSat w) j (opF x.o.v y.o.v) fun e r => asyAdd x.o y.o e r (.plain f)

/-- VADD (R235, R236). -/
def execVadd (w : VWord) (s : State) : Out := vAddLike w s (addV (vMode s)) (· + ·) false

/-- VSUB (R235, R236). -/
def execVsub (w : VWord) (s : State) : Out := vAddLike w s (fun x y => addV (vMode s) x y.neg) (· - ·) true

/-- VMUL (R235). -/
def execVmul (w : VWord) (s : State) : Out :=
  let f := vFmt w
  vLanes w s [(w.sa, f), (w.sb, f)] f f.inF false true fun xs _ j =>
    let x := srcLane xs 0 j
    let y := srcLane xs 1 j
    if f.isInt then iLane f (vSat w) (x.int f * y.int f)
    else fLane s f f (vSat w) j (mulV x.o.v y.o.v) fun e r => asyMul x.o y.o e r (.plain f)

/-- VFMA (R235). -/
def execVfma (w : VWord) (s : State) : Out :=
  let f := vFmt w
  vLanes w s [(w.sa, f), (w.sb, f), (w.sc, f)] f true false true fun xs _ j =>
    let x := srcLane xs 0 j
    let y := srcLane xs 1 j
    let z := srcLane xs 2 j
    fLane s f f false j (fmaV (vMode s) x.o.v y.o.v z.o.v) fun e r =>
      asyFma x.o y.o z.o (mulV x.o.v y.o.v).1 e r (.plain f)

/-- Integer division of lanes (R235): by zero all ones; the most negative value by −1 wraps to itself. -/
def divLane (x y : Int) : Int := if y = 0 then -1 else x.tdiv y

/-- VDIV (R235). -/
def execVdiv (w : VWord) (s : State) : Out :=
  let f := vFmt w
  vLanes w s [(w.sa, f), (w.sb, f)] f f.inF false true fun xs _ j =>
    let x := srcLane xs 0 j
    let y := srcLane xs 1 j
    if f.isInt then iLane f false (divLane (x.int f) (y.int f))
    else fLane s f f (vSat w) j (divV x.o.v y.o.v) fun e r => asyMul x.o y.o e r (.plain f)

/-- VMIN and VMAX (R235): the chosen lane with its stored assay. -/
def vChoose (lower : Bool) (w : VWord) (s : State) : Out :=
  let f := vFmt w
  vLanes w s [(w.sa, f), (w.sb, f)] f false false false fun xs _ j =>
    let x := srcLane xs 0 j
    let y := srcLane xs 1 j
    chooseV lower f x.o y.o x.x y.x

/-- VMIN (R235). -/
def execVmin (w : VWord) (s : State) : Out := vChoose true w s

/-- VMAX (R235). -/
def execVmax (w : VWord) (s : State) : Out := vChoose false w s

/-! ### Sign operations (R237) -/

/-- The position of the sign bit of a floating-point format. -/
def Fmt.signPos (f : Fmt) : Nat := f.expBits + f.sigBits

/-- −N, with the infinities exchanged and XNAN kept. -/
def xaNeg (x : Nat) : Nat := if x = xaNan then x else (2 ^ 128 - x) % 2 ^ 128

/-- VABS and VNEG: `neg` negates. -/
def vSign (neg : Bool) (w : VWord) (s : State) : Out :=
  let f := vFmt w
  vLanes w s [(w.sa, f)] f false true false fun xs _ j =>
    let x := srcLane xs 0 j
    let y :=
      if f = .xa then (if neg || (x.x.testBit 127) then xaNeg x.x else x.x)
      else if f.isInt then (if neg then wrapNat f.width (-(x.int f)) else wrapNat f.width (x.int f).natAbs)
      else if neg then x.x ^^^ 2 ^ f.signPos
      else x.x % 2 ^ f.signPos
    (y, x.o.stored, 0)

/-- VABS (R237). -/
def execVabs (w : VWord) (s : State) : Out := vSign false w s

/-- VNEG (R237). -/
def execVneg (w : VWord) (s : State) : Out := vSign true w s

/-! ### Special functions (R238) -/

def vFunc (w : VWord) (s : State) (op : Val → Val × Flags) (asy : Fmt → Opnd → Val → Val → Nat) : Out :=
  let f := vFmt w
  vLanes w s [(w.sa, f)] f true false true fun xs _ j =>
    let x := srcLane xs 0 j
    fLane s f f false j (op x.o.v) fun e r => asy f x.o e r

/-- VSQRT (R238). -/
def execVsqrt (w : VWord) (s : State) : Out := vFunc w s sqrtV fun f x e r => asySqrt x e r (.plain f)

/-- VRSQRT (R238). -/
def execVrsqrt (w : VWord) (s : State) : Out := vFunc w s rsqrtV fun f x e r => asySqrt x e r (.plain f)

/-- The exact dividend 1 of VRCP (R92). -/
def oneOpnd (f : Fmt) : Opnd := ⟨.fin false 1 0 false, f.prec, f.prec, f.prec⟩

/-- VRCP (R238). -/
def execVrcp (w : VWord) (s : State) : Out := vFunc w s rcpV fun f x e r => asyMul (oneOpnd f) x e r (.plain f)

/-- VEXP2 (R238). -/
def execVexp2 (w : VWord) (s : State) : Out := vFunc w s exp2V fun f x _ r => asyExp2 x r (.plain f)

/-- VLOG2 (R238). -/
def execVlog2 (w : VWord) (s : State) : Out := vFunc w s log2V fun f x e r => asyLog2 x e r (.plain f)

/-! ### Logic (R242) -/

def vLogic (w : VWord) (s : State) (op : Fmt → Nat → Nat → Nat) : Out :=
  let f := vFmt w
  vLanes w s [(w.sa, f), (w.sb, f)] f false false false fun xs _ j =>
    (op f (srcLane xs 0 j).x (srcLane xs 1 j).x, 0, 0)

/-- VAND (R242). -/
def execVand (w : VWord) (s : State) : Out := vLogic w s fun _ x y => x &&& y

/-- VOR (R242). -/
def execVor (w : VWord) (s : State) : Out := vLogic w s fun _ x y => x ||| y

/-- VXOR (R242). -/
def execVxor (w : VWord) (s : State) : Out := vLogic w s fun _ x y => x ^^^ y

/-- VNOT (R242). -/
def execVnot (w : VWord) (s : State) : Out :=
  let f := vFmt w
  vLanes w s [(w.sa, f)] f false false false fun xs _ j => (2 ^ f.width - 1 - (srcLane xs 0 j).x, 0, 0)

/-- VSHL (R242). -/
def execVshl (w : VWord) (s : State) : Out := vLogic w s fun f x y => (x <<< (y % f.width)) % 2 ^ f.width

/-- VSHR (R242). -/
def execVshr (w : VWord) (s : State) : Out := vLogic w s fun f x y => x >>> (y % f.width)

/-- VSRA (R242). -/
def execVsra (w : VWord) (s : State) : Out :=
  vLogic w s fun f x y => wrapNat f.width (sgn f.width x >>> (y % f.width))

/-! ### Compare, select, rotate -/

/-- VCMP (R243): exact values, across two anchors under .xa; integers compare by their type. -/
def execVcmp (w : VWord) (s : State) : Out :=
  let f := vFmt w
  vBits w s [(w.sa, f), (w.sb, f)] f fun xs j => condF (w.sc.extractLsb' 0 3) (srcLane xs 0 j).o.v (srcLane xs 1 j).o.v

/-- VSEL (R244): the assay of a block is formed anew. -/
def execVsel (w : VWord) (s : State) : Out :=
  let f := vFmt w
  let p := s.getP w.sc.toNat
  vLanes w s [(w.sa, f), (w.sb, f)] f false false false fun xs an j =>
    let l := if p.getLsbD j then srcLane xs 0 j else srcLane xs 1 j
    let (x, fl) := reanchor f an l
    (x, l.o.stored, fl)

/-- VROT (R246): rotation by a multiple of 32 lanes moves whole blocks, with their assays. -/
def execVrot (w : VWord) (s : State) : Out :=
  let f := vFmt w
  vLanes w s [(w.sa, f)] f false (w.imm14.toNat % 32 == 0) false fun xs an j =>
    let l := srcLane xs 0 ((j + w.imm14.toNat) % f.lanes)
    let (x, fl) := reanchor f an l
    (x, l.o.stored, fl)

end Sys2Proof.Machine
end

