-- ==== Sys2Proof/Machine/VectorMove.lean ====
section
/-! DEFINITION. Vector conversions, moves, reductions, assay operations and predicates (spec/10_vector_instructions.md R239 to
R241, R245, R247, R252, R254 to R256; spec/03 R68, R77, R84, R85). -/

namespace Sys2Proof.Machine

/-! ### Conversions of lanes -/

/-- An operand as the one term of a chain: an integer has no uncertainty (R84, R92). -/
def termOf (f : Fmt) (l : Lane) : Term :=
  if f.isInt then ⟨.ofInt (decodeI f l.x), none, true, false⟩ else l.o.term

/-- The value of a lane for a conversion. -/
def cvtVal (f : Fmt) (l : Lane) : Val := if f.isInt then .ofInt (decodeI f l.x) else l.o.v

/-- A lane of format fs converted to fd (R84, R85, R239), MX destinations apart. -/
def cvtLane (fs fd : Fmt) (an : Anchor) (mode : BitVec 3) (u : Nat) (sat : Bool) (l : Lane) : Nat × Nat × Flags :=
  let v := cvtVal fs l
  if fd = .xa then chainOf an [termOf fs l]
  else if fd.isInt then
    let (x, fl) := if fs.isInt then fitI fd sat (decodeI fs l.x) else roundI fd mode u v
    (x, 0, fl ||| nvOf [v])
  else
    let (x, fl) := roundF fd mode u sat v
    let r := decodeF fd x
    (x, if fs.isInt then asyFromInt r (.plain fd) else asyConvert l.o r (.plain fd), fl ||| nvOf [v])

/-- emax of an MX format (R68). -/
def mxEmax (f : Fmt) : Int := if f = .mx8 then 8 else if f = .mxi8 then 0 else 2

/-- One element of an MX block: v over the scale 2^k, rounded to the element format under the saturating policy (R68). The
largest finite value of an MXINT8 element with the sign of v is ±127 × 2^−6 (R71; log 22). -/
def mxElemOf (f : Fmt) (mode : BitVec 3) (u : Nat) (k : Int) (v : Val) : Nat × Flags :=
  match v with
  | .fin n s e st =>
    if f = .mxi8 then
      let (q, inexact, _) := roundAt mode u n s (e - k) st (-6)
      let x : Int := if n then -(q : Int) else q
      if 127 < x then (127, flOF ||| flNX)
      else if x < -127 then (129, flOF ||| flNX)
      else (wrapNat 8 x, flIf inexact flNX)
    else roundF f.mxElem mode u true (.fin n s (e - k) st)
  | _ => (0, 0)

/-- The lanes of one block converted to an MX format (R68): the scale byte and the elements with their assays. -/
def mxBlock (fs fd : Fmt) (mode : BitVec 3) (draw : Nat → Nat) (ls : List (Nat × Lane)) : Nat × List LaneOut :=
  let vs := ls.map fun p => cvtVal fs p.2
  let special := vs.any fun v => !v.isFin
  let live := vs.filter fun v => v.isFin && !v.isZero
  if special then
    (255, ls.map fun p => ⟨p.1, 0, 0, nvOf [cvtVal fs p.2] ||| flIf (cvtVal fs p.2).isInf (flOF ||| flNX)⟩)
  else
    match live with
    | [] => (0, ls.map fun p =>
        ⟨p.1, 0, if fs.isInt then fd.prec else asyConvert p.2.o (.zero false) (.mx fd 0), 0⟩)
    | v :: t =>
      let top := t.foldl (fun m x => max m x.lead) v.lead
      let k := max (-127) (min 127 (top - mxEmax fd))
      let scale := (k + 127).toNat
      (scale, ls.map fun p =>
        let (x, fl) := mxElemOf fd mode (draw p.1) k (cvtVal fs p.2)
        let r := decodeMx fd scale x
        ⟨p.1, x, if fs.isInt then asyFromInt r (.mx fd scale) else asyConvert p.2.o r (.mx fd scale), fl⟩)

/-- The mapping of lanes (R239): for each destination lane that it names, the source lane. -/
def cvtMap (ls ld part : Nat) : List (Nat × Nat) :=
  if ls ≤ ld then (List.range ls).map fun j => (part * ls + j, j)
  else (List.range ld).map fun j => (j, part * ld + j)

/-- The common form of VCVT and VSAT: lanes that the mapping does not name stay in every form. -/
def vConvert (w : VWord) (s : State) (fs fd : Fmt) (part : Nat) (sat : Bool) : Out :=
  let rounds := fd != .xa && !(fs.isInt && fd.isInt)
  vWord w s [(w.sa, fs)] fd false rounds fun xs an s1 =>
    let m := cvtMap fs.lanes fd.lanes part
    let act := s.active w.pred fd.lanes
    let on := m.filter fun p => act.testBit p.1
    let off := m.filter fun p => !act.testBit p.1
    let zeroed := if w.z then off.foldl (fun a p => a ||| (1 <<< p.1)) 0 else 0
    if fd.isMx then
      let bs := (on.map fun p => p.1 / 32).eraseDups
      let rs := bs.map fun b =>
        (b, mxBlock fs fd (vMode s) (vDraw s fd) ((on.filter fun p => p.1 / 32 == b).map fun p => (p.1, srcLane xs 0 p.2)))
      vFinish w an ⟨fd, rs.flatMap fun r => r.2.2, zeroed, rs.map fun r => (r.1, r.2.1), false, true, false⟩ s1
    else
      let outs := on.map fun p =>
        let (x, a, fl) := cvtLane fs fd an (vMode s) (vDraw s fd p.1) sat (srcLane xs 0 p.2)
        LaneOut.mk p.1 x a fl
      vFinish w an ⟨fd, outs, zeroed, [], false, true, false⟩ s1

/-- A format of a code; the decoder has refused every other code. -/
def fmtAt (c : BitVec 5) : Fmt := (fmtOfCode c).getD .i8

/-- VCVT (R239). -/
def execVcvt (w : VWord) (s : State) : Out :=
  vConvert w s (fmtAt (w.sc.extractLsb' 0 5)) (fmtAt (w.sb.extractLsb' 0 5)) w.cvtPart (w.sb.getLsbD 6)

/-- VSAT (R241). -/
def execVsat (w : VWord) (s : State) : Out :=
  vConvert w s (fmtAt (w.sc.extractLsb' 0 5)) (fmtAt (typeToCode w.ty)) w.sb.toNat true

/-! ### Widening (R240) -/

/-- The lane of VADDW and VMULW: `a` is read in format fa, `b` in the narrow format. -/
def widenLane (s : State) (mul : Bool) (fa fn fd : Fmt) (an : Anchor) (j : Nat) (a b : Lane) : Nat × Nat × Flags :=
  if fd = .xa then
    if mul then chainOf an [⟨.ofInt (a.int fa * b.int fn), none, true, false⟩]
    else chainOf an [a.o.term, termOf fn b]
  else if fd.isInt then iLane fd false (if mul then a.int fa * b.int fn else a.int fa + b.int fn)
  else if mul then fLane s fn fd false j (mulV a.o.v b.o.v) fun e r => asyMul a.o b.o e r (.plain fd)
  else fLane s fn fd false j (addV (vMode s) a.o.v b.o.v) fun e r => asyAdd a.o b.o e r (.plain fd)

def vWiden (mul : Bool) (w : VWord) (s : State) : Out :=
  let fn := fmtAt (typeToCode w.ty)
  let fd := fn.wide.getD .i16
  let fa := if mul then fn else fd
  let h := if w.sc.getLsbD 0 then fn.lanes / 2 else 0
  vLanes w s [(w.sa, fa), (w.sb, fn)] fd fd.isFloat false true fun xs an j =>
    widenLane s mul fa fn fd an j (srcLane xs 0 (if mul then h + j else j)) (srcLane xs 1 (h + j))

/-- VADDW (R240). -/
def execVaddw (w : VWord) (s : State) : Out := vWiden false w s

/-- VMULW (R240). -/
def execVmulw (w : VWord) (s : State) : Out := vWiden true w s

/-! ### Moves -/

/-- The scales that go with the active lanes of a moved MX row (log 22). -/
def movedScales (f : Fmt) (act : Nat) (src : VSrc) : List (Nat × Nat) :=
  match src with
  | .img _ _ r =>
    if f.isMx then ((List.range 32).filter fun b => nbits act (32 * b) 32 != 0).map fun b => (b, mxScale r.data.toNat b)
    else []
  | .cst .. => []

/-- VMOV (R245). A k value in a block of an MX row is read under the block's own scale. -/
def execVmov (w : VWord) (s : State) : Out :=
  let f := vFmt w
  if isKCode w.dst then
    let row := s.vRow w.sa.toNat
    issue .v w.cl s (gatedFault s [row] ++ rowUeFault s [row]) <|
      let (r, s1) := readRow s .v row
      .done (s1.setKCode w.dst (BitVec.ofNat 64 (laneBits .i64 r.data.toNat 0))) none
  else
    vWord w s [(w.sa, f)] f false false fun xs an s1 =>
      let act := s.active w.pred f.lanes
      let src := xs.getD 0 default
      let old := if isRowCode w.dst then (s.vc.st.rows.toList.getD (s.vRow w.dst.toNat) ⟨0, 0⟩).data.toNat else 0
      let outs := (lanesIn act f.lanes).map fun j =>
        let l := src.lane j
        match src with
        | .img .. => LaneOut.mk j l.x l.o.stored 0
        | .cst .. => LaneOut.mk j l.x (capOf (laneVal f an old j l.x) (laneKept f an old j)) 0
      let carried := match src with
        | .img .. => true
        | .cst .. => false
      vFinish w an ⟨f, outs, zeroOf w act f.lanes, movedScales f act src, carried, false, false⟩ s1

/-- VSPLAT (R245): an I type takes the low W bits; every other type converts the FP64 value by R85. -/
def execVsplat (w : VWord) (s : State) : Out :=
  let f := vFmt w
  let k := s.kCode w.sa
  let v := decodeF .f64 k.toNat
  let src : Lane := ⟨k.toNat, mkOpnd (.plain .f64) v (capOf v (.plain .f64))⟩
  vLanes w s [] f (!f.inI && f != .xa) false true fun _ an j =>
    if f.inI then (kPattern f k, 0, 0) else cvtLane .f64 f an (vMode s) (vDraw s f j) false src

/-- The word rounds under FCTL.MODE (R72, R74, R233): RESERVED_CODE where that field holds 6 or 7 (R433). -/
def roundsByFctl (i : Instr) : Bool :=
  match i with
  | .vadd w | .vsub w | .vmul w | .vdiv w | .vredadd w | .vscan w => (vFmt w).inF
  | .vfma _ | .vsqrt _ | .vrsqrt _ | .vrcp _ | .vexp2 _ | .vlog2 _ => true
  | .vcvt w => fmtAt (w.sb.extractLsb' 0 5) != .xa && !((fmtAt (w.sc.extractLsb' 0 5)).isInt && (fmtAt (w.sb.extractLsb' 0 5)).isInt)
  | .vsat w => fmtAt (typeToCode w.ty) != .xa && !((fmtAt (w.sc.extractLsb' 0 5)).isInt && (fmtAt (typeToCode w.ty)).isInt)
  | .vaddw w | .vmulw w => ((fmtAt (typeToCode w.ty)).wide.getD .i16).isFloat
  | .vsplat w => !(vFmt w).inI && vFmt w != .xa
  | _ => false

/-! ### Reductions (R247) -/

/-- The identity of VREDMAX and VREDMIN. -/
def redIdentity (f : Fmt) (an : Anchor) (lower : Bool) : Nat × Nat :=
  if f = .xa then (if lower then xaPosInf else xaNegInf, 0)
  else if f.isInt then (wrapNat f.width (if lower then intMax f else intMin f), 0)
  else if f.hasInf then (infPat f (!lower), 0)
  else
    let x := signBit f (!lower) + maxFinite f
    (x, capOf (laneVal f an 0 0 x) (.plain f))

/-- The better of two lanes for VREDMAX and VREDMIN, neither a NaN. -/
def redBetter (lower : Bool) (x y : Lane) : Lane :=
  let first := if lower then beforeV x.o.v y.o.v else beforeV y.o.v x.o.v
  let second := if lower then beforeV y.o.v x.o.v else beforeV x.o.v y.o.v
  if first then x else if second then y else { x with o := { x.o with stored := min x.o.stored y.o.stored } }

/-- VREDMAX and VREDMIN of lanes: pattern, assay, flags. -/
def redChoose (lower : Bool) (f : Fmt) (an : Anchor) (ls : List Lane) : Nat × Nat × Flags :=
  let nv := nvOf (ls.map fun l => l.o.v)
  match ls, ls.filter fun l => !l.o.v.isNan with
  | [], _ => let (x, a) := redIdentity f an lower; (x, a, 0)
  | _ :: _, [] => (if f = .xa then xaNan else canonNan f, 0, nv)
  | _, y :: t =>
    let l := t.foldl (redBetter lower) y
    let (x, fl) := reanchor f an l
    (x, l.o.stored, nv ||| fl)

/-- The sum of some lanes (R77, R247). -/
def redSum (s : State) (f : Fmt) (an : Anchor) (j : Nat) (ls : List Lane) : Nat × Nat × Flags :=
  if f = .xa then
    chainOf an (ls.map fun l => l.o.term)
  else if f.isInt then (wrapNat f.width (ls.foldl (fun a l => a + l.int f) 0), 0, 0)
  else (ls.foldl (fun a l => a.add f l.o) sumZero).result f (vMode s) (vDraw s f j)

/-- A reduction into lane 0, whatever the guard says of it; under .z the other lanes are zero. The result is tested against
ASYTH only where lane 0 is active (R99, R232). -/
def vReduce (w : VWord) (s : State) (rounds checked : Bool)
    (op : Fmt → Anchor → List Lane → Nat × Nat × Flags) : Out :=
  let f := vFmt w
  vWord w s [(w.sa, f)] f false rounds fun xs an s1 =>
    let act := s.active w.pred f.lanes
    let (x, a, fl) := op f an ((lanesIn act f.lanes).map (srcLane xs 0))
    vFinish w an ⟨f, [⟨0, x, a, fl⟩], zeroOf w 1 f.lanes, [], false, checked && act.testBit 0, false⟩ s1

/-- VREDADD (R247). -/
def execVredadd (w : VWord) (s : State) : Out :=
  vReduce w s (vFmt w).inF true fun f an ls => redSum s f an 0 ls

/-- VREDMAX (R247). -/
def execVredmax (w : VWord) (s : State) : Out := vReduce w s false false (redChoose false)

/-- VREDMIN (R247). -/
def execVredmin (w : VWord) (s : State) : Out := vReduce w s false false (redChoose true)

/-- Prefix sums in ascending lane order. -/
def scanLanes (s : State) (f : Fmt) (an : Anchor) : List (Nat × Lane) → ChainAcc → SumAcc → Int → List LaneOut
  | [], _, _, _ => []
  | (j, l) :: t, c, m, n =>
    let c1 := c.add an l.o.term
    let m1 := m.add f l.o
    let n1 := n + l.int f
    let (x, a, fl) :=
      if f = .xa then c1.result an
      else if f.isInt then (wrapNat f.width n1, 0, 0)
      else m1.result f (vMode s) (vDraw s f j)
    ⟨j, x, a, fl⟩ :: scanLanes s f an t c1 m1 n1

/-- VSCAN (R247). -/
def execVscan (w : VWord) (s : State) : Out :=
  let f := vFmt w
  vWord w s [(w.sa, f)] f false f.inF fun xs an s1 =>
    let act := s.active w.pred f.lanes
    let outs := scanLanes s f an ((lanesIn act f.lanes).map fun j => (j, srcLane xs 0 j)) chainZero sumZero 0
    vFinish w an ⟨f, outs, zeroOf w act f.lanes, [], false, true, false⟩ s1

/-! ### Assays (R252) -/

/-- VASY (R252): the destination becomes an integer row. -/
def execVasy (w : VWord) (s : State) : Out :=
  let f := vFmt w
  vWord w s [(w.sa, f)] f false false fun xs an s1 =>
    let act := s.active w.pred f.lanes
    let outs := (lanesIn act f.lanes).map fun j => LaneOut.mk j (srcLane xs 0 j).o.eff 0 0
    vFinish w an ⟨f, outs, zeroOf w act f.lanes, [], false, false, true⟩ s1

/-- VASYSET (R252): for a block, the assay of its lane 32b, if that lane is active. -/
def execVasyset (w : VWord) (s : State) : Out :=
  let f := vFmt w
  vWord w s [(w.sa, f)] f false false fun xs _ s1 =>
    let act := s.active w.pred f.lanes
    let row := s.vRow w.dst.toNat
    let old := s.vc.st.rows.toList.getD row ⟨0, 0⟩
    let js := (lanesIn act f.lanes).filter fun j => !f.isBlock || j % 32 == 0
    let puts := js.map fun j =>
      let (lo, wd) := assayPlace f j
      Put.mk lo wd (min (srcLane xs 0 j).x (2 ^ f.assayBits - 1))
    .done (writeRow s1 .v row ⟨old.data, BitVec.ofNat 4096 (putAll (old.side.toNat &&& sideMask f) puts)⟩) none

/-- VASYLT (R252). -/
def execVasylt (w : VWord) (s : State) : Out :=
  let f := vFmt w
  let k := if isKCode w.sb then some ((s.kCode w.sb).toNat % 128) else none
  vBits w s [(w.sa, f), (w.sb, f)] f fun xs j =>
    (decide ((srcLane xs 0 j).o.eff < k.getD (min (srcLane xs 1 j).x 127)), 0)

/-! ### Predicates, votes, branches (R254 to R256) -/

/-- A predicate operation over the active lanes below L. -/
def pLogic (w : VWord) (s : State) (op : Bool → Bool → Bool) : Out :=
  let f := vFmt w
  let a := s.getP w.sa.toNat
  let b := s.getP w.sb.toNat
  vBits w s [] f fun _ j => (op (a.getLsbD j) (b.getLsbD j), 0)

/-- PAND (R254). -/
def execPand (w : VWord) (s : State) : Out := pLogic w s fun a b => a && b

/-- POR (R254). -/
def execPor (w : VWord) (s : State) : Out := pLogic w s fun a b => a || b

/-- PNOT (R254). -/
def execPnot (w : VWord) (s : State) : Out := pLogic w s fun a _ => !a

/-- PSET (R254). -/
def execPset (w : VWord) (s : State) : Out :=
  issue .v w.cl s [] (.done (s.setP w.dst.toNat (BitVec.ofNat 4096 (2 ^ w.imm14.toNat - 1))) none)

/-- A vote: every lane below L takes the value, whatever the guard (R255). -/
def vVote (w : VWord) (s : State) (op : Nat → Nat → Bool) : Out :=
  let l := (vFmt w).lanes
  let act := s.active w.pred l
  let v := op ((s.getP w.sa.toNat).toNat &&& act) act
  issue .v w.cl s [] (.done (s.setP w.dst.toNat (if v then BitVec.ofNat 4096 (2 ^ l - 1) else 0)) none)

/-- VANY (R255). -/
def execVany (w : VWord) (s : State) : Out := vVote w s fun on _ => on != 0

/-- VALL (R255). -/
def execVall (w : VWord) (s : State) : Out := vVote w s fun on act => on == act

/-- VBR (R256, R258): a taken branch to its own address or below it rotates. -/
def execVbr (w : VWord) (s : State) : Out :=
  let pc := s.vc.sV.pc
  let target := pc + 8 * sx w.off21
  issue .v w.cl s [] <|
    if (s.active w.pred 1).testBit 0 then
      .jumps (if (sx w.off21).toInt ≤ 0 then rotate s else s) target
    else .done s none

end Sys2Proof.Machine
end

