-- ==== Sys2Proof/Machine/VectorMem.lean ====
section
/-! DEFINITION. Vector loads and stores of rows, entries, gathered lanes and assay planes (spec/10_vector_instructions.md R248 to
R251, R253; spec/04 R96, R97; spec/07 R162; spec/22 R454, R455). -/

namespace Sys2Proof.Machine

/-! ### Addresses (R248, R233) -/

/-- The offset of a memory operand from its base: the immediate and the enclosing iteration's nest offset. -/
def memOffset (s : State) (w : VWord) : Int :=
  (if w.ty = 0xF then sgn 9 (w.imm14.toNat / 32) else w.imm14.toInt) * 64 + loopOffset s .v

/-- ea of [kA + I]. -/
def memEa (s : State) (w : VWord) : Word := s.kCode w.sa + BitVec.ofInt 64 (memOffset s w)

/-- The format of a memory form. -/
def memFmt (w : VWord) : Fmt := (fmtOfCode (vTypeCode (.mem setAll) w)).getD .i8

/-- bb: element bytes of a block of an MX format (R249). -/
def mxBlockBytes (f : Fmt) : Int := if f = .mx6 then 24 else if f = .mx4 then 16 else 32

/-- The address of the scale bytes of an MX form (R249). -/
def scaleEa (s : State) (w : VWord) (f : Fmt) : Word :=
  s.kCode (w.sa + 1) + BitVec.ofInt 64 (memOffset s w / mxBlockBytes f)

/-- The runs of scale bytes of the blocks with an active lane. -/
def scaleRuns (act n : Nat) : List (Nat × Nat) :=
  runsFrom ((List.range (n / 32)).map fun b => nbits act (32 * b) 32 != 0) 0 none

/-- The parts of a row access: element bytes of the active lanes, and scale bytes of an MX form (R249, R455). -/
def vParts (s : State) (w : VWord) (acc : Acc) (f : Fmt) (act n : Nat) : Except FaultInfo (List Part × List Part) :=
  let d := rowParts s s.who acc (memEa s w) f.width (activeRuns act n f.width)
  let c := if f.isMx then rowParts s s.who acc (scaleEa s w f) 8 (scaleRuns act n) else .ok []
  match d, c with
  | .ok x, .ok y => .ok (x, y)
  | .error a, .error b => .error (lowerFault a b)
  | .error a, .ok _ => .error a
  | .ok _, .error b => .error b

/-- The data checks of both (R454). -/
def vPartsFault (s : State) (w : VWord) (f : Fmt) (ps : List Part × List Part) : Option FaultInfo :=
  match partsFault s (memEa s w) f.width ps.1, partsFault s (scaleEa s w f) 8 ps.2 with
  | some a, some b => some (lowerFault a b)
  | some a, none => some a
  | none, x => x

/-- Issue of a V word that reads some pieces: it waits while another device has not answered (R504). -/
def issueRead (w : VWord) (s : State) (checks : List FaultInfo) (ps : List Piece) (va : Word) (eff : Eff) : Out :=
  if waitMet s .v w.cl && (firstFault checks).isNone && remotePending s ps then .next (noteRemote s .v ps va true)
  else issue .v w.cl s checks eff

/-- The quarry slot and window offset of byte b of an access. -/
def partQuarry (ps : List Part) (b : Nat) : Option (Nat × Nat) :=
  ps.findSome? fun p =>
    if p.off ≤ b && b < p.off + p.len then
      match p.place with
      | .quarry q o => some (q, o + (b - p.off))
      | _ => none
    else none

/-- The assay of a loaded lane (R96, R162). -/
def loadLaneAssay (s : State) (ps : List Part) (f : Fmt) (j : Nat) (v : Val) (k : Kept) : Nat :=
  let own := asyLoad s.vc.sV.asyld v k
  let b0 := j * f.width / 8
  let b1 := (j * f.width + f.width - 1) / 8
  match partQuarry ps b0, partQuarry ps b1 with
  | some (q, o), some (q', o') =>
    if q == q' && o' == o + (b1 - b0) then
      ((cfgAt s q o).loadAssay f (8 * o + j * f.width % 8)).getD own
    else own
  | _, _ => own

/-- The active lanes of n loaded from their parts, with the scales loaded (R249). -/
def loadLanes (s : State) (ps : List Part × List Part) (f : Fmt) (an : Anchor) (act n : Nat) :
    List LaneOut × List (Nat × Nat) × State :=
  let (xs, s1) := readParts s ps.1
  let (ys, s2) := readParts s1 ps.2
  let img := putRuns 0 xs
  let sc := putRuns 0 ys
  let scale (j : Nat) : Nat := nbits sc (8 * (j / 32)) 8
  let lane (j : Nat) : LaneOut :=
    let x := laneBits f img j
    let v := if f.isMx then decodeMx f (scale j) x else laneVal f an 0 0 x
    let k := if f.isMx then .mx f (scale j) else laneKept f an 0 0
    ⟨j, x, if f.isInt then 0 else loadLaneAssay s ps.1 f j v k, 0⟩
  let js := lanesIn act n
  let scales := if f.isMx then ((js.map (· / 32)).eraseDups).map fun b => (b, nbits sc (8 * b) 8) else []
  (js.map lane, scales, s2)

def piecesOfParts (ps : List Part × List Part) : List Piece := (ps.1 ++ ps.2).map Part.piece

/-- The checks of a form with a data row (R231, R442). -/
def dataRowChecks (s : State) (d : BitVec 7) (f : Fmt) : List FaultInfo :=
  let row := s.vRow d.toNat
  gatedFault s [row] ++ (if f == .xa && (s.rowAnchor row).isNone then [noAnchor] else [])

/-- VLD (R249). -/
def execVld (w : VWord) (s : State) : Out :=
  let f := memFmt w
  let act := s.active w.pred f.lanes
  let an := (s.rowAnchor (s.vRow w.dst.toNat)).getD ⟨0, false⟩
  let checks := dataRowChecks s w.dst f
  match vParts s w accRead f act f.lanes with
  | .error e => issue .v w.cl s checks (.faults e)
  | .ok ps =>
    issueRead w s checks (piecesOfParts ps) (memEa s w) <|
      match vPartsFault s w f ps with
      | some e => .faults e
      | none =>
        let (outs, scales, s1) := loadLanes s ps f an act f.lanes
        vFinish w an ⟨f, outs, zeroOf w act f.lanes, scales, false, false, false⟩ (clearRemote s1 .v)

/-- The bits of active lanes of n. -/
def laneMask (f : Fmt) (act n : Nat) : Nat :=
  putAll 0 ((lanesIn act n).map fun j => Put.mk (f.width * j) f.width (2 ^ f.width - 1))

/-- The active lanes of an image stored, merged within a byte where a type is narrower (R249). -/
def storeLanes (s : State) (ps : List Part × List Part) (f : Fmt) (act n data : Nat) : State :=
  let (img, s1) :=
    if f.width % 8 = 0 then (data, s)
    else
      let (xs, s1) := readParts s ps.1
      let old := putRuns 0 xs
      let m := laneMask f act n
      ((old ^^^ (old &&& m)) ||| (data &&& m), s1)
  writeParts (writeParts s1 img ps.1) (nbits data (8 * 2016) 256) ps.2

/-- VST (R249). -/
def execVst (w : VWord) (s : State) : Out :=
  let f := memFmt w
  let act := s.active w.pred f.lanes
  let row := s.vRow w.dst.toNat
  let checks := dataRowChecks s w.dst f ++ rowUeFault s [row]
  match vParts s w accWrite f act f.lanes with
  | .error e => issue .v w.cl s checks (.faults e)
  | .ok ps =>
    issue .v w.cl s checks <|
      let (r, s1) := readRow s .v row
      .done (storeLanes s1 ps f act f.lanes r.data.toNat) none

/-! ### Entries (R250) -/

/-- The lanes of an entry: E × 8 / W; the row layout for MX and 6-bit types. -/
def entryLanes (f : Fmt) (esz : Nat) : Nat := if f.isMx || f.width = 6 then f.lanes else entryBytes esz * 8 / f.width

/-- HANDLE_STATE of VLDH and VSTH (R250, R439). -/
def entryFault (s : State) (h : Nat) (f : Fmt) : List FaultInfo :=
  let x := s.vc.st.handle h
  if !x.bound || ((f.isMx || f.width == 6) && x.esz != 5) then [mkFault 0x1014 0 (BitVec.ofNat 32 h)] else []

/-- The handle of a code. -/
def hndOf (c : BitVec 7) : Nat := c.toNat - 64

/-- VLDH (R250). -/
def execVldh (w : VWord) (s : State) : Out :=
  let f := memFmt w
  let h := hndOf w.dst
  let n := entryLanes f (s.vc.st.handle h).esz.toNat
  let act := s.active w.pred n
  let checks := entryFault s h f
  match vParts s w accRead f act n with
  | .error e => issue .v w.cl s checks (.faults e)
  | .ok ps =>
    issueRead w s checks (piecesOfParts ps) (memEa s w) <|
      match vPartsFault s w f ps, vStall s [] (some h) with
      | some e, _ => .faults e
      | none, some (c, i, k) => .stalls s c (BitVec.ofNat 6 i) (BitVec.ofNat 16 k)
      | none, none =>
        let (outs, scales, s1) := loadLanes s ps f ⟨0, false⟩ act n
        let img := buildRow ⟨0, false⟩ ⟨0, 0⟩ ⟨f, outs, 0, scales, false, false, false⟩
        .done (pushEntry (clearRemote s1 .v) h img.data img.side) none

/-- VSTH (R250). -/
def execVsth (w : VWord) (s : State) : Out :=
  let f := memFmt w
  let h := hndOf w.dst
  let n := entryLanes f (s.vc.st.handle h).esz.toNat
  let act := s.active w.pred n
  let checks := entryFault s h f
  match vParts s w accWrite f act n with
  | .error e => issue .v w.cl s checks (.faults e)
  | .ok ps =>
    issue .v w.cl s (checks ++ popFault s h) <|
      match popEntry s h with
      | none => .stalls s 1 (BitVec.ofNat 6 h) 1
      | some (e, s1) => .done (storeLanes s1 ps f act n e.data.toNat) none

/-! ### Gather and scatter (R251) -/

/-- The element address of lane j under an index row. -/
def gatherEa (s : State) (w : VWord) (f : Fmt) (idx : Row) (j : Nat) : Word :=
  s.kCode w.sa + BitVec.ofInt 64 (loopOffset s .v)
    + BitVec.ofNat 64 (laneBits f idx.data.toNat j % 2 ^ 64 * (f.width / 8))

/-- The pieces of every active element, or the fault that R455 reports. -/
def gatherPieces (s : State) (w : VWord) (acc : Acc) (f : Fmt) (idx : Row) (js : List Nat) :
    Except FaultInfo (List (Nat × Word × List Piece)) :=
  let all := js.map fun j =>
    let va := gatherEa s w f idx j
    (j, va, pieces s s.who acc va (f.width / 8))
  let bad := all.filterMap fun x => match x.2.2 with | .error e => some e | .ok _ => none
  match firstFault bad with
  | some e => .error e
  | none => .ok (all.filterMap fun x => match x.2.2 with | .ok p => some (x.1, x.2.1, p) | .error _ => none)

/-- The elements loaded in lane order. -/
def gatherLanes (s : State) (f : Fmt) (an : Anchor) : List (Nat × Word × List Piece) → List LaneOut × State
  | [] => ([], s)
  | (j, va, ps) :: t =>
    let (bs, s1) := readPieces s va ps
    let x := natLE bs
    let v := laneVal f an 0 0 x
    let own := asyLoad s.vc.sV.asyld v (laneKept f an 0 0)
    let a := match ps with
      | [(.quarry q o, _)] => ((cfgAt s q o).loadAssay f (8 * o)).getD own
      | _ => own
    let (r, s2) := gatherLanes s1 f an t
    (⟨j, x, if f.isInt then 0 else a, 0⟩ :: r, s2)

/-- VGATH (R251). -/
def execVgath (w : VWord) (s : State) : Out :=
  let f := vFmt w
  let act := s.active w.pred f.lanes
  let ir := s.vRow w.sb.toNat
  let an := (s.rowAnchor (s.vRow w.dst.toNat)).getD ⟨0, false⟩
  let checks := gatedFault s [s.vRow w.dst.toNat, ir] ++ dataRowChecks s w.dst f ++ rowUeFault s [ir]
  let (idx, s0) := readRow s .v ir
  match gatherPieces s w accRead f idx (lanesIn act f.lanes) with
  | .error e => issue .v w.cl s checks (.faults e)
  | .ok l =>
    issueRead w s checks (l.flatMap fun x => x.2.2) (memEa s w) <|
      match firstFault (l.filterMap fun x => dataFault s x.2.1 x.2.2) with
      | some e => .faults e
      | none =>
        let (outs, s1) := gatherLanes s0 f an l
        vFinish w an ⟨f, outs, zeroOf w act f.lanes, [], false, false, false⟩ (clearRemote s1 .v)

/-- VSCAT (R251): in ascending lane order. -/
def execVscat (w : VWord) (s : State) : Out :=
  let f := vFmt w
  let act := s.active w.pred f.lanes
  let ir := s.vRow w.sb.toNat
  let row := s.vRow w.dst.toNat
  let checks := gatedFault s [row, ir] ++ dataRowChecks s w.dst f ++ rowUeFault s [row, ir]
  let (idx, s0) := readRow s .v ir
  match gatherPieces s w accWrite f idx (lanesIn act f.lanes) with
  | .error e => issue .v w.cl s checks (.faults e)
  | .ok l =>
    issue .v w.cl s checks <|
      let (r, s1) := readRow s0 .v row
      let put (t : State) (x : Nat × Word × List Piece) : State :=
        writePieces t x.2.1 x.2.2 (bytesLE (f.width / 8) (laneBits f r.data.toNat x.1))
      .done (l.foldl put s1) none

/-! ### Assay planes (R253) -/

/-- Plane bytes of a format (R97). -/
def planeBytes (f : Fmt) : Nat := if f.isBlock then f.lanes / 32 else if f = .xa then 128 else 512

/-- VLDA (R253). -/
def execVlda (w : VWord) (s : State) : Out :=
  let f := memFmt w
  let row := s.vRow w.dst.toNat
  let checks := dataRowChecks s w.dst f
  match rowParts s s.who accRead (memEa s w) 8 [(0, planeBytes f)] with
  | .error e => issue .v w.cl s checks (.faults e)
  | .ok ps =>
    issueRead w s checks (ps.map Part.piece) (memEa s w) <|
      match partsFault s (memEa s w) 8 ps with
      | some e => .faults e
      | none =>
        let (xs, s1) := readParts s ps
        let old := s.vc.st.rows.toList.getD row ⟨0, 0⟩
        .done (writeRow (clearRemote s1 .v) .v row ⟨old.data, BitVec.ofNat 4096 (putRuns 0 xs &&& sideMask f)⟩) none

/-- VSTA (R253). -/
def execVsta (w : VWord) (s : State) : Out :=
  let f := memFmt w
  let row := s.vRow w.dst.toNat
  let checks := dataRowChecks s w.dst f ++ rowUeFault s [row]
  match rowParts s s.who accWrite (memEa s w) 8 [(0, planeBytes f)] with
  | .error e => issue .v w.cl s checks (.faults e)
  | .ok ps =>
    issue .v w.cl s checks <|
      let (r, s1) := readRow s .v row
      .done (writeParts s1 (r.side.toNat &&& sideMask f) ps) none

end Sys2Proof.Machine
end

