-- ==== Sys2Proof/Machine/VectorCtl.lean ====
section
/-! DEFINITION. VADV, VLOOP, slab descriptors and the power of row clusters (spec/10_vector_instructions.md R250, R259 to R262;
spec/04 R102; spec/05 R111; spec/21 R442 to R446). -/

namespace Sys2Proof.Machine

/-- The WAIT and take of a word that has issued already are over. -/
def afterIssue (cl : Clauses) : Clauses := { cl with wi := 0, wn := 0, so := if cl.so = 3 then 0 else cl.so }

/-- VADV (R250): its WAIT is tested once; then as many entries as are filled are popped, now and again, and the word completes
with the last. -/
def execVadv (w : VWord) (s : State) : Out :=
  let h := hndOf w.sa
  let x := s.vc.st.handle h
  let n := w.imm14.toNat
  let popped := s.vc.sV.part.getD 0
  let k := min x.fill (n - popped)
  let s1 := setHandle s h { x with entries := x.entries.drop k, free := x.free + k }
  let cl := if s.vc.sV.part.isNone then w.cl else afterIssue w.cl
  let wait (t : State) : State := t.setWait .v 1 (BitVec.ofNat 6 h) (BitVec.ofNat 16 (n - popped - k))
  issue .v cl s (if x.bound then [] else [mkFault 0x1014 0 (BitVec.ofNat 32 h)]) <|
    if popped + k = n then .done s1 none
    else .holds (wait (s1.setStream .v { s1.vc.sV with part := some (popped + k) }))

/-- VLOOP (R259): D[2:0] names the nest, bits [30:26] hold the body length less 1. -/
def execVloop (w : VWord) (s : State) : Out := issueLoop .v w.cl w.dst.toNat (w.sb.toNat + 1) s

/-! ### Slab descriptors -/

/-- An open chain's slab is not to be changed (R446). -/
def chainOnSlab (s : State) (d : Nat) : List FaultInfo :=
  match s.vc.st.chain with
  | some c => if c.slab.toNat == d then [chainFault c.slab.toNat true] else []
  | none => []

/-- Rows of a descriptor. -/
def slabRowList (a : Word) : List Nat := (List.range (slabRows a)).map (slabRow0 a + ·)

def State.getA (s : State) (d : Nat) : Word := s.vc.regs.a.toList.getD d 0

def State.setA (s : State) (d : Nat) (v : Word) : State :=
  if h : d < 16 then s.setRegs { s.vc.regs with a := s.vc.regs.a.set d v } else s

/-- The sidebands of rows set to zero. -/
def zeroSides (s : State) (st : StreamId) (rows : List Nat) : State :=
  rows.foldl (fun t r => writeRow t st r { t.vc.st.rows.toList.getD r ⟨0, 0⟩ with side := 0 }) s

/-- Rows whose sidebands SLABRETYPE sets to zero: all of the slab, unless the type stays, or `.keep` is given and the width stays;
the rows of an integer type have no assays to keep (R102). -/
def retypedRows (old : Word) (code : BitVec 5) (keep : Bool) : List Nat :=
  let f := fmtAt (slabFmt old)
  if slabFmt old == code || (keep && f.width == (fmtAt code).width && !f.isInt) then [] else slabRowList old

def zeroRows (s : State) (st : StreamId) (rows : List Nat) : State := rows.foldl (fun t r => writeRow t st r ⟨0, 0⟩) s

/-- The checks of a new descriptor (R445). -/
def slabChecks (x : Word) (d : Nat) : List FaultInfo :=
  (match operandBad x 0xFFFFFFFF00000000 with
    | some b => [descriptorFault 2 b 0]
    | none => [])
  ++ (if 256 < slabRow0 x + slabRows x || (slabIsXa x && decide (127 < (slabAnchor x).l)) then
        [mkFault 0x1008 0 (BitVec.ofNat 32 d)] else [])
  ++ (if slabFmt x == 0x0A || 0x17 < (slabFmt x).toNat then [mkFault 0x1005 0 ((slabFmt x).setWidth 32)] else [])

/-- SLABDEF (R261): rows new to the range are cleared; a change of FMT sets the assays of kept rows to 0. -/
def execSlabdef (w : VWord) (s : State) : Out :=
  let d := w.dst.toNat
  let x := s.kCode w.sa
  let old := s.getA d
  let fresh := (slabRowList x).filter fun r => !slabHas old r
  let kept := if slabFmt x == slabFmt old then [] else (slabRowList x).filter (slabHas old)
  issue .v w.cl s (slabChecks x d ++ chainOnSlab s d ++ gatedFault s (fresh ++ kept)) <|
    .done ((zeroSides (zeroRows s .v fresh) .v kept).setA d x) none

/-- SLABRETYPE (R261, R102). No check is made of an ANCHOR field that another type kept (log 22). -/
def execSlabretype (w : VWord) (s : State) : Out :=
  let d := w.dst.toNat
  let old := s.getA d
  let code := vTypeCode (.sc setAll) w
  let rows := retypedRows old code (w.sb.getLsbD 0)
  issue .v w.cl s (chainOnSlab s d ++ gatedFault s rows) <|
    .done ((zeroSides s .v rows).setA d (setField old 17 code)) none

/-! ### Row clusters -/

/-- A power state of a code (R111). -/
def powerOf (c : BitVec 2) : Power := if c = 0 then .powered else if c = 1 then .retained else .gated

/-- One cluster set: gating loses its rows; a return to POWERED opens its wake window (R111, R443). -/
def setPower (s : State) (j : Nat) (p : Power) : State :=
  if h : j < 8 then
    let c := s.vc.st.clusters.get ⟨j, h⟩
    let s1 := if p = .gated then (List.range 32).foldl (fun t i => putRow t (32 * j + i) ⟨0, 0⟩) s else s
    let waking := p == .powered && (c.power != .powered || c.waking)
    s1.setStore { s1.vc.st with clusters := s1.vc.st.clusters.set j ⟨p, waking⟩ }
  else s

/-- The M and C streams whose next word may have issued already keep the clusters that it met (R444). -/
def keepClusters (s : State) : State :=
  let old (st : StreamId) : Vector Cluster 8 := ((s.vc.st.before.find? fun b => b.1 == st).map (·.2)).getD s.vc.st.clusters
  s.setStore { s.vc.st with before := ((begunBeside s .v).filter fun st => st == .m || st == .c).map fun st => (st, old st) }

/-- SLABPWR (R262): it waits for the V stream's operations in flight; WSTAT says so with cause 5 (DESIGN CHOICE, log 21). -/
def execSlabpwr (w : VWord) (s : State) : Out :=
  issue .v w.cl s [] <|
    if s.vc.st.ops.any fun o => o.st == .v then .stalls s 5 0 0
    else (.done ((List.range 8).foldl (fun t j => setPower t j (powerOf (w.pwrCode j))) (keepClusters s)) none)

end Sys2Proof.Machine
end

