-- ==== Sys2Proof/Machine/Matrix.lean ====
section
/-! DEFINITION. The M stream (spec/11_matrix_instructions.md R263 to R278; spec/21 R445 to R447): the latch, gathered operands
and their assays, chains, permutation, slab words. -/

namespace Sys2Proof.Machine

/-! ### Operand formats (R264, R265) -/

/-- K: k-steps of one MMA. -/
def mDepth (f : Fmt) : Nat := if f.width = 16 then 128 else if f.width = 4 then 512 else 256

/-- S: stride of an A row. -/
def mStride (f : Fmt) : Nat := if f.isMx then 288 else 256

/-- Bytes of an element row of a B tile loaded without .t. -/
def mRowBytes (f : Fmt) : Nat := 16 * f.width

/-- Bytes of a B tile. -/
def mTileBytes (f : Fmt) (t : Bool) : Nat :=
  if t then 128 * mStride f else mDepth f * mRowBytes f + (if f.isMx then 4 * mDepth f else 0)

/-- The type of a matrix word. -/
def mFmt (w : MWord) : Fmt := fmtAt (mTypeCode w)

/-- Operands along k: patterns, and the scale of each block, with the assays of R94 and R96. -/
def mOpnds (f : Fmt) (asyld : BitVec 8) (pat scale : Nat → Nat) : List Opnd :=
  let kept (k : Nat) : Kept := if f.isMx then .mx f (scale (k / 32)) else .plain f
  let val (k : Nat) : Val :=
    if f.isMx then decodeMx f (scale (k / 32)) (pat k)
    else if f.isInt then .ofInt (decodeI f (pat k)) else decodeF f (pat k)
  let own (k : Nat) : Nat := asyLoad asyld (val k) (kept k)
  let blocks := (List.range (mDepth f / 32)).map fun b =>
    blockAssay f.prec ((List.range 32).map fun i => ⟨val (32 * b + i), own (32 * b + i), decide (f.prec ≤ own (32 * b + i))⟩)
  (List.range (mDepth f)).map fun k =>
    if f.isInt then ⟨val k, 0, 0, 0⟩ else mkOpnd (kept k) (val k) (if f.isBlock then blocks.getD (k / 32) 0 else own k)

/-- A row of A, or of a transposed B tile, from its bytes at an offset of an image (R265). -/
def mRowOpnds (f : Fmt) (asyld : BitVec 8) (img off : Nat) : List Opnd :=
  mOpnds f asyld (fun k => nbits img (8 * off + f.width * k) f.width) (fun b => nbits img (8 * (off + 256 + b)) 8)

/-- Column n of a B tile (R265, R267). -/
def mColOpnds (f : Fmt) (t : Bool) (asyld : BitVec 8) (img n : Nat) : List Opnd :=
  if t then mRowOpnds f asyld img (mStride f * n)
  else
    mOpnds f asyld (fun k => nbits img (8 * (k * mRowBytes f) + f.width * n) f.width)
      (fun b => nbits img (8 * (mDepth f * mRowBytes f + 128 * b + n)) 8)

/-- A product as a term; an integer term has no uncertainty (R270). -/
def mTerm (f : Fmt) (x y : Opnd) : Term :=
  if f.isInt then ⟨(mulV x.v y.v).1, none, true, false⟩ else mulTerm x y

/-! ### Core-store addresses -/

/-- BANK_STATE for a core-store range: its first bank that is not SCRATCH, or INFO[11] outside the core store (R430, R447). -/
def bankState (st : Store) (cs : Int) (n : Nat) : List FaultInfo :=
  if cs < 0 ∨ (coreStoreBytes : Int) < cs + n then [mkFault 0x1013 0 0x800]
  else
    match st.badBank cs.toNat n with
    | some b => [mkFault 0x1013 0 (BitVec.ofNat 32 b)]
    | none => []

/-- cs + off of a word (R266, R276). -/
def mCs (s : State) (w : MWord) : Int := (32 * w.addr.toNat : Nat) + loopOffset s .m

/-- The data fault of a SCRATCH range (R475). -/
def scratchFault (s : State) (cs n : Nat) : Option FaultInfo :=
  pieceFault s (BitVec.ofNat 64 (windowBase + cs)) (.scratch cs, n)

/-! ### The latch (R263, R268) -/

def Store.latch (st : Store) (b : Bool) : Latch := if b then st.latch1 else st.latch0

def setLatch (s : State) (b : Bool) (l : Latch) : State :=
  s.setStore (if b then { s.vc.st with latch1 := l } else { s.vc.st with latch0 := l })

def Latch.isFilling : Latch → Bool
  | .filling _ => true
  | _ => false

/-- A load of a bank starts: the previous load's other bank (R268); a fault of its range, or of its own, leaves that bank empty (R409,
R429). -/
def startLoad (w : MWord) (s : State) (n : Nat) (own : List FaultInfo) (kind : Nat → Nat → OpKind) : Out :=
  let b := s.vc.st.nextBank
  let cs := mCs s w
  match (firstFault (bankState s.vc.st cs n ++ own)).toList with
  | f :: _ =>
    if waitMet s .m w.cl then .next (accessFault (setLatch s b .empty) .m f) else issue .m w.cl s [] (.faults f)
  | [] =>
    issue .m w.cl s [] <|
      if (s.vc.st.latch b).isFilling then .stalls s 4 0 0
      else
        let id := s.vc.st.nextId
        let s1 := startOp s .m w.cl (kind (if b then 1 else 0) cs.toNat)
        .issued ((setLatch s1 b (.filling id)).setStore { (setLatch s1 b (.filling id)).vc.st with nextBank := !b })

/-- MLDB (R267). -/
def execMldb (w : MWord) (s : State) : Out :=
  startLoad w s (mTileBytes (mFmt w) false) [] fun b cs => .mldb b (mFmt w) false cs s.vc.sM.asyld

/-- MLDB.t (R267). -/
def execMldbT (w : MWord) (s : State) : Out :=
  startLoad w s (mTileBytes (mFmt w) true) [] fun b cs => .mldb b (mFmt w) true cs s.vc.sM.asyld

/-- The entries of a pattern in SCRATCH (R267). -/
def patternAt (s : State) (cs : Nat) : List (BitVec 16) :=
  (List.range 128).map fun i => BitVec.ofNat 16 (s.vc.st.scratch.load (cs + 2 * i) 2)

/-- ILLEGAL_OPERAND of a pattern whose entries are not all legal (R447). -/
def patternBad (es : List (BitVec 16)) : List FaultInfo := if es.any fun e => e.extractLsb' 7 8 != 0 then [mkFault 0x1006 0 5] else []

/-- What MLDBP finds of its pattern at issue; nothing of bytes that its read would not deliver (R429, R447). -/
def mldbpChecks (s : State) (cs : Int) : List FaultInfo :=
  if !(bankState s.vc.st cs 256).isEmpty || (scratchFault s cs.toNat 256).isSome then [] else patternBad (patternAt s cs.toNat)

/-- MLDBP (R267). -/
def execMldbp (w : MWord) (s : State) : Out := startLoad w s 256 (mldbpChecks s (mCs s w)) fun b cs => .mldbp b cs

/-- The bytes of a load read from SCRATCH: the contents of its bank, or the fault of its data or pattern (R267, R447). -/
def loadContents (s : State) (k : OpKind) : Option (Nat × Except FaultInfo Latch) :=
  match k with
  | .mldb b f t cs asyld =>
    let n := mTileBytes f t
    some (b, match scratchFault s cs n with
      | some e => .error e
      | none => .ok (.tile f t (s.vc.st.scratch.bytes cs n) asyld))
  | .mldbp b cs =>
    some (b, match scratchFault s cs 256, patternBad (patternAt s cs) with
      | some e, _ => .error e
      | none, e :: _ => .error e
      | none, [] => .ok (.pattern (patternAt s cs)))
  | _ => none

/-- The oldest load in flight that has not faulted. -/
def firstLoad (s : State) : Option EngOp :=
  s.vc.st.ops.find? fun o => !o.stopped && match o.kind with
    | .mldb .. => true
    | .mldbp .. => true
    | _ => false

/-- Correctable errors of the SCRATCH bytes that a load has read (R472). -/
def correctLoad (s : State) (k : OpKind) : State :=
  match k with
  | .mldb _ f t cs _ => correctScratch s cs (mTileBytes f t)
  | .mldbp _ cs => correctScratch s cs 256
  | _ => s

/-- LATCH_BANK_FILLED (R267): the oldest load in flight on a core completes, or faults and leaves its bank empty. -/
def execLatchBankFilled (core : Nat) (s : State) : Out :=
  match s.focusCore core with
  | none => .next s
  | some s1 =>
    match firstLoad s1 with
    | none => .next s1
    | some o =>
      match loadContents s1 o.kind with
      | none => .next s1
      | some (b, .ok l) => .next (endOp (setLatch (correctLoad s1 o.kind) (b == 1) l) o)
      | some (b, .error f) => .next (faultOp (setLatch s1 (b == 1) .empty) o f)

/-- The bank that an MMA or MMAP uses: that of the latest load (R268). -/
def useBank (s : State) : Bool := !s.vc.st.nextBank

def latchFault (b : Bool) : FaultInfo := mkFault 0x100A 0 (if b then 1 else 0)

/-! ### Index operands (R269) -/

/-- The row image that an index operand reads: a row, or the entry at the head of a handle. -/
def ixRow (s : State) (ix : BitVec 7) : Option Row :=
  if isHndCode ix then
    match (s.vc.st.handle (hndOf ix)).entries with
    | e :: _ => if e.full then some ⟨e.data, e.side⟩ else none
    | [] => none
  else if isRowCode ix then some (readRow s .m (s.vRow ix.toNat)).1
  else some ⟨0, 0⟩

/-- The indices of r rows; none while a handle has no filled entry. -/
def ixList (s : State) (ix : BitVec 7) (r : Nat) : Option (List Nat) :=
  if isKCode ix then some ((List.range r).map fun i => ((s.kCode ix).toNat + i) % 2 ^ 16)
  else (ixRow s ix).map fun x => (List.range r).map fun i => laneBits .n16 x.data.toNat i

/-- The state after the index operand is read: an entry popped, WAKEHZ noted. -/
def ixTake (s : State) (ix : BitVec 7) : State :=
  if isHndCode ix then (match popEntry s (hndOf ix) with | some (_, s1) => s1 | none => s)
  else if isRowCode ix then (readRow s .m (s.vRow ix.toNat)).2
  else s

/-- The checks of an index operand, but for the state of its row's cluster (R439, R447). -/
def ixChecks (s : State) (ix : BitVec 7) : List FaultInfo :=
  (handlesOf [ix]).flatMap (handleFault s) ++ rowUeFault s (rowsOf s [ix])
  ++ popFaults s (handlesOf [ix])

/-! ### Chains (R271, R272) -/

/-- The element rows of a chain's descriptor. -/
def chainRows (d : Word) : List Nat := slabRowList d

/-- SLAB_STATE: not .xa, or ROWS outside 1 to 128 (R447). -/
def slabXa (s : State) (slab : BitVec 4) : List FaultInfo :=
  let d := s.getA slab.toNat
  if !slabIsXa d || slabRows d = 0 || 128 < slabRows d then [mkFault 0x1008 0 (slab.setWidth 32)] else []

/-- The chain that MCHB opens: each element's prior value is its first term. -/
def openChain (s : State) (slab : BitVec 4) : State :=
  let d := s.getA slab.toNat
  let an := slabAnchor d
  let (els, s1) := (chainRows d).foldl (fun (acc : List ChainAcc × State) row =>
      let (r, t) := readRow acc.2 .m row
      (acc.1 ++ (List.range 128).map fun n => chainZero.add an (laneOf .xa an r n).o.term, t)) ([], s)
  s1.setStore { s1.vc.st with chain := some ⟨slab, d, els⟩ }

/-- The terms of an MMA entered: A rows as operand lists, B columns as operand lists (R270). -/
def addTerms (f : Fmt) (an : Anchor) (as bs : List (List Opnd)) (els : List ChainAcc) : List ChainAcc :=
  let pairs := as.flatMap fun a => bs.map fun b => (a, b)
  List.zipWith (fun e p => (List.zipWith (mTerm f) p.1 p.2).foldl (fun c t => c.add an t) e) els pairs

/-- The bit of an accumulator that an injection waits to flip (R478). -/
structure AccFlip where
  row : Nat
  lane : Nat
  bit : Nat
  deriving DecidableEq, Repr, Inhabited

/-- The injection of KIND 4 that waits for the next MCHE of a core (R478). -/
def State.pendingFlip (s : State) (core : Nat) : Option AccFlip :=
  let v := s.dev.faults.injctl.toNat
  if v.testBit 63 && nbits v 60 3 == 4 && nbits v 40 8 == core then
    some ⟨nbits v 32 8, s.dev.faults.injaddr.toNat % 128, nbits v 48 11⟩
  else none

/-- An accumulator with the bit that INJCTL asks for flipped (R478). -/
def flipAcc (fl : Option AccFlip) (i n : Nat) (c : ChainAcc) : ChainAcc :=
  match fl with
  | some e => if e.row = i ∧ e.lane = n then { c with acc := c.acc ^^^ (1 <<< e.bit) } else c
  | none => c

/-- Events added to a counter, which holds at its maximum (R277). -/
def countUp (x : BitVec 32) (n : Nat) : BitVec 32 := BitVec.ofNat 32 (min (x.toNat + n) 0xFFFFFFFF)

/-- An open chain settled and written (R272): the state, and the lowest low element. -/
def settleChain (s : State) (c : Chain) : State × Option (Nat × Nat) :=
  let an := slabAnchor c.desc
  let flip := s.pendingFlip s.coreId
  let els := c.els.zipIdx.map fun e => flipAcc flip (e.2 / 128) (e.2 % 128) e.1
  let rs := els.map fun e => (e.settle, e.result an)
  let count (k : ChainEvent) : Nat := (rs.filter fun r => r.1.2.1 == k).length
  let nv := rs.any fun r => r.1.2.2
  let rows := (chainRows c.desc).zipIdx
  let s1 := rows.foldl (fun t p =>
      let outs := ((rs.drop (128 * p.2)).take 128).zipIdx.map fun r => LaneOut.mk r.2 r.1.2.1 r.1.2.2.1 0
      writeRow t .m p.1 (buildRow an ⟨0, 0⟩ ⟨.xa, outs, 0, [], false, true, false⟩)) s
  let g := s1.vc.regs
  let s2 := s1.setRegs { g with
    mxcNan := countUp g.mxcNan (count .nan), mxcOvf := countUp g.mxcOvf (count .ovf), mxcSat := countUp g.mxcSat (count .sat) }
  let s3 := (s2.orFlags .m (flIf nv flNV)).setStore { s2.vc.st with chain := none }
  let th := s.vc.sM.asyth
  let low := (rs.zipIdx.find? fun r => isLow th (decodeXa an.l r.1.2.1) r.1.2.2.1).map fun r => (r.2, r.1.2.2.1)
  let s4 := { s3 with dev := { s3.dev with faults := { s3.dev.faults with
      injctl := if flip.isSome then s3.dev.faults.injctl &&& ~~~((1 : Word) <<< 63) else s3.dev.faults.injctl } } }
  (s4, low)

/-- MCHB (R271). -/
def execMchb (w : MWord) (s : State) : Out :=
  let chain := match s.vc.st.chain with
    | some c => [chainFault c.slab.toNat true]
    | none => []
  let rows := chainRows (s.getA w.slab.toNat)
  issue .m w.cl s (chain ++ slabXa s w.slab ++ gatedAt s .m rows ++ rowUeFault s rows) (.done (openChain s w.slab) none)

/-- MCHE (R272). -/
def execMche (w : MWord) (s : State) : Out :=
  match s.vc.st.chain with
  | none => issue .m w.cl s (chainFault 0 false :: slabXa s w.slab) (.faults (chainFault 0 false))
  | some c =>
    let checks := (if c.slab = w.slab then [] else [chainFault c.slab.toNat true]) ++ slabXa s w.slab ++ gatedAt s .m (chainRows c.desc)
    let (s1, low) := settleChain s c
    issue .m w.cl s checks (.done s1 low)

/-! ### MMA and MMAP -/

/-- BANK_STATE of the gathered rows: cs + off itself and every byte lie in the core store, or INFO[11] says so; else the first bank that
is not SCRATCH. Every row is checked before any term (R269, R276, R447). -/
def gatherChecks (s : State) (w : MWord) (idx : List Nat) : List FaultInfo :=
  let f := mFmt w
  let row (i : Nat) : Int := mCs s w + (i * mStride f : Nat)
  if mCs s w < 0 ∨ (coreStoreBytes : Int) ≤ mCs s w ∨ idx.any fun i => decide ((coreStoreBytes : Int) < row i + mStride f) then
    [mkFault 0x1013 0 0x800]
  else (firstFault (idx.flatMap fun i => bankState s.vc.st (row i) (mStride f))).toList

/-- The data checks of the gathered rows, lowest row first (R454, R455). -/
def gatherData (s : State) (w : MWord) (idx : List Nat) : List FaultInfo :=
  let f := mFmt w
  (firstFault (idx.filterMap fun i => scratchFault s (mCs s w + (i * mStride f : Nat)).toNat (mStride f))).toList

/-- MMA (R269 to R271). -/
def execMma (w : MWord) (s : State) : Out :=
  let f := mFmt w
  let bank := useBank s
  let l := s.vc.st.latch bank
  let d := match s.vc.st.chain with
    | some c => c.desc
    | none => s.getA w.slab.toNat
  let slab := match s.vc.st.chain with
    | some c => if c.slab = w.slab then [] else [chainFault c.slab.toNat true]
    | none => rowUeFault s (chainRows d)
  let rows := (if s.vc.st.chain.isNone then chainRows d else []) ++ rowsOf s [w.ix]
  let latch := match l with
    | .tile g _ _ _ => if g = f then [] else [latchFault bank]
    | .filling _ => []
    | _ => [latchFault bank]
  let idx := ixList s w.ix (slabRows d)
  let gathered := match idx with
    | some i => gatherChecks s w i
    | none => []
  issue .m w.cl s (slab ++ slabXa s w.slab ++ latch ++ gatedAt s .m rows ++ ixChecks s w.ix ++ gathered) <|
    match idx, l with
    | none, _ => .stalls s 1 (BitVec.ofNat 6 (hndOf w.ix)) 1
    | some i, .tile _ t bytes asyld =>
      match gatherData s w i with
      | e :: _ => .faults e
      | [] =>
        let s1 := i.foldl (fun t j => correctScratch t (mCs s w + (j * mStride f : Nat)).toNat (mStride f)) (ixTake s w.ix)
        let own := s1.vc.st.chain.isNone
        let s2 := if own then openChain s1 w.slab else s1
        match s2.vc.st.chain with
        | none => .done s2 none
        | some c =>
          let row (j : Nat) : List Opnd :=
            mRowOpnds f s.vc.sM.asyld (s.vc.st.scratch.load (mCs s w + (j * mStride f : Nat)).toNat (mStride f)) 0
          let img := natLE bytes
          let cols := (List.range 128).map (mColOpnds f t asyld img)
          let c' := { c with els := addTerms f (slabAnchor c.desc) (i.map row) cols c.els }
          if own then
            let (s3, low) := settleChain s2 c'
            .done s3 low
          else .done (s2.setStore { s2.vc.st with chain := some c' }) none
    | _, _ => .stalls s 4 0 0

/-- The windows of MMAP: ADDR[21:19] ws, ADDR[24:22] wd (R266). -/
def mapWs (w : MWord) : Nat := (w.addr.extractLsb' 0 3).toNat
def mapWd (w : MWord) : Nat := (w.addr.extractLsb' 3 3).toNat

/-- A destination row of MMAP (R274): window wd takes lanes of the source, or zero with assay 0. -/
def permuted (f : Fmt) (es : List (BitVec 16)) (ws wd : Nat) (src old : Row) : Row :=
  let outs := es.zipIdx.map fun e =>
    let j := 128 * wd + e.2
    if e.1.getLsbD 15 then
      let k := 128 * ws + e.1.toNat % 128
      LaneOut.mk j (laneBits f src.data.toNat k) (laneAssay f src.side.toNat k) 0
    else LaneOut.mk j 0 0 0
  buildRow ⟨0, false⟩ old ⟨f, outs, 0, [], true, false, false⟩

/-- Rows read in order. -/
def readRows (s : State) (st : StreamId) : List Nat → List Row × State
  | [] => ([], s)
  | r :: rs =>
    let (x, s1) := readRow s st r
    let (xs, s2) := readRows s1 st rs
    (x :: xs, s2)

/-- MMAP (R274). -/
def execMmap (w : MWord) (s : State) : Out :=
  let f := mFmt w
  let d := s.getA w.slab.toNat
  let bank := useBank s
  let l := s.vc.st.latch bank
  let ws := mapWs w
  let wd := mapWd w
  let r := slabRows d
  let idx := ixList s w.ix r
  let rows := (idx.getD []).map (· % 256)
  let latch := match l with
    | .pattern _ => []
    | .filling _ => []
    | _ => [latchFault bank]
  let checks :=
    (if f.lanes / 128 ≤ ws || f.lanes / 128 ≤ wd then [mkFault 0x1006 0 5] else [])
    ++ (if fmtAt (slabFmt d) != f || r = 0 || 128 < r then [mkFault 0x1008 0 (w.slab.setWidth 32)] else [])
    ++ latch ++ ixChecks s w.ix ++ gatedAt s .m (rows ++ slabRowList d ++ rowsOf s [w.ix]) ++ rowUeFault s rows
  issue .m w.cl s checks <|
    match idx, l with
    | none, _ => .stalls s 1 (BitVec.ofNat 6 (hndOf w.ix)) 1
    | some _, .pattern es =>
      let (srcs, s1) := readRows (ixTake s w.ix) .m rows
      let put (t : State) (p : Row × Nat) : State :=
        writeRow t .m p.2 (permuted f es ws wd p.1 (t.vc.st.rows.toList.getD p.2 ⟨0, 0⟩))
      .done ((srcs.zip (slabRowList d)).foldl put s1) none
    | _, _ => .stalls s 4 0 0

/-! ### Slab words and loops -/

/-- A row of zeros with full assays (R275). -/
def zeroRow (f : Fmt) : Row :=
  if f.isInt then ⟨0, 0⟩
  else
    let n := if f.isBlock then f.lanes / 32 else f.lanes
    rowOfNat 0 (putAll 0 ((List.range n).map fun j =>
      let (lo, wd) := assayPlace f (if f.isBlock then 32 * j else j)
      Put.mk lo wd f.prec))

/-- MZERO (R275). -/
def execMzero (w : MWord) (s : State) : Out :=
  let d := s.getA w.slab.toNat
  let rows := slabRowList d
  issue .m w.cl s (chainOnSlab s w.slab.toNat ++ gatedAt s .m rows)
    (.done (rows.foldl (fun t r => writeRow t .m r (zeroRow (fmtAt (slabFmt d)))) s) none)

/-- MANCH (R275): ADDR[27:19] the anchor, ADDR[28] the per-term mode. -/
def execManch (w : MWord) (s : State) : Out :=
  let d := s.getA w.slab.toNat
  let d' := setField (setField d 22 (w.addr.extractLsb' 0 9)) 31 (w.addr.extractLsb' 9 1)
  issue .m w.cl s (chainOnSlab s w.slab.toNat ++ if slabIsXa d then [] else [mkFault 0x1008 0 (w.slab.setWidth 32)])
    (.done (s.setA w.slab.toNat d') none)

/-- MLOOP (R276): AS[2:0] names the nest, ADDR[23:19] holds the body length less 1. -/
def execMloop (w : MWord) (s : State) : Out := issueLoop .m w.cl w.slab.toNat (w.addr.toNat + 1) s

end Sys2Proof.Machine
end

