-- ==== Sys2Proof/Machine/Copy.lean ====
section
/-! DEFINITION. The C stream (spec/12_copy_instructions.md R281 to R300; spec/20 R410; spec/21 R448; spec/22 R475, R482; spec/16
R378, R379): issue of copy commands, the movement of their elements, and the events that end them. -/

namespace Sys2Proof.Machine

/-! ### Fields -/

/-- The element type of a C word. -/
def cFmt (w : CWord) : Fmt := fmtAt (cTypeCode w)

/-- The C word of a copy command. -/
def copyWord : Instr → CWord
  | .cnest w | .ccopy w | .cmcast w | .cgath w | .cscat w | .ctrans w | .cfill w | .cfoll w | .crem w | .catom w
  | .cloop w => w
  | _ => default

/-- IMM64[127:96] and IMM64[95:64] (R282). -/
def cDOff (w : CWord) : Word := sx (w.imm.extractLsb' 32 32)
def cSOff (w : CWord) : Word := sx (w.imm.extractLsb' 0 32)

/-- The index operand of CGATH and CSCAT (R286). -/
def cIx (w : CWord) : BitVec 7 := w.aux.extractLsb' 0 7

/-- xw: bits of an index, AUX[28:27] (R286). -/
def cXw (w : CWord) : Nat := 16 * 2 ^ (w.aux.extractLsb' 8 2).toNat

/-- Rows of CTRANS (R291). -/
def cRows (w : CWord) : Nat := (w.aux.extractLsb' 0 8).toNat + 1

/-- The core mask and receiving semaphore of CMCAST (R293). -/
def cMask (w : CWord) : BitVec 8 := w.aux.extractLsb' 0 8
def cSem (w : CWord) : BitVec 6 := w.aux.extractLsb' 8 6

/-- RES, R, REL, ACQ and op of CATOM (R286). -/
def cRes (w : CWord) : Option Nat := if w.aux.getLsbD 11 then some (w.aux.extractLsb' 7 4).toNat else none
def cRel (w : CWord) : Bool := w.aux.getLsbD 6
def cAcq (w : CWord) : Bool := w.aux.getLsbD 5
def cOp (w : CWord) : BitVec 3 := w.aux.extractLsb' 0 3

/-- The nest a command names. -/
def cNestNo (w : CWord) : Nat := (w.nst.extractLsb' 0 3).toNat

/-- The number of elements of a command (R283, R291, R292). -/
def copyCount (i : Instr) (nest : Rec64) : Nat :=
  let w := copyWord i
  let flat := (w.aux.extractLsb' 0 10).toNat + 1
  match i with
  | .cnest _ | .catom _ => 1
  | .cgath _ | .cscat _ => 16384 / cXw w
  | .ctrans _ => (if w.nested then nestCount nest else 1) * cRows w * 128
  | _ => if w.nested then nestCount nest else flat

/-- Bits of a command's data. -/
def copyBits (i : Instr) (nest : Rec64) : Nat := copyCount i nest * (cFmt (copyWord i)).width

/-- The handle that a command pushes (R282, R296). -/
def pushHandle (i : Instr) : Option Nat :=
  let w := copyWord i
  match i with
  | .ccopy _ | .cgath _ | .cfill _ => if isHndCode w.dop then some (hndOf w.dop) else none
  | .catom _ => cRes w
  | _ => none

/-- The handle that a command pops element by element. -/
def popHandle (i : Instr) : Option Nat :=
  let w := copyWord i
  match i with
  | .ccopy _ | .cscat _ => if isHndCode w.sop then some (hndOf w.sop) else none
  | _ => none

/-! ### Issue (R281, R282, R448) -/

/-- HANDLE_STATE of a handle side: unbound, or a byte count that is not a multiple of E (R288, R448). -/
def sideFault (s : State) (h : Option Nat) (bits : Nat) : List FaultInfo :=
  match h with
  | none => []
  | some n =>
    let x := s.vc.st.handle n
    if !x.bound || bits % (8 * entryBytes x.esz.toNat) != 0 then [mkFault 0x1014 0 (BitVec.ofNat 32 n)] else []

/-- The vcore of the same job on core i of this core's cluster (R15, R293). -/
def jobCore (s : State) (i : Nat) : Option Vcore :=
  let n := s.coreId / 8 * 8 + i
  s.vcores.find? fun v => v.onCore n && v.id.node == s.vc.id.node

/-- The first bank of a core-store range that is not addressable as SCRATCH. -/
def firstBadBank (st : Store) (csa n : Nat) : Option Nat :=
  if n = 0 then none
  else ((List.range 32).filter fun b => csa / bankBytes ≤ b && b ≤ (csa + n - 1) / bankBytes).find? fun b => !st.scratchOk b

/-- The checks of CMCAST (R293, R448): job and mask, and the destination's banks on each named core that holds a vcore of the job; the
lower code wins (R408). -/
def mcastChecks (s : State) (w : CWord) (dbase : Word) (n : Nat) : List FaultInfo :=
  let named := (List.range 8).filter fun i => (cMask w).getLsbD i
  let target (m : Nat) : FaultInfo := mkFault 0x1015 0 (BitVec.ofNat 32 m)
  let outside := dbase.toNat < windowBase || windowBase + coreStoreBytes < dbase.toNat + n || 2 ^ 57 ≤ dbase.toNat
  let empty := named.filter fun i => (jobCore s i).isNone
  let banks : List FaultInfo :=
    if outside then []
    else
      (named.findSome? fun i =>
        match jobCore s i with
        | some v => (firstBadBank v.st (dbase.toNat - windowBase) n).map fun b => mkFault 0x1013 0 (BitVec.ofNat 32 (b + 256 * i))
        | none => none).toList
  (if !s.vc.id.gang || outside then [target (cMask w).toNat]
    else if !empty.isEmpty then [target (empty.foldl (fun m i => m + 2 ^ i) 0)] else []) ++ banks

/-- FOLLOW_WORD of CFOLL (R430, R448): the status that the word would raise in the M stream. -/
def followFault (x : BitVec 64) : List FaultInfo :=
  let op := (x.extractLsb' 56 8).toNat
  let bad (st : BitVec 16) : List FaultInfo := [mkFault 0x1016 0 (st.setWidth 32)]
  if op = 0 || 4 < op then bad 0x1001
  else
    match parse (.m x) with
    | none => bad 0x1001
    | some i => match firstIllegal (wordFaults i) with
      | some e => bad e.code.status
      | none => []

/-- Checks of a command beyond its own fields (R448). -/
def copyChecks (s : State) (i : Instr) (c : CopyOp) : List FaultInfo :=
  let w := copyWord i
  let bits := copyBits i c.nest
  let ix : List FaultInfo := match i with
    | .cgath _ | .cscat _ =>
      (handlesOf [cIx w]).flatMap (handleFault s) ++ gatedAt s .c (rowsOf s [cIx w]) ++ rowUeFault s (rowsOf s [cIx w])
      ++ popFaults s (handlesOf [cIx w])
    | _ => []
  let own : List FaultInfo := match i with
    | .cmcast _ => mcastChecks s w c.dbase (bits / 8)
    | .cfoll _ => followFault w.imm
    | .crem _ => if w.imm.toNat % 64 = 0 then [] else [mkFault 0x1010 w.imm]
    | .catom _ =>
      let n := (cFmt w).width / 8
      (if c.dbase.toNat % n ≠ 0 ∨ ((cAcq w || cRel w) && (n != 8 || c.dbase.toNat % 64 != 0)) then [mkFault 0x1010 c.dbase]
        else [])
      ++ (match cRes w with
        | some h => if (s.vc.st.handle h).bound then [] else [mkFault 0x1014 0 (BitVec.ofNat 32 h)]
        | none => [])
    | _ => sideFault s (pushHandle i) bits ++ sideFault s (popHandle i) bits
  ix ++ own

/-- What a command reads at issue (R282, R283, R290 to R296). -/
def copyOf (s : State) (i : Instr) : CopyOp :=
  let w := copyWord i
  let lo := BitVec.ofInt 64 (loopOffset s .c)
  let d := s.kCode w.dop
  let x := s.kCode w.sop
  let (db, sb) : Word × Word := match i with
    | .cfill _ => (d + lo, 0)
    | .cfoll _ => (d + lo, x + lo + 64 * zx (w.aux.extractLsb' 0 10))
    | .crem _ => (d + lo, x + lo)
    | .catom _ => (d + cDOff w + lo, 0)
    | _ => (d + cDOff w + lo, x + cSOff w + lo)
  let nest := s.nest (cNestNo w)
  { i := i, dbase := db, sbase := sb, nest := nest, count := copyCount i nest, index := 0, val := x,
    cmp := s.kCode (w.sop + 1), asyld := s.vc.sC.asyld, done := 0, popped := none, pushing := none, old := [], delivered := [],
    tailDone := false }

/-- The fault of ordinal t of a copy: INFO names it, but for GATE, whose INFO names the gate; a device that could not be reached goes into
HDR (R417, R452, R502). -/
def atOrdinal (t : Nat) (f : FaultInfo) : FaultInfo :=
  if f.status = 0x3003 then f
  else { f with info := BitVec.ofNat 32 t, remote := if f.status.toNat / 2 ^ 12 = 7 then f.info.setWidth 9 else 0 }

/-- A CNEST on nest n is in flight (R285). -/
def nestBusy (s : State) (n : Nat) : Bool :=
  s.vc.st.busy fun o => match o.kind with
    | .copy c => match c.i with
      | .cnest w => w.dop.toNat == n
      | _ => false
    | _ => false

/-- Copy slots in use (R281). -/
def slotsUsed (s : State) : Nat := (s.vc.st.ops.filter fun o => o.kind.isCopy).length

/-- A command before operation id still pops handle h (R298). -/
def popsBefore (s : State) (id h : Nat) : Bool :=
  s.vc.st.busy fun o => decide (o.id < id) && match o.kind with
    | .copy c => popHandle c.i == some h && decide (c.done < c.count)
    | _ => false

/-- A command before operation id still pushes handle h. -/
def pushesBefore (s : State) (id h : Nat) : Bool :=
  s.vc.st.busy fun o => decide (o.id < id) && match o.kind with
    | .copy c => pushHandle c.i == some h && decide (c.done < c.count)
    | _ => false

/-- A command takes a copy slot, or waits for one, for a nest, or for its index entry (R281, R285, R292). -/
def issueCopy (i : Instr) (s : State) : Out :=
  let w := copyWord i
  let c := copyOf s i
  let hasIx := match i with
    | .cgath _ => true
    | .cscat _ => true
    | _ => false
  let named : Option Nat := match i with
    | .cnest _ => some w.dop.toNat
    | _ => if w.nested then some (cNestNo w) else none
  let wait := match named with
    | some n => nestBusy s n
    | none => false
  let full := wait || decide (16 ≤ slotsUsed s)
  issue .c w.cl s (if full then [] else copyChecks s i c) <|
    if full then .stalls s 4 0 0
    else if hasIx then
      match ixRow s (cIx w) with
      | none => .stalls s 1 (BitVec.ofNat 6 (hndOf (cIx w))) 1
      | some r =>
        if isHndCode (cIx w) && popsBefore s s.vc.st.nextId (hndOf (cIx w)) then .stalls s 1 (BitVec.ofNat 6 (hndOf (cIx w))) 1
        else
          let s1 := if isRowCode (cIx w) then (readRow s .c (s.vRow (cIx w).toNat)).2 else ixTake s (cIx w)
          .issued (startOp s1 .c w.cl (.copy { c with index := r.data }))
    else .issued (startOp s .c w.cl (.copy c))

/-- CCOPY (R289). -/
def execCcopy (w : CWord) (s : State) : Out := issueCopy (.ccopy w) s

/-- CMCAST (R293). -/
def execCmcast (w : CWord) (s : State) : Out := issueCopy (.cmcast w) s

/-- CGATH (R292). -/
def execCgath (w : CWord) (s : State) : Out := issueCopy (.cgath w) s

/-- CSCAT (R292). -/
def execCscat (w : CWord) (s : State) : Out := issueCopy (.cscat w) s

/-- CTRANS (R291). -/
def execCtrans (w : CWord) (s : State) : Out := issueCopy (.ctrans w) s

/-- CFILL (R290). -/
def execCfill (w : CWord) (s : State) : Out := issueCopy (.cfill w) s

/-- CFOLL (R294). -/
def execCfoll (w : CWord) (s : State) : Out := issueCopy (.cfoll w) s

/-- CREM (R295). -/
def execCrem (w : CWord) (s : State) : Out := issueCopy (.crem w) s

/-- CATOM (R296). -/
def execCatom (w : CWord) (s : State) : Out := issueCopy (.catom w) s

/-- The limits of a nest descriptor: dwords 6 and 7 zero, product of bounds at most 2^32 (R284, R448): the lowest bad bit. -/
def nestBad (n : Rec64) : Option Nat :=
  let beyond := (List.range 6).find? fun d =>
    decide (2 ^ 32 < prodNat (((List.range (d + 1)).map (nestBound n)).filter (· != 0)))
  match beyond.map (64 * ·), lowBit 128 384 n.toNat with
  | some a, some b => some (min a b)
  | some a, none => some a
  | none, b => b

/-- CNEST (R285): its read is made when it issues, and the nest is written when it completes (log 14). -/
def execCnest (w : CWord) (s : State) : Out :=
  let va := s.kCode w.sop + w.imm
  let checks := if va.toNat % 64 = 0 then [] else [descriptorFault 1 0 va]
  if nestBusy s w.dop.toNat || 16 ≤ slotsUsed s then issue .c w.cl s [] (.stalls s 4 0 0)
  else
    match pieces s s.who accCopyRead va 64 with
    | .error f => issue .c w.cl s checks (.faults (atOrdinal 0 f))
    | .ok ps =>
      if waitMet s .c w.cl && checks.isEmpty && remotePending s ps then .next (noteRemote s .c ps va true)
      else
        issue .c w.cl s checks <|
          match dataFault s va ps with
          | some f => .faults (atOrdinal 0 f)
          | none =>
            let n := BitVec.ofNat 512 (natLE (ps.flatMap (readPieceE s)))
            match nestBad n with
            | some b => .faults (descriptorFault 1 b va)
            | none => .issued (startOp (clearRemote s .c) .c w.cl (.copy { copyOf s (.cnest w) with nest := n, count := 1 }))

/-- CLOOP (R297): it waits for a CNEST on its nest (R285). -/
def execCloop (w : CWord) (s : State) : Out :=
  if nestBusy s w.dop.toNat then issue .c w.cl s [] (.stalls s 4 0 0)
  else issueLoop .c w.cl w.dop.toNat ((w.aux.extractLsb' 0 5).toNat + 1) s

end Sys2Proof.Machine
end

