-- ==== Sys2Proof/Machine/CopyRun.lean ====
section
/-! DEFINITION. The movement of a copy command's elements and the events that end commands (spec/12_copy_instructions.md R283,
R288 to R299; spec/20 R410; spec/22 R474, R475, R482; spec/16 R378, R379). -/

namespace Sys2Proof.Machine

/-! ### Places of elements -/

/-- A bit address: a byte address and a bit within the byte (R65, R283). -/
abbrev BitAddr := Word × Nat

/-- The packed place of ordinal t: elements follow one another. -/
def packedAt (base : Word) (f : Fmt) (t : Nat) : BitAddr := (base + BitVec.ofNat 64 (t * f.width / 8), t * f.width % 8)

/-- The walked place of ordinal t. -/
def walkedAt (base : Word) (nest : Rec64) (t : Nat) : BitAddr := (base + BitVec.ofInt 64 (nestOffset nest t), 0)

/-- idx[t] of CGATH and CSCAT; none for a skip (R292). -/
def copyIndex (c : CopyOp) (t : Nat) : Option Nat :=
  let xw := cXw (copyWord c.i)
  let x := nbits c.index.toNat (xw * t) xw
  if x = 2 ^ xw - 1 then none else some x

/-- Where an element comes from or goes to. -/
inductive Side
  | mem (a : BitAddr)
  | hnd (h : Nat)
  /-- a pattern of CFILL -/
  | pat (x : Nat)
  /-- the core stores of a CMCAST, from a core-store address -/
  | cores (csa : Nat)
  /-- no element: a skip -/
  | skip
  deriving DecidableEq, Repr, Inhabited

/-- (p, r, n) of ordinal t of CTRANS (R291). -/
def transPoint (w : CWord) (t : Nat) : Nat × Nat × Nat := (t / 128 / cRows w, t / 128 % cRows w, t % 128)

/-- from(t) (R283, R289 to R294). -/
def copySrc (c : CopyOp) (t : Nat) : Side :=
  let w := copyWord c.i
  let f := cFmt w
  let walked := w.nested
  match c.i with
  | .cfill _ => .pat (if f = .xa then (w.imm.signExtend 128).toNat else w.imm.toNat % 2 ^ f.width)
  | .ctrans _ =>
    let (p, r, n) := transPoint w t
    let off := if walked then nestOffset c.nest p else 0
    .mem (c.sbase + BitVec.ofInt 64 off + BitVec.ofNat 64 ((128 * r + n) * f.width / 8), 0)
  | .cgath _ => match copyIndex c t with
    | some x => .mem (c.sbase + BitVec.ofNat 64 (x * (f.width / 8)), 0)
    | none => .skip
  | .cmcast _ | .cfoll _ => .mem (walkedAt c.sbase c.nest t)
  | _ =>
    if isHndCode w.sop then .hnd (hndOf w.sop)
    else .mem (if walked && !w.aux.getLsbD 0 then walkedAt c.sbase c.nest t else packedAt c.sbase f t)

/-- dest(t). -/
def copyDst (c : CopyOp) (t : Nat) : Side :=
  let w := copyWord c.i
  let f := cFmt w
  let walked := w.nested
  match c.i with
  | .ctrans _ =>
    let (p, r, n) := transPoint w t
    let off := if walked then nestOffset c.nest p else 0
    .mem (c.dbase + BitVec.ofInt 64 off + BitVec.ofNat 64 ((cRows w * n + r) * f.width / 8), 0)
  | .cscat _ => match copyIndex c t with
    | some x => .mem (c.dbase + BitVec.ofNat 64 (x * (f.width / 8)), 0)
    | none => .skip
  | .cmcast _ => .cores (c.dbase.toNat - windowBase + t * f.width / 8)
  | .cfoll _ => .mem (packedAt c.dbase f t)
  | .cfill _ =>
    if isHndCode w.dop then .hnd (hndOf w.dop)
    else .mem (if walked then walkedAt c.dbase c.nest t else packedAt c.dbase f t)
  | _ =>
    if isHndCode w.dop then .hnd (hndOf w.dop)
    else .mem (if walked && w.aux.getLsbD 0 then walkedAt c.dbase c.nest t else packedAt c.dbase f t)

/-! ### Handle sides as streams of bits (R288) -/

/-- The assay of the lane of an entry at a bit. -/
def entryAssay (f : Fmt) (e : Entry) (pos : Nat) : Nat := laneAssay f e.side.toNat (pos / f.width)

/-- A command that pops and pushes one handle: it takes each entry whole before it pushes its data, so that a full handle does not block
it (R288). -/
def recycles (c : CopyOp) : Bool :=
  match popHandle c.i with
  | some h => pushHandle c.i == some h
  | none => false

/-- The next element of a popped handle: its bits, stored assay and whether they are bad; none while no entry is filled. The place of an
entry is free once its last bit has been read, or, with `whole`, once it is popped (R106, R288). -/
def takeBits (s : State) (h : Nat) (f : Fmt) (cur : Option Popped) (mayPop whole : Bool) :
    Option ((Nat × Nat × Bool) × Option Popped × State) :=
  let eb := 8 * entryBytes (s.vc.st.handle h).esz.toNat
  let freed (t : State) : State := if whole then t else freePlace t h
  let after (p : Popped) (t : State) : Option Popped × State := if eb ≤ p.pos then (none, freed t) else (some p, t)
  let fresh (x0 got : Nat) (asy : Option Nat) (bad : Bool) : Option ((Nat × Nat × Bool) × Option Popped × State) :=
    if !mayPop then none
    else
      match takeEntry s h with
      | none => none
      | some (e, t) =>
        let need := f.width - got
        let t0 := if whole then freePlace t h else t
        let t1 := if got = 0 then t0 else freed t0
        let b := entryBad s h
        some ((x0 + nbits e.data.toNat 0 need * 2 ^ got, asy.getD (entryAssay f e 0), bad || b), after ⟨e, need, b⟩ t1)
  match cur with
  | none => fresh 0 0 none false
  | some p =>
    let left := eb - p.pos
    if f.width ≤ left then
      some ((nbits p.e.data.toNat p.pos f.width, entryAssay f p.e p.pos, p.bad), after { p with pos := p.pos + f.width } s)
    else fresh (nbits p.e.data.toNat p.pos left) left (some (entryAssay f p.e p.pos)) p.bad

/-- An entry completely written: its sideband from the assays and values of the elements that begin in it, in lane order (R94, R97,
R288). -/
def entrySide (f : Fmt) (carried : Bool) (els : List (Nat × Nat)) : Nat :=
  if f.isInt then 0
  else if f.isBlock then
    putAll 0 ((List.range ((els.length + 31) / 32)).map fun b =>
      let mine := (els.drop (32 * b)).take 32
      let same := match mine with
        | a :: t => t.all (fun x => x.1 == a.1)
        | [] => true
      let asy := if carried && same then (mine.headD (0, 0)).1
        else blockAssay f.prec (mine.map fun a => ⟨laneVal f ⟨0, false⟩ 0 0 a.2, a.1, decide (f.prec ≤ a.1)⟩)
      Put.mk (8 * b) 4 asy)
  else
    putAll 0 (els.zipIdx.map fun a =>
      let (lo, wd) := assayPlace f a.2
      Put.mk lo wd a.1.1)

/-- A reserved entry filled. -/
def fillEntry (s : State) (h : Nat) (id : Nat) (data : RowBits) (side : SideBits) : State :=
  let x := s.vc.st.handle h
  setHandle s h { x with entries := x.entries.map fun e => if e.id == id then ⟨id, data, side, true⟩ else e }

/-- An entry reserved; none while no place is free. -/
def reserve (s : State) (h : Nat) : Option (Nat × State) :=
  let x := s.vc.st.handle h
  if x.free = 0 then none
  else
    let id := s.vc.st.nextId
    let s1 := setHandle s h { x with entries := x.entries ++ [⟨id, 0, 0, false⟩], free := x.free - 1 }
    some (id, s1.setStore { s1.vc.st with nextId := id + 1 })

/-- An element pushed: `none` while no place is free. -/
def giveBits (s : State) (h : Nat) (f : Fmt) (carried : Bool) (cur : Option Pushing) (mayPush : Bool) (x asy : Nat) :
    Option (Option Pushing × State) :=
  let eb := 8 * entryBytes (s.vc.st.handle h).esz.toNat
  let settle (p : Pushing) (t : State) : Option Pushing × State :=
    if eb ≤ p.pos then
      (none, fillEntry t h p.id p.data (BitVec.ofNat 4096 (entrySide f carried p.asys)))
    else (some p, t)
  let put (p : Pushing) (v n : Nat) (a : List (Nat × Nat)) : Pushing :=
    { p with data := setNat p.data p.pos n v, pos := p.pos + n, asys := p.asys ++ a }
  let fresh (t : State) (v n : Nat) (a : List (Nat × Nat)) : Option (Option Pushing × State) :=
    if !mayPush then none
    else
      match reserve t h with
      | none => none
      | some (id, t1) => some (settle (put ⟨id, 0, 0, []⟩ v n a) t1)
  match cur with
  | none => fresh s x f.width [(asy, x)]
  | some p =>
    let left := eb - p.pos
    if f.width ≤ left then some (settle (put p x f.width [(asy, x)]) s)
    else
      let (_, t) := settle (put p x left [(asy, x)]) s
      fresh t (x / 2 ^ left) (f.width - left) []

/-! ### Gates (R378, R379, R452) -/

/-- The IPA that stage 1 gives a virtual address. -/
def ipaAt (s : State) (va : Word) : Option Nat :=
  match walk s s.who va with
  | .ok (e, level) =>
    if e.extractLsb' 10 2 = 1 then none
    else some ((e.extractLsb' 16 40).toNat * 2 ^ 16 + va.toNat % 2 ^ levelShift level)
  | .error _ => none

/-- n bytes at an address page by page: the address and length of each part. -/
def pagesAt : Nat → Word → Nat → List (Word × Nat)
  | 0, _, _ => []
  | fuel + 1, va, n =>
    if n = 0 then []
    else
      let m := min n (pageLeft va)
      (va, m) :: pagesAt fuel (va + BitVec.ofNat 64 m) (n - m)

/-- Every part of a range of addresses lies in a range of IPAs. -/
def ipasWithin (s : State) (parts : List (Word × Nat)) (base len : Nat) : Bool :=
  parts.all fun p => match ipaAt s p.1 with
    | some a => decide (base ≤ a) && decide (a + p.2 ≤ base + len)
    | none => false

/-- A copy's destination is memory of the compartment, of this device or another, within a gate's range (R378). -/
def destWithin (s : State) (d : Side) (n : Nat) (g : Gate) : Bool :=
  match d with
  | .mem (a, _) =>
    (match pieces s s.who accCopyWrite a n with
      | .ok ps => ps.all fun p => match p.1 with
        | .home _ _ k _ => k == s.vc.id.comp
        | .remote _ _ k _ => k == s.vc.id.comp
        | _ => false
      | .error _ => false)
    && ipasWithin s (pagesAt 3 a n) g.dipa g.dlen
  | _ => false

/-- The parts of a source that belong to compartment k. -/
def partsOfComp (s : State) (va : Word) (n k : Nat) : List (Word × Nat) :=
  (pagesAt 3 va n).filter fun p => match placeOf s s.who accCopyRead p.1 p.2 none with
    | .error f => f.status == 0x3001 && f.info.toNat == s.vc.id.world + 16 * k
    | .ok _ => false

/-- The gate that lets a copy read all of its source in compartment k into a destination; or the number that GATE reports. -/
def gateFor (s : State) (k : Nat) (va : Word) (d : Side) (n : Nat) : Option Nat × Nat :=
  let parts := partsOfComp s va n k
  let mine (g : Gate) : Bool := g.world == s.vc.id.world && g.srcc == k && g.dstc == s.vc.id.comp
    && ipasWithin s parts g.sipa g.slen
  match s.dev.bedrock.gates.filter mine with
  | [] => (none, 0x3F)
  | g :: gs =>
    match (g :: gs).find? fun x => x.phase == .isOpen && destWithin s d n x with
    | some x => (some x.no, x.no)
    | none => (none, g.no)

/-- The pieces that a copy reads: an element of another compartment needs an open gate (R378, R379). -/
def copyPieces (s : State) (va : Word) (n : Nat) (d : Side) : Except FaultInfo (List Piece) :=
  match pieces s s.who accCopyRead va n with
  | .ok ps => .ok ps
  | .error f =>
    let i := f.info.toNat
    if f.status = 0x3001 ∧ i < 256 ∧ i % 16 = s.vc.id.world ∧ i / 16 ≠ s.vc.id.comp then
      match gateFor s (i / 16) va d n with
      | (some _, _) => piecesOf s s.who accCopyRead (some (i / 16)) 3 va va n
      | (none, g) => .error (mkFault 0x3003 f.addr (BitVec.ofNat 32 g))
    else .error f

/-! ### One element -/

/-- What moving one element came to. -/
inductive Moved
  | moved (s : State) (c : CopyOp)
  | waits (s : State)
  | faulted (f : FaultInfo) (s : State)

/-- Bytes that hold w bits from a bit of the first byte. -/
def bitBytes (b w : Nat) : Nat := (b + w + 7) / 8

/-- The bits of an element in memory. -/
def readBits (s : State) (ps : List Piece) (b w : Nat) : Nat := nbits (natLE (ps.flatMap (readPieceE s))) b w

/-- The bits of an element written in memory; bits of a byte beside it keep their values. -/
def writeBits (s : State) (ps : List Piece) (b w x : Nat) : State :=
  let n := bitBytes b w
  if b = 0 ∧ w % 8 = 0 then writePiecesE s ps (bytesLE n x)
  else writePiecesE s ps (bytesLE n (putAll (natLE (ps.flatMap (readPieceE s))) [⟨b, w, x⟩]))

/-- A write to SCRATCH of the core n, and whether it carries poison into the blocks it touches (R475). -/
def scratchPut (s : State) (n csa : Nat) (bs : List Byte) (bad : Bool) : State :=
  let poison (l : List Nat) : List Nat :=
    if bad then l ++ (blocksOf csa bs.length).filter (fun b => !l.contains b) else l
  s.mapVcores fun v =>
    if v.onCore n then
      { v with st := { v.st with
        scratch := v.st.scratch.putBytes csa bs, marks := { v.st.marks with poison := poison v.st.marks.poison } } }
    else v

/-- Every block of a destination that receives poisoned bytes is poisoned, with the line that holds it (R475). A remote one is poisoned by
the flag of its flit (R474). -/
def poisonPieces (s : State) (ps : List Piece) : State :=
  ps.foldl (fun t p =>
    match p.1 with
    | .home pa _ _ _ => (blocksOf pa p.2).foldl (fun u b => poisonLine (addPoison u b) (blockOf u.devId (b * 256))) t
    | .remote d pa _ _ =>
      let u := (blocksOf pa p.2).foldl (fun u b => poisonLine u (blockOf d (b * 256))) t
      let last := u.dev.links.sent.length - 1
      setLinks u { u.dev.links with sent := u.dev.links.sent.zipIdx.map fun f => if f.2 = last then { f.1 with poisoned := true } else f.1 }
    | .scratch csa =>
      let m := t.vc.st.marks
      t.setMarks { m with poison := m.poison ++ (blocksOf csa p.2).filter fun b => !m.poison.contains b }
    | _ => t) s

/-- A place as a number that tells its bytes from those of every other place (R289). -/
def Place.key : Place → Nat
  | .home pa _ _ _ => pa
  | .scratch csa => 2 ^ 60 + csa
  | .remote d pa _ _ => (d + 1) * 2 ^ 48 + pa
  | _ => 2 ^ 61

/-- The addresses of w bits from a bit of pieces. -/
def bitKeys (ps : List Piece) (b w : Nat) : List Nat :=
  ((ps.flatMap fun p => (List.range p.2).flatMap fun i => (List.range 8).map fun j => 8 * (p.1.key + i) + j).drop b).take w

/-- The source and destination elements of a copy may overlap without lying one over another (R289): their bases, or the strides of its
nest, differ by no whole number of elements. -/
def misfits (c : CopyOp) : Bool :=
  let w := (cFmt (copyWord c.i)).width
  let whole (x : Int) : Bool := decide (8 * x % (w : Int) = 0)
  match c.i with
  | .ccopy x => !isHndCode x.dop && !isHndCode x.sop
      && !(whole ((c.dbase.toNat : Int) - c.sbase.toNat) && whole (2 ^ 16) && (List.range 6).all fun d => whole (nestStride c.nest d))
  | _ => false

/-- The bits that the element held before the command, unless they are what the command wrote as one element (R289). -/
def beforeBits (c : CopyOp) (keys : List Nat) (x : Nat) : Nat :=
  let notes := keys.map fun k => c.old.find? fun e => e.1 == k
  if notes.all Option.isNone || (notes.all fun n => n.any fun e => some e.2.2 == keys.head?) then x
  else bitsOf (notes.zipIdx.map fun n => (n.1.map (·.2.1)).getD (x.testBit n.2))

/-- The bits that an element's write replaces, noted (R289). -/
def noteBits (s : State) (c : CopyOp) (ps : List Piece) (b w : Nat) : CopyOp :=
  if !misfits c then c
  else
    let keys := bitKeys ps b w
    let now := readBits s ps b w
    let mark (k : Nat) (i : Nat) : Nat × Bool × Nat :=
      (k, ((c.old.find? fun e => e.1 == k).map (·.2.1)).getD (now.testBit i), keys.headD 0)
    { c with old := (c.old.filter fun e => !keys.contains e.1) ++ keys.zipIdx.map fun k => mark k.1 k.2 }

/-- A source element: its bits, its assay where it carries one, whether its data is poisoned; the entry being read. -/
structure Elem where
  x : Nat
  asy : Nat
  poisoned : Bool
  popped : Option Popped
  deriving DecidableEq, Repr, Inhabited

/-- The assay of an element read from memory into a handle (R96, R162); an element of a window may lie across two pages of it. -/
def elemAssay (s : State) (c : CopyOp) (f : Fmt) (ps : List Piece) (b x : Nat) : Nat :=
  if f.isInt then 0
  else
    let own := asyLoad c.asyld (laneVal f ⟨0, false⟩ 0 0 x) (laneKept f ⟨0, false⟩ 0 0)
    match ps with
    | (.quarry q o, m) :: rest =>
      let one := match rest with
        | [] => true
        | [(.quarry q' o', _)] => q' == q && o' == o + m
        | _ => false
      if one then ((s.vc.st.slotCfg q).loadAssay f (8 * o + b)).getD own else own
    | _ => own

/-- The source of ordinal t read: waiting, a fault, or the element (R288, R454, R475). -/
def readElem (s : State) (o : EngOp) (c : CopyOp) (d : Side) : Except (Option FaultInfo × State) (Elem × State) :=
  let f := cFmt (copyWord c.i)
  let toHandle := match d with
    | .hnd _ => true
    | _ => false
  match copySrc c c.done with
  | .pat x => .ok (⟨x, if f.isInt then 0 else capOf (laneVal f ⟨0, false⟩ 0 0 x) (laneKept f ⟨0, false⟩ 0 0), false, none⟩, s)
  | .skip => .ok (⟨0, 0, false, none⟩, s)
  | .cores _ => .ok (⟨0, 0, false, none⟩, s)
  | .hnd h =>
    match takeBits s h f c.popped (!popsBefore s o.id h) (recycles c) with
    | none => .error (none, s)
    | some ((x, a, bad), p, t) =>
      if bad && toHandle then .error (some (mkFault 0x4002 0 2), s)
      else .ok (⟨x, a, bad, p⟩, if bad then logEvent (countUe t) 2 0 0 else t)
  | .mem (va, b) =>
    let n := bitBytes b f.width
    match copyPieces s va n d with
    | .error e => .error (some e, s)
    | .ok ps =>
      if remotePending s ps then .error (none, noteRemote s .c ps va true)
      else
        match dataFault s va ps with
        | some e =>
          if toHandle then .error (some e, s)
          else .ok (⟨readBits s ps b f.width, 0, true, none⟩, faultEffects s e)
        | none =>
          let x := if c.old.isEmpty then readBits s ps b f.width else beforeBits c (bitKeys ps b f.width) (readBits s ps b f.width)
          .ok (⟨x, elemAssay s c f ps b x, false, none⟩, correctPieces s ps)

/-- One element moved (R288 to R294, R482). -/
def moveElem (s : State) (o : EngOp) (c : CopyOp) : Moved :=
  let f := cFmt (copyWord c.i)
  let d := copyDst c c.done
  match readElem s o c d with
  | .error (none, t) => .waits t
  | .error (some e, t) => .faulted e t
  | .ok (e, s1) =>
    let c1 := { c with done := c.done + 1, popped := match copySrc c c.done with | .hnd _ => e.popped | _ => c.popped }
    let fromHandle := match copySrc c c.done with
      | .hnd _ => true
      | _ => false
    match d, copySrc c c.done with
    | .skip, _ => .moved s1 c1
    | .mem _, .skip => .moved s1 c1
    | .pat _, _ => .moved s1 c1
    | .mem (va, b), _ =>
      match pieces s1 s1.who accCopyWrite va (bitBytes b f.width) with
      | .error x => .faulted x s
      | .ok ps =>
        let s2 := writeBits s1 ps b f.width e.x
        .moved (if e.poisoned then poisonPieces s2 ps else s2) (noteBits s1 c1 ps b f.width)
    | .hnd h, _ =>
      match giveBits s1 h f fromHandle c.pushing (!pushesBefore s o.id h) e.x e.asy with
      | none => .waits s
      | some (p, s2) => .moved s2 { c1 with pushing := p }
    | .cores csa, _ =>
      let named := (List.range 8).filter fun i => (cMask (copyWord c.i)).getLsbD i
      let s2 := named.foldl (fun t i => scratchPut t (t.coreId / 8 * 8 + i) csa (bytesLE (f.width / 8) e.x) e.poisoned) s1
      .moved s2.setNi c1

/-! ### Progress -/

/-- The command of an operation replaced. -/
def putCopyOp (s : State) (id : Nat) (c : CopyOp) : State :=
  s.setStore { s.vc.st with ops := s.vc.st.ops.map fun o => if o.id == id then { o with kind := .copy c } else o }

/-- Elements moved in ordinal order up to `upTo`, while none waits or faults. -/
def copyRun (o : EngOp) (upTo : Nat) : Nat → State → CopyOp → State × CopyOp × Option FaultInfo
  | 0, s, c => (s, c, none)
  | fuel + 1, s, c =>
    if min upTo c.count ≤ c.done then (s, c, none)
    else
      match moveElem s o c with
      | .waits t => (t, c, none)
      | .faulted f t => (t, c, some f)
      | .moved t c1 => copyRun o upTo fuel (putCopyOp t o.id c1) c1

/-- CATOM (R296): it waits for a place for its result, and for locked lines; the atomic is performed at its home. -/
def catomRun (s : State) (o : EngOp) (c : CopyOp) : State × CopyOp × Option FaultInfo :=
  let w := copyWord c.i
  let f := cFmt w
  let n := f.width / 8
  let va := c.dbase
  let acc : Acc := ⟨true, true, false, true, false, true, false⟩
  match atomicPlace s acc va n with
  | .error e => (s, c, some e)
  | .ok p =>
    let room := match cRes w with
      | some h => (s.vc.st.handle h).free != 0 && !pushesBefore s o.id h
      | none => true
    if remotePending s [(p, n)] then (noteRemote s .c [(p, n)] va false, c, none)
    else if !room then (s, c, none)
    else
      let s1 := homeAccess (if cRel w || cAcq w then releaseActions s va else s) p
      if ((cRel w || cAcq w) && someLocked s1 (boundTo s1 va)) || someLocked s1 (fun l => l.block == placeBlock s1 p) then (s1, c, none)
      else
        let (old, s2) := homeLoad s1 p n
        let s3 := match amoNew (cOp w) (!f.isSigned) n old (c.val.toNat % 2 ^ (8 * n)) (c.cmp.toNat % 2 ^ (8 * n)) with
          | some v => homeStore s2 p n v
          | none => s2
        let s4 := if cAcq w then acquireActions s3 va else s3
        let out := BitVec.ofInt 64 (decodeI f old)
        let s5 := match cRes w with
          | some h => pushEntry s4 h (out.setWidth 16384) 0
          | none => s4
        let c1 := { c with done := 1, tailDone := true }
        (putCopyOp s5.setNi o.id c1, c1, none)

/-- A command's elements, or its one act (R285, R296). -/
def copyStep (o : EngOp) (upTo : Nat) (s : State) (c : CopyOp) : State × CopyOp × Option FaultInfo :=
  match c.i with
  | .cnest w =>
    let c1 := { c with done := 1, tailDone := true }
    let i := w.dop.toNat
    let s1 := if h : i < 8 then s.setRegs { s.vc.regs with n := s.vc.regs.n.set i c.nest } else s
    (putCopyOp s1 o.id c1, c1, none)
  | .catom _ => if c.done = 0 then catomRun s o c else (s, c, none)
  | _ => copyRun o upTo (min upTo c.count - c.done) s c

/-- Whether what follows a command's elements has been done (R293 to R295, R299). -/
def tailReady (c : CopyOp) : Bool :=
  match c.i with
  | .cmcast w => (List.range 8).all fun i => !(cMask w).getLsbD i || c.delivered.contains i
  | .cfoll _ | .crem _ => c.tailDone
  | _ => true

/-- The copy command of a number on the core in focus, unless it has faulted. -/
def copyAt (s : State) (id : Nat) : Option (EngOp × CopyOp) :=
  match s.op? id with
  | some o =>
    match o.kind with
    | .copy c => if o.stopped then none else some (o, c)
    | _ => none
  | none => none

/-- An event of a copy command: its elements as far as `upTo`, then `k` where it has moved them all. -/
def copyEvent (core id upTo : Nat) (s : State) (k : State → EngOp → CopyOp → State) : Out :=
  match s.focusCore core with
  | none => .next s
  | some s1 =>
    match copyAt s1 id with
    | none => .next s1
    | some (o, c) =>
      match copyStep o upTo s1 c with
      | (s2, c2, some f) => .next (faultOpAs s2 o f (atOrdinal c2.done f))
      | (s2, c2, none) => .next (if c2.count ≤ c2.done then k s2 o c2 else s2)

/-- The rest of the entry that a command read last is not read: its place is free at the command's end (R288). -/
def dropPopped (s : State) (c : CopyOp) : State :=
  match c.popped, copySrc c (c.count - 1) with
  | some _, .hnd h => if recycles c then s else freePlace s h
  | _, _ => s

/-- COPY_COMMAND_COMPLETE (R299): with `upTo` below the command's count it is progress only (R410; log 14). -/
def execCopyCommandComplete (core op upTo : Nat) (s : State) : Out :=
  copyEvent core op upTo s fun t o c => if tailReady c then endOp (clearRemote (dropPopped t c) .c) o else t

/-- m[I] of another vcore incremented by the signal of a CMCAST (R293, R438): the state, and whether it was in range. -/
def signalCore (s : State) (core : Nat) (m : BitVec 6) : State × Bool :=
  match s.vcores.find? fun v => v.onCore core with
  | none => (s, true)
  | some v =>
    match semAdd (v.regs.m.get m.toFin) 1 with
    | none => (s, false)
    | some x =>
      (s.mapVcores fun u => if u.onCore core then { u with regs := { u.regs with m := u.regs.m.set m.toFin x } } else u, true)

/-- CMCAST_DELIVERY (R293): once every element is in the core store of a named core, its semaphore is incremented; out of range,
the issuing C stream reports it after the delivery (R438). -/
def execCmcastDelivery (core op target : Nat) (s : State) : Out :=
  copyEvent core op (2 ^ 64) s fun t o c =>
    match c.i with
    | .cmcast w =>
      if !(cMask w).getLsbD target || c.delivered.contains target || 8 ≤ target then t
      else
        let (t1, ok) := signalCore t (t.coreId / 8 * 8 + target) (cSem w)
        let t2 := (putCopyOp t1 o.id { c with delivered := c.delivered ++ [target] }).setNi
        if ok then t2
        else
          let p := opPoint t2 o true
          takeFault t2 .c p (mkFault 0x100E 0 (BitVec.ofNat 32 ((cSem w).toNat + 2 ^ 8 + 2 ^ 16 * target)))
    | _ => t

/-- CFOLL_DELIVERY (R294): the word enters the follow-on queue, which holds 8. -/
def execCfollDelivery (core op : Nat) (s : State) : Out :=
  copyEvent core op (2 ^ 64) s fun t o c =>
    match c.i with
    | .cfoll w =>
      if c.tailDone || 8 ≤ t.vc.st.follow.length then t
      else
        let t1 := t.setStore { t.vc.st with follow := t.vc.st.follow ++ [⟨w.imm, o.pc⟩] }
        putCopyOp t1 o.id { c with tailDone := true }
    | _ => t

/-- CREM_COMPLETION_WORD (R130, R134, R295, R482): a release on the word, with the release actions, and an atomic increment at the home;
its fault carries the element count as ordinal. -/
def execCremCompletionWord (core op : Nat) (s : State) : Out :=
  copyEvent core op (2 ^ 64) s fun t o c =>
    match c.i with
    | .crem w =>
      if c.tailDone then t
      else
        let acc : Acc := ⟨true, true, false, true, false, true, false⟩
        match atomicPlace t acc w.imm 8 with
        | .error f => faultOpAs t o f (atOrdinal c.count f)
        | .ok p =>
          if remotePending t [(p, 8)] then noteRemote t .c [(p, 8)] w.imm false
          else
            let t1 := homeAccess (releaseActions t w.imm) p
            if someLocked t1 (boundTo t1 w.imm) || someLocked t1 (fun l => l.block == placeBlock t1 p) then t1
            else
              let (old, t2) := homeLoad t1 p 8
              putCopyOp (homeStore t2 p 8 ((old + 1) % 2 ^ 64)).setNi o.id { c with tailDone := true }
    | _ => t

end Sys2Proof.Machine
end

