-- ==== Sys2Proof/Machine/Image.lean ====
section
/-! DEFINITION. The save area of a vcore and its restoration (spec/13 R320, R321; spec/04 R101; spec/07 R166; spec/09 R224), the
snapshot of a commit and the return to it (spec/02 R42, R55, R56; spec/20 R425). -/

namespace Sys2Proof.Machine

/-! ### The save area -/

/-- Bytes of the save area (R320). -/
def imageSize : Nat := 0x400000

/-- A field of the save area: offset, bytes, value. -/
abbrev ImgField := Nat × Nat × Nat

/-- The values of a list as fields of n bytes, one after another. -/
def imgList (off n : Nat) (l : List Nat) : List ImgField := l.zipIdx.map fun x => (off + n * x.2, n, x.1)

/-- SLABST as the save area holds it (R321). -/
def storeSlabst (st : Store) : Nat := (slabst st).toNat % 2 ^ 16

/-- The header (R321). -/
def imgHeader (v : Vcore) : List ImgField :=
  [(0x00, 8, 1), (0x08, 8, v.id.ctx.toNat), (0x10, 8, v.sS.pc.toNat), (0x18, 8, v.sV.pc.toNat), (0x20, 8, v.sM.pc.toNat),
    (0x28, 8, v.sC.pc.toNat), (0x30, 1, bitsOf [v.sS.halted, v.sV.halted, v.sM.halted, v.sC.halted]),
    (0x38, 8, v.st.bkmode.toNat), (0x40, 2, storeSlabst v.st), (0x48, 2, v.st.bindings.length),
    (0x50, 1, if v.regs.yieldack then 1 else 0)]

/-- The registers (R320). -/
def imgRegs (v : Vcore) : List ImgField :=
  let r := v.regs
  imgList 0x100 8 ((r.s.toList.map (·.toNat)).set 0 0)
  ++ imgList 0x300 8 (r.f.toList.map (·.v.toNat))
  ++ imgList 0x400 1 (r.f.toList.map (·.asy.toNat))
  ++ [(0x420, 1, bitsOf r.c.toList)]
  ++ imgList 0x440 8 (r.b.toList.map (·.toNat))
  ++ imgList 0x480 8 (r.k.toList.map (·.toNat))
  ++ imgList 0x500 2 (r.m.toList.map (·.toNat))
  ++ imgList 0x580 8 (r.a.toList.map (·.toNat))
  ++ imgList 0x600 64 (r.n.toList.map (·.toNat))
  ++ imgList 0x800 512 (r.p.toList.map (·.toNat))

/-- The per-stream registers (R309, R320). -/
def imgStreams (v : Vcore) : List ImgField :=
  [StreamId.s, .v, .m, .c].flatMap fun x =>
    imgList (0x2800 + 256 * x.code) 8 ((List.range 32).map fun a => (streamCsr v x a).toNat)

/-- Shadow stack, slots, bindings and handles (R320). -/
def imgTables (v : Vcore) : List ImgField :=
  imgList 0x2C00 8 (v.regs.shadow.reverse.map (·.toNat))
  ++ [(0x2E00, 8, v.regs.shadow.length)]
  ++ imgList 0x3000 64 (v.st.q.toList.map (·.active.desc.toNat))
  ++ imgList 0x3400 24 (v.st.bindings.map fun b => b.obj.toNat + b.base.toNat * 2 ^ 64 + b.len.toNat * 2 ^ 128)
  ++ imgList 0x4C00 4 (v.st.h.toList.map (·.hst.toNat))
  ++ imgList 0x5000 1024 (v.st.q.toList.map (·.active.theta.toNat))

/-- The slab rows; those of a GATED cluster are zero (R320). -/
def imgRows (v : Vcore) : List ImgField :=
  imgList 0x10000 2560 (v.st.rows.toList.zipIdx.map fun x =>
    if (v.st.cluster (clusterOf x.2)).power = .gated then 0 else x.1.data.toNat + x.1.side.toNat * 2 ^ 16384)

/-- The cells of the SCRATCH banks (R320). -/
def scratchCells (st : Store) : Memory := st.scratch.filter fun c => st.bankMode (c.1 / bankBytes) == 2

/-- The save area of a vcore by offset; bytes that no field names are zero. -/
def imageOf (v : Vcore) : Memory :=
  let fs := imgHeader v ++ imgRegs v ++ imgStreams v ++ imgTables v ++ imgRows v
  let m : Memory := fs.foldl (fun (m : Memory) f => m.store f.1 f.2.1 f.2.2) []
  (scratchCells v.st).foldl (fun (m : Memory) c => m.write (0x100000 + c.1) c.2) m

/-- The cells of a memory in [a, a + n), moved so that a becomes b. -/
def cellsFrom (m : Memory) (a n b : Nat) : Memory := (m.filter fun c => decide (a ≤ c.1) && decide (c.1 < a + n)).map fun c => (c.1 - a + b, c.2)

/-- The offset of SCRATCH in an image (R320). -/
def imageScratch : Nat := 0x100000

/-- The blocks of a vcore's core store that hold bad data: poisoned ones, and those with an uncorrectable error (R471, R474). -/
def badBlocks (v : Vcore) : List Nat :=
  let m := v.st.marks
  m.poison ++ ((m.flips.map (· / 2048)).eraseDups.filter fun b => (m.flips.block b).bad 1 coreWord)

/-- An image written piece by piece, from offset `off` on, at the homes of the pieces; the poison of its blocks goes with it (R474), and
what the device alone writes stays (R5). -/
def writeImage (s : State) (img : Memory) (poison : List Nat) : Nat → List Piece → State
  | _, [] => s
  | off, p :: ps =>
    let cells := img.filter fun c => decide (off ≤ c.1) && decide (c.1 < off + p.2)
    let s1 := match p.1 with
      | .home pa _ _ _ =>
        let carried := (poison.filter fun y => decide (off ≤ imageScratch + 256 * y) && decide (imageScratch + 256 * y < off + p.2)).map
          fun y => (pa + (imageScratch + 256 * y - off)) / 256
        let s0 := softWrite s pa (List.replicate p.2 0)
        let put (m : Memory) (c : Host.Cell) : Memory :=
          if s.deviceOnly (pa + (c.1 - off)) then m else m.write (pa + (c.1 - off)) c.2
        carried.foldl addPoison { s0 with mem := cells.foldl put s0.mem }
      | .remote dev pa _ pr => remoteWrite s dev pa pr (img.bytes off p.2)
          (poison.any fun y => decide (off ≤ imageScratch + 256 * y) && decide (imageScratch + 256 * y < off + p.2))
      | .scratch csa => scratchWrite s csa (img.bytes off p.2)
      | _ => s
    writeImage s1 img poison (off + p.2) ps

/-- The image that the pieces hold. -/
def readImage (s : State) : Nat → List Piece → Memory
  | _, [] => []
  | off, p :: ps =>
    let here := match p.1 with
      | .home pa _ _ _ => cellsFrom s.mem pa p.2 off
      | .remote dev pa _ _ => Memory.putBytes [] off (Config.remoteRead dev pa p.2 s.steps)
      | .scratch csa => cellsFrom s.vc.st.scratch csa p.2 off
      | _ => []
    here ++ readImage s (off + p.2) ps

/-! ### Restoring -/

/-- A vector from its image: n bytes for each element. -/
def imgVec {α : Type} (k : Nat) (img : Memory) (off n : Nat) (f : Nat → α) : Vector α k :=
  Vector.ofFn fun i => f (img.load (off + n * i.val) n)

/-- The registers that an image holds; the others stay, BKLOCK, YSTAT and S1ROOT among them, for which the save area has no place (DESIGN
CHOICE, log 36). -/
def restoreRegs (img : Memory) (r : Regs) : Regs :=
  let csr (x a : Nat) : Nat := img.load (0x2800 + 256 * x + 8 * a) 8
  { r with
    s := (imgVec 64 img 0x100 8 (BitVec.ofNat 64)).set 0 0
    f := Vector.ofFn fun i => ⟨BitVec.ofNat 64 (img.load (0x300 + 8 * i.val) 8), BitVec.ofNat 7 (img.load (0x400 + i.val) 1)⟩
    c := Vector.ofFn fun i => (img.load 0x420 1).testBit i.val
    b := imgVec 8 img 0x440 8 (BitVec.ofNat 64)
    k := imgVec 16 img 0x480 8 (BitVec.ofNat 64)
    m := imgVec 64 img 0x500 2 (BitVec.ofNat 16)
    a := imgVec 16 img 0x580 8 (BitVec.ofNat 64)
    n := imgVec 8 img 0x600 64 (BitVec.ofNat 512)
    p := imgVec 16 img 0x800 512 (BitVec.ofNat 4096)
    sstk := BitVec.ofNat 64 (csr 0 5) &&& ~~~7
    sscnt := BitVec.ofNat 32 (csr 0 6)
    vwb := BitVec.ofNat 3 (csr 1 8 / 32)
    rb := BitVec.ofNat 5 (csr 1 9)
    pb := BitVec.ofNat 3 (csr 1 9 / 256)
    mxcOvf := BitVec.ofNat 32 (csr 2 12)
    mxcNan := BitVec.ofNat 32 (csr 2 13)
    mxcSat := BitVec.ofNat 32 (csr 2 14)
    shadow := ((List.range (min 64 (img.load 0x2E00 8))).map fun i => BitVec.ofNat 64 (img.load (0x2C00 + 8 * i) 8)).reverse
    yieldack := (img.load 0x50 1).testBit 0 }

/-- A stream that an image holds: where it resumes, whether it is halted, its own registers. -/
def restoreStream (img : Memory) (x : Nat) (st : Stream) : Stream :=
  let csr (a : Nat) : Nat := img.load (0x2800 + 256 * x + 8 * a) 8
  { st with
    pc := BitVec.ofNat 64 (img.load (0x10 + 8 * x) 8)
    halted := (img.load 0x30 1).testBit x
    fflags := BitVec.ofNat 7 (csr 0)
    fctl := BitVec.ofNat 64 (csr 1) &&& 0xFFFFFFFF000000F7
    asyld := BitVec.ofNat 8 (csr 2)
    asyth := BitVec.ofNat 7 (csr 3)
    asyte := BitVec.ofNat 2 (csr 4) }

/-- A handle from its HST image: no entry, every place free. -/
def restoreHandle (x : Nat) : Handle :=
  if x.testBit 31 then
    let esz := nbits x 23 3
    ⟨true, BitVec.ofNat 5 (nbits x 26 5), BitVec.ofNat 3 esz, [], bankBytes / entryBytes esz⟩
  else handleOff

/-- A row cluster from its SLABST code. -/
def restoreCluster (x : Nat) : Cluster := ⟨if x = 0 then .powered else if x = 1 then .retained else .gated, false⟩

/-- The core's storage that an image holds; the cache and what is in flight stay. Both latch banks are empty (R263, R319), and
no error of the old contents is left. -/
def restoreStore (img : Memory) (st : Store) : Store :=
  let modes := BitVec.ofNat 64 (img.load 0x38 8)
  { st with
    rows := Vector.ofFn fun i =>
      ⟨BitVec.ofNat 16384 (img.load (0x10000 + 2560 * i.val) 2048), BitVec.ofNat 4096 (img.load (0x10000 + 2560 * i.val + 2048) 512)⟩
    marks := ⟨[], [], []⟩
    clusters := Vector.ofFn fun i => restoreCluster (nbits (img.load 0x40 2) (2 * i.val) 2)
    bkmode := modes
    scratch := ((cellsFrom img 0x100000 coreStoreBytes 0).filter fun c => nbits modes.toNat (2 * (c.1 / bankBytes)) 2 == 2).foldl
      (fun (m : Memory) c => m.write c.1 c.2) []
    h := imgVec 16 img 0x4C00 4 restoreHandle
    q := Vector.ofFn fun i =>
      { st.q.get i with active :=
          ⟨BitVec.ofNat 512 (img.load (0x3000 + 64 * i.val) 64), BitVec.ofNat 8192 (img.load (0x5000 + 1024 * i.val) 1024)⟩ }
    bindings := (List.range (min 256 (img.load 0x48 2))).map fun i =>
      ⟨BitVec.ofNat 64 (img.load (0x3400 + 24 * i) 8), BitVec.ofNat 64 (img.load (0x3408 + 24 * i) 8),
        BitVec.ofNat 64 (img.load (0x3410 + 24 * i) 8)⟩
    latch0 := .empty
    latch1 := .empty
    nextBank := false
    chain := none }

/-- A vcore with the state of an image. -/
def restoreVcore (img : Memory) (v : Vcore) : Vcore :=
  { v with
    regs := restoreRegs img v.regs
    sS := restoreStream img 0 v.sS
    sV := restoreStream img 1 v.sV
    sM := restoreStream img 2 v.sM
    sC := restoreStream img 3 v.sC
    st := restoreStore img v.st }

/-- The header bytes that R321 does not name. -/
def headerGaps : List Nat :=
  (List.range 256).filter fun b =>
    !(b < 0x31 || (0x38 ≤ b && b < 0x42) || (0x48 ≤ b && b < 0x4A) || b == 0x50)

/-- The check of a header by CTXRST (R449): the lowest offending bit. -/
def headerFault (img : Memory) (ctx : BitVec 16) : Option Nat :=
  if img.load 0 8 ≠ 1 then some 0
  else if img.load 8 8 ≠ ctx.toNat then some 64
  else
    match headerGaps.find? fun b => img.read b != 0 with
    | some b => some (8 * b + (lowBit 8 0 (img.read b).toNat).getD 0)
    | none => none

/-- Bytes of the save area that R320 does not name. -/
def imageGap (a : Nat) : Bool :=
  (decide (0x421 ≤ a) && decide (a < 0x440)) || (decide (0x2E08 ≤ a) && decide (a < 0x3000)) || (decide (0x4C40 ≤ a) && decide (a < 0x5000))
  || (decide (0x9000 ≤ a) && decide (a < 0x10000)) || (decide (0xB0000 ≤ a) && decide (a < 0x100000))

/-- What keeps a save area from being used: the kind of DESCRIPTOR and its bit (R8, R428, R449). Beyond the header, the spec names neither
kind nor order: a slot, nest or slab image reports as the descriptor that it is, any other byte as the header does, in the order of the
kinds (DESIGN CHOICE, log 35). Reserved bits of control-register images are ignored, as writes to them are (R8). -/
def imageBad (img : Memory) (ctx : BitVec 16) : Option (Nat × Nat) :=
  match headerFault img ctx with
  | some b => some (5, b)
  | none =>
    let slot := (List.range 16).findSome? fun i => slotFault (BitVec.ofNat 512 (img.load (0x3000 + 64 * i) 64))
    let nest := (List.range 8).findSome? fun i => nestBad (BitVec.ofNat 512 (img.load (0x600 + 64 * i) 64))
    let slab := (List.range 16).findSome? fun i => operandBad (BitVec.ofNat 64 (img.load (0x580 + 8 * i) 8)) 0xFFFFFFFF00000000
    match slot, nest, slab, img.find? fun c => imageGap c.1 && c.2 != 0 with
    | some b, _, _, _ => some (0, b)
    | none, some b, _, _ => some (1, b)
    | none, none, some b, _ => some (2, b)
    | none, none, none, some c => some (5, 8 * c.1 + (lowBit 8 0 c.2.toNat).getD 0)
    | none, none, none, none => none

/-! ### Commit and cutback -/

/-- Register reset of a superstep's end: what R42 does not carry (slab descriptors, semaphores, nests, the locks of bank modes). -/
def uncarried (r : Regs) : Regs := { r with m := .replicate 64 0, a := .replicate 16 0, n := .replicate 8 0, bklock := 0 }

/-- A stream after a commit: CMDIX counts from it (R411). -/
def freshIndex (x : Stream) : Stream := { x with cmdix := 0, point := none, loop := none, part := none, wait := waitNone }

/-- The snapshot of a vcore taken (R55): non-idempotent operations before it count no longer (R58). -/
def takeSnapshot (v : Vcore) : Vcore :=
  let w := { v with sS := freshIndex v.sS, sV := freshIndex v.sV, sM := freshIndex v.sM, sC := freshIndex v.sC, ni := false }
  { w with snap := ⟨w.regs, w.st.q.map (·.active), w.sS, w.sV, w.sM, w.sC⟩ }

/-- A stream returned to the snapshot: sticky flags are ORed (R56, R425). -/
def cutStream (snap now : Stream) : Stream :=
  { snap with fflags := snap.fflags ||| now.fflags, asyte := snap.asyte ||| (now.asyte &&& 2) }

/-- The registers returned to the snapshot; nests and slab descriptors take their values from R33, and what is not carried state
stays (R56, R425). -/
def cutRegs (snap now : Regs) : Regs :=
  { snap with
    a := .replicate 16 0
    n := .replicate 8 0
    bklock := now.bklock
    ystat := now.ystat
    yieldack := false
    s1root := now.s1root }

/-- The core's storage after a cutback or at the start of a superstep: as R33, with the slot configurations, the binding table
(R129) and lines that could not leave. -/
def cutStore (banks : Word) (q : Vector SlotCfg 16) (st : Store) : Store :=
  { storeInit banks with
    q := q.map fun c => ⟨c, none⟩
    bindings := st.bindings
    cache := st.cache
    nextId := st.nextId }

/-- Cutback of a vcore to its last commit (R56). -/
def cutVcore (v : Vcore) : Vcore :=
  { v with
    regs := cutRegs v.snap.regs v.regs
    sS := cutStream v.snap.sS v.sS
    sV := cutStream v.snap.sV v.sV
    sM := cutStream v.snap.sM v.sM
    sC := cutStream v.snap.sC v.sC
    delay := none
    st := cutStore v.id.bankCfg v.snap.q v.st
    ni := false
    cutbackDue := false
    ended := false }

/-- A vcore at the start of its next superstep (R38, R42), before its snapshot. -/
def nextSuperstep (v : Vcore) : Vcore :=
  { v with
    regs := uncarried v.regs
    st := cutStore v.id.bankCfg (v.st.q.map (·.active)) v.st
    superstep := v.superstep + 1
    ended := false }

end Sys2Proof.Machine
end

