-- ==== Sys2Proof/Machine/Regions.lean ====
section
/-! DEFINITION. The region tree (spec/02 R50 to R53; spec/14 R326, R333, R340; spec/17 R392, R515), partitions (spec/01 R25), queue
descriptors (spec/14 R324, R325) and the accesses that the scheduler makes to memory (spec/23 R488). -/

namespace Sys2Proof.Machine

/-! ### RCB fields (R333) -/

def rcbPrio (b : Rec64) : Nat := nbits b.toNat 0 5
def rcbWeight (b : Rec64) : Nat := nbits b.toNat 8 8
def rcbTokens (b : Rec64) : Nat := nbits b.toNat 16 16
def rcbFdom (b : Rec64) : Nat := nbits b.toNat 32 12
def rcbEnergy (b : Rec64) : Nat := nbits b.toNat 64 32
def rcbIpeak (b : Rec64) : Nat := nbits b.toNat 96 32

/-- An RCB with a reserved field or value (R333, R487). -/
def rcbBad (b : Rec64) : Bool :=
  let x := b.toNat
  let share (lo : Nat) : Bool := decide (256 < nbits x lo 9) && decide (nbits x lo 9 < 0x1FF)
  x >>> 169 != 0 || nbits x 153 7 != 0 || nbits x 137 7 != 0 || nbits x 44 20 != 0 || nbits x 5 3 != 0
  || (decide (16 ≤ rcbPrio b) && decide (rcbPrio b < 31)) || share 128 || share 144 || share 160

/-! ### Partitions -/

/-- The partitions of a layout code (R392). -/
def layoutParts (code : Nat) : List (List Nat) :=
  match code with
  | 0 => [[0, 1, 2, 3]]
  | 1 => [[0, 1], [2, 3]]
  | 2 => [[0, 1], [2], [3]]
  | 3 => [[0], [1], [2, 3]]
  | _ => [[0], [1], [2], [3]]

/-- The partitions in force. -/
def State.partitions (s : State) : List (List Nat) := layoutParts s.dev.host.applied.toNat

/-- The number of the partition in force that holds a quarter. -/
def State.partOf (s : State) (quarter : Nat) : Nat := (s.partitions.findIdx? fun l => l.contains quarter).getD 0

/-- The partition of a world (R326). -/
def State.worldPart (s : State) (w : Nat) : Nat := s.partOf (s.world w).quarter

/-- A core that is present (R27). -/
def State.present (s : State) (core : Nat) : Bool := (s.dev.host.cpres.toList.getD (chipOf core) 0).getLsbD (core % 32)

def State.chip (s : State) (c : Nat) : Chip := s.dev.power.chips.toList.getD c ⟨false, false, false, false, 10, 0, 0, none, none⟩

def setChip (s : State) (c : Nat) (x : Chip) : State :=
  if h : c < 8 then { s with dev := { s.dev with power := { s.dev.power with chips := s.dev.power.chips.set c x } } } else s

/-- The quarters of a partition. -/
def State.partQuarters (s : State) (p : Nat) : List Nat := s.partitions.getD p []

/-! ### Regions -/

/-- The regions of the tree. -/
inductive RegionId
  | root
  | part (i : Nat)
  | world (w : Nat)
  | job (q : Nat)
  | node (key : Nat)
  deriving DecidableEq, Repr, Inhabited

/-- The level of a region, from 0 at the root (R487). -/
def RegionId.level : RegionId → Nat
  | .root => 0
  | .part _ => 1
  | .world _ => 2
  | .job _ => 3
  | .node _ => 4

def State.queue (s : State) (q : Nat) : Queue := s.dev.sched.queues.getD q queueOff

def setQueue (s : State) (q : Nat) (x : Queue) : State :=
  { s with dev := { s.dev with sched := { s.dev.sched with queues := s.dev.sched.queues.set q x } } }

def getRegion (s : State) (r : RegionId) : Region :=
  match r with
  | .root => s.dev.sched.root
  | .part i => s.dev.sched.parts.getD i (regionOf rcbInherit)
  | .world w => (s.world w).region
  | .job q => (s.queue q).region
  | .node k => match s.node? k with
    | some n => n.region
    | none => regionOf rcbInherit

def setRegion (s : State) (r : RegionId) (x : Region) : State :=
  match r with
  | .root => { s with dev := { s.dev with sched := { s.dev.sched with root := x } } }
  | .part i => { s with dev := { s.dev with sched := { s.dev.sched with parts := s.dev.sched.parts.set i x } } }
  | .world w => setWorld s w { s.world w with region := x }
  | .job q => setQueue s q { s.queue q with region := x }
  | .node k => match s.node? k with
    | some n => s.setNode { n with region := x }
    | none => s

/-- The path of a world's region to the root (R326). -/
def worldPath (s : State) (w : Nat) : List RegionId := [.world w, .part (s.worldPart w), .root]

/-- The path of a queue's job region under a world. -/
def jobPath (s : State) (q w : Nat) : List RegionId := .job q :: worldPath s w

/-- The path of a node's region. -/
def nodePath (s : State) (n : Node) : List RegionId := .node n.key :: jobPath s n.queue n.world

def regionsOf (s : State) (p : List RegionId) : List Region := p.map (getRegion s)

/-- The nearest value that is not the inherit value (R51). -/
def effective (f : Rec64 → Nat) (inherit : Nat) (l : List Region) : Nat :=
  match l with
  | [] => inherit
  | r :: rs => if f r.bits = inherit then effective f inherit rs else f r.bits

/-- Effective priority: clamped to the parent's (R50). -/
def effPrio : List Region → Nat
  | [] => 15
  | r :: rs => if rcbPrio r.bits = 31 then effPrio rs else min (rcbPrio r.bits) (effPrio rs)

def effWeight (l : List Region) : Nat := effective rcbWeight 0 l
def effFdom (l : List Region) : BitVec 12 := BitVec.ofNat 12 (effective rcbFdom 0xFFF l)

/-- A region's budgets at the start of a tick (R52, R322, R340). -/
def refill (s : State) (path : List RegionId) : State :=
  match path with
  | [] => s
  | id :: rest =>
    let l := regionsOf s (id :: rest)
    let r := getRegion s id
    let t := rcbTokens r.bits
    setRegion s id { r with
      tokens := if t = 0xFFFF then 0 else min (16 * t) (r.tokens + t)
      eLeft := effective rcbEnergy 0xFFFFFFFF l
      iLeft := effective rcbIpeak 0xFFFFFFFF l }

/-- The region whose bucket gives a node's tokens (R50). -/
def tokenRegion (s : State) (path : List RegionId) : Option RegionId :=
  path.find? fun id => rcbTokens (getRegion s id).bits != 0xFFFF

/-- A charge against every region of a path (R52). -/
def charge (s : State) (path : List RegionId) (e i : Int) : State :=
  path.foldl (fun t id => setRegion t id { getRegion t id with eLeft := (getRegion t id).eLeft - e, iLeft := (getRegion t id).iLeft - i }) s

/-- Whether a charge fits every region of a path. -/
def fits (s : State) (path : List RegionId) (e i : Int) : Bool :=
  path.all fun id => decide (e ≤ (getRegion s id).eLeft) && decide (i ≤ (getRegion s id).iLeft)

/-! ### Accesses of the scheduler -/

/-- The registration of a context in a world (R365, R370). -/
def State.ctxOf (s : State) (world : Nat) (ctx : BitVec 16) : Option Ctx :=
  s.dev.bedrock.ctxs.find? fun c => c.world == world && c.ctx == ctx

/-- Under whose tables the scheduler and the fault-queue unit read and write records (R325, R420). -/
def ctxWho (c : Ctx) : Who := ⟨c.world, c.ctx, c.comp, c.root, false, none⟩

/-- The data checks of pieces at their homes. -/
def homePiecesFault (s : State) (va : Word) (ps : List Piece) : Option FaultInfo :=
  firstFault (ps.flatMap fun p => match p.1 with
    | .home pa _ _ _ => (List.range (p.2 / 256 + 2)).filterMap fun i =>
        let b := pa / 256 + i
        if b * 256 < pa + p.2 then homeDataFault s (b * 256) va 0 else none
    | .remote d pa _ _ => (blocksOf pa p.2).filterMap fun b => blockFault s va (.remote d pa 0 0) b (b * 256) (b * 256 + 256)
    | _ => [])

/-- Bytes read at the homes of pieces. -/
def homeBytes (s : State) : List Piece → List Byte
  | [] => []
  | p :: ps =>
    (match p.1 with
    | .home pa _ _ _ => s.mem.bytes pa p.2
    | .remote dev pa _ _ => Config.remoteRead dev pa p.2 s.steps
    | _ => List.replicate p.2 0) ++ homeBytes s ps

/-- Bytes written at the homes of pieces. -/
def homePut (s : State) : List Piece → List Byte → State
  | [], _ => s
  | p :: ps, bs =>
    let s1 := match p.1 with
      | .home pa _ _ _ => homeWrite s pa (bs.take p.2)
      | .remote dev pa _ pr => remoteWrite s dev pa pr (bs.take p.2)
      | _ => s
    homePut s1 ps (bs.drop p.2)

/-- n bytes read by the scheduler at a virtual address (R488). -/
def schedRead (s : State) (who : Who) (va : Word) (n : Nat) : Except FaultInfo Nat :=
  match pieces s who accRead va n with
  | .error f => .error f
  | .ok ps =>
    match homePiecesFault s va ps with
    | some f => .error f
    | none => .ok (natLE (homeBytes s ps))

/-- The correctable errors that a read of n bytes by the scheduler meets, in tables and data, are corrected and counted (R472). -/
def schedCorrect (s : State) (who : Who) (va : Word) (n : Nat) : State :=
  if s.dev.errors.flips.isEmpty && s.dev.errors.l2Flips.isEmpty then s
  else
    let blocks (p : Piece) : List Nat := match p.1 with
      | .home pa _ _ _ => blocksOf pa p.2
      | _ => []
    let all := match pieces s who accRead va n with
      | .ok ps => ps.flatMap blocks
      | .error _ => []
    all.foldl correctHome (correctWalk s who va)

/-- The side effects of a fault of a scheduler's access under `who`, reported to domain d. -/
def schedEffects (s : State) (who : Who) (d : BitVec 12) (f : FaultInfo) : State :=
  integrityEffects (dataEffects s f) f who.world who.comp (some d)

/-- Bytes written by the scheduler at a virtual address (R488). -/
def schedWrite (s : State) (who : Who) (va : Word) (bs : List Byte) : Except FaultInfo State :=
  match pieces s who accWrite va bs.length with
  | .error f => .error f
  | .ok ps => .ok (homePut s ps bs)

/-- The device offset of a physical address of this device that may hold a table of the scheduler. -/
def ownOffset (s : State) (pa n : Nat) : Option Nat :=
  if pa / 2 ^ 47 = s.devId ∧ s.backed (pa % 2 ^ 47) ∧ ¬ isRegSpace (pa % 2 ^ 47) ∧
      (homePiecesFault s 0 [(.home (pa % 2 ^ 47) 0 0 0, n)]).isNone then some (pa % 2 ^ 47) else none

/-! ### Queue descriptors (R324) -/

/-- The device offset of queue descriptor q. -/
def queueAt (s : State) (q : Nat) : Option Nat := ownOffset s ((s.dev.sched.qtbase.toNat >>> 16 <<< 16) + 64 * q) 64

/-- Queue descriptor q; zero, which is not live, where it cannot be read. -/
def queueDesc (s : State) (q : Nat) : Nat :=
  match queueAt s q with
  | some a => s.mem.load a 64
  | none => 0

def qRead (d : Nat) : BitVec 32 := BitVec.ofNat 32 (nbits d 288 32)
def qWrite (d : Nat) : BitVec 32 := BitVec.ofNat 32 (nbits d 256 32)
def qRcb (d : Nat) : Word := BitVec.ofNat 64 (nbits d 192 64)
def qRoot (d : Nat) : Word := BitVec.ofNat 64 (nbits d 128 64)
def qRing (d : Nat) : Word := BitVec.ofNat 64 (nbits d 64 64)
def qLog2n (d : Nat) : Nat := nbits d 48 6
def qWorld (d : Nat) : Nat := nbits d 40 4
def qVf (d : Nat) : Nat := nbits d 32 6
def qCtx (d : Nat) : BitVec 16 := BitVec.ofNat 16 (nbits d 16 16)

/-- READ of a descriptor written. -/
def setQRead (s : State) (q : Nat) (v : BitVec 32) : State :=
  match queueAt s q with
  | some a => homeWrite s (a + 36) (bytesLE 4 v.toNat)
  | none => s

/-- WRITE of a descriptor written. -/
def setQWrite (s : State) (q : Nat) (v : BitVec 32) : State :=
  match queueAt s q with
  | some a => homeWrite s (a + 32) (bytesLE 4 v.toNat)
  | none => s

/-- The function of a queue serves its world (R325, R391). -/
def vfServes (s : State) (vf w : Nat) : Bool :=
  vf == 0 ||
    (let x := s.dev.host.vfworld.toList.getD vf 0
     x.getLsbD 4 && nbits x.toNat 0 4 == w)

/-- A queue is live (R325). -/
def queueLive (s : State) (d : Nat) : Bool :=
  d.testBit 63 && d >>> 320 == 0 && nbits d 54 9 == 0 && nbits d 44 4 == 0 && nbits d 38 2 == 0 && nbits d 0 16 == 0
  && (match s.ctxOf (qWorld d) (qCtx d) with
      | some c => c.root == qRoot d
      | none => false)
  && vfServes s (qVf d) (qWorld d)

/-- Under whose tables a queue's records are read. -/
def queueWho (s : State) (d : Nat) : Option Who := (s.ctxOf (qWorld d) (qCtx d)).map ctxWho

end Sys2Proof.Machine
end

