-- ==== Sys2Proof/Machine/Park.lean ====
section
/-! DEFINITION. The park tier (spec/05 R115; spec/15 R357, R359; spec/16 R374; spec/22 R469): images and write ranges of parked nodes,
sealed under AES-256-GCM with the compartment's park key and the node's park count, in the channels of the quarter that parks them. -/

namespace Sys2Proof.Machine

def setPark (s : State) (l : List ParkItem) : State := { s with dev := { s.dev with park := l } }

/-- Bytes that an item takes, with its tag, in whole blocks. -/
def ParkItem.size (x : ParkItem) : Nat := (x.len + 16 + 255) / 256 * 256

/-- The lowest place for n bytes in the park tier of a quarter. -/
def parkPlace (s : State) (q n : Nat) : Option Nat :=
  let start := parkStart q
  let spots := start :: s.dev.park.map fun x => x.off + x.size
  spots.find? fun a => decide (start ≤ a) && decide (a + n ≤ start + parkSize / 4) &&
    s.dev.park.all fun x => decide (x.off + x.size ≤ a) || decide (a + n ≤ x.off)

/-- The park key of the compartment that a node runs in. -/
def parkKey (s : State) (n : Node) : List Byte :=
  (((s.ctxOf n.world n.ctx).map fun c => ((s.world n.world).comp c.comp).keys.park)).getD []

/-- Bytes sealed into the park tier of a quarter, with the errors that travel with them: where they stand, or nothing where the tier is
full. -/
def parkPut (s : State) (n : Node) (vcid : Option (BitVec 10)) (q : Nat) (data : List Byte) (marks : Marks) : Option (Nat × State) :=
  let nonce := n.parks + 1
  let probe : ParkItem := ⟨n.key, vcid, 0, data.length, nonce, marks⟩
  (parkPlace s q probe.size).map fun a =>
    let x := gcmSeal (parkKey s n) nonce data
    let s1 := homeWrite s a (x.1 ++ x.2)
    (a, setPark s1 (s1.dev.park ++ [{ probe with off := a }]))

/-- The contents of an item whose tag verifies, out of memory that is not damaged. -/
def parkTake (s : State) (n : Node) (x : ParkItem) : Option (List Byte) :=
  if (blocksOf x.off (x.len + 16)).any fun b => (homeDataFault s (b * 256) 0 0).isSome then none
  else gcmOpen (parkKey s n) x.nonce (s.mem.bytes x.off x.len) (s.mem.bytes (x.off + x.len) 16)

/-- The correctable errors of a parked item are corrected and counted as it is read (R472). -/
def parkCorrect (s : State) (x : ParkItem) : State := (blocksOf x.off (x.len + 16)).foldl correctHome s

/-- The image of a vcore written to the park tier of the quarter in which it was bound (R357). -/
def parkVcore (s : State) (n : Node) (v : Vcore) : State :=
  ((parkPut s n (some v.id.vcid) (quarterOfCore v.bound) (Memory.bytes (imageOf v) 0 imageSize) v.st.marks).map (·.2)).getD s

/-- The image of the vcore in focus written to the park tier, where its node is being parked (R357). -/
def parkImage (s : State) : State :=
  match s.node? s.vc.id.node with
  | none => s
  | some n => if n.parking then parkVcore s n s.vc else s

/-- The images of a node's vcores that hold no core and have none in the tier yet. -/
def parkRest (s : State) (n : Node) : State :=
  let one (t : State) (v : Vcore) : State :=
    if v.res != .off || t.dev.park.any (fun x => x.node == n.key && x.vcid == some v.id.vcid) then t else parkVcore t n v
  (s.vcores.filter fun v => v.res != .absent && v.id.node == n.key).foldl one s

/-- The items of a node given up. -/
def dropParked (s : State) (k : Nat) : State := setPark s (s.dev.park.filter fun x => x.node != k)

/-- The first vcore of a node whose image fails its check, 0 for a write range (R452, R469). -/
def parkBad (s : State) (n : Node) : Option (BitVec 10) :=
  (s.dev.park.find? fun x => x.node == n.key && (parkTake s n x).isNone).map fun x => x.vcid.getD 0

/-- Every vcore of a node with the state of its image. -/
def unparkImages (s : State) (n : Node) : State :=
  let one (v : Vcore) : Vcore :=
    if v.res == .absent || v.id.node != n.key then v
    else
      match s.dev.park.find? fun x => x.node == n.key && x.vcid == some v.id.vcid with
      | some x => match parkTake s n x with
        | some b =>
          let w := restoreVcore (Memory.putBytes [] 0 b) v
          { w with st := { w.st with marks := x.marks } }
        | none => v
      | none => v
  s.mapVcores one

end Sys2Proof.Machine
end

