-- ==== Sys2Proof/Machine/Nodes.lean ====
section
/-! DEFINITION. Nodes of the graph unit (spec/14 R329 to R334; spec/02 R46, R48), reports that concern a node or a partition
(spec/23 R485, R486), the end of a node and of its successors (spec/14 R332; spec/15 R356; spec/20 R424), and a vcore leaving its
core (spec/06 R134; spec/14 R341). -/

namespace Sys2Proof.Machine

/-! ### Node headers and operating points -/

/-- n bytes at an offset of a node header (R329). -/
def Node.field (n : Node) (off len : Nat) : Nat := nbits n.header.toNat (8 * off) (8 * len)

def Node.launchVa (n : Node) : Word := BitVec.ofNat 64 (n.field 0 8)
def Node.optabVa (n : Node) : Word := BitVec.ofNat 64 (n.field 8 8)
def Node.deadline (n : Node) : Nat := n.field 0x10 8
def Node.prio (n : Node) : Nat := nbits (n.field 0x18 8) 12 4
def Node.nopt (n : Node) : Nat := nbits (n.field 0x18 8) 0 4
def Node.complVa (n : Node) : Word := BitVec.ofNat 64 (n.field 0x30 8)
def Node.est (n : Node) : Nat := n.field 0x38 8

/-- ECLASS of the header, and the effective energy class: 7 from the 8th overrunning tick on (R495, R507). -/
def Node.ownClass (n : Node) : Nat := nbits (n.field 0x18 8) 8 3
def Node.eclass (n : Node) : Nat := if n.demoted || decide (8 ≤ n.overTicks) then 7 else n.ownClass

/-- A declared range of a header: base, length, write intent (R329). -/
def rangeOf (hdr : Nat) (i : Nat) : Option (Nat × Nat × Bool) :=
  let b := nbits hdr (8 * (0x40 + 16 * i)) 64
  let d := nbits hdr (8 * (0x48 + 16 * i)) 64
  if d.testBit 63 then some (b, nbits d 0 40, d.testBit 62) else none

def rangesOf (hdr : Nat) : List (Nat × Nat × Bool) := (List.range 8).filterMap (rangeOf hdr)

/-- Fields of an operating-point entry (R330). -/
def opEnergy (e : BitVec 128) : Nat := nbits e.toNat 0 32
def opIpeak (e : BitVec 128) : Nat := nbits e.toNat 32 16
def opStep (e : BitVec 128) : Nat := nbits e.toNat 64 4
def opVclass (e : BitVec 128) : Nat := nbits e.toNat 68 2
def opFmt (e : BitVec 128) : Nat := nbits e.toNat 72 5
def opTiles (e : BitVec 128) : Nat := nbits e.toNat 80 9

def Node.op (n : Node) (i : Nat) : BitVec 128 := n.table.getD i 0

/-- The entry in force. -/
def Node.cur (n : Node) : BitVec 128 := n.op n.entry

/-- Fields of a launch record (R331). -/
def lrBanks (l : Rec64) : Word := l.extractLsb' 448 64
def lrRcb (l : Rec64) : Word := l.extractLsb' 384 64
def lrArgs (l : Rec64) : Word := l.extractLsb' 320 64
def lrPc (l : Rec64) (i : Nat) : Word := l.extractLsb' (64 + 64 * i) 64
def lrPriv (l : Rec64) : Bool := l.getLsbD 12
def lrGang (l : Rec64) : Bool := l.getLsbD 11
def lrVcnt (l : Rec64) : Nat := nbits l.toNat 0 11

def Node.gang (n : Node) : Bool := (n.launch.map lrGang).getD false
def Node.vcnt (n : Node) : Nat := (n.launch.map lrVcnt).getD 0

/-- base(n) of R335. -/
def baseLevel (s : State) (n : Node) : Nat := min n.prio (effPrio (regionsOf s (nodePath s n)))

/-- Affected by the grade in force (R354). -/
def affected (s : State) (n : Node) : Bool :=
  s.dev.power.grade != 0 && decide (baseLevel s n < s.dev.power.thresh.toNat)

/-- Energy and current that one occupied core charges (R336, R494). -/
def coreEnergy (n : Node) : Int := (max (opEnergy n.cur) n.measured : Nat)
def coreCurrent (n : Node) : Int := (opIpeak n.cur : Nat)

/-- Under whose tables the records of a node are reached. -/
def nodeWho (s : State) (n : Node) : Option Who := (s.ctxOf n.world n.ctx).map ctxWho

def nodeFdom (s : State) (n : Node) : BitVec 12 := effFdom (regionsOf s (nodePath s n))

/-! ### Reports -/

/-- A report of STREAM 4 to 7; WHO is zero where it concerns no node (R415, R416, R486). -/
def reportRecord (s : State) (stream : Nat) (res after : Bool) (who : Word) (d : BitVec 12) (ctx : BitVec 16) (f : FaultInfo)
    (notice : Bool) : Record :=
  ⟨mkRecord (mkHdr stream res after false false false false ctx f.remote f.status) who 0 0 f.addr 0 (zx f.info)
    (BitVec.ofNat 64 s.dev.time), d, notice, none, none⟩

/-- A record that concerns a node. -/
def Record.ofNode (r : Record) (n : Node) : Record := { r with about := some (n.world, some n.key) }

def nodeWhoWord (s : State) (n : Node) : Word := mkWho n.seq n.queue 0 (nodeFdom s n)

/-- A notice about a node (R485, R486). -/
def nodeNotice (s : State) (n : Node) (stream : Nat) (status : BitVec 16) (info : BitVec 32) : State :=
  addRecord s
    ((reportRecord s stream true true (nodeWhoWord s n) (nodeFdom s n) n.ctx ⟨status, 0, info, true, 0, none⟩ true).ofNode n)

/-- A fault of STREAM 4 or 6 about a node: its domain stops (R413, R485, R488). -/
def nodeFault (s : State) (n : Node) (stream : Nat) (f : FaultInfo) : State :=
  stopDomain (addRecord s ((reportRecord s stream f.res false (nodeWhoWord s n) (nodeFdom s n) n.ctx f false).ofNode n))
    (nodeFdom s n)

/-- A notice about a partition (R486). -/
def partNotice (s : State) (p : Nat) (stream : Nat) (status : BitVec 16) (info : BitVec 32) : State :=
  let d := effFdom (regionsOf s [.part p, .root])
  addRecord s (reportRecord s stream true true 0 d 0 ⟨status, 0, info, true, 0, none⟩ true)

/-- A notice about the device (R486). -/
def rootNotice (s : State) (stream : Nat) (status : BitVec 16) (info : BitVec 32) : State :=
  let d := effFdom (regionsOf s [.root])
  addRecord s (reportRecord s stream true true 0 d 0 ⟨status, 0, info, true, 0, none⟩ true)

/-- A domain is stopped (R413, R418). -/
def State.isStopped (s : State) (d : BitVec 12) : Bool := s.dev.faults.stops.any fun x => x.fdom == d

/-! ### Vcores of a node -/

def Vcore.ofNode (k : Nat) (v : Vcore) : Bool := v.res != .absent && v.id.node == k

/-- A vcore that is not complete. -/
def Vcore.live (v : Vcore) : Bool := v.res != .absent && v.res != .complete

/-- A vcore that holds a core. -/
def Vcore.resident (v : Vcore) : Bool :=
  match v.res with
  | .core _ => true
  | _ => false

def nodeVcores (s : State) (k : Nat) : List Vcore := s.vcores.filter (Vcore.ofNode k)

/-- The vcores of a node are gone. -/
def dropVcores (s : State) (k : Nat) : State :=
  { s with
    vc := if s.vc.ofNode k then vcoreAbsent else s.vc
    others := s.others.filter fun v => !v.ofNode k }

/-- The node that holds a core. -/
def holderOf (s : State) (core : Nat) : Option Node := s.dev.sched.nodes.find? fun n => n.cores.contains core

/-- A cluster's budgets charged (R336). -/
def chargeCluster (s : State) (cl : Nat) (e i : Int) : State :=
  if h : cl < 32 then
    { s with dev := { s.dev with power := { s.dev.power with
        clusterE := s.dev.power.clusterE.set cl (s.dev.power.clusterE.get ⟨cl, h⟩ - e)
        clusterI := s.dev.power.clusterI.set cl (s.dev.power.clusterI.get ⟨cl, h⟩ - i) } } }
  else s

/-- Energy and current of cores given back, for the tick, to their clusters and to every region of a node's path (R340).
What the node's ENERGY counts stays as it was (DESIGN CHOICE, log 36). -/
def creditCores (s : State) (n : Node) (cores : List Nat) : State :=
  cores.foldl (fun t c =>
    charge (chargeCluster t (clusterIdOf c) (-coreEnergy n) (-coreCurrent n)) (nodePath t n) (-coreEnergy n) (-coreCurrent n)) s

/-- Cores of a node freed; those of a pre-empted node return what the tick was charged for them (R335, R340). -/
def freeCores (s : State) (k : Nat) (p : Nat → Bool) : State :=
  match s.node? k with
  | some n =>
    let gone := n.cores.filter p
    let s1 := if n.polite.isSome then creditCores s n gone else s
    match s1.node? k with
    | some m =>
      (s1.setNode { m with cores := m.cores.filter fun c => !p c, begun := m.begun || m.polite.isSome }).selectDue
    | none => s1
  | none => s

/-- A core of a node freed. -/
def freeCore (s : State) (k core : Nat) : State := freeCores s k (· == core)

/-- The vcore in focus without what its core held for it: caches, latches, chain (R134, R140, R263). -/
def emptyCore (v : Vcore) : Vcore :=
  { v with st := { v.st with cache := [], icache := [], latch0 := .empty, latch1 := .empty, nextBank := false, chain := none } }

/-- The vcore in focus leaves its core, its lines written back (R134): `res` says where it stands then. -/
def leaveCore (s : State) (res : Residence) : State :=
  let s1 := flushAll s
  { s1 with vc := { emptyCore s1.vc with res := res } }

/-- A move waits for locked lines (R134, R479). -/
def moveWaits (s : State) : Bool := someLocked s fun _ => true

/-- Every line that a move would leave behind is written back: none while the vcore must wait for a locked one. -/
def tryFlush (s : State) : State × Bool :=
  let s1 := flushAll s
  (s1, !moveWaits s1)

/-! ### The end of a node -/

/-- The bytes of a completion record from 0x08 on (R332). START of a node that has executed no instruction is the time of completion (DESIGN
CHOICE, log 36). -/
def complBody (n : Node) (now : Nat) : List Byte :=
  bytesLE 8 (n.start.getD now) ++ bytesLE 8 now ++ bytesLE 8 n.energy ++ bytesLE 1 n.opStart ++ bytesLE 1 n.entry
  ++ bytesLE 2 (min n.changes 0xFFFF) ++ bytesLE 4 n.preempts ++ List.replicate 24 0

/-- STATUS of a completion record (R332). -/
def complStatus (seq : BitVec 32) (code : Nat) : List Byte := bytesLE 8 (seq.toNat * 2 ^ 32 + code * 256 + 1)

/-- A completion record written: the other fields, then STATUS (R332). -/
def writeCompletion (s : State) (n : Node) (code : Nat) : Except FaultInfo State :=
  match nodeWho s n with
  | none => .error (mkFault 0x2002 n.complVa)
  | some who =>
    match schedWrite s who (n.complVa + 8) (complBody n s.dev.time) with
    | .error f => .error (if f.addr = n.complVa + 8 then { f with addr := n.complVa } else f)
    | .ok s1 => schedWrite s1 who n.complVa (complStatus n.seq code)

/-- The side effects of a fault of the scheduler's access to a node's record (R465, R468, R473). -/
def accessEffects (s : State) (n : Node) (f : FaultInfo) : State :=
  match nodeWho s n with
  | some who => schedEffects s who (nodeFdom s n) f
  | none => s

/-- The nodes of a queue that name a sequence number as predecessor. -/
def successorsOf (s : State) (q : Nat) (seq : BitVec 32) : List Nat :=
  (s.dev.sched.nodes.filter fun n => n.queue == q && n.preds.contains seq).map (·.key)

/-- A node that has completed leaves the graph unit; the nodes that waited for it alone become ready (R334). -/
def removeNode (s : State) (n : Node) : State :=
  let s1 := dropParked (dropVcores s n.key) n.key
  let next (x : Node) : Node :=
    if x.queue == n.queue && x.preds.contains n.seq then
      let p := x.preds.filter (· != n.seq)
      { x with preds := p, phase := if p.isEmpty && x.phase == .waiting then .ready else x.phase, waited := 0 }
    else x
  { s1 with dev := { s1.dev with sched := { s1.dev.sched with
      due := true
      nodes := (s1.dev.sched.nodes.filter fun x => x.key != n.key).map next
      stalls := s1.dev.sched.stalls.filter fun x => x.1 / 1024 != n.key } } }

/-- DEADLINE_MISS (R487). -/
def deadlineNotice (s : State) (n : Node) : State :=
  if n.deadline ≠ 0 ∧ n.deadline < s.dev.time then
    nodeNotice s n 4 0x5007 (BitVec.ofNat 32 (min ((s.dev.time - n.deadline) / 1000) 0xFFFFFFFF))
  else s

/-- A node whose completion record cannot be written is held until the action (R488). -/
def holdCompletion (s : State) (n : Node) (code : Nat) (f : FaultInfo) : State :=
  nodeFault ((accessEffects (dropVcores s n.key) n f).setNode { n with phase := .completing (BitVec.ofNat 8 code), cores := [] }).selectDue n 4 f

/-- A queue remembers a node that has ended with SHED or FAULT, while a node that it accepts may name it (R329, R356, R424). -/
def noteGone (s : State) (n : Node) (code : Nat) : State :=
  let x := s.queue n.queue
  setQueue s n.queue { x with gone := (x.gone.filter fun g => decide ((n.seq - g.1).toNat < 2 ^ 16)) ++ [(n.seq, code)] }

/-- Nodes ended with a code, each with its successors, which complete with the same code without running (R356, R424). A record that
cannot be written is not written where the node is aborted, and holds the node otherwise (R488). -/
def endNodes (code : Nat) (aborted : Bool) : Nat → List Nat → State → State
  | 0, _, s => s
  | _, [], s => s
  | fuel + 1, k :: ks, s =>
    match s.node? k with
    | none => endNodes code aborted fuel ks s
    | some n =>
      let gone (t : State) : State :=
        endNodes code aborted fuel (ks ++ successorsOf s n.queue n.seq) (removeNode (deadlineNotice (noteGone t n code) n) n)
      match writeCompletion s n code with
      | .ok t => gone t
      | .error f => if aborted then gone s else endNodes code aborted fuel ks (holdCompletion s n code f)

/-- The home ranges of a virtual range, page by page; a page that does not translate is left out. -/
def homeRanges (s : State) (who : Who) (acc : Acc) : Nat → Word → Nat → List (Nat × Nat)
  | 0, _, _ => []
  | fuel + 1, va, n =>
    if n = 0 then []
    else
      let m := min n (pageLeft va)
      let rest := homeRanges s who acc fuel (va + BitVec.ofNat 64 m) (n - m)
      match placeOf s who acc va 1 none with
      | .ok (.home pa _ _ _) => (pa, m) :: rest
      | _ => rest

/-- The homes of a node's declared write ranges. -/
def writeRanges (s : State) (n : Node) (acc : Acc) : List (Nat × Nat) :=
  match nodeWho s n with
  | none => []
  | some who => (rangesOf n.header.toNat).flatMap fun r =>
      if r.2.2 then homeRanges s who acc (r.2.1 / 2 ^ 16 + 2) (BitVec.ofNat 64 r.1) r.2.1 else []

/-- The declared write ranges of a node that is ended after it has begun, or after it was bound to be shed: their contents are
undefined (R356, R424; log 14). -/
def loseRanges (s : State) (k code : Nat) : State :=
  match s.node? k with
  | none => s
  | some n =>
    if n.started || (code == 2 && n.phase == .selected) then
      { s with mem := (writeRanges s n accWrite).foldl (fun m r =>
          (List.range r.2).foldl (fun (m : Memory) i => m.write (r.1 + i) (Config.undefinedByte s.steps (r.1 + i))) m) s.mem }
    else s

/-- A node ends with FAULT or SHED, with its successors; ABORT may have ended it. -/
def endNode (s : State) (k code : Nat) (aborted : Bool := false) : State :=
  endNodes code aborted (s.dev.sched.nodes.length * s.dev.sched.nodes.length + 1) [k] (loseRanges s k code)

/-- A node whose job has completed: its record is written and it leaves; a failing write holds it (R46, R332, R488). -/
def finishNode (s : State) (n : Node) (code : Nat) : State :=
  match writeCompletion s n code with
  | .ok s1 => removeNode (deadlineNotice s1 n) n
  | .error f => holdCompletion s n code f

/-- The completion of a held node tried again (R488). -/
def retryCompletion (s : State) (n : Node) (code : Nat) : State := if code = 1 then finishNode s n 1 else endNode s n.key code

/-- A job completes when all its vcores have (R37). -/
def settleNode (s : State) (k : Nat) : State :=
  match s.node? k with
  | none => s
  | some n =>
    if n.phase == .running && (nodeVcores s k).all (fun v => v.res == .complete) then finishNode s n 1 else s

/-- The quarter whose channels take the range copies of a node: the lowest in which its vcores were bound (R357; log 17). -/
def parkHome (s : State) (n : Node) : Nat :=
  (nodeVcores s n.key).foldl (fun b v => min b (quarterOfCore v.bound)) 3

/-- Blocks read by the device: what is correctable is corrected, an uncorrectable error poisons its block (R472, R474). -/
def readBlocks (s : State) (bs : List Nat) : State :=
  bs.foldl (fun t b => match homeDataFault t (b * 256) 0 0 with
    | some f => dataEffects t f
    | none => correctHome t b) s

/-- A write range copied to the park tier; its poisoned blocks are so there (R357, R474). -/
def parkRange (n : Node) (q : Nat) (acc : State × List (Nat × Nat × Nat)) (r : Nat × Nat) : State × List (Nat × Nat × Nat) :=
  let s := readBlocks acc.1 (blocksOf r.1 r.2)
  let bad := ((blocksOf r.1 r.2).filter fun b => s.dev.errors.poison.contains b).map fun b => b - r.1 / 256
  match parkPut s n none q (s.mem.bytes r.1 r.2) ⟨bad, [], []⟩ with
  | some (a, t) => (t, acc.2 ++ [(r.1, r.2, a)])
  | none => (s, acc.2)

/-- A node parked: the images that are not in the park tier yet, and alongside them its declared write ranges (R357). -/
def parkNode (s : State) (n : Node) : State × List (Nat × Nat × Nat) :=
  (writeRanges s n accRead).foldl (parkRange n (parkHome s n)) (parkRest s n, [])

/-- A running node none of whose vcores holds a core after a pre-emption returns to the Trailhead (R341, R359). -/
def settleRest (s : State) (k : Nat) : State :=
  match s.node? k with
  | none => s
  | some n =>
    if n.phase != .running || (nodeVcores s k).any Vcore.resident then s
    else
      let (s1, saved) := if n.parking then parkNode s n else (s, [])
      let s2 := freeCores s1 k fun _ => true
      match s2.node? k with
      | none => s2
      | some m =>
        s2.setNode { m with
          phase := .resting n.parking, waited := 0, polite := none, begun := false
          parks := if n.parking then n.parks + 1 else n.parks, preempts := if n.parking then n.preempts else n.preempts + 1
          saved := saved, moved := false }

/-- Whether cores of a node are being claimed: no further vcore of it takes one (R341). -/
def Node.leaving (n : Node) : Bool := n.polite.isSome

/-- Off-core vcores of a node that may run in the superstep (R40). -/
def waitingVcore (k : Nat) (v : Vcore) : Bool := v.ofNode k && v.res == .off && !v.ended && !v.stopped

/-- The first vcore that satisfies p takes a core. Which waiting vcore does is the binder's choice (R40): the model's is the first in
the order of `others` (DESIGN CHOICE, log 31). -/
def seat (l : List Vcore) (p : Vcore → Bool) (core : Nat) : List Vcore :=
  match l with
  | [] => []
  | v :: t => if p v then { v with res := .core core, bound := core } :: t else v :: seat t p core

/-- Cores of a node that no vcore holds are taken in turn by its waiting vcores (R40, R337); cores that no unfinished vcore
needs are freed. -/
def fillCores (s : State) (k : Nat) : State :=
  match s.node? k with
  | none => s
  | some n =>
    if n.leaving then s
    else
      let one (t : State) (core : Nat) : State :=
        if t.vcores.any (Vcore.onCore core) then t
        else if waitingVcore k t.vc then { t with vc := { t.vc with res := .core core, bound := core } }
        else { t with others := seat t.others (waitingVcore k) core }
      let s1 := n.cores.foldl one s
      if s1.vcores.any fun v => v.ofNode k && v.res == .off then s1
      else
        match s1.node? k with
        | none => s1
        | some m =>
          let held (c : Nat) : Bool := s1.vcores.any (Vcore.onCore c)
          if m.cores.all held then s1 else (s1.setNode { m with cores := m.cores.filter held }).selectDue

end Sys2Proof.Machine
end

