-- ==== Sys2Proof/Machine/Meet.lean ====
section
/-! DEFINITION. The events at which the streams of a vcore meet, its completion, and the completion of BANKMODE and TLBINV (spec/02
R35 to R45, R55 to R59; spec/05 R108, R111, R122; spec/13 R304, R305, R315 to R319; spec/20 R427; spec/21 R443, R449; spec/22 R481). -/

namespace Sys2Proof.Machine

/-! ### Meeting -/

def streams4 : List StreamId := [.s, .v, .m, .c]

/-- Every stream has halted or waits at a form that k selects, and one of them waits (R35, R37). No stream is stopped, no
delivered word remains (R294). -/
def meets (s : State) (k : PointKind → Bool) : Bool :=
  let at' (st : StreamId) : Bool := match (s.stream st).point with
    | some p => k p.kind
    | none => false
  s.vc.resident && !s.vc.stopped && s.vc.st.follow.isEmpty && !(s.vc.st.ops.any (·.delivered))
  && streams4.all (fun st => at' st || ((s.stream st).halted && (s.stream st).point.isNone)) && streams4.any at'

/-- A commit also needs every engine operation of the vcore complete (R55). -/
def commitReady (s : State) (k : PointKind → Bool) : Bool := meets s k && s.vc.st.ops.isEmpty

/-- A stream goes on from the form at which it waited. -/
def passPoint (s : State) (st : StreamId) : State :=
  let x := s.stream st
  match x.point with
  | none => s
  | some _ =>
    let s1 := s.setStream st { x with point := none, wait := waitNone }
    if st = .s then sRetire s1 else advance s1 st

def passAll (s : State) : State := streams4.foldl passPoint s

/-- The SET clauses of the forms at which the streams waited in s0 (R55, R193). -/
def pointSets (s0 s : State) : State :=
  [StreamId.v, .m, .c].foldl (fun t st =>
    match (s0.stream st).point with
    | some p => applySet t st ⟨p.pc, (t.stream st).pc, (s0.stream st).cmdix, true, false, false, 0, false⟩ p.cl
    | none => t) s

/-- RDV_MATCH (R35, R36). -/
def execRdvMatch (core : Nat) (s : State) : Out :=
  match s.focusCore core with
  | none => .next s
  | some s1 => .next (if meets s1 (· == .rdv) then pointSets s1 (passAll s1) else s1)

/-! ### Commits -/

/-- The lowest handle whose FIFO holds a filled or reserved entry (R427). -/
def openFifo (s : State) : Option (Nat × Handle) :=
  (s.vc.st.h.toList.zipIdx.find? fun x => x.1.bound && !x.1.entries.isEmpty).map fun x => (x.2, x.1)

/-- FIFO_AT_COMMIT (R417, R427): every stream stays at its word. -/
def fifoAtCommit (s : State) (n : Nat) (h : Handle) : State :=
  takeFault s .s (stopBefore s .s) (mkFault 0x0004 0 (BitVec.ofNat 32 (h.fill % 2048 * 2 ^ 16 + n)))

/-- The vcore in focus gives up its core after a commit or a cutback (R341): its image is saved and the core is free. -/
def yieldCore (s : State) : State :=
  let core := s.coreId
  let k := s.vc.id.node
  let s1 := s.setRegs { s.vc.regs with ystat := false, yieldack := false }
  let s2 := leaveCore (parkImage s1) .off
  settleRest (freeCore { s2 with vc := { s2.vc with cutbackDue := false } } k core) k

/-- Every vcore of a node that holds a core and satisfies p: f with the focus on it. -/
def forVcores (s : State) (k : Nat) (p : Vcore → Bool) (f : State → State) : State :=
  ((nodeVcores s k).filter p).foldl (fun t v =>
    match t.focusOn k v.id.vcid with
    | some u => f u
    | none => t) s

/-- A vcore cut back gives up its core. -/
def cutAway (s : State) : State := yieldCore { s with vc := cutVcore s.vc }

/-- All streams of a vcore have halted and nothing that it issued is in flight (R37). -/
def Vcore.finished (v : Vcore) : Bool :=
  !v.stopped && v.st.ops.isEmpty && v.st.follow.isEmpty
  && [v.sS, v.sV, v.sM, v.sC].all fun x => x.halted && x.point.isNone

/-- A vcore of a gang job that may leave its core with the others: it has yielded, has no word left, or may be cut back (R44, R58). -/
def Vcore.mayLeave (v : Vcore) : Bool := !v.resident || v.ended || (v.cutbackDue && (!v.ni || v.finished))

/-- The vcores of a gang job leave their cores together, once each of them may and has its lines written back (R44, R58, R134). -/
def gangLeave (s : State) (k : Nat) : State :=
  let free (v : Vcore) : Bool := v.mayLeave || (v.finished && (nodeVcores s k).any fun x => x.ended || x.cutbackDue)
  if (nodeVcores s k).all free then
    let s1 := forVcores s k Vcore.resident flushAll
    if (nodeVcores s1 k).any fun v => v.resident && moveWaits { s1 with vc := v } then s1
    else
      forVcores s1 k Vcore.resident fun t =>
        if t.vc.ended || t.vc.finished then yieldCore { t with vc := { t.vc with ended := false } } else cutAway t
  else s

/-- The time for which R58 has held back the cutback of the vcore in focus, counted in the response bound of a park (R357). -/
def noteHeld (s : State) : State :=
  if !s.vc.cutbackDue then s
  else
    match (s.node? s.vc.id.node).bind Node.polite with
    | some (t, w) =>
      let p := s.dev.power
      let asked := (s.dev.sched.tick - (t - w)) * 100000
      { s with dev := { s.dev with power := { p with heldBack := max p.heldBack (s.dev.time - asked) } } }
    | none => s

/-- What follows a commit: a cutback that waited for it returns to it and frees the core (R58); an acknowledged vcore yields
(R305), a gang job when all its vcores may (R44). -/
def afterCommit (s0 : State) : State :=
  let s := noteHeld s0
  if !s.vc.resident then s
  else if s.vc.id.gang then
    if s.vc.cutbackDue then gangLeave s s.vc.id.node
    else if s.vc.regs.yieldack then gangLeave { s with vc := { s.vc with ended := true } } s.vc.id.node
    else s
  else if s.vc.cutbackDue then cutAway s
  else if s.vc.regs.yieldack then yieldCore s
  else s

/-- The stall watchdog counts the vcore in focus anew: its streams have issued words since the last boundary (R491). -/
def freshStall (s : State) : State :=
  let key := s.vc.id.node * 1024 + s.vc.id.vcid.toNat
  { s with dev := { s.dev with sched := { s.dev.sched with stalls := s.dev.sched.stalls.filter fun x => x.1 != key } } }

/-- A commit of the vcore in focus whose conditions hold: the streams pass, `reset` is made, pending slot configurations become
active (R166), the SET clauses are applied, the snapshot is taken (R55). -/
def commit (reset : Vcore → Vcore) (s : State) : State :=
  let s1 := activateSlots (passAll s) []
  let s2 := pointSets s { s1 with vc := reset s1.vc }
  freshStall { s2 with vc := takeSnapshot s2.vc }

/-- Whether a commit must first write back lines, because its vcore then leaves the core. -/
def mustMove (s : State) : Bool := s.vc.cutbackDue || s.vc.regs.yieldack

/-- A commit event: FIFO_AT_COMMIT, a wait for locked lines, or the commit `k`. -/
def commitEvent (s : State) (kind : PointKind → Bool) (flush : Bool) (k : State → State) : State :=
  if !commitReady s kind then s
  else
    match openFifo s with
    | some (n, h) => fifoAtCommit s n h
    | none =>
      if flush || mustMove s then
        let (s1, ok) := tryFlush s
        if ok then k s1 else s1
      else k s

/-- CAIRN_COMMIT (R55). -/
def execCairnCommit (core : Nat) (s : State) : Out :=
  match s.focusCore core with
  | none => .next s
  | some s1 => .next (commitEvent s1 (· == .cairn) false fun t => afterCommit (commit id t))

/-! ### Supersteps -/

/-- Every live vcore of a node has ended its superstep (R38). -/
def allEnded (s : State) (k : Nat) : Bool := (nodeVcores s k).all fun v => !v.live || v.ended

/-- SUPERSTEP_END (R38, R42): the vcore on a core ends its superstep; it gives its core to a vcore of the job that has not run
yet (R40), or, where it has acknowledged a request, gives it up (R341); and when all have ended, the next superstep begins for all. -/
def execSuperstepEnd (core : Nat) (s : State) : Out :=
  match s.focusCore core with
  | none => .next s
  | some s1 =>
    if s1.vc.id.gang || s1.vc.ended then .next s1
    else
      .next (commitEvent s1 (· == .sstep) true fun t =>
        let t1 := { t with vc := { t.vc with ended := true } }
        let k := t1.vc.id.node
        if allEnded t1 k then
          fillCores (forVcores t1 k Vcore.live fun u => afterCommit (commit nextSuperstep u)) k
        else if t1.vc.regs.yieldack then yieldCore t1
        else if t1.others.any (waitingVcore k) && !(t1.node? k).any Node.leaving then fillCores (leaveCore t1 .off) k
        else t1)

/-- A vcore that a barrier of its gang job waits for: one whose streams have all halted counts as having reached it (R37). -/
def Vcore.meetsBarrier (v : Vcore) : Bool := v.live && !v.finished

/-- GANG_BARRIER (R45, R140): a barrier across the job's vcores, with an implicit commit of each, also of one that has finished and so
counts as having reached it (R37, R49); the instruction caches are emptied. What follows a commit comes once all have committed. -/
def execGangBarrier (core : Nat) (s : State) : Out :=
  match s.focusCore core with
  | none => .next s
  | some s1 =>
    let k := s1.vc.id.node
    let ready (v : Vcore) : Bool := !v.meetsBarrier || commitReady { s1 with vc := v } (· == .sstep)
    if !s1.vc.id.gang || !(nodeVcores s1 k).any Vcore.meetsBarrier || !(nodeVcores s1 k).all ready then .next s1
    else
      let full (v : Vcore) : Bool := v.meetsBarrier && (openFifo { s1 with vc := v }).isSome
      if (nodeVcores s1 k).any full then
        .next (forVcores s1 k full fun t => match openFifo t with
          | some (n, h) => fifoAtCommit t n h
          | none => t)
      else
        let s2 := forVcores s1 k Vcore.live flushAll
        if (nodeVcores s2 k).any fun v => moveWaits { s2 with vc := v } then .next s2
        else
          let bare (v : Vcore) : Vcore := { v with st := { v.st with icache := [] } }
          .next (forVcores (forVcores s2 k Vcore.live (commit bare)) k Vcore.live afterCommit)

/-! ### Context save and restore -/

def isSave : PointKind → Bool
  | .ctxsave _ => true
  | _ => false

def isRestore : PointKind → Bool
  | .ctxrst _ => true
  | _ => false

/-- The addresses that the matching forms name. -/
def pointAddrs (s : State) : List Word :=
  streams4.filterMap fun st => match (s.stream st).point with
    | some ⟨.ctxsave a, _, _⟩ => some a
    | some ⟨.ctxrst a, _, _⟩ => some a
    | _ => none

/-- The lowest-numbered stream that has not halted (R449). -/
def firstStream (s : State) : StreamId := (streams4.find? fun st => !(s.stream st).halted).getD .s

/-- A fault of the match: the stream stays at its form. -/
def matchFault (s : State) (f : FaultInfo) : State := accessFault s (firstStream s) f

/-- The address of the match, aligned and the same in all (R449). -/
def saveAddr (s : State) : Except FaultInfo Word :=
  match pointAddrs s with
  | a :: l => if a.toNat % 2 ^ 16 = 0 ∧ l.all (· == a) then .ok a else .error (mkFault 0x1006 0 1)
  | [] => .error (mkFault 0x1006 0 1)

/-- CTXSAVE_COMMIT (R318, R320). -/
def execCtxsaveCommit (core : Nat) (s : State) : Out :=
  match s.focusCore core with
  | none => .next s
  | some s1 =>
    if !commitReady s1 isSave then .next s1
    else
      match saveAddr s1 with
      | .error f => .next (matchFault s1 f)
      | .ok a =>
        .next (commitEvent s1 isSave true fun t =>
          match pieces t t.who accWrite a imageSize with
          | .error f => matchFault t f
          | .ok ps =>
            let t1 := commit id t
            afterCommit (writeImage t1 (imageOf t1.vc) (badBlocks t1.vc) 0 ps))

/-- CTXRST_MATCH (R319, R449): the whole state is replaced, and what is in flight or open is gone. The dirty lines that it drops are written
back before the image is read (DESIGN CHOICE, log 36). -/
def execCtxrstMatch (core : Nat) (s : State) : Out :=
  match s.focusCore core with
  | none => .next s
  | some s1 =>
    if !commitReady s1 isRestore then .next s1
    else
      match saveAddr s1 with
      | .error f => .next (matchFault s1 f)
      | .ok a =>
        let (s2, ok) := tryFlush s1
        if !ok then .next s2
        else
          match pieces s2 s2.who accRead a imageSize with
          | .error f => .next (matchFault s2 f)
          | .ok ps =>
            match homePiecesFault s2 a ps with
            | some f => .next (matchFault s2 f)
            | none =>
              let img := readImage s2 0 ps
              match imageBad img s2.vc.id.ctx with
              | some (kind, b) => .next (matchFault s2 (descriptorFault kind (b % 512) a))
              | none =>
                let v := restoreVcore img { s2.vc with delay := none }
                let plain := { v with st := { v.st with
                  q := v.st.q.map fun (x : Slot) => ⟨x.active, none⟩
                  cache := [], reading := [], before := [], lowered := [], follow := [], ops := [], loopEnds := [], icache := [] } }
                let clear (x : Stream) : Stream := freshIndex x
                let s3 := { s2 with vc := { plain with sS := clear plain.sS, sV := clear plain.sV, sM := clear plain.sM, sC := clear plain.sC } }
                let s4 := pointSets s2 s3
                .next (freshStall { s4 with vc := takeSnapshot s4.vc })

/-! ### Completion -/

/-- The vcores of a gang job that have all finished are complete together: until then each stays on its core (R43, R44). -/
def gangComplete (s : State) (k : Nat) : State :=
  if (nodeVcores s k).all fun v => !v.live || (v.resident && v.finished) then
    let s1 := forVcores s k Vcore.resident flushAll
    if (nodeVcores s1 k).any fun v => moveWaits { s1 with vc := v } then s1
    else settleNode (fillCores (forVcores s1 k Vcore.resident fun t => leaveCore t .complete) k) k
  else s

/-- VCORE_COMPLETE (R37, R43, R46): the vcore's lines are written back, its core is free for the job's other vcores, and the job
completes with its last vcore. -/
def execVcoreComplete (core : Nat) (s : State) : Out :=
  match s.focusCore core with
  | none => .next s
  | some s1 =>
    if !s1.vc.finished then .next s1
    else if s1.vc.id.gang then .next (gangComplete s1 s1.vc.id.node)
    else
      let (s2, ok) := tryFlush s1
      if !ok then .next s2
      else
        let k := s2.vc.id.node
        let s3 := leaveCore s2 .complete
        let s4 := { s3 with vc := { s3.vc with ended := false } }
        let s5 := if (nodeVcores s4 k).any Vcore.live && !s4.vc.id.gang && allEnded s4 k then
            forVcores s4 k Vcore.live fun u => afterCommit (commit nextSuperstep u)
          else s4
        .next (settleNode (fillCores s5 k) k)

/-! ### BANKMODE and TLBINV -/

/-- 1 added to m[D] at a command's completion (R108, R122, R438). -/
def completeSem (s : State) (o : EngOp) (m : BitVec 6) : State :=
  match semAdd (s.getM m) 1 with
  | some v => s.setM m v
  | none => takeFault s o.st (opPoint s o true) (semRange m)

/-- Dirty bytes discarded: counted and logged (R477, R480). -/
def loseLine (s : State) (l : Line) : State :=
  logEvent (countUe (s.setCache (s.vc.st.cache.filter fun x => x.block != l.block))) 5 2 (l.block * 256)

/-- A bank cleared to zero, with the errors held in it (R108). -/
def clearBank (s : State) (b : Nat) : State :=
  let st := s.vc.st
  s.setStore { st with
    scratch := st.scratch.clear (b * bankBytes) bankBytes
    marks := { st.marks with
      poison := st.marks.poison.filter fun y => y / 384 != b
      flips := st.marks.flips.filter fun y => y / (8 * bankBytes) != b } }

/-- The entering action of a bank (R108): a SCRATCH bank is cleared; a FIFO bank binds its handle, which must be unbound. -/
def enterBank (s : State) (x : Word) : State :=
  let b := bmBank x
  let st := s.vc.st
  let s1 := s.setStore { st with bkmode := setNat st.bkmode (2 * b) 2 (bmMode x) }
  if bmMode x = 2 then clearBank s1 b
  else if bmMode x = 3 ∧ (st.handle (bmHandle x)).bound = false then
    setHandle s1 (bmHandle x)
      ⟨true, BitVec.ofNat 5 b, BitVec.ofNat 3 (bmEsz x), [], bankBytes / entryBytes (bmEsz x)⟩
  else s1

/-- The leaving action of a bank in SCRATCH or FIFO (R108). -/
def leaveBank (s : State) (b : Nat) : State :=
  match s.vc.st.bankMode b with
  | 2 =>
    clearBank s b
  | 3 =>
    match s.vc.st.handleOf b with
    | some (n, _) => setHandle s n handleOff
    | none => s
  | _ => s

/-- The first BANKMODE in flight: they complete in issue order (R108). -/
def firstBankmode (s : State) : Option EngOp :=
  s.vc.st.ops.find? fun o => match o.kind with
    | .bankmode _ _ => true
    | _ => false

/-- A BANKMODE completes (R108, R315, R481). -/
def finishBankmode (s : State) (o : EngOp) (x : Word) (m : BitVec 6) : State :=
  let b := bmBank x
  let s1 := if s.vc.st.bankMode b = 1 then cleanLines s (fun l => l.way == b) true else s
  let locked := s1.vc.st.cache.filter fun l => l.way == b
  if s.vc.st.bankMode b = 1 ∧ locked ≠ [] ∧ bmForce x = false then
    let s2 := s1.setRegs { s1.vc.regs with bklock := s1.vc.regs.bklock ||| (1 <<< b) }
    endOp (completeSem s2 o m) o
  else
    let s2 := locked.foldl loseLine s1
    let s3 := endOp (completeSem (enterBank (leaveBank s2 b) x) o m) o
    if locked ≠ [] then takeFault s3 o.st (opPoint s3 o true) (mkFault 0x4004 0 5) else s3

/-- BANKMODE_COMPLETE (R108, R315). -/
def execBankmodeComplete (core op : Nat) (s : State) : Out :=
  match s.focusCore core with
  | none => .next s
  | some s1 =>
    match firstBankmode s1 with
    | none => .next s1
    | some o =>
      match o.kind with
      | .bankmode x m => .next (if o.id = op then finishBankmode s1 o x m else s1)
      | _ => .next s1

/-- The quarter whose partition a TLB or walk cache belongs to; none for the IOD's (R18, R121). -/
def holderQuarter (h : Nat) : Option Nat := if h < 256 then some (h / 64) else if h < 288 then some ((h - 256) / 8) else none

/-- The TLBs and walk caches that a TLBINV of a core's partition reaches (R122). -/
def tlbReached (s : State) (e : TlbEntry) : Bool :=
  match holderQuarter e.holder with
  | some q => s.partOf q == s.partOf (quarterOfCore s.coreId)
  | none => true

/-- Whether a TLB entry matches a TLBINV (R317). -/
def tlbMatches (world : Nat) (va ctl : Word) (e : TlbEntry) : Bool :=
  let kind := nbits ctl.toNat 0 2
  let ctx := nbits ctl.toNat 16 16
  e.world == world && !e.stage2 &&
    (kind == 2 || (e.ctx.toNat == ctx && (kind == 1 || e.vpn == (va.toNat >>> 16 <<< 16) >>> levelShift e.level)))

/-- TLBINV_COMPLETE (R122, R317). A store through a removed entry that is still dirty in a core's cache counts as performed, and its
write-back may come later (DESIGN CHOICE, log 36). -/
def execTlbinvComplete (core op : Nat) (s : State) : Out :=
  match s.focusCore core with
  | none => .next s
  | some s1 =>
    match s1.op? op with
    | none => .next s1
    | some o =>
      match o.kind with
      | .tlbinv va ctl m =>
        let s2 := { s1 with dev := { s1.dev with tlb := s1.dev.tlb.filter fun e => !(tlbReached s1 e && tlbMatches s1.vc.id.world va ctl e) } }
        .next (endOp (completeSem s2 o m) o)
      | _ => .next s1

/-- SLAB_WAKE_WINDOW_END (R111, R443). -/
def execSlabWakeWindowEnd (core cluster : Nat) (s : State) : Out :=
  match s.focusCore core with
  | none => .next s
  | some s1 =>
    if h : cluster < 8 then
      .next (s1.setStore { s1.vc.st with
        clusters := s1.vc.st.clusters.set cluster { s1.vc.st.clusters.get ⟨cluster, h⟩ with waking := false } })
    else .next s1

end Sys2Proof.Machine
end

