-- ==== Sys2Proof/Machine/Sched.lean ====
section
/-! DEFINITION. Queues, the mapper and the graph unit (spec/14 R327, R328, R334; spec/23 R487, R488, R490). -/

namespace Sys2Proof.Machine

def setSched (s : State) (x : Sched) : State := { s with dev := { s.dev with sched := x } }

/-- Queues that are not live hold no slot and wait for none (R325, R391). -/
def dropDead (s : State) : State :=
  let dead (x : Queue × Nat) : Bool := (x.1.slot.isSome || x.1.waiting.isSome) && !queueLive s (queueDesc s x.2)
  let clear (x : Queue × Nat) : Queue := if dead x then { x.1 with slot := none, waiting := none } else x.1
  setSched s { s.dev.sched with queues := s.dev.sched.queues.zipIdx.map clear }

/-! ### Reading RCBs -/

/-- Where the RCB of a region is read: the device offset, or a virtual address under a context. -/
inductive RcbAt
  | none
  | home (pa : Nat)
  | virt (who : Who) (va : Word)
  deriving DecidableEq, Repr, Inhabited

/-- An RCB read: its image, or the fault of the read. -/
def readRcb (s : State) (a : RcbAt) : Except FaultInfo (Option Rec64) :=
  match a with
  | .none => .ok none
  | .home pa =>
    match ownOffset s pa 64 with
    | some o => .ok (some (BitVec.ofNat 512 (s.mem.load o 64)))
    | none =>
      match homePiecesFault s (BitVec.ofNat 64 pa) [(.home (pa % 2 ^ 47) 0 0 0, 64)] with
      | some f => .error f
      | none => .error (mkFault 0x200A (BitVec.ofNat 64 pa))
  | .virt who va =>
    match schedRead s who va 64 with
    | .ok x => .ok (some (BitVec.ofNat 512 x))
    | .error f => .error f

/-- The domain and WHO of a notice about a region (R486). -/
def regionWho (s : State) (id : RegionId) (path : List RegionId) : Word × BitVec 12 :=
  match id with
  | .node k =>
    match s.node? k with
    | some n => (nodeWhoWord s n, nodeFdom s n)
    | none => (0, effFdom (regionsOf s path))
  | .root => (0, effFdom (regionsOf s [.root]))
  | _ =>
    let up := path.filter fun x => match x with
      | .part _ | .root => true
      | _ => false
    (0, effFdom (regionsOf s up))

/-- A region's RCB read and accepted, or reported: it keeps its values otherwise (R488). -/
def acceptRcb (s : State) (id : RegionId) (path : List RegionId) (a : RcbAt) : State :=
  let (who, d) := regionWho s id path
  match readRcb s a with
  | .ok none => s
  | .ok (some b) =>
    if rcbBad b then
      addRecord s (reportRecord s 4 true true who d 0 ⟨0x5004, 0, BitVec.ofNat 32 id.level, true, 0, none⟩ true)
    else
      let s1 := match a with
        | .virt w va => schedCorrect s w va 64
        | _ => s
      setRegion s1 id { getRegion s1 id with bits := b }
  | .error f =>
    let s1 := match a with
      | .virt w _ => schedEffects s w d f
      | _ => dataEffects s f
    addRecord s1 (reportRecord s 4 true true who d 0 f true)

/-! ### Notify -/

/-- NOTIFY_REJECTED, once for a queue in a tick (R490). -/
def rejectNotify (s : State) (q : Nat) (v : BitVec 32) : State :=
  if (s.queue q).noticed then s
  else
    let d := queueDesc s q
    let f := effFdom (regionsOf s [.part (s.worldPart (qWorld d)), .root])
    addRecord (setQueue s q { s.queue q with noticed := true })
      (reportRecord s 4 true true (mkWho (qWrite d) q 0 f) f 0 ⟨0x5006, 0, v, true, 0, none⟩ true)

/-- The number of slots held. -/
def slotsHeld (s : State) : List Nat := s.dev.sched.queues.filterMap (·.slot)

/-- The lowest free slot (R328). -/
def freeSlot (s : State) : Option Nat := (List.range 32).find? fun i => !(slotsHeld s).contains i

/-- A queue with unread entries takes a free slot at once when none waits, or waits (R328). -/
def seekSlot (s : State) (q : Nat) : State :=
  let x := s.queue q
  if x.slot.isSome || x.waiting.isSome then s
  else
    match freeSlot s, s.dev.sched.queues.all (fun y => y.waiting.isNone) with
    | some i, true => setQueue s q { x with slot := some i }
    | _, _ =>
      let s1 := setQueue s q { x with waiting := some s.dev.sched.nextWait }
      setSched s1 { s1.dev.sched with nextWait := s.dev.sched.nextWait + 1 }

/-- A notify write of 64 bits (R327, R398). A LOG2N outside 4 to 16 counts as it stands (R324; DESIGN CHOICE, log 36). -/
def notify (s : State) (q : Nat) (v : Word) : State :=
  let d := queueDesc s q
  let x := v.extractLsb' 0 32
  let room := 2 ^ qLog2n d
  let used := (qWrite d - qRead d).toNat
  let step := (x - qWrite d).toNat
  let ok := q < 1024 && s.dev.host.ready && queueLive s d && v.extractLsb' 32 32 == 0 && decide (0 < step) && decide (step + used ≤ room)
  if ok then seekSlot (dropDead (setQWrite s q x)) q else rejectNotify s q x

/-- NOTIFY_WRITE (R327). -/
def execNotifyWrite (queue : Nat) (value : BitVec 32) (s : State) : Out := .next (notify s queue (zx value))

/-- A read of a notify register (R327). -/
def notifyRead (s : State) (q : Nat) : Word := let d := queueDesc s q; qRead d ++ qWrite d

/-! ### Acceptance -/

/-- The lowest byte of a number of n bytes that has a bit of a mask. -/
def badByte (x mask : Nat) : Nat → Option Nat
  | 0 => none
  | n + 1 =>
    match badByte x mask n with
    | some b => some b
    | none => if nbits (x &&& mask) (8 * n) 8 ≠ 0 then some n else none

/-- The bits of a field of width w at bit lo as a mask. -/
def maskAt (lo w : Nat) : Nat := (2 ^ w - 1) <<< lo

/-- The reserved bits of a node header (R329). -/
def headerReserved : Nat :=
  (List.range 8).foldl (fun m i => m ||| maskAt (8 * (0x48 + 16 * i) + 40) 22)
    (maskAt (8 * 0x18 + 16) 48 ||| maskAt (8 * 0x18 + 11) 1 ||| maskAt (8 * 0x18 + 4) 4 ||| maskAt (8 * 0xC0) 512)

/-- The reserved bits of an operating-point entry (R330). -/
def opReserved : Nat := maskAt 89 39 ||| maskAt 77 3 ||| maskAt 70 2 ||| maskAt 48 16

def recordReserved (va : Word) (b : Nat) : FaultInfo := mkFault 0x5001 va (BitVec.ofNat 32 b)
def optableInvalid (i : Nat) : FaultInfo := mkFault 0x5003 0 (BitVec.ofNat 32 i)

/-- An entry whose fields R487 refuses. -/
def opBad (e : BitVec 128) : Bool :=
  let st := opStep e
  let band := if st < 4 then 0 else if st < 8 then 1 else 2
  decide (13 < st) || opVclass e == 3 || opVclass e != band || decide (0x17 < opFmt e) || opFmt e == 0x0A
  || opTiles e == 0 || decide (256 < opTiles e)

/-- The entries of a table read: the lowest fault found, or the entries. -/
def readTable (s : State) (who : Who) (va : Word) : Nat → Except FaultInfo (List (BitVec 128))
  | 0 => .ok []
  | n + 1 =>
    match readTable s who va n with
    | .error f => .error f
    | .ok l =>
      match schedRead s who (va + BitVec.ofNat 64 (16 * n)) 16 with
      | .error f => .error f
      | .ok x => .ok (l ++ [BitVec.ofNat 128 x])

/-- The checks of a table (R487): RECORD_RESERVED first. -/
def tableFault (va : Word) (l : List (BitVec 128)) : List FaultInfo :=
  l.zipIdx.flatMap fun x =>
    (match badByte x.1.toNat opReserved 16 with
    | some b => [recordReserved (va + BitVec.ofNat 64 (16 * x.2)) b]
    | none => []) ++ if opBad x.1 then [optableInvalid x.2] else []

/-- The incomplete nodes of a queue that a node with predecessors `l` waits for, directly or not (R334). -/
def ancestors (s : State) (q : Nat) : Nat → List (BitVec 32) → List (BitVec 32)
  | 0, l => l
  | fuel + 1, l =>
    let more := (s.dev.sched.nodes.filter fun n => n.queue == q && l.contains n.seq).flatMap (·.preds)
    ancestors s q fuel (l ++ more.filter fun x => !l.contains x)

/-- Two ranges overlap, one of them written (R47). -/
def conflict (a b : Nat × Nat × Bool) : Bool :=
  (a.2.2 || b.2.2) && decide (a.1 < b.1 + b.2.1) && decide (b.1 < a.1 + a.2.1)

/-- RANGE_CONFLICT (R334, R487). -/
def rangeFault (s : State) (q : Nat) (hdr : Nat) (preds : List (BitVec 32)) : List FaultInfo :=
  let anc := ancestors s q s.dev.sched.nodes.length preds
  match s.dev.sched.nodes.find? fun n =>
    n.queue == q && !anc.contains n.seq && (rangesOf n.header.toNat).any fun a => (rangesOf hdr).any (conflict a) with
  | some n => [mkFault 0x5005 0 n.seq]
  | none => []

/-- The predecessors of node `seq` that are not complete (R334). -/
def predsOf (s : State) (q : Nat) (seq : BitVec 32) (hdr : Nat) : List (BitVec 32) :=
  ((List.range 8).filterMap fun i =>
    let d := nbits hdr (8 * (0x20 + 2 * i)) 16
    let p := seq - BitVec.ofNat 32 d
    if d ≠ 0 ∧ d ≤ seq.toNat ∧ (s.dev.sched.nodes.any fun n => n.queue == q && n.seq == p) then some p else none).eraseDups

/-- A ring entry that cannot be accepted: the queue is read no further, and its domain stops (R488). -/
def refuseEntry (s : State) (who : Who) (q : Nat) (d : Nat) (f : FaultInfo) : State :=
  let fd := effFdom (regionsOf s (jobPath s q (qWorld d)))
  let s1 := setQueue (schedEffects s who fd f) q { s.queue q with blocked := true }
  let r := reportRecord s1 4 f.res false (mkWho (qRead d) q 0 fd) fd (qCtx d) f false
  stopDomain (addRecord s1 { r with about := some (qWorld d, none) }) fd

/-- A node as the graph unit accepts it. -/
def newNode (s : State) (q d : Nat) (hdr : Nat) (table : List (BitVec 128)) (preds : List (BitVec 32)) : Node where
  key := s.dev.sched.nextKey
  queue := q
  seq := qRead d
  world := qWorld d
  ctx := qCtx d
  header := BitVec.ofNat 2048 hdr
  table := table
  preds := preds
  phase := if preds.isEmpty then .ready else .waiting
  launch := none
  hasRcb := false
  region := regionOf rcbInherit
  waited := 0
  entry := 0
  opStart := 0
  started := false
  start := none
  energy := 0
  work := 0
  changes := 0
  preempts := 0
  cores := []
  polite := none
  parking := false
  begun := false
  overTicks := 0
  measured := 0
  demoted := false
  parks := 0
  saved := []
  moved := false

/-- A node entered in the graph unit. -/
def enterNode (s : State) (n : Node) : State :=
  setSched s { s.dev.sched with nodes := s.dev.sched.nodes ++ [n], nextKey := s.dev.sched.nextKey + 1 }

/-- The code with which a node ends for a predecessor that has ended with SHED or FAULT (R356, R424). -/
def goneCode (s : State) (q : Nat) (seq : BitVec 32) (hdr : Nat) : Option Nat :=
  ((s.queue q).gone.find? fun g => (List.range 8).any fun i =>
    let d := nbits hdr (8 * (0x20 + 2 * i)) 16
    d != 0 && decide (d ≤ seq.toNat) && seq - BitVec.ofNat 32 d == g.1).map (·.2)

/-- What becomes of a node at its acceptance that cannot run: it ends with its predecessor's code, or, affected under shed, with SHED
(R356, R424). -/
def settleAccepted (s : State) (n : Node) : State :=
  match goneCode s n.queue n.seq n.header.toNat with
  | some c => endNode s n.key c
  | none => if s.dev.power.grade = 3 ∧ affected s n then endNode s n.key 2 else s

/-- The next entry of a queue read, checked and accepted (R328, R334, R487); a queue that is not live loses its slot (R325). -/
def readEntryOf (s : State) (q : Nat) : State :=
  let d := queueDesc s q
  match (if queueLive s d then queueWho s d else none) with
  | none => setQueue s q { s.queue q with slot := none }
  | some who =>
    let part := s.worldPart (qWorld d)
    let mine := s.dev.sched.nodes.filter fun n => s.worldPart n.world == part
    if (s.queue q).blocked || qRead d == qWrite d || 1024 * (s.partQuarters part).length ≤ mine.length then s
    else
      let va := qRing d + BitVec.ofNat 64 (256 * ((qRead d).toNat % 2 ^ qLog2n d))
      match schedRead s who va 256 with
      | .error f => refuseEntry s who q d f
      | .ok hdr =>
        let nopt := nbits hdr (8 * 0x18) 4
        let own := (match badByte hdr headerReserved 256 with
          | some b => [recordReserved va b]
          | none => []) ++ if nopt = 0 ∨ 8 < nopt then [optableInvalid 0] else []
        let optab := BitVec.ofNat 64 (nbits hdr 64 64)
        match firstFault own with
        | some f => refuseEntry s who q d f
        | none =>
          match readTable s who optab nopt with
          | .error f => refuseEntry s who q d f
          | .ok table =>
            let preds := predsOf s q (qRead d) hdr
            match firstFault (tableFault optab table ++ rangeFault s q hdr preds) with
            | some f => refuseEntry s who q d f
            | none =>
              let s0 := schedCorrect (schedCorrect s who va 256) who optab (16 * nopt)
              let n := newNode s q d hdr table preds
              settleAccepted (setQRead (enterNode s0 n) q (qRead d + 1)) n

/-- The slot that the rotation visits: the first that is held, from `visit` on (R328). -/
def visitedSlot (s : State) : Option Nat :=
  ((List.range 32).map fun i => (s.dev.sched.visit + i) % 32).find? fun i => (slotsHeld s).contains i

/-- MAPPER_READ (R328). -/
def execMapperRead (slot : Nat) (s : State) : Out :=
  let t := dropDead s
  match visitedSlot t with
  | none => .next t
  | some i =>
    if i ≠ slot then .next t
    else
      match t.dev.sched.queues.findIdx? fun q => q.slot == some i with
      | none => .next t
      | some q =>
        let s1 := readEntryOf t q
        .next (setSched s1 { s1.dev.sched with visit := (i + 1) % 32 })

end Sys2Proof.Machine
end

