-- ==== Sys2Proof/Machine/Select.lean ====
section
/-! DEFINITION. Selection, admission and the binder (spec/14 R331, R335 to R339, R341; spec/15 R354, R355, R357, R359; spec/23 R487,
R488, R495; spec/02 R32, R33, R43). -/

namespace Sys2Proof.Machine

/-! ### Candidates -/

/-- AGE as it acts (R323). -/
def ageOf (s : State) : Nat := max 1 s.dev.sched.ageNow.toNat

/-- YWIN as it acts (R323). -/
def ywinOf (s : State) : Nat := max 1 s.dev.sched.ywinNow.toNat

/-- level(n) of R335. -/
def levelOf (s : State) (n : Node) : Nat := min 15 (baseLevel s n + n.waited / ageOf s)

/-- A quarter whose partition is to change (R392). -/
def quarterMoving (s : State) (q : Nat) : Bool :=
  let old := s.partitions.find? fun l => l.contains q
  let new := (layoutParts s.dev.host.layout.toNat).find? fun l => l.contains q
  old != new

/-- A quarter whose partition has lost a quarter (R499). -/
def quarterDead (s : State) (q : Nat) : Bool :=
  ((s.partitions.find? fun l => l.contains q).getD []).any fun x => s.dev.sched.deadQuarters.toList.getD x false

/-- Whether a node's world lets its contexts run (R364, R466). -/
def worldRuns (s : State) (n : Node) : Bool :=
  let w := s.world n.world
  w.phase == .running &&
    (match s.ctxOf n.world n.ctx with
    | some c => !(w.comps.toList.getD c.comp compOff).quarantined
    | none => false)

/-- Nothing keeps the Trailhead from a node (R325, R392, R413, R466). -/
def eligible (s : State) (n : Node) : Bool :=
  worldRuns s n && !s.isStopped (nodeFdom s n) && queueLive s (queueDesc s n.queue)
  && !((s.partQuarters (s.worldPart n.world)).any fun q => quarterDead s q || quarterMoving s q)

/-- A running BSP node that may gain cores (R336). -/
def mayGain (s : State) (n : Node) : Bool :=
  n.phase == .running && !n.gang && !n.leaving && decide (n.cores.length < opTiles n.cur)
  && s.vcores.any (waitingVcore n.key)

/-- A candidate of a selection pass (R335, R359). -/
def candidate (s : State) (n : Node) : Bool :=
  eligible s n &&
    match n.phase with
    | .ready => !(2 ≤ s.dev.power.grade.toNat && affected s n)
    | .resting _ => !(2 ≤ s.dev.power.grade.toNat && affected s n)
    | .running => mayGain s n
    | _ => false

/-- A list with an element inserted before the first that it is to precede. -/
def insertBy {α : Type} (lt : α → α → Bool) (x : α) : List α → List α
  | [] => [x]
  | y :: t => if lt x y then x :: y :: t else y :: insertBy lt x t

def sortBy {α : Type} (lt : α → α → Bool) (l : List α) : List α := l.foldr (insertBy lt) []

/-- The order within a region: earliest non-zero deadline, then none, then sequence number (R335). -/
def nodeBefore (a b : Node) : Bool :=
  let da := if a.deadline = 0 then 2 ^ 64 else a.deadline
  let db := if b.deadline = 0 then 2 ^ 64 else b.deadline
  decide (da < db) || (da == db && decide (a.seq.toNat < b.seq.toNat))

/-- The queues of a level in the order of the visit (R335). -/
def visitOrder (s : State) (qs : List Nat) : List Nat :=
  let up := sortBy (fun a b => decide (a < b)) qs.eraseDups
  match s.dev.sched.lastSel with
  | none => up
  | some (q, k) =>
    let w := effWeight (regionsOf s (.job q :: (s.dev.sched.nodes.find? fun n => n.queue == q).elim [] fun n => worldPath s n.world))
    let from' := if decide (k < w) && up.contains q then q else q + 1
    up.filter (fun x => decide (from' ≤ x)) ++ up.filter fun x => decide (x < from')

/-- The candidates in the order of the pass (R335). -/
def passOrder (s : State) : List Node :=
  let cs := s.dev.sched.nodes.filter (candidate s)
  (List.range 16).reverse.flatMap fun lv =>
    let here := cs.filter fun n => levelOf s n == lv
    (visitOrder s (here.map (·.queue))).flatMap fun q => sortBy nodeBefore (here.filter fun n => n.queue == q)

/-! ### Admission -/

/-- Whole division rounded up. -/
def ceilDiv (a b : Nat) : Nat := if b = 0 then 0 else (a + b - 1) / b

/-- The tick of a node's predicted finish under an entry (R336). -/
def predicted (s : State) (n : Node) (e : BitVec 128) : Nat :=
  s.dev.sched.tick + ceilDiv n.est (opTiles e * (opStep e + 2))

/-- The predicted finish meets the deadline. -/
def meetsDeadline (s : State) (n : Node) (e : BitVec 128) : Bool :=
  n.deadline == 0 || decide (predicted s n e * 100000 ≤ n.deadline)

/-- A core that admission may grant at a step (R27, R336). -/
def grantable (s : State) (part : Nat) (step core : Nat) : Bool :=
  let c := s.chip (chipOf core)
  (s.partQuarters part).contains (quarterOfCore core) && s.present core && !c.offline && !c.gated && c.step.toNat == step
  && (holderOf s core).isNone

/-- Cores granted one after another, in ascending cluster id, each charged to its cluster and to every region (R336). -/
def grantCores (s : State) (path : List RegionId) (part step : Nat) (e i : Int) (limit : Nat) : List Nat × State :=
  (List.range 256).foldl (fun (acc : List Nat × State) core =>
    let t := acc.2
    let cl := clusterIdOf core
    if acc.1.length < limit && grantable t part step core && decide (e ≤ t.dev.power.clusterE.toList.getD cl 0)
        && decide (i ≤ t.dev.power.clusterI.toList.getD cl 0) && fits t path e i then
      (acc.1 ++ [core], charge (chargeCluster t cl e i) path e i)
    else acc) ([], s)

/-- The cores that a node would be granted under an entry: none where it cannot be admitted (R336). -/
def tryEntry (s : State) (n : Node) (e : BitVec 128) : Option (List Nat × State) :=
  let c : Int := (max (opEnergy e) n.measured : Nat)
  let i : Int := (opIpeak e : Nat)
  let limit := if n.gang then n.vcnt else opTiles e - n.cores.length
  let r := grantCores s (nodePath s n) (s.worldPart n.world) (opStep e) c i limit
  if n.gang && r.1.length != n.vcnt then none else if r.1.isEmpty then none else some r

/-- The entries of a node's format with the least energy: the first of equals (R355). -/
def lowestOf (n : Node) (i : Nat) : Bool :=
  let same := (List.range n.table.length).filter fun j => opFmt (n.op j) == opFmt (n.op i)
  let least := same.foldl (fun b j => if opEnergy (n.op j) < opEnergy (n.op b) then j else b) (same.headD i)
  least == i

/-- The entries that a node may be admitted with (R336, R337, R355, R359). -/
def allowedEntries (s : State) (n : Node) : List Nat :=
  let all := List.range n.table.length
  let one := if n.phase == .running then [n.entry]
    else if n.started then all.filter fun i => opFmt (n.op i) == opFmt (n.op n.opStart) else all
  if s.dev.power.grade != 0 && affected s n && n.phase != .running then one.filter (lowestOf n) else one

/-- The chosen entry, its cores and the state with their charges (R336). -/
def admits (s : State) (n : Node) : Option (Nat × List Nat × State) :=
  let tried := (allowedEntries s n).filterMap fun i => (tryEntry s n (n.op i)).map fun r => (i, r.1, r.2)
  match tried.find? fun r => meetsDeadline s n (n.op r.1) with
  | some r => some r
  | none => tried.head?

/-! ### Launch records -/

/-- The checks of a launch record (R331, R487), and of a gang node's table. -/
def launchFaults (n : Node) (l : Rec64) : List FaultInfo :=
  let bad (i : Nat) : FaultInfo := mkFault 0x5002 0 (BitVec.ofNat 32 i)
  let vc := lrVcnt l
  let okCount := if lrGang l then decide (1 ≤ vc) && decide (vc ≤ 256) else vc != 0 && 1024 % vc == 0
  let sizes : List Nat := [4, 8, 8, 16]
  let pcs := sizes.zipIdx.filterMap fun x => if (lrPc l x.2).toNat % x.1 ≠ 0 then some (x.2 + 1) else none
  let fifo := (List.range 32).find? fun b => nbits (lrBanks l).toNat (2 * b) 2 == 3
  (match badByte l.toNat (maskAt 13 51) 64 with
    | some b => [recordReserved n.launchVa b]
    | none => [])
  ++ (if okCount then [] else [bad 0])
  ++ pcs.map bad
  ++ (if (List.range 4).all fun i => lrPc l i == 0 then [bad 5] else [])
  ++ (match fifo with
    | some b => [bad (6 + b * 256)]
    | none => [])
  ++ (if lrGang l then (n.table.zipIdx.filter fun x => decide (opTiles x.1 < vc)).map fun x => optableInvalid x.2 else [])

/-- A fault found with a node's launch record: the node keeps its place, unadmitted (R334, R488). -/
def holdNode (s : State) (n : Node) (f : FaultInfo) : State :=
  nodeFault ((accessEffects s n f).setNode { n with phase := .held, launch := none }) n 4 f

/-- A node's launch record, and its table where RESUME has it read afresh, read at its first admission attempt (R334, R488). -/
def readLaunch (s : State) (who : Who) (n0 : Node) : State × Bool :=
  let table := if n0.table.isEmpty then readTable s who n0.optabVa n0.nopt else .ok n0.table
  match table, schedRead s who n0.launchVa 64 with
  | .error f, _ => (holdNode s n0 f, false)
  | _, .error f => (holdNode s n0 f, false)
  | .ok tb, .ok x =>
    let n := { n0 with table := tb }
    let l := BitVec.ofNat 512 x
    match firstFault (tableFault n.optabVa tb ++ launchFaults n l) with
    | some f => (holdNode s n f, false)
    | none =>
      let s1 := (schedCorrect s who n0.launchVa 64).setNode { n with launch := some l, hasRcb := lrRcb l != 0 }
      let path := nodePath s1 n
      let s2 := if lrRcb l = 0 then s1 else acceptRcb s1 (.node n.key) path (.virt who (lrRcb l))
      let r := getRegion s2 (.node n.key)
      (setRegion s2 (.node n.key) { r with
        eLeft := effective rcbEnergy 0xFFFFFFFF (regionsOf s2 path), iLeft := effective rcbIpeak 0xFFFFFFFF (regionsOf s2 path) },
        true)

/-- A node with a launch record, or the state in which it has none. -/
def prepared (s : State) (n : Node) : State × Option Node :=
  if n.launch.isSome then (s, some n)
  else
    match nodeWho s n with
    | none => (s, none)
    | some who =>
      let (s1, ok) := readLaunch s who n
      (s1, if ok then s1.node? n.key else none)

/-- A chiplet on which a core is granted is idle no longer (R347). -/
def occupyChips (s : State) (cores : List Nat) : State :=
  cores.foldl (fun t c => setChip t (chipOf c) { t.chip (chipOf c) with idle := 0 }) s

/-- Cores given to a node (R336). -/
def admitted (s : State) (n : Node) (i : Nat) (cores : List Nat) : State :=
  let e := n.op i
  let k := s.node? n.key |>.getD n
  let changed := n.started && i != n.entry
  let s1 := (occupyChips s cores).setNode { k with
    entry := i
    cores := k.cores ++ cores
    energy := k.energy + cores.length * max (opEnergy e) n.measured
    changes := if changed then k.changes + 1 else k.changes
    phase := if k.phase == .running then .running else .selected }
  let sel := match s1.dev.sched.lastSel with
    | some (q, c) => if q = n.queue then (q, c + 1) else (n.queue, 1)
    | none => (n.queue, 1)
  setSched s1 { s1.dev.sched with lastSel := some sel }

/-- The pass: the first candidate that can be admitted is; one that cannot, or whose launch record faults, is passed over (R335). A
node whose launch record shows it to be affected under shed completes with SHED (R356). When nothing is admitted the pass is done. -/
def selectFirst (s : State) : List Node → State
  | [] => { s with dev := { s.dev with sched := { s.dev.sched with due := false } } }
  | n :: ns =>
    match s.node? n.key with
    | none => selectFirst s ns
    | some n1 =>
      if !candidate s n1 then selectFirst s ns
      else
        match prepared s n1 with
        | (s1, none) => selectFirst s1 ns
        | (s1, some m) =>
          if s1.dev.power.grade = 3 ∧ affected s1 m then selectFirst (endNode s1 m.key 2) ns
          else if !candidate s1 m then selectFirst s1 ns
          else
            match admits s1 m with
            | some (i, cores, s2) => admitted s2 m i cores
            | none => selectFirst s1 ns

/-- SELECTION (R335, R336): when cores have been freed, and at each tick boundary. -/
def execSelection (s : State) : Out := .next (if s.dev.sched.due then selectFirst s (passOrder s) else s)

/-! ### Requests -/

/-- rem(v) of R340. -/
def remTicks (n : Node) : Nat := ceilDiv (n.est - n.work) (n.cores.length * (opStep n.cur + 2))

/-- A polite request with a window: YSTAT.REQ in every vcore of the node that holds a core (R341, R357). -/
def politeRequest (s : State) (k window : Nat) (parking : Bool) : State :=
  match s.node? k with
  | none => s
  | some n =>
    let ask (v : Vcore) : Vcore := if v.ofNode k && v.resident && !v.stopped then { v with regs := { v.regs with ystat := true } } else v
    (s.mapVcores ask).setNode { n with polite := some (0, window), parking := parking, begun := false }

/-- A request withdrawn from a node of which no vcore has answered (R360). -/
def withdrawRequest (s : State) (k : Nat) : State :=
  match s.node? k with
  | none => s
  | some n =>
    if n.polite.isNone || n.begun || (nodeVcores s k).any (fun v => v.regs.yieldack || (v.id.gang && v.ended)) then s
    else
      let unask (v : Vcore) : Vcore :=
        if v.ofNode k then { v with regs := { v.regs with ystat := false }, cutbackDue := false } else v
      (s.mapVcores unask).setNode { n with polite := none, parking := false }

/-- What a running node receives under the grade in force: a park request (R357), or its end (R356). -/
def underGrade (s : State) (k : Nat) : State :=
  match s.node? k with
  | none => s
  | some n =>
    if n.phase != .running || !affected s n then s
    else if s.dev.power.grade = 3 then endNode s k 2
    else if s.dev.power.grade = 2 then
      if s.isStopped (nodeFdom s n) then
        if (nodeVcores s k).all (fun v => !v.resident) then
          let (s1, saved) := parkNode s n
          (s1.setNode { n with
            phase := .resting true, cores := [], waited := 0, parking := true, parks := n.parks + 1, saved := saved
            moved := false }).selectDue
        else endNode s k 2
      else if n.polite.isSome && !n.parking then s.setNode { n with parking := true, polite := some (0, 20) }
      else if n.polite.isSome || remTicks n ≤ 2 then s
      else politeRequest s k 20 true
    else s

/-! ### The binder -/

/-- The launch state of vcore i of a node (R33). -/
def launchVcore (s : State) (n : Node) (l : Rec64) (i : Nat) : Vcore :=
  let c := (s.ctxOf n.world n.ctx).getD ⟨n.ctx, n.world, 0, 0⟩
  let banks := lrBanks l
  let id : Ident := ⟨n.key, BitVec.ofNat 10 i, BitVec.ofNat 11 (lrVcnt l), lrGang l, lrPriv l && qVf (queueDesc s n.queue) == 0,
    n.ctx, n.world, c.comp, nodeFdom s n, banks, .ofFn fun j => lrPc l j.val⟩
  let stream (j : Nat) : Stream := { streamOff with pc := lrPc l j, halted := lrPc l j == 0 }
  let regs := { regsZero with
    s := ((regsZero.s.set 1 (lrArgs l)).set 2 (BitVec.ofNat 64 i)).set 3 (BitVec.ofNat 64 (lrVcnt l))
    s1root := c.root &&& 0xFFFFFFFFFFFFFF }
  takeSnapshot { vcoreAbsent with
    id := id, res := .off, regs := regs, sS := stream 0, sV := stream 1, sM := stream 2, sC := stream 3, st := storeInit banks }

/-- OPSTART and STATUS written before the first instruction (R332). -/
def writeOpstart (s : State) (n : Node) : Except FaultInfo State :=
  match nodeWho s n with
  | none => .error (mkFault 0x2002 n.complVa)
  | some who =>
    match schedWrite s who (n.complVa + 0x20) (bytesLE 1 n.entry) with
    | .error f => .error (if f.addr = n.complVa + 0x20 then { f with addr := n.complVa } else f)
    | .ok s1 => schedWrite s1 who n.complVa (bytesLE 8 0)

/-- The vcores of a node that hold no core spread over its cores (R337): vcore i of c cores is bound to core i modulo c. -/
def spreadVcores (s : State) (k : Nat) (cores : List Nat) : State :=
  s.mapVcores fun v => if v.ofNode k && v.res == .off then { v with bound := cores.getD (v.id.vcid.toNat % cores.length) v.bound } else v

/-- A node started: its vcores launched and spread over its cores (R33, R337). A failing write of OPSTART holds it unbound, and its
cores are free for others (R488). -/
def startNode (s : State) (n : Node) (l : Rec64) : State :=
  match writeOpstart s n with
  | .error f => nodeFault ((accessEffects s n f).setNode { n with phase := .held, cores := [] }).selectDue n 4 f
  | .ok s1 =>
    let vs := (List.range (lrVcnt l)).map (launchVcore s1 n l)
    let s2 := { s1 with others := s1.others ++ vs }
    let s3 := s2.setNode { n with phase := .running, started := true, opStart := n.entry }
    fillCores (spreadVcores (setSched s3 { s3.dev.sched with launched := true }) n.key n.cores) n.key

/-- Write ranges restored from the park tier, with the poison that travels with them (R359, R474). -/
def restoreRanges (s : State) (n : Node) : State :=
  n.saved.foldl (fun t r =>
    match s.dev.park.find? fun x => x.off == r.2.2 with
    | some x =>
      match parkTake s n x with
      | some b => (x.marks.poison.map (· + r.1 / 256)).foldl addPoison (homeWrite t r.1 b)
      | none => t
    | none => t) s

/-- A node resumed from its images (R341, R359); a parked image that fails its check ends the node (R469). -/
def resumeNode (s00 : State) (n : Node) : State :=
  let s := if n.parking then (s00.dev.park.filter fun x => x.node == n.key).foldl parkCorrect s00 else s00
  match (if n.parking then parkBad s n else none) with
  | some v =>
    let f := mkFault 0x3007 0 (BitVec.ofNat 32 v.toNat)
    endNode (addRecord s ((reportRecord s 5 false false (nodeWhoWord s n) (nodeFdom s n) n.ctx f true).ofNode n)) n.key 3
  | none =>
    let s0 := if n.parking then unparkImages s n else s
    let s1 := dropParked (if n.moved then restoreRanges s0 n else s0) n.key
    let s2 := s1.setNode { n with
      phase := .running, preempts := if n.parking then n.preempts + 1 else n.preempts, parking := false, saved := [], moved := false }
    fillCores (spreadVcores s2 n.key n.cores) n.key

/-- BINDER_PLACE (R325, R337): no node of a queue that is not live is bound. -/
def execBinderPlace (node : Nat) (s : State) : Out :=
  match s.node? node with
  | none => .next s
  | some n =>
    if s.isStopped (nodeFdom s n) then .next s
    else
      match n.phase, n.launch with
      | .selected, some l =>
        .next (if queueLive s (queueDesc s n.queue) then underGrade (if n.started then resumeNode s n else startNode s n l) node else s)
      | .running, _ => .next (fillCores s node)
      | _, _ => .next s

/-! ### Pre-emption that has been decided -/

/-- A cutback of the vcore in focus, now or at its next commit (R56, R58), with which it leaves its core. -/
def cutRequest (s : State) : State :=
  if s.vc.ni || s.vc.id.gang then { s with vc := { s.vc with cutbackDue := true } }
  else
    let (s1, ok) := tryFlush s
    if ok then cutAway s1 else { s1 with vc := { s1.vc with cutbackDue := true } }

/-- Every vcore of a node that holds a core and satisfies p is cut back (R340, R341, R357); those of a gang job leave together (R44). -/
def cutNode (s : State) (k : Nat) (p : Vcore → Bool) : State :=
  let t := forVcores s k (fun v => v.resident && !v.stopped && p v) cutRequest
  if (nodeVcores t k).any fun v => v.id.gang && v.resident then gangLeave t k else settleRest t k

/-- A request whose window has run out: the vcores that have not acknowledged it are cut back, the others yield at their next commit
(R305, R341). -/
def expireWindow (s : State) (k : Nat) : State :=
  match (s.node? k).bind Node.polite with
  | some (t, w) => if w ≤ t then cutNode s k fun v => !v.regs.yieldack else s
  | none => s

/-- A tick boundary is the present moment: the events that the spec ties to one act at no other time (R322). -/
def State.atBoundary (s : State) : Bool := s.dev.time == s.dev.sched.tick * 100000

/-- POLITE_WINDOW_EXPIRY (R322, R341): at a tick boundary, as its last step. -/
def execPoliteWindowExpiry (node : Nat) (s : State) : Out := .next (if s.atBoundary then expireWindow s node else s)

/-- ECLASS_DEMOTED (R495). -/
def execEclassDemoted (node : Nat) (s : State) : Out :=
  match s.node? node with
  | none => .next s
  | some n =>
    if 8 ≤ n.overTicks ∧ n.demoted = false then
      .next (nodeNotice (s.setNode { n with demoted := true }) n 6 0x6002 (BitVec.ofNat 32 n.ownClass))
    else .next s

/-- The words that a vcore's streams have issued since its last commit. -/
def issuedWords (v : Vcore) : Nat := v.sS.cmdix.toNat + v.sV.cmdix.toNat + v.sM.cmdix.toNat + v.sC.cmdix.toNat

/-- A vcore whose streams all wait with CAUSE 0 to 3, with nothing in flight (R491). -/
def waitsAll (v : Vcore) : Bool :=
  let l := [v.sS, v.sV, v.sM, v.sC].filter fun x => !x.halted
  v.resident && !v.stopped && v.st.ops.isEmpty && v.st.follow.isEmpty && !l.isEmpty
  && l.all fun x => x.wait.waiting && decide (x.wait.cause.toNat ≤ 3)

/-- A vcore has been stalled at TICKS consecutive boundaries, the last of them now (R491): what it has issued since its last commit, which
starts the count anew, is what it had issued at the boundary before. -/
def stalledNow (s : State) (v : Vcore) : Bool :=
  let key := v.id.node * 1024 + v.id.vcid.toNat
  s.dev.sched.stallNow != 0 && waitsAll v
  && s.dev.sched.stalls.any fun x => x.1 == key && decide (s.dev.sched.stallNow.toNat ≤ x.2.1) && x.2.2 == issuedWords v

/-- Each waiting stream of the vcore in focus delivers a STALL record, and its domain stops (R491). -/
def stallVcore (s : State) : State :=
  let one (t : State) (st : StreamId) : State :=
    let x := t.stream st
    if x.wait.waiting && !x.halted then
      addRecord t (vcoreRecord t st (stopBefore t st) (mkFault 0x5008 0 (x.wait.word.setWidth 32)))
    else t
  stopDomain (freshStall (streams4.foldl one s)) s.vc.id.fdom

/-- STALL (R491): at the boundary at which it is due. -/
def execStall (core : Nat) (s : State) : Out :=
  match s.focusCore core with
  | none => .next s
  | some s1 => .next (if s1.atBoundary && stalledNow s1 s1.vc then stallVcore s1 else s1)

end Sys2Proof.Machine
end

