-- ==== Sys2Proof/Machine/Power.lean ====
section
/-! DEFINITION. Power samples, voltages, junction and stack temperatures, currents, frequency steps, grades and gating (spec/15 R342
to R363; spec/23 R493 to R500, R507). What is measured is an operand of its event (log 17). -/

namespace Sys2Proof.Machine

def setPow (s : State) (p : Power6) : State := { s with dev := { s.dev with power := p } }

def setHost (s : State) (h : HostSide) : State := { s with dev := { s.dev with host := h } }

/-- MSI-X vector v of a function raised: held pending while the port is down (R389, R503). -/
def raiseMsix (s : State) (fn v : Nat) : State :=
  let h := s.dev.host
  if h.portUp then setHost s { h with msixSent := h.msixSent ++ [(fn, v)] }
  else if h.msixPending.contains (fn, v) then s else setHost s { h with msixPending := h.msixPending ++ [(fn, v)] }

/-- A message sent on the side-band port. -/
def sideband (s : State) (m : List Byte) : State := setHost s { s.dev.host with sideband := s.dev.host.sideband ++ [m] }

/-- The partition that holds a chiplet. -/
def chipPart (s : State) (c : Nat) : Nat := s.partOf (c / 2)

/-- Nodes that hold a core of a chiplet. -/
def nodesOn (s : State) (c : Nat) : List Node := s.dev.sched.nodes.filter fun n => n.cores.any fun x => chipOf x == c

/-- A chiplet that no vcore occupies (R347, R358). -/
def chipEmpty (s : State) (c : Nat) : Bool := (nodesOn s c).isEmpty && s.vcores.all fun v => match v.res with
  | .core n => chipOf n != c
  | _ => true

/-! ### Samples -/

/-- The mean of a list of samples. -/
def mean (l : List Nat) : Nat := if l.isEmpty then 0 else l.foldl (· + ·) 0 / l.length

/-- The energy of one sample of 10 us in ETOTAL (R350). -/
def addEnergy (p : Power6) (watts : Nat) : Power6 :=
  let e := p.eRest + 10 * watts
  { p with etotal := p.etotal + BitVec.ofNat 64 (e / 1000), eRest := e % 1000 }

/-- The voltage range of a class in mV (R342). -/
def classRange (step : Nat) : Nat × Nat := if step < 4 then (400, 550) else if step < 8 then (550, 700) else (700, 950)

/-- The voltage of a core, which is that of its column (R15, R16). -/
def State.voltage (s : State) (core : Nat) : Nat := s.dev.power.columns.toList.getD (columnOf core) 0

/-- VOLTAGE_TRIM (R343): a column goes to a voltage of its chiplet's class, in steps of 5 mV; a gated chiplet's stay down (R358). -/
def execVoltageTrim (column mv : Nat) (s : State) : Out :=
  let (lo, hi) := classRange (s.chip (column / 8)).step.toNat
  if decide (lo ≤ mv) && decide (mv ≤ hi) && mv % 5 == 0 && !(s.chip (column / 8)).gated then
    .next (setPow s { s.dev.power with columns := vecSet s.dev.power.columns column mv })
  else .next s

/-! ### Steps and entries -/

/-- The columns of a chiplet brought into a class range. -/
def classColumns (cols : Vector Nat 64) (c step : Nat) : Vector Nat 64 :=
  let (lo, hi) := classRange step
  Vector.ofFn fun i => if i.val / 8 = c then max lo (min hi (cols.get i)) else cols.get i

/-- The columns of a chiplet brought down (R358). -/
def downColumns (cols : Vector Nat 64) (c : Nat) : Vector Nat 64 := Vector.ofFn fun i => if i.val / 8 = c then 0 else cols.get i

/-- A step change of a chiplet (R344); a gated one has its columns down until it is ungated (R358). -/
def setStep (s : State) (c step : Nat) : State :=
  let s1 := setChip s c { s.chip c with step := BitVec.ofNat 4 step }
  if (s.chip c).gated then s1 else setPow s1 { s1.dev.power with columns := classColumns s1.dev.power.columns c step }

/-- The lowest step of the chiplets on which a node holds cores. -/
def lowestStep (s : State) (n : Node) : Nat := n.cores.foldl (fun b x => min b (s.chip (chipOf x)).step.toNat) 15

/-- The entries of the format of a node's entry in force. -/
def sameFmt (n : Node) : List Nat := (List.range n.table.length).filter fun j => opFmt (n.op j) == opFmt n.cur

/-- The first of a list with the largest f. -/
def argMax (f : Nat → Nat) : List Nat → Option Nat
  | [] => none
  | i :: t => some (t.foldl (fun b j => if f b < f j then j else b) i)

/-- The entry in force of a node whose chiplets run a step (R355). -/
def entryAt (n : Node) (step : Nat) : Nat :=
  let fit := (sameFmt n).filter fun j => decide (opStep (n.op j) ≤ step)
  match argMax (fun j => opStep (n.op j)) fit with
  | some j => if opStep n.cur = opStep (n.op j) then n.entry else j
  | none => (argMax (fun j => 15 - opStep (n.op j)) (sameFmt n)).getD n.entry

/-- Cores of a BSP node beyond the TILES of the entry in force leave it: their vcores are cut back (R48, R56). -/
def trimTiles (s : State) (k : Nat) : State :=
  match s.node? k with
  | none => s
  | some n =>
    if n.gang then s
    else (n.cores.drop (opTiles n.cur)).foldl (fun t c =>
      if t.vcores.any fun v => v.onCore c && !v.stopped then forVcores t k (fun v => v.onCore c) cutRequest else freeCore t k c) s

/-- Entries re-chosen on the chiplets of a list (R345, R355, R496). -/
def rechoose (s : State) (chips : List Nat) : State :=
  let one (n : Node) : Node :=
    if n.cores.any fun x => chips.contains (chipOf x) then
      let e := entryAt n (lowestStep s n)
      if e = n.entry then n else { n with entry := e, changes := n.changes + 1 }
    else n
  let s1 := { s with dev := { s.dev with sched := { s.dev.sched with nodes := s.dev.sched.nodes.map one } } }
  (s.dev.sched.nodes.map (·.key)).foldl trimTiles s1

/-- The STEPs of the same-format entries of the nodes on a chiplet. -/
def chipSteps (s : State) (c : Nat) : List Nat := ((nodesOn s c).flatMap fun n => (sameFmt n).map fun j => opStep (n.op j)).eraseDups

/-- The least energy per core of a node's format. -/
def atLowest (n : Node) : Bool := (sameFmt n).all fun j => decide (opEnergy n.cur ≤ opEnergy (n.op j))

def runningAffected (s : State) : List Node := s.dev.sched.nodes.filter fun n => n.phase == .running && affected s n

/-- The order in which slow takes nodes (R355). -/
def slowBefore (s : State) (a b : Node) : Bool :=
  if a.eclass ≠ b.eclass then decide (b.eclass < a.eclass)
  else if baseLevel s a ≠ baseLevel s b then decide (baseLevel s a < baseLevel s b)
  else decide (b.seq.toNat < a.seq.toNat)

/-- The power that the entries in force declare, with the fixed part, meets the target (R355; spec/19 shows the sum; log 17). -/
def targetMet (s : State) : Bool :=
  let uj := s.dev.sched.nodes.foldl (fun b n => b + min n.cores.length (opTiles n.cur) * opEnergy n.cur) 0
  decide (uj + 100 * s.dev.power.fixed ≤ 100 * s.dev.power.target)

/-- Chiplets lowered under a cap: each to the largest STEP of its nodes that the cap allows, or its least; none is raised (R355). -/
def lowerChips (s : State) (chips : List Nat) (cap : Nat) : State :=
  let goal (c : Nat) : Nat :=
    let l := chipSteps s c
    let k := (argMax id (l.filter fun x => decide (x ≤ cap))).getD ((argMax (15 - ·) l).getD 15)
    min k (s.chip c).step.toNat
  let moved := chips.filter fun c => decide (goal c < (s.chip c).step.toNat)
  rechoose (moved.foldl (fun t c => setStep t c (goal c)) s) moved

/-- A node's turn under slow: its chiplets go to the largest step at which the target is met, or the least where none meets it (R355). -/
def slowNode (s : State) (k : Nat) : State :=
  match s.node? k with
  | none => s
  | some n =>
    if targetMet s then s
    else
      let chips := (n.cores.map chipOf).eraseDups
      let caps := sortBy (fun a b => decide (b < a)) ((chips.flatMap (chipSteps s)).eraseDups)
      match caps.find? fun x => targetMet (lowerChips s chips x) with
      | some x => lowerChips s chips x
      | none => lowerChips s chips 0

/-- GRADE_SLOW (R355). -/
def gradeSlow (s : State) : State := ((sortBy (slowBefore s) (runningAffected s)).map (·.key)).foldl slowNode s

/-- GRADE_PARK (R357): every running affected node is asked, or drains. -/
def gradePark (s : State) : State := (runningAffected s).foldl (fun t n => underGrade t n.key) s

/-- A node that shed ends: not one that is parked in full, nor one that is selected, which is bound first (R356, R360). -/
def shedNow (n : Node) : Bool :=
  match n.phase with
  | .selected => false
  | .resting parked => !parked
  | .completing _ => false
  | _ => true

/-- GRADE_SHED (R356). -/
def gradeShed (s : State) : State :=
  (s.dev.sched.nodes.filter fun n => shedNow n && affected s n).foldl (fun t n => endNode t n.key 2) s

/-! ### The bound of a response -/

/-- Bytes that a node parks, or has parked, from a quarter (R357): what stands in the tier, and what is still to be written. -/
def parkedOf (s : State) (q : Nat) (n : Node) : Nat :=
  let items := s.dev.park.filter fun x => x.node == n.key
  let written := (items.filter fun x => tierQuarter x.off == q).foldl (fun b x => b + x.len) 0
  if n.phase != .running then written
  else
    let left := (nodeVcores s n.key).filter fun v => quarterOfCore v.bound == q && !(items.any fun x => x.vcid == some v.id.vcid)
    let ranges := if parkHome s n = q then writeRanges s n accRead else []
    written + left.length * imageSize + ranges.foldl (fun b r => b + r.2) 0

/-- Bytes parked or to be parked from a quarter (R357). -/
def parkedBytes (s : State) (q : Nat) : Nat := (s.dev.sched.nodes.filter (·.parking)).foldl (fun b n => b + parkedOf s q n) 0

/-- The longest time for which R58 holds back a cutback that the grade has asked for (R357). -/
def longestHold (s : State) : Nat :=
  (s.vcores.filter fun v => v.cutbackDue && v.ni).foldl (fun b v => max b (noteHeld { s with vc := v }).dev.power.heldBack)
    s.dev.power.heldBack

/-- The response bound of the grade in force in ns (R355 to R357). An excess over 64 GiB parked from a quarter extends that of park
at 300 GB/s, and so does an interval of R58 beyond 1 ms. -/
def responseBound (s : State) : Nat :=
  match s.dev.power.grade.toNat with
  | 1 => 2000000
  | 2 =>
    let hold := longestHold s
    300000000 + (List.range 4).foldl (fun b q => max b ((parkedBytes s q - 64 * 2 ^ 30) / 300)) 0
      + if 1000000 < hold then hold else 0
  | _ => 10000000

/-- The cause that CURT_LATE names (R493, R507). -/
def lateCause (s : State) : Nat :=
  if (List.range 8).any fun c => (s.chip c).offline then 3
  else if s.dev.power.hbmLevel.toList.any (· != 0) then 2
  else if s.vcores.any (·.cutbackDue) then 0 else 1

/-- CURT_LATE of a response that has ended at a time past its bound (R493). -/
def lateBy (s : State) (ended : Nat) : State :=
  let p := s.dev.power
  let bound := p.trigger + responseBound s
  if p.grade = 0 ∨ p.late ∨ ended ≤ bound then s
  else
    let ms := min 0xFFFF ((ended - bound) / 1000000)
    rootNotice (setPow s { p with late := true }) 6 0x6004 (BitVec.ofNat 32 (p.grade.toNat + 4 * lateCause s + ms * 2 ^ 16))

/-! ### Grades -/

/-- Grade, threshold and source in force (R354). -/
def gradeOf (p : Power6) : BitVec 2 × Nat × Bool :=
  let pt := min 16 p.pinTh.toNat
  if p.pinEn = false then (p.curveGrade, p.curveThresh, false)
  else if p.curveGrade.toNat < p.pins.toNat then (p.pins, pt, true)
  else if p.pins.toNat < p.curveGrade.toNat then (p.curveGrade, p.curveThresh, false)
  else (p.pins, min pt p.curveThresh, false)

/-- A chiplet ready for gating (R356 to R358). -/
def gateReady (s : State) (c : Nat) : Bool :=
  let x := s.chip c
  decide (2 ≤ s.dev.power.grade.toNat) && !x.offline && !x.gated && chipEmpty s c

/-- The response of the grade in force is complete (R355 to R357, R360). -/
def responseDone (s : State) : Bool :=
  let noneReady := (List.range 8).all fun c => !gateReady s c
  match s.dev.power.grade.toNat with
  | 1 => targetMet s || (runningAffected s).all atLowest
  | 2 => (runningAffected s).isEmpty && (s.dev.sched.nodes.all fun n => !(n.phase == .selected && affected s n)) && noneReady
  | 3 => (s.dev.sched.nodes.all fun n => !(affected s n && (shedNow n || n.phase == .selected))) && noneReady
  | _ => false

/-- CURTST.DONE set once the response is complete (R360). -/
def refreshDone (s : State) : State :=
  if s.dev.power.done || !responseDone s then s else setPow s { s.dev.power with done := true, doneAt := s.dev.time }

/-- The action of the grade in force. -/
def gradeAction (s : State) : State :=
  match s.dev.power.grade.toNat with
  | 1 => gradeSlow s
  | 2 => gradePark s
  | 3 => gradeShed s
  | _ => s

/-- The grade in force follows its sources: a change of grade or threshold is a trigger (R354, R360). -/
def applyGrade (s : State) : State :=
  let p := s.dev.power
  let (g, th, src) := gradeOf p
  let t := BitVec.ofNat 5 th
  if p.grade = g ∧ p.thresh = t then setPow s { p with src := src }
  else
    let s0 := lateBy s (if p.done then p.doneAt else s.dev.time)
    let s1 := setPow s0 { p with
      grade := g, thresh := t, src := src, done := false, late := false, heldBack := 0
      since := if p.grade = g then p.since else BitVec.ofNat 48 s.dev.time
      trigger := s.dev.time }
    let s2 := if p.grade = g then s1 else raiseMsix s1 0 2
    let s3 := if g.toNat < p.grade.toNat then
        (s2.dev.sched.nodes.filter fun n => n.parking && n.phase == .running).foldl (fun u n => withdrawRequest u n.key) s2
      else s2
    refreshDone (gradeAction s3)

/-- CURT_PINS (R354): one sample of the pins; three equal samples take effect. -/
def execCurtPins (pins : BitVec 2) (s : State) : Out :=
  let p := s.dev.power
  let l := (pins :: p.pinSamples).take 3
  let s1 := setPow s { p with pinSamples := l, pins := if l = [pins, pins, pins] then pins else p.pins }
  .next (applyGrade s1)

/-! ### Gating -/

/-- The quarter of a chiplet enters self-refresh when all its chiplets are gated (R357). -/
def selfRefresh (s : State) (q : Nat) : State :=
  let off (c : Nat) : Bool := (s.chip c).gated || (s.chip c).offline
  if off (2 * q) && off (2 * q + 1) then
    setPow s { s.dev.power with selfRefresh := vecSet s.dev.power.selfRefresh q true }
  else s

/-- CHIPLET_GATE (R358): the highest-numbered chiplet that is ready. -/
def execChipletGate (chiplet : Nat) (s : State) : Out :=
  if chiplet < 8 ∧ gateReady s chiplet ∧ (List.range 8).all (fun c => !(decide (chiplet < c) && gateReady s c)) then
    let s1 := setChip s chiplet { s.chip chiplet with gated := true }
    let s2 := setPow s1 { s1.dev.power with columns := downColumns s1.dev.power.columns chiplet }
    .next (refreshDone (selfRefresh s2 (chiplet / 2)))
  else .next s

/-- A gated chiplet as if it ran a step. -/
def asUngated (s : State) (step c : Nat) : State :=
  if (s.chip c).gated then setChip s c { s.chip c with gated := false, step := BitVec.ofNat 4 step } else s

/-- The number of cores, up to a limit, that a node finds at a step. -/
def coresFor (s : State) (n : Node) (step limit : Nat) : Nat := (grantCores s [] (s.worldPart n.world) step 0 0 limit).1.length

/-- Admission needs a chiplet's cores (R358): some candidate finds fewer cores at a step of its entries than it may use, and would find
more were the chiplet ungated; a gang job only where enough are found once all are. -/
def chipWanted (s : State) (c : Nat) : Bool :=
  s.dev.sched.nodes.any fun n =>
    candidate s n && (allowedEntries s n).any fun i =>
      let step := opStep (n.op i)
      let need := if n.gang then n.vcnt else opTiles (n.op i) - n.cores.length
      let now := coresFor s n step need
      decide (now < need) && decide (now < coresFor (asUngated s step c) n step need)
      && (!n.gang || coresFor ((List.range 8).foldl (fun t x => asUngated t step x) s) n step need == need)

/-- CHIPLET_UNGATE (R358): its columns rise to the class of its step. -/
def execChipletUngate (chiplet : Nat) (s : State) : Out :=
  if chiplet < 8 ∧ (s.chip chiplet).gated ∧ chipWanted s chiplet then
    let s1 := setChip s chiplet { s.chip chiplet with gated := false }
    let p := s1.dev.power
    .next (setPow s1 { p with
      selfRefresh := vecSet p.selfRefresh (chiplet / 2) false
      columns := classColumns p.columns chiplet (s.chip chiplet).step.toNat }).selectDue
  else .next s

/-- CURT_LATE (R493): once DONE has been set after the bound, whose lateness it names. -/
def execCurtLate (s : State) : Out := .next (if s.dev.power.done then lateBy s s.dev.power.doneAt else s)

/-! ### Temperatures -/

/-- THROTTLE of a chiplet to the partition that holds it (R497). -/
def throttleChip (s : State) (c : Nat) : State :=
  partNotice s (chipPart s c) 6 0x6005 (BitVec.ofNat 32 (c + (s.chip c).step.toNat * 2 ^ 8 + 2 ^ 24))

/-- The available fraction of a level (R497). -/
def hbmFraction (level : Nat) : Nat := if level = 0 then 256 else if level = 1 then 240 else 144

/-- A stack's level changed, with THROTTLE to the partition that holds it (R497). -/
def setLevel (s : State) (stack level : Nat) : State :=
  let s1 := setPow s { s.dev.power with hbmLevel := vecSet s.dev.power.hbmLevel stack level }
  partNotice s1 (s1.partOf (stack / 3)) 6 0x6005 (BitVec.ofNat 32 (stack + hbmFraction level * 2 ^ 8))

/-! ### Die loss -/

/-- A vcore on a lost chiplet: back to its last commit, in its saved image; what its core held is gone (R361). Its dirty bytes are written
back before, so that its program order holds on the core it moves to (R146); those of locked lines are lost (log 32). -/
def lostVcore (s : State) : State :=
  let s1 := flushAll s
  let s2 := s1.vc.st.cache.foldl (fun t l => if l.lockedAt.isSome then loseLine t l else t) s1
  let v := emptyCore (cutVcore s2.vc)
  { s2 with vc := { v with res := .off, stopped := s2.vc.stopped } }

/-- LOST_REPLAY: a vcore that has performed a non-idempotent operation stops its domain (R498). -/
def lostReplay (s : State) (c : Nat) : State :=
  let f := mkFault 0x6007 0 (BitVec.ofNat 32 c)
  let n := (s.node? s.vc.id.node).map (·.seq)
  let q := ((s.node? s.vc.id.node).map (·.queue)).getD 0
  let r : Record := ⟨mkRecord (mkHdr 6 false false false false true false s.vc.id.ctx 0 f.status)
    (mkWho (n.getD 0) q s.vc.id.vcid s.vc.id.fdom) 0 0 0 0 (zx f.info) (BitVec.ofNat 64 s.dev.time),
    s.vc.id.fdom, false, some (s.vc.id.node, s.vc.id.vcid), none⟩
  stopDomain (addRecord s r) s.vc.id.fdom

/-- A vcore in focus meets the loss of its chiplet. -/
def meetLoss (s : State) (c : Nat) : State :=
  let core := s.coreId
  let s1 := if s.vc.ni && !s.vc.stopped then lostReplay s c else s
  freeCore (lostVcore s1) s1.vc.id.node core

/-- A node after a chiplet was lost returns to the Trailhead: its vcores on other chiplets are cut back and leave, at their next commit
where R58 holds them (R361, R498; log 32). -/
def afterLoss (s : State) (k : Nat) : State :=
  match s.node? k with
  | none => s
  | some n => cutNode (s.setNode { n with polite := some (n.polite.getD (0, 0)) }) k fun _ => true

/-- A node selected on cores of which too few are left goes back to the Trailhead, and waits until enough are back (R43, R361). -/
def unselect (s : State) (k : Nat) : State :=
  match s.node? k with
  | none => s
  | some n =>
    if n.phase == .selected && (n.cores.isEmpty || (n.gang && decide (n.cores.length < n.vcnt))) then
      s.setNode { n with phase := if n.started then .resting n.parking else .ready, cores := [], waited := 0 }
    else s

/-- DIE_LOST INFO (R493). -/
def dieInfo (die kind : Nat) (fatal : Bool) : BitVec 32 := BitVec.ofNat 32 (die + kind * 2 ^ 4 + if fatal then 2 ^ 6 else 0)

/-- A compute chiplet lost (R361, R498). -/
def loseChip (s : State) (c : Nat) (fatal : Bool) : State :=
  let x := s.chip c
  if x.offline then setChip s c { x with fatal := x.fatal || fatal }
  else
    let on (v : Vcore) : Bool := match v.res with
      | .core n => chipOf n == c
      | _ => false
    let keys := ((s.vcores.filter on).map fun v => v.id.node).eraseDups
    let s1 := setChip s c { x with offline := true, fatal := fatal, coolSince := none }
    let s2 := partNotice s1 (chipPart s1 c) 6 0x6006 (dieInfo c 0 fatal)
    let s3 := keys.foldl (fun t k => forVcores t k on fun u => meetLoss u c) s2
    let s4 := s3.dev.sched.nodes.foldl (fun t n =>
      if n.cores.any (fun x => chipOf x == c) then unselect (freeCores t n.key (chipOf · == c)) n.key else t) s3
    keys.foldl afterLoss s4.selectDue

/-- Memory of a quarter gone: its stacks and park channels (R499), which log 7 places. -/
def dropQuarter (m : Memory) (q : Nat) : Memory :=
  (m.clear (q * quarterSize) quarterSize).clear (parkStart q) (parkSize / 4)

/-- BASE_DIE_LOSS (R499). -/
def loseBase (s : State) (q : Nat) (fatal : Bool) : State :=
  let p := s.partOf q
  let s1 := loseChip (loseChip s (2 * q) fatal) (2 * q + 1) fatal
  let s2 := { s1 with mem := dropQuarter s1.mem q
                      dev := { s1.dev with
                        l2 := s1.dev.l2.filter fun l => quarterOf (l.block * 256) != q
                        sched := { s1.dev.sched with deadQuarters := vecSet s1.dev.sched.deadQuarters q true } } }
  let ns := s2.dev.sched.nodes.filter fun n => s2.worldPart n.world == p
  let doms := (ns.map (nodeFdom s2)).eraseDups
  let s3 := ns.foldl (fun t n => endNode t n.key 3) s2
  doms.foldl (fun t d => addRecord t (reportRecord t 6 true true 0 d 0
    ⟨0x6006, 0, dieInfo q 1 fatal, true, 0, none⟩ true)) s3

/-- IOD_LOSS (R500): all is powered down, until a module reset. -/
def loseIod (s : State) (fatal : Bool) : State :=
  let s1 := { s with vc := vcoreAbsent, others := [] }
  let s2 := { s1 with dev := { s1.dev with
    sched := { s1.dev.sched with nodes := [], stalls := [] }
    park := []
    l2 := []
    power := { s1.dev.power with chips := s1.dev.power.chips.map fun (x : Chip) => { x with gated := true }
                                 selfRefresh := .replicate 4 true }
    bedrock := { s1.dev.bedrock with sleep := .dark }
    host := { s1.dev.host with portUp := false } } }
  sideband s2 (bytesLE 4 (dieInfo 0 2 fatal).toNat)

/-- A die lost: 0 to 7 compute chiplets, 8 to 11 base dies, 12 the IOD. -/
def loseDie (s : State) (die : Nat) (fatal : Bool) : State :=
  if die < 8 then loseChip s die fatal
  else if die < 12 then loseBase s (die - 8) fatal
  else if die = 12 then loseIod s fatal else s

/-- DIE_FATAL_ERROR (R498). -/
def execDieFatalError (chiplet : Nat) (s : State) : Out := .next (loseDie s chiplet true)

/-- Since when a reading has held. -/
def since (cond : Bool) (old : Option Nat) (now : Nat) : Option Nat := if cond then some (old.getD now) else none

/-- A reading has held for a time. -/
def heldFor (x : Option Nat) (now d : Nat) : Bool :=
  match x with
  | some t => decide (t + d ≤ now)
  | none => false

/-- THERMAL_READING (R345). -/
def execThermalReading (chiplet temp : Nat) (s : State) : Out :=
  let now := s.dev.time
  if 13 ≤ chiplet then .next s
  else if 8 ≤ chiplet then
    let p := s.dev.power
    .next (setPow s { p with
      dieHot := vecSet p.dieHot (chiplet - 8) (since (110 ≤ temp) (p.dieHot.toList.getD (chiplet - 8) none) now)
      dieTemp := vecSet p.dieTemp (chiplet - 8) temp })
  else
    let x := s.chip chiplet
    .next (setChip s chiplet { x with
      temp := temp, hotSince := since (110 ≤ temp) x.hotSince now, coolSince := since (temp < 85) x.coolSince now })

/-- THERMAL_EMERGENCY (R361): a die that has read 110 degrees C or more for 1 ms. -/
def execThermalEmergency (chiplet : Nat) (s : State) : Out :=
  let since' := if chiplet < 8 then (s.chip chiplet).hotSince else s.dev.power.dieHot.toList.getD (chiplet - 8) none
  .next (if heldFor since' s.dev.time 1000000 then loseDie s chiplet false else s)

/-- CHIPLET_ONLINE (R361): after 1 s below 85 degrees C, at a tick boundary; one lost by a fatal error stays away (R498). -/
def execChipletOnline (chiplet : Nat) (s : State) : Out :=
  let x := s.chip chiplet
  if chiplet < 8 ∧ x.offline ∧ x.fatal = false ∧ s.dev.time = s.dev.sched.tick * 100000 ∧ heldFor x.coolSince s.dev.time 1000000000
      ∧ s.dev.sched.deadQuarters.toList.getD (chiplet / 2) false = false then
    .next (setChip s chiplet { x with offline := false }).selectDue
  else .next s

/-- HBM_TEMPERATURE_READING (R497). -/
def execHbmTemperatureReading (stack temp : Nat) (s : State) : Out :=
  if 12 ≤ stack then .next s
  else
    let p := s.dev.power
    let hot := since (110 ≤ temp) (p.hbmHot.toList.getD stack none) s.dev.time
    let s1 := setPow s { p with hbmTemp := vecSet p.hbmTemp stack temp, hbmHot := vecSet p.hbmHot stack hot }
    let lv := if 95 ≤ temp then 2 else if 85 ≤ temp then 1 else 0
    let s2 := if p.hbmLevel.toList.getD stack 0 < lv then setLevel s1 stack lv else s1
    .next (if heldFor hot s.dev.time 1000000 && !(s.dev.sched.deadQuarters.toList.getD (stack / 3) false)
      then loseBase s2 (stack / 3) false else s2)

/-- A chiplet that reads 100 degrees C or more is lowered by a step at each tick boundary; below 95 it is released (R345, R497). -/
def throttle (s : State) (c : Nat) : State :=
  let x := s.chip c
  if x.offline then s
  else if 100 ≤ x.temp then
    let k := x.step.toNat - 1
    let s1 := setChip s c { x with hot := true }
    if x.hot && x.step == 0 then s1 else throttleChip (rechoose (setStep s1 c k) [c]) c
  else if x.hot && decide (x.temp < 95) then throttleChip (setChip s c { x with hot := false }) c
  else s

/-- Levels left at a tick boundary: the reading lies 5 degrees C below the level's threshold (R497). -/
def coolStacks (s : State) : State :=
  (List.range 12).foldl (fun t i =>
    let lv := t.dev.power.hbmLevel.toList.getD i 0
    let temp := t.dev.power.hbmTemp.toList.getD i 0
    let next := if lv = 2 ∧ temp ≤ 90 then (if temp ≤ 80 then 0 else 1) else if lv = 1 ∧ temp ≤ 80 then 0 else lv
    if next = lv then t else setLevel t i next) s

/-! ### Currents -/

/-- The energy per core that a node was measured to use, as ENERGY_OVERRUN reports it. -/
def perCore (n : Node) (e : Nat) : Nat := min 0xFFFF (e / max 1 n.cores.length)

/-- CURRENT_MEASUREMENT (R494), in units of 0.01 A. -/
def execCurrentMeasurement (cluster amps : Nat) (s : State) : Out :=
  if 32 ≤ cluster then .next s
  else
    let beyond := decide (11000 < amps)
    let was := s.dev.power.clusterGated.toList.getD cluster false
    let s1 := setPow s { s.dev.power with
      clusterGated := vecSet s.dev.power.clusterGated cluster (beyond || (was && decide (11000 ≤ amps))) }
    if beyond && !was then
      let ns := s1.dev.sched.nodes.filter fun n =>
        n.cores.any (fun x => clusterIdOf x == cluster) && decide (opIpeak n.cur < Config.measuredCurrent s.steps n.key)
      .next (ns.foldl (fun t n => nodeNotice t n 6 0x6001
        (BitVec.ofNat 32 (perCore n (Config.measuredEnergy s.steps n.key) + 2 ^ 31))) s1)
    else .next s1

/-! ### Time -/

/-- The timer stepped forward, never backward; the tick is that of the new time (R322, R362). -/
def stepTimer (s : State) (ns : Nat) : State :=
  let t := advanceTime s.dev.time (s.dev.time + ns)
  { s with dev := { s.dev with time := t, sched := { s.dev.sched with tick := max s.dev.sched.tick (t / 100000) } } }

/-- PTP_MESSAGE (R362, R363): the discipline is by rate, and the timer does not step, but that Basecamp brings a timer that lies behind
its master forward before any job has been launched. -/
def execPtpMessage (offset : BitVec 32) (lock : Bool) (s : State) : Out :=
  let s1 := setPow s { s.dev.power with offset := offset, lock := lock }
  .next (if !s.dev.sched.launched && offset.msb then stepTimer s1 (-offset).toNat else s1)

/-- IDLE_STEP_ZERO (R337, R347): at a tick boundary, a chiplet that has stood idle for 16 ticks goes to step 0. -/
def execIdleStepZero (chiplet : Nat) (s : State) : Out :=
  if chiplet < 8 ∧ s.atBoundary ∧ 16 ≤ (s.chip chiplet).idle ∧ chipEmpty s chiplet then .next (setStep s chiplet 0) else .next s

end Sys2Proof.Machine
end

