-- ==== Sys2Proof/Machine/Curves.lean ====
section
/-! DEFINITION. Budget curves (spec/15 R351 to R353; spec/17 R391; spec/23 R501). -/

namespace Sys2Proof.Machine

/-- Bytes of an SLH-DSA-SHAKE-256s signature (R351). -/
def sigBytes : Nat := 29792

/-- The points of a curve. -/
def curvePoints (b : List Byte) (npts : Nat) : List (Nat × Nat) :=
  (List.range npts).map fun i => (bytesAt b (0x40 + 8 * i) 4, bytesAt b (0x44 + 8 * i) 2)

/-- The curve that a byte string holds (R351). -/
def parseCurve (b : List Byte) : Curve where
  seq := BitVec.ofNat 64 (bytesAt b 8 8)
  vstart := bytesAt b 0x18 8
  vend := bytesAt b 0x20 8
  bandpm := bytesAt b 0x28 2
  bandw := bytesAt b 0x2A 2
  grade := BitVec.ofNat 2 (bytesAt b 0x2C 1)
  thresh := bytesAt b 0x2D 1
  points := curvePoints b (bytesAt b 6 2)

/-- Offsets ascend by at least 1,000 ms. -/
def spaced : List (Nat × Nat) → Bool
  | [] => true
  | [_] => true
  | x :: y :: t => decide (x.1 + 1000 ≤ y.1) && spaced (y :: t)

/-- The bytes that R351 reserves are zero: 17 in the header, 2 in each point. -/
def curveReserved (b : List Byte) (npts : Nat) : Bool :=
  bytesAt b 0x2F 17 == 0 && (List.range npts).all fun i => bytesAt b (0x46 + 8 * i) 2 == 0

/-- The checks of a curve in the order of R501; 0 accepts it. -/
def curveResult (s : State) (b : List Byte) : Nat :=
  let npts := bytesAt b 6 2
  let n := 0x40 + 8 * npts
  let slot := bytesAt b 0x2E 1
  let devid := bytesAt b 0x10 8
  let c := parseCurve b
  if npts < 2 ∨ 256 < npts ∨ b.length ≠ n + sigBytes then 1
  else if bytesAt b 0 4 ≠ 0x47564331 ∨ bytesAt b 4 2 ≠ 1 ∨ 3 < bytesAt b 0x2C 1 ∨ 16 < c.thresh ∨ curveReserved b npts = false then 2
  else if (s.dev.bedrock.record.keySlots.toList.getD slot []).isEmpty then 3
  else if Config.verifies (s.dev.bedrock.record.keySlots.toList.getD slot []) (b.take n) (b.drop n) = false then 4
  else if devid ≠ 0 ∧ devid ≠ s.dev.host.idtag.toNat then 5
  else if c.seq.toNat ≤ s.dev.power.curvseq.toNat then 6
  else if c.vend ≤ c.vstart ∨ c.vend ≤ s.dev.time then 7
  else if (c.points.headD (1, 0)).1 ≠ 0 ∨ spaced c.points = false ∨ c.vend - c.vstart < (c.points.getLastD (0, 0)).1 * 1000000 then 8
  else if c.points.any fun x => decide (x.2 < 70) || decide (2600 < x.2) then 9
  else 0

/-- The points i and i+1 that hold an offset: the power there (R352). -/
def pointsAt (o : Nat) : List (Nat × Nat) → Int
  | [] => 0
  | [x] => x.2
  | x :: y :: t =>
    if o < y.1 then (x.2 : Int) + ((y.2 : Int) - x.2) * ((o : Int) - x.1) / ((y.1 : Int) - x.1) else pointsAt o (y :: t)

/-- The value of a curve at a time, in W (R352). -/
def Curve.value (c : Curve) (t : Nat) : Nat := (pointsAt ((t - c.vstart) / 1000000) c.points).toNat

/-- A curve accepted (R352, R353). -/
def acceptCurve (s : State) (c : Curve) : State :=
  let p := { s.dev.power with curvseq := c.seq }
  if c.vstart ≤ s.dev.time then
    let old := p.pending.filter fun x => !decide (x.seq.toNat < c.seq.toNat)
    setPow s { p with current := some c, pending := old }
  else setPow s { p with pending := some c }

/-- The bytes of a curve in HOST frames (R391); none where they are not all HOST frames of this device, or fail their data
checks. -/
def hostCurve (s : State) (pa len : Nat) : Option (List Byte) :=
  let o := pa % 2 ^ 47
  let frames := List.range (len / 2 ^ 16 + 2)
  let ok := pa / 2 ^ 47 == s.devId && frames.all fun i =>
    let a := (o / 2 ^ 16 + i) * 2 ^ 16
    decide (o + len ≤ a) || (decide (a < hbmSize) && s.backed a && !s.inCarve a && s.frame (a / 2 ^ 16) == .host)
  if ok && (homePiecesFault s 0 [(.home o 0 0 0, len)]).isNone then some (s.mem.bytes o len) else none

/-- CMBLEN (R391): the write starts the mailbox unless BUSY is 1. -/
def startMailbox (s : State) (v : Word) : State :=
  let h := s.dev.host
  if h.cmbBusy then s else setHost s { h with cmblen := v.setWidth 16, cmbBusy := true }

/-- CMBLEN as a row of the table. -/
def execCmblen (value : Word) (s : State) : Out := .next (startMailbox s value)

/-- A PLDM event of a rejected curve (R501). -/
def rejectEvent (s : State) (code : Nat) : State := sideband s (Config.pldmReply (bytesLE 2 code))

/-- CURVE_MESSAGE (R351, R501): one that arrives while another is checked is rejected with BUSY. -/
def execCurveMessage (bytes : List Byte) (s : State) : Out :=
  if s.dev.power.checking.isSome || s.dev.host.cmbBusy then .next (sideband (rejectEvent s 0x000A) (bytesLE 2 0x000A))
  else .next (setPow s { s.dev.power with checking := some (bytes, false) })

/-- CURVE_CHECK (R352, R391, R501): the curve of the side-band first, then that of the mailbox. -/
def execCurveCheck (s : State) : Out :=
  let finish (b : Option (List Byte)) : Nat × State :=
    match b with
    | some x =>
      let code := curveResult s x
      (code, if code = 0 then acceptCurve s (parseCurve x) else rejectEvent s code)
    | none => (2, rejectEvent s 2)
  match s.dev.power.checking with
  | some (b, _) =>
    let (code, s1) := finish (some b)
    .next (sideband (setPow s1 { s1.dev.power with checking := none }) (bytesLE 2 code))
  | none =>
    if s.dev.host.cmbBusy then
      let (code, s1) := finish (hostCurve s s.dev.host.cmbaddr.toNat s.dev.host.cmblen.toNat)
      .next (raiseMsix (setHost s1 { s1.dev.host with cmbResult := BitVec.ofNat 16 code, cmbBusy := false }) 0 3)
    else .next s

/-- A pending curve whose VSTART is at or before a time becomes current (R353). -/
def startBy (t : Nat) (s : State) : State :=
  match s.dev.power.pending with
  | some c => if c.vstart ≤ t then setPow s { s.dev.power with current := some c, pending := none } else s
  | none => s

/-- A current curve lapses at its VEND (R353). -/
def lapseCurve (s : State) : State :=
  match s.dev.power.current with
  | some c => if c.vend ≤ s.dev.time then setPow s { s.dev.power with current := none } else s
  | none => s

/-- CURVE_START (R353). -/
def execCurveStart (s : State) : Out := .next (startBy s.dev.time s)

/-- CURVE_LAPSE (R353). -/
def execCurveLapse (s : State) : Out := .next (lapseCurve s)

end Sys2Proof.Machine
end

