-- ==== Sys2Proof/Machine/Tick.lean ====
section
/-! DEFINITION. The tick boundary (spec/14 R322, R328, R335, R340, R341; spec/15 R345 to R349, R353; spec/20 R426; spec/23 R491,
R494 to R497). -/

namespace Sys2Proof.Machine

/-! ### Step 1: regions -/

/-- Worlds that hold a region. -/
def liveWorlds (s : State) : List Nat := (List.range 16).filter fun w => (s.world w).phase != .free

/-- Queues that hold a region: live ones, and those with nodes. -/
def liveQueues (s : State) : List Nat :=
  (List.range 1024).filter fun q => queueLive s (queueDesc s q) || s.dev.sched.nodes.any fun n => n.queue == q

/-- The world of a queue's region. -/
def queueWorld (s : State) (q : Nat) : Nat :=
  match s.dev.sched.nodes.find? fun n => n.queue == q with
  | some n => n.world
  | none => qWorld (queueDesc s q)

/-- Every live RCB read (R53, R322, R326). -/
def readRcbs (s : State) (qs : List Nat) : State :=
  let s1 := (liveWorlds s).foldl (fun t w => acceptRcb t (.world w) (worldPath t w) (.home (t.world w).rcb)) s
  let job (t : State) (q : Nat) : State :=
    let d := queueDesc t q
    match queueWho t d with
    | some who => if queueLive t d then acceptRcb t (.job q) (jobPath t q (qWorld d)) (.virt who (qRcb d)) else t
    | none => t
  let s2 := qs.foldl job s1
  let node (t : State) (n : Node) : State :=
    match nodeWho t n, n.launch with
    | some who, some l => if n.hasRcb then acceptRcb t (.node n.key) (nodePath t n) (.virt who (lrRcb l)) else t
    | _, _ => t
  s2.dev.sched.nodes.foldl node s2

/-- Every region's budgets and tokens at the start of a tick. -/
def refillAll (s : State) (qs : List Nat) : State :=
  let s1 := refill s [.root]
  let s2 := (List.range s1.partitions.length).foldl (fun t i => refill t [.part i, .root]) s1
  let s3 := (liveWorlds s2).foldl (fun t w => refill t (worldPath t w)) s2
  let s4 := qs.foldl (fun t q => refill t (jobPath t q (queueWorld t q))) s3
  s4.dev.sched.nodes.foldl (fun t n => refill t (nodePath t n)) s4

/-- Effective fault domains follow the regions, but for vcores that are stopped (R50, R53). -/
def renewDomains (s : State) : State :=
  let one (v : Vcore) : Vcore :=
    match s.node? v.id.node with
    | some n => if v.res != .absent && !v.stopped then { v with id := { v.id with fdom := nodeFdom s n } } else v
    | none => v
  s.mapVcores one

/-! ### Step 2: power -/

/-- Overruns of the tick that has ended (R494). -/
def measureOverruns (s : State) : State :=
  let one (t : State) (n : Node) : State :=
    if n.phase != .running || n.cores.isEmpty then (if 8 ≤ n.overTicks then t else t.setNode { n with overTicks := 0 })
    else
      let e := Config.measuredEnergy s.steps n.key
      let beyond := decide (110 * (opEnergy n.cur * n.cores.length) < 100 * e)
      let m := perCore n e
      let t1 := if beyond && n.overTicks == 0 then nodeNotice t n 6 0x6001 (BitVec.ofNat 32 m) else t
      t1.setNode { n with
        overTicks := if beyond then n.overTicks + 1 else if 8 ≤ n.overTicks && !n.demoted then n.overTicks else 0
        measured := if beyond || n.measured != 0 then e / n.cores.length else 0 }
  s.dev.sched.nodes.foldl one s

/-- The value that the curve, or the fallback power, gives for the tick (R346, R353). -/
def tickValue (s : State) : Nat :=
  match s.dev.power.inEffect with
  | some c => c.value (s.dev.sched.tick * 100000 + 50000)
  | none => s.dev.bedrock.record.fallback

/-- B of R348. -/
def bandOf (s : State) (v : Nat) : Nat :=
  let (pm, w) := match s.dev.power.inEffect with
    | some c => (c.bandpm, c.bandw)
    | none => (0, 0)
  max (max (pm * v / 1000) w) (max (15 * v / 1000) 25)

/-- clamp of R346. -/
def clampInt (lo hi x : Int) : Int := max lo (min hi x)

/-- Present cores of a cluster whose chiplet is in service and not gated (R346). -/
def clusterCores (s : State) (cl : Nat) : Nat :=
  let x := s.chip (cl / 4)
  if x.gated || x.offline then 0 else ((List.range 8).filter fun i => s.present (8 * cl + i)).length

/-- Clusters of a partition, ascending. -/
def partClusters (s : State) (p : Nat) : List Nat := (List.range 32).filter fun cl => (s.partQuarters p).contains (cl / 8)

/-- A remainder given one at a time to the clusters of a list that have cores. -/
def giveRest (s : State) : Nat → List Nat → (Nat → Nat) → (Nat → Nat)
  | _, [], f => f
  | 0, _, f => f
  | r + 1, c :: cs, f => if clusterCores s c = 0 then giveRest s (r + 1) cs f else giveRest s r cs fun x => if x = c then f x + 1 else f x

/-- The division of avail among partitions by ENERGY and among clusters by cores (R346, R515). -/
def divide (s : State) (avail : Nat) : Nat → Nat :=
  let ps := List.range s.partitions.length
  let en (p : Nat) : Nat := effective rcbEnergy 0xFFFFFFFF (regionsOf s [.part p, .root])
  let total := ps.foldl (fun a p => a + en p) 0
  let share (p : Nat) : Nat := if total = 0 then 0 else min (en p) (avail * en p / total)
  let capped := ps.any fun p => total != 0 && decide (en p < avail * en p / total)
  let cores (p : Nat) : Nat := (partClusters s p).foldl (fun a c => a + clusterCores s c) 0
  let base (cl : Nat) : Nat :=
    let p := s.partOf (cl / 8)
    if cores p = 0 then 0 else share p * clusterCores s cl / cores p
  let inPart (f : Nat → Nat) (p : Nat) : Nat → Nat :=
    let cs := partClusters s p
    giveRest s (share p - cs.foldl (fun a c => a + base c) 0) cs f
  let f1 := ps.foldl inPart base
  let left := if capped then 0 else avail - ps.foldl (fun a p => a + share p) 0
  giveRest s left (List.range 32) f1

/-- IPEAK of the vcores that run on a cluster. -/
def clusterPeak (s : State) (cl : Nat) : Int :=
  s.dev.sched.nodes.foldl (fun (a : Int) n => a + (n.cores.filter fun c => clusterIdOf c == cl).length * coreCurrent n) 0

/-- The budgets of the new tick (R346). -/
def powerBudgets (s : State) : State :=
  let p := s.dev.power
  let v := tickValue s
  let target := min v 2600
  let fixed := Config.fixedPower s.steps
  let err : Int := (target : Int) - p.avg
  let integ := clampInt (-1600) 1600 (p.integ + err)
  let avail := (max 0 ((8 * ((target : Int) - fixed) + integ) * 100 / 8)).toNat
  let e := divide s avail
  setPow s { p with
    target := target, fixed := fixed, integ := integ, band := bandOf s v
    clusterE := .ofFn fun i => (e i.val : Int)
    clusterI := .ofFn fun i => 11000 - clusterPeak s i.val }

/-- PSTAT.FLOOR, with FLOOR and MSI-X vector 2 at each change (R349, R496). -/
def renewFloor (s : State) : State :=
  let p := s.dev.power
  let f := decide (p.target < Config.leastPower s.steps)
  if f = p.floor then s
  else
    let s1 := setPow s { p with floor := f }
    raiseMsix (rootNotice s1 6 0x6003 (BitVec.ofNat 32 ((if f then 1 else 0) + p.target * 2 ^ 16))) 0 2

/-- What a node overruns its declaration by. -/
def overrunOf (n : Node) : Nat := if n.overTicks = 0 then 0 else n.cores.length * (n.measured - opEnergy n.cur)

/-- OVERRUN_STEP_DOWN (R496): the chiplet above step 0 that holds the node with the largest overrun. -/
def overrunStep (s : State) : State :=
  let p := s.dev.power
  if p.avg1ms ≤ p.target + p.band then s
  else
    let ns := sortBy (fun a b => decide (overrunOf b < overrunOf a)) (s.dev.sched.nodes.filter fun n => n.phase == .running && n.overTicks != 0)
    let chips := (ns.flatMap fun n => n.cores.map chipOf).eraseDups
    match chips.find? fun c => (s.chip c).step != 0 with
    | none => s
    | some c =>
      let k := (s.chip c).step.toNat
      let next := (argMax id ((chipSteps s c).filter fun x => decide (x < k))).getD (k - 1)
      rechoose (setStep s c next) [c]

/-- The entry whose STEP an idle chiplet takes for a node: it runs each entry's STEP in turn, ungated (R347). -/
def idleEntry (s : State) (n : Node) (c : Nat) : Nat :=
  let ok := (allowedEntries s n).filter fun i =>
    (tryEntry (setChip s c { s.chip c with step := BitVec.ofNat 4 (opStep (n.op i)), gated := false }) n (n.op i)).isSome
  match ok.find? fun i => meetsDeadline s n (n.op i) with
  | some i => i
  | none => ok.headD 0

/-- The step that an idle chiplet takes for a node that waits, found at the steps and budgets of the new tick as they stand before any
idle chiplet changes its own (R347); none where no such node waits. -/
def idleStep (s : State) (c : Nat) : Option Nat :=
  let x := s.chip c
  ((passOrder s).find? fun n => n.phase != .running && s.worldPart n.world == chipPart s c && (admits s n).isNone).map fun n =>
    let k := min 13 (opStep (n.op (idleEntry s n c)))
    if x.hot then min k x.step.toNat else k

/-- A chiplet that no vcore occupies, or one that a vcore does (R347): after 16 ticks without a node that waits it goes to step 0. -/
def idleChip (s0 s : State) (c : Nat) : State :=
  let x := s.chip c
  if x.offline || !chipEmpty s0 c then setChip s c { x with idle := 0 }
  else
    match idleStep s0 c with
    | some k => setStep (setChip s c { x with idle := 0 }) c k
    | none =>
      let s1 := setChip s c { x with idle := x.idle + 1 }
      if 15 ≤ x.idle then setStep s1 c 0 else s1

/-- IDLE_CHIPLET_STEP for every chiplet (R347). -/
def idleChips (s : State) : State := (List.range 8).foldl (idleChip s) s

/-- Every occupied core is charged again, to its cluster and to every region (R336). -/
def chargeOccupied (s : State) : State :=
  let core (n : Node) (t : State) (c : Nat) : State :=
    charge (chargeCluster t (clusterIdOf c) (coreEnergy n) 0) (nodePath t n) (coreEnergy n) (coreCurrent n)
  let one (t : State) (n : Node) : State :=
    let t1 := n.cores.foldl (core n) t
    match t1.node? n.key with
    | some m =>
      if n.cores.isEmpty then t1
      else t1.setNode { m with
        energy := m.energy + n.cores.length * (coreEnergy n).toNat, work := m.work + n.cores.length * (opStep n.cur + 2) }
    | none => t1
  s.dev.sched.nodes.foldl one s

/-! ### Step 3: slots -/

/-- A queue at a tick boundary: an idle or dead one loses its slot, one with unread entries waits for one (R325, R328, R490). -/
def renewQueue (s : State) (q : Nat) : State :=
  let x := { s.queue q with noticed := false }
  let d := queueDesc s q
  if !queueLive s d || qRead d == qWrite d then setQueue s q { x with slot := none, waiting := none }
  else if x.slot.isSome || x.waiting.isSome then setQueue s q x
  else setSched (setQueue s q { x with waiting := some s.dev.sched.nextWait })
    { (setQueue s q { x with waiting := some s.dev.sched.nextWait }).dev.sched with nextWait := s.dev.sched.nextWait + 1 }

/-- Free slots given to waiting queues in their order (R328). -/
def giveSlots (s : State) : State :=
  let waiting := (List.range 1024).filterMap fun q => (s.queue q).waiting.map fun w => (w, q)
  (sortBy (fun a b => decide (a.1 < b.1)) waiting).foldl (fun t x =>
    match freeSlot t with
    | some i => setQueue t x.2 { t.queue x.2 with slot := some i, waiting := none }
    | none => t) s

/-! ### Steps 4 and 5 -/

/-- Waiting times and polite windows advance; a parked node that is no candidate keeps its 0 (R335, R341, R359).
A running node keeps the waiting time with which it was selected (DESIGN CHOICE, log 36). -/
def advanceNodes (s : State) : State :=
  let one (n : Node) : Node :=
    let w := match n.phase with
      | .ready => n.waited + 1
      | .held => n.waited + 1
      | .resting parked => if parked && decide (2 ≤ s.dev.power.grade.toNat) && affected s n then n.waited else n.waited + 1
      | _ => n.waited
    { n with waited := w, polite := n.polite.map fun x => (x.1 + 1, x.2) }
  setSched s { s.dev.sched with nodes := s.dev.sched.nodes.map one }

/-- A victim's cores and charges returned, to see what could then be admitted (R340). -/
def released (s : State) (v : Node) : State := (creditCores s v v.cores).setNode { v with cores := [] }

/-- Victims in order, until the candidate could be admitted (R340). -/
def victims (s : State) (n : Node) : List Node → List Node → Option (List Node)
  | [], acc => if (admits s n).isSome then some acc else none
  | v :: vs, acc => if (admits s n).isSome then some acc else victims (released s v) n vs (acc ++ [v])

/-- Running nodes that a candidate may pre-empt: lowest base level first, then latest START (R340);
one that has executed no instruction yet counts as the earliest (DESIGN CHOICE, log 36). -/
def preemptable (s : State) (n : Node) : List Node :=
  let steps := (allowedEntries s n).map fun i => opStep (n.op i)
  let can (v : Node) : Bool :=
    v.phase == .running && v.key != n.key && decide (baseLevel s v < levelOf s n) && !s.isStopped (nodeFdom s v)
    && v.cores.any fun c => (s.partQuarters (s.worldPart n.world)).contains (quarterOfCore c) && steps.contains (s.chip (chipOf c)).step.toNat
  sortBy (fun a b => if baseLevel s a ≠ baseLevel s b then decide (baseLevel s a < baseLevel s b) else decide (b.start.getD 0 < a.start.getD 0))
    (s.dev.sched.nodes.filter can)

/-- What becomes of a victim (R340). -/
def treatVictim (n : Node) (fin : Nat) (s : State) (v : Node) : State :=
  if remTicks v ≤ 2 then s
  else if n.deadline = 0 ∨ (fin + ywinOf s) * 100000 ≤ n.deadline then politeRequest s v.key (ywinOf s) false
  else cutNode (s.setNode { v with polite := some (0, 0) }) v.key fun _ => true

/-- PREEMPTION_DECISION for a candidate (R340). -/
def preempt (s : State) (n : Node) : State :=
  match tokenRegion s (nodePath s n) with
  | none => s
  | some r =>
    let tokens := (getRegion s r).tokens
    let leaving := (preemptable s n).filter (·.leaving)
    let base := leaving.foldl released s
    let fresh := (preemptable s n).filter fun v => !v.leaving
    if tokens = 0 ∨ n.launch.isNone ∨ (admits s n).isSome then s
    else
      match victims base n fresh [] with
      | none => s
      | some vs =>
        if vs.isEmpty || decide (tokens < vs.length) then s
        else
          let s1 := setRegion s r { getRegion s r with tokens := tokens - vs.length }
          let fin := match admits (vs.foldl released base) n with
            | some (i, _, _) => predicted s n (n.op i)
            | none => s.dev.sched.tick
          vs.foldl (treatVictim n fin) s1

/-- Pre-emption decisions for the candidates of the pass. -/
def preemptAll (s : State) : State :=
  ((passOrder s).filter fun n => n.phase != .running).foldl (fun t n =>
    match t.node? n.key with
    | some m => preempt t m
    | none => t) s

/-! ### Stops and stalls -/

/-- Tick boundaries that each domain has stayed stopped (R418, R426). -/
def ageStops (s : State) : State :=
  { s with dev := { s.dev with faults := { s.dev.faults with stops := s.dev.faults.stops.map fun x => { x with ticks := x.ticks + 1 } } } }

/-- The stall watchdog's counts (R491). -/
def countStalls (s : State) : State :=
  let old := s.dev.sched.stalls
  let one (v : Vcore) : Nat × Nat × Nat :=
    let key := v.id.node * 1024 + v.id.vcid.toNat
    match old.find? fun x => x.1 == key with
    | some (_, n, sum) => (key, if waitsAll v && sum == issuedWords v then n + 1 else 0, issuedWords v)
    | none => (key, 0, issuedWords v)
  setSched s { s.dev.sched with stalls := (s.vcores.filter Vcore.resident).map one }

/-- The vcores that are stalled at the boundary for the TICKS-th time deliver their records (R491). -/
def reportStalls (s : State) : State :=
  (s.vcores.filter (stalledNow s)).foldl (fun t v =>
    match t.focusOn v.id.node v.id.vcid with
    | some u => if u.vc.stopped then t else stallVcore u
    | none => t) s

/-! ### Curves -/

/-- A curve, or none, takes effect, and its grade with it (R353, R354). -/
def putEffect (s : State) (c : Option Curve) : State :=
  let p := s.dev.power
  let q := { p with inEffect := c, curveAt := if c = p.inEffect then p.curveAt else s.dev.time }
  setPow s (match c with
    | some x => { q with curveGrade := x.grade, curveThresh := x.thresh }
    | none => { q with curveGrade := 0, curveThresh := 16 })

/-- Curves at a boundary (R353): the one that became current before it takes effect now; one whose VSTART is the boundary itself becomes
current, to take effect at the next, and until then the one before it stays in effect, even past its VEND (log 17). -/
def renewCurves (s : State) : State :=
  let s1 := startBy (s.dev.time - 1) s
  let s2 := startBy s.dev.time s1
  let s3 := lapseCurve s2
  putEffect s3 (if s2.dev.power.current = s1.dev.power.current then s3.dev.power.current else s1.dev.power.current)

/-- Under park and shed, nodes that have come to be affected are treated as those of the trigger were (R356, R357). -/
def renewGrade (s : State) : State := if 2 ≤ s.dev.power.grade.toNat then gradeAction s else s

/-- Step 2 of R322. -/
def powerTick (s : State) : State :=
  let s1 := renewFloor (powerBudgets (measureOverruns s))
  let s2 := (List.range 8).foldl throttle (coolStacks s1)
  idleChips (chargeOccupied (overrunStep s2))

/-! ### Power samples -/

/-- When R348's bounds do not apply: 10 ms after a curve has taken effect, in the response interval of a grade, while FLOOR is 1. -/
def trackingExempt (s : State) : Bool :=
  let p := s.dev.power
  p.floor || decide (s.dev.time < p.curveAt + 10000000) || (p.grade != 0 && decide (s.dev.time < p.trigger + responseBound s))

/-- The Trailhead holds a node that the budget of the next tick could admit (R348). -/
def admissibleWaits (s : State) : Bool :=
  let next := powerBudgets (refillAll s (liveQueues s))
  (passOrder s).any fun n => n.phase != .running && (admits next n).isSome

/-- The bounds that the controller holds the 10 ms average to (R23, R348): the least and the greatest. -/
def averageBounds (s : State) : Nat × Nat :=
  let p := s.dev.power
  let v := tickValue s
  if trackingExempt s then (0, 2600)
  else (if admissibleWaits s then v - p.band else 0, min 2600 (v + p.band))

/-- The power of a sample as the controller lets it be: the nearest to what the load would draw, or while FLOOR is 1 to the least
power that the grade in force allows (R496), that keeps the average within its bounds. An average that an exemption has left above
its bound falls by samples of 0 until it is within it (log 17). -/
def heldSample (s : State) (watts : Nat) : Nat :=
  let old := s.dev.power.samples.take 999
  let sum := old.foldl (· + ·) 0
  let b := averageBounds s
  let watts := if s.dev.power.floor then Config.leastPower s.steps else watts
  min (max watts (b.1 * (old.length + 1) - sum)) (b.2 * (old.length + 1) - sum)

/-- POWER_SAMPLE (R23, R346, R348), with what the load would draw as its operand. Before 1,000 samples have been taken since reset, the
average is the mean of those taken (DESIGN CHOICE, log 17). -/
def execPowerSample (watts : Nat) (s : State) : Out :=
  let w := heldSample s watts
  let p := addEnergy s.dev.power w
  let l := (w :: p.samples).take 1000
  .next (refreshDone (setPow s { p with samples := l, avg := mean l, avg1ms := mean (l.take 100) }))

/-! ### The boundary -/

/-- TICK_BOUNDARY (R322): the timer reaches the boundary, and the steps are taken in order; a STALL comes before the decisions on
pre-emption, over which it wins (R507). -/
def execTickBoundary (s : State) : Out :=
  let c := s.dev.sched
  let k := c.tick + 1
  let s1 : State := { s with dev := { s.dev with
    time := advanceTime s.dev.time (k * 100000)
    sched := { c with tick := k, ageNow := c.age, ywinNow := c.ywin, stallNow := c.stallTicks } } }
  let qs := liveQueues s1
  let s2 := powerTick (renewDomains (refillAll (readRcbs (renewCurves s1) qs) qs))
  let s3 := giveSlots ((List.range 1024).foldl renewQueue s2)
  let s4 := preemptAll (reportStalls (countStalls (ageStops (advanceNodes s3))))
  let s5 := (s4.dev.sched.nodes.map (·.key)).foldl expireWindow s4
  .next (refreshDone (renewGrade (applyGrade s5)).selectDue)

end Sys2Proof.Machine
end

