-- ==== Sys2Proof/Machine/FaultQ.lean ====
section
/-! DEFINITION. Fault queues and their records, the actions of FDCTL, images of stopped vcores (spec/20 R413, R418 to R426; spec/23
R485, R488, R506), locked lines (spec/22 R479, R480), scrubbing, the error registers and injection (spec/22 R471 to R478). -/

namespace Sys2Proof.Machine

def setFaults (s : State) (f : Faults) : State := { s with dev := { s.dev with faults := f } }

/-! ### Fault-queue descriptors (R419) -/

/-- The device offset of the descriptor of a fault domain. -/
def fqAt (s : State) (d : BitVec 12) : Option Nat := ownOffset s ((s.dev.faults.fqtbase.toNat >>> 16 <<< 16) + 64 * d.toNat) 64

def fqDrop (x : Nat) : Nat := nbits x 288 32
def fqTail (x : Nat) : BitVec 32 := BitVec.ofNat 32 (nbits x 256 32)
def fqHead (x : Nat) : BitVec 32 := BitVec.ofNat 32 (nbits x 224 32)
def fqImg (x : Nat) : Word := BitVec.ofNat 64 (nbits x 128 64)
def fqBase (x : Nat) : Word := BitVec.ofNat 64 (nbits x 64 64)
def fqLog2n (x : Nat) : Nat := nbits x 52 4
def fqWorld (x : Nat) : Nat := nbits x 48 4
def fqVf (x : Nat) : Nat := nbits x 32 6
def fqCtx (x : Nat) : BitVec 16 := BitVec.ofNat 16 (nbits x 16 16)

/-- A fault queue is live (R420, R428). -/
def fqLive (x : Nat) : Bool :=
  x.testBit 63 && x >>> 320 == 0 && nbits x 192 32 == 0 && nbits x 56 7 == 0 && nbits x 38 10 == 0 && nbits x 1 15 == 0
  && decide (4 ≤ fqLog2n x) && decide (fqLog2n x ≤ 12)

/-- Under whose tables the records of a queue are written. -/
def fqWho (s : State) (x : Nat) : Option Who := (s.ctxOf (fqWorld x) (fqCtx x)).map ctxWho

/-- The address of the record of an index. -/
def fqSlot (x : Nat) (i : Nat) : Word := fqBase x + BitVec.ofNat 64 (64 * (i % 2 ^ fqLog2n x))

/-! ### Delivery (R420) -/

/-- A record noted in the stop of its domain (R421, R426). -/
def noteStop (s : State) (r : Record) (f : Stop → Stop) : State :=
  if r.notice then s
  else setFaults s { s.dev.faults with stops := s.dev.faults.stops.map fun x => if x.fdom == r.fdom then f x else x }

/-- A record that is not written: DROP rises, and the stop remembers it. -/
def dropRecord (s : State) (r : Record) : State :=
  let s1 := match fqAt s r.fdom with
    | some a => homeWrite s (a + 36) (bytesLE 4 (fqDrop (s.mem.load a 64) + 1))
    | none => s
  noteStop s1 r fun x => { x with dropped := true }

/-- The PLDM event of a notice of class 6 or 7 while the host port is down (R506). -/
def sideEvent (s : State) (r : Record) : State :=
  let cls := nbits r.bits.toNat 12 4
  if s.dev.host.portUp || !r.notice || (cls != 6 && cls != 7) then s
  else sideband s (Config.pldmReply (bytesLE 64 r.bits.toNat))

/-- A record written at the place that TAIL names, TAIL advanced, the interrupt raised. -/
def writeRecord (s : State) (r : Record) : Option State :=
  match fqAt s r.fdom with
  | none => none
  | some a =>
    let x := s.mem.load a 64
    let tail := fqTail x
    if !fqLive x || decide (2 ^ fqLog2n x ≤ (tail - fqHead x).toNat) then none
    else
      match fqWho s x with
      | none => none
      | some who =>
        let phase : Rec64 := if tail.getLsbD (fqLog2n x) then (1 : Rec64) <<< 63 else 0
        match schedWrite s who (fqSlot x tail.toNat) (bytesLE 64 (r.bits ||| phase).toNat) with
        | .error _ => none
        | .ok s1 =>
          let s2 := homeWrite s1 (a + 32) (bytesLE 4 (tail + 1).toNat)
          let s3 := noteStop s2 r fun y => { y with
            final := y.final || !r.bits.getLsbD 55
            records := match r.vc with
              | some (k, v) => y.records ++ [(tail.toNat, k, v)]
              | none => y.records }
          some (if x.testBit 0 then raiseMsix s3 (fqVf x) 0 else s3)

/-- FAULT_RECORD_DELIVERY (R420): the records of one vcore in the order of detection. -/
def execFaultRecordDelivery (index : Nat) (s : State) : Out :=
  match s.dev.faults.records[index]? with
  | none => .next s
  | some r =>
    let before := s.dev.faults.records.take index
    if before.any fun x => x.vc == r.vc && (r.vc.isSome || x.fdom == r.fdom) then .next s
    else
      let s1 := setFaults s { s.dev.faults with records := s.dev.faults.records.eraseIdx index }
      .next (sideEvent ((writeRecord s1 r).getD (dropRecord s1 r)) r)

/-! ### Settling (R421) -/

/-- An engine operation of the vcore in focus that has faulted, or waits for what only a stopped stream or another such operation
can serve. -/
def opSettled (s : State) (o : EngOp) : Bool :=
  o.stopped || match o.kind with
  | .copy c =>
    let f := cFmt (copyWord c.i)
    let full (h : Nat) : Bool := (giveBits s h f false c.pushing (!pushesBefore s o.id h) 0 0).isNone
    if c.count ≤ c.done then
      match c.i with
      | .cfoll _ => !c.tailDone && decide (8 ≤ s.vc.st.follow.length)
      | _ => false
    else
      match c.i with
      | .cnest _ => false
      | .catom w => match cRes w with
        | some h => (s.vc.st.handle h).free == 0 || pushesBefore s o.id h
        | none => false
      | _ =>
        (match copySrc c c.done with
          | .hnd h => (takeBits s h f c.popped (!popsBefore s o.id h) (recycles c)).isNone
          | _ => false)
        || (match copyDst c c.done with
          | .hnd h => full h
          | _ => false)
  | _ => false

/-- A vcore of a domain. -/
def inDomain (d : BitVec 12) (v : Vcore) : Bool := v.live && v.id.fdom == d

/-- Every activity of a stopped domain has reached its stop point, and its records have been delivered. -/
def domainSettled (s : State) (d : BitVec 12) : Bool :=
  (s.vcores.filter (inDomain d)).all (fun v => [StreamId.s, .v, .m, .c].all (fun st => !stopping s v st)
    && v.st.ops.all (opSettled { s with vc := v }))
  && s.dev.faults.records.all fun r => r.notice || r.fdom != d

/-! ### Actions (R421 to R425, R488) -/

/-- An action ended with a result. -/
def endAction (s : State) (d : BitVec 12) (act result : BitVec 2) : State :=
  let f := s.dev.faults
  setFaults s { f with
    stops := if result = 0 then f.stops.filter (fun x => x.fdom != d) else f.stops
    action := none, busy := false, result := result, last := act, fdom := d }

/-- The queues that a fault of their next entry holds, of a domain. -/
def blockedQueues (s : State) (d : BitVec 12) : List Nat :=
  (List.range 1024).filter fun q => (s.queue q).blocked && effFdom (regionsOf s (jobPath s q (qWorld (queueDesc s q)))) == d

/-- What the scheduler held for the action goes on: entries and launch records are read afresh, completions retried (R488). -/
def releaseHeld (s : State) (d : BitVec 12) : State :=
  let s1 := (blockedQueues s d).foldl (fun t q => setQueue t q { t.queue q with blocked := false }) s
  let again (t : State) (n : Node) : State :=
    if nodeFdom t n != d then t
    else
      match n.phase with
      | .held => t.setNode { n with phase := .ready, launch := none, table := [] }
      | .completing c => retryCompletion t n c.toNat
      | _ => t
  s1.dev.sched.nodes.foldl again s1

/-- Places of a handle that hold entries which a command has popped and not read to the end (R106, R288). -/
def heldPlaces (v : Vcore) (n : Nat) : Nat :=
  (v.st.ops.filter fun o => match o.kind with
    | .copy c => c.popped.isSome && popHandle c.i == some n && pushHandle c.i != some n
    | _ => false).length

/-- The free counts of a restored vcore's handles leave out the places that its commands still hold (R423). -/
def keepPlaces (v : Vcore) : Vcore :=
  { v with st := { v.st with h := Vector.ofFn fun i => { v.st.h.get i with free := (v.st.h.get i).free - heldPlaces v i.val } } }

/-- An image that the handler may have corrected is read back (R426), or the fault that keeps it from being used (R8, R428). The spec names
no code for that: it is RECORD_RESERVED with the image's address (DESIGN CHOICE, log 35). -/
def readBack (s : State) : Except FaultInfo State :=
  match s.vc.res with
  | .imagedAt va w c =>
    match s.ctxOf w c with
    | none => .error (mkFault 0x2002 va)
    | some x =>
      match pieces s (ctxWho x) accRead va imageSize with
      | .error f => .error f
      | .ok ps =>
        match homePiecesFault s va ps with
        | some f => .error f
        | none =>
          match imageBad (readImage s 0 ps) s.vc.id.ctx with
          | some (_, b) => .error (mkFault 0x5001 va (BitVec.ofNat 32 (b / 8 % 256)))
          | none => .ok { s with vc := keepPlaces (restoreVcore (readImage s 0 ps) s.vc) }
  | _ => .ok s

/-- The side effects of a fault of an access for the vcore in focus (R465, R468, R473). -/
def accessEffectsOf (s : State) (f : FaultInfo) : State :=
  match s.node? s.vc.id.node with
  | some n => accessEffects s n f
  | none => s

/-- RESUME of the vcore in focus (R423): its streams and its faulted operations go on. What it had answered to a request that the stop
withdrew (R414) counts no longer. A vcore whose image cannot be used stays stopped, with a record of STREAM 4 of the domain's next stop
(R421). -/
def resumeVcore (s : State) : State :=
  match readBack s with
  | .error f => addRecord (accessEffectsOf s f) (stream4Record s f.status f.addr f.info)
  | .ok s1 =>
    let v := s1.vc
    let go (o : EngOp) : EngOp := { o with stopped := false }
    { s1 with vc := { v with
      stopped := false
      ended := v.ended && !v.id.gang
      res := if v.resident then v.res else .off
      regs := { v.regs with yieldack := false }
      st := { v.st with ops := v.st.ops.map go } } }

/-- CUTBACK of the vcore in focus (R425). -/
def cutStopped (s : State) : State :=
  let v := cutVcore s.vc
  { s with vc := { v with stopped := false, res := if s.vc.resident then s.vc.res else .off } }

/-- Nodes of a domain whose vcores lost their cores to imaging return to the Trailhead; others give their cores to waiting vcores. A gang
job some of whose vcores hold no core leaves as a whole: it waits until there are cores for all (R43, R44, R361). -/
def rebind (s : State) (k : Nat) : State :=
  match s.node? k with
  | none => s
  | some n =>
    if n.phase != .running then s
    else if (nodeVcores s k).any Vcore.resident then
      if n.gang && (nodeVcores s k).any (fun v => v.live && !v.resident) then
        gangLeave (forVcores s k Vcore.resident fun t => { t with vc := { t.vc with ended := true } }) k
      else fillCores s k
    else s.setNode { n with phase := .resting n.parking, cores := [], waited := 0, polite := none }

/-- f on every vcore of a domain, and its nodes bound again. -/
def actOn (s : State) (d : BitVec 12) (f : State → State) : State :=
  let vs := s.vcores.filter fun v => inDomain d v && v.stopped
  let s1 := vs.foldl (fun t v =>
    match t.focusOn v.id.node v.id.vcid with
    | some u => f u
    | none => t) s
  ((vs.map fun v => v.id.node).eraseDups).foldl rebind s1

/-- An action in progress on a domain whose activities have all stopped. -/
def actionDue (s : State) (fdom : Nat) (act : BitVec 2) : Bool :=
  s.dev.faults.action == some (act, BitVec.ofNat 12 fdom) && domainSettled s (BitVec.ofNat 12 fdom)

def State.stop? (s : State) (d : BitVec 12) : Option Stop := s.dev.faults.stops.find? fun x => x.fdom == d

/-- RESUME (R421, R423). -/
def execResume (fdom : Nat) (s : State) : Out :=
  let d := BitVec.ofNat 12 fdom
  if !actionDue s fdom 1 then .next s
  else
    match s.stop? d with
    | none => .next (endAction s d 1 2)
    | some x =>
      if x.final || x.dropped then .next (endAction s d 1 1)
      else
        let t := releaseHeld (actOn (endAction s d 1 0) d resumeVcore) d
        .next (if t.vcores.any fun v => inDomain d v && v.stopped then stopDomain t d else t)

/-- A quarantined compartment for which no CRESTORE has succeeded (R466). -/
def quarantined (s : State) (v : Vcore) : Bool := ((s.world v.id.world).comps.toList.getD v.id.comp compOff).quarantined

/-- CUTBACK (R421, R425). -/
def execCutback (fdom : Nat) (s : State) : Out :=
  let d := BitVec.ofNat 12 fdom
  if !actionDue s fdom 2 then .next s
  else
    match s.stop? d with
    | none => .next (endAction s d 2 2)
    | some _ =>
      if s.vcores.any fun v => inDomain d v && quarantined s v then .next (endAction s d 2 1)
      else .next (releaseHeld (actOn (endAction s d 2 0) d cutStopped) d)

/-- A ring entry that was not accepted ended: its record is written with FAULT, READ advances, and nodes that name it as predecessor end
with FAULT when they are read (R424, R488). -/
def abortEntry (s : State) (q : Nat) : State :=
  let d := queueDesc s q
  let s1 := setQueue s q { s.queue q with blocked := false }
  match queueWho s1 d with
  | none => s1
  | some who =>
    let va := qRing d + BitVec.ofNat 64 (256 * ((qRead d).toNat % 2 ^ qLog2n d))
    match schedRead s1 who va 256 with
    | .error _ => setQRead s1 q (qRead d + 1)
    | .ok hdr =>
      let n := newNode s1 q d hdr [] []
      setQRead (endNode (enterNode s1 n) n.key 3 true) q (qRead d + 1)

/-- ABORT (R421, R424, R488). -/
def execAbort (fdom : Nat) (s : State) : Out :=
  let d := BitVec.ofNat 12 fdom
  if !actionDue s fdom 3 then .next s
  else
    match s.stop? d with
    | none => .next (endAction s d 3 2)
    | some _ =>
      let byVcore := (s.vcores.filter fun v => inDomain d v && v.stopped).map fun v => v.id.node
      let byHold := (s.dev.sched.nodes.filter fun n => nodeFdom s n == d && match n.phase with
        | .held => true
        | .completing _ => true
        | _ => false).map (·.key)
      let qs := blockedQueues s d
      let s1 := (byVcore ++ byHold).eraseDups.foldl (fun t k => endNode t k 3 true) (endAction s d 3 0)
      .next (qs.foldl abortEntry s1)

/-- FDCTL written (R418, R421). -/
def writeFdctl (s : State) (v : Word) : State :=
  let f := s.dev.faults
  let act := v.extractLsb' 12 2
  let d := v.extractLsb' 0 12
  if act = 0 then s
  else if f.busy then setFaults s { f with ovr := true }
  else if (s.stop? d).isNone then endAction s d act 2
  else setFaults s { f with busy := true, action := some (act, d) }

/-! ### Images (R426) -/

/-- A stopped vcore whose state an image can hold. -/
def imageable (s : State) (v : Vcore) : Bool :=
  let empty (l : Latch) : Bool := match l with
    | .empty => true
    | _ => false
  v.resident && v.stopped && v.st.h.toList.all (fun h => h.entries.isEmpty) && empty v.st.latch0 && empty v.st.latch1
  && v.st.chain.isNone && v.sS.loop.isNone && v.sV.loop.isNone && v.sM.loop.isNone && v.sC.loop.isNone
  && v.st.ops.all (opSettled { s with vc := v }) && [StreamId.s, .v, .m, .c].all fun st => !stopping s v st

/-- IMG set in the record of an index, by a rewrite of HDR. -/
def markImaged (s : State) (who : Who) (va : Word) : State :=
  match schedRead s who va 8 with
  | .error _ => s
  | .ok h =>
    match schedWrite s who va (bytesLE 8 (h ||| 2 ^ 50)) with
    | .ok t => t
    | .error _ => s

/-- The image of the vcore in focus written in its fault queue's image area, where it has a record of its own there. -/
def imageInQueue (s : State) : Option State :=
  match s.stop? s.vc.id.fdom, fqAt s s.vc.id.fdom with
  | some st, some a =>
    let x := s.mem.load a 64
    match st.records.find? fun r => r.2.1 == s.vc.id.node && r.2.2 == s.vc.id.vcid, fqWho s x with
    | some (i, _, _), some who =>
      if fqImg x = 0 || !fqLive x then none
      else
        let va := fqImg x + BitVec.ofNat 64 (imageSize * (i % 2 ^ fqLog2n x))
        match pieces s who accWrite va imageSize with
        | .error _ => none
        | .ok ps =>
          let s1 := markImaged (writeImage s (imageOf s.vc) (badBlocks s.vc) 0 ps) who (fqSlot x i)
          some { s1 with vc := { s1.vc with res := .imagedAt va (fqWorld x) (fqCtx x) } }
    | _, _ => none
  | _, _ => none

/-- A stopped vcore imaged, its core freed. -/
def imageVcore (s : State) : State :=
  let (s1, ok) := tryFlush s
  if !ok then s1
  else
    let core := s1.coreId
    let s2 := (imageInQueue s1).getD { s1 with vc := { s1.vc with res := .imaged } }
    freeCore { s2 with vc := { emptyCore s2.vc with res := s2.vc.res } } s2.vc.id.node core

/-- VCORE_IMAGE (R426): once the domain has stayed stopped over FHOLD.TICKS boundaries; a gang job only as a whole. -/
def execVcoreImage (core : Nat) (s : State) : Out :=
  match s.focusCore core with
  | none => .next s
  | some s1 =>
    let hold := s1.dev.faults.fhold.toNat
    let due := match s1.stop? s1.vc.id.fdom with
      | some x => hold != 0 && decide (hold ≤ x.ticks)
      | none => false
    if !due || !imageable s1 s1.vc then .next s1
    else if s1.vc.id.gang then
      let k := s1.vc.id.node
      if (nodeVcores s1 k).all fun v => !v.resident || imageable s1 v then
        let s2 := forVcores s1 k Vcore.resident flushAll
        if (nodeVcores s2 k).any fun v => v.resident && moveWaits { s2 with vc := v } then .next s2
        else .next (forVcores s2 k Vcore.resident imageVcore)
      else .next s1
    else .next (imageVcore s1)

/-! ### Locked lines (R479, R480) -/

/-- A cutback or a gang job's leave that waited for locked lines goes on (R44, R134). -/
def retryLeave (s : State) : State :=
  if !s.vc.resident || s.vc.stopped then s
  else if s.vc.id.gang then (if s.vc.cutbackDue || s.vc.ended then gangLeave s s.vc.id.node else s)
  else if s.vc.cutbackDue && !s.vc.ni then
    let (s1, ok) := tryFlush s
    if ok then cutAway s1 else s1
  else s

/-- WRITEBACK_RETRY (R479). -/
def execWritebackRetry (core line : Nat) (s : State) : Out :=
  match s.focusCore core with
  | none => .next s
  | some s1 =>
    match s1.vc.st.cache[line]? with
    | some l => .next (if l.lockedAt.isSome then retryLeave (cleanLines s1 (fun x => x.block == l.block) false) else s1)
    | none => .next s1

/-! ### Scrubbing and the error registers -/

/-- One block read by the patrol scrub (R472): its correctable errors are corrected and counted, an uncorrectable one poisons it. -/
def scrubBlock (s : State) (b : Nat) : State :=
  let e := s.dev.errors
  if e.hbmUe b then addPoison (logEvent (countUe s) (if isPark (b * 256) then 4 else 0) 4 (s.blockPa b)) b
  else countCes (setErrors s { e with flips := e.flips.without b }) ((e.flips.block b).words hbmWord)

/-- PATROL_SCRUB (R472): the stored words of HBM and the park tier are read in full. -/
def execPatrolScrub (s : State) : Out := .next (((s.dev.errors.flips.map (· / 2048)).eraseDups).foldl scrubBlock s)

/-- The bits that an injection flips in the block or row that begins at bit `at'`: BIT, and with TWO another bit of the same ECC word, of
another symbol. The spec does not say which: BIT with its bit 3 inverted (DESIGN CHOICE, log 34; R478). -/
def injectBits (v : Word) (at' : Nat) : List Nat :=
  let bit := nbits v.toNat 48 11
  if v.getLsbD 59 then [at' + bit, at' + (bit ^^^ 8)] else [at' + bit]

/-- Bits flipped in a store. -/
def Flips.flip (f : Flips) (l : List Nat) : Flips := l.foldl Flips.toggle f

/-- The injection that INJCTL and INJADDR describe (R478). KIND 0 damages the stored word of HBM, KIND 1 the line that the L2 slice
holds. A PA of another device names nothing here. -/
def inject (e : Errors) (v addr : Word) : Errors :=
  let b := addr.toNat % 2 ^ 47 / 256
  match nbits v.toNat 60 3 with
  | 0 => { e with flips := e.flips.flip (injectBits v (b * 2048)) }
  | 1 => { e with l2Flips := e.l2Flips.flip (injectBits v (b * 2048)) }
  | 5 =>
    let old := ((e.badCheck.find? fun x => x.1 == b).map (·.2)).getD 0
    let m := old ^^^ ((1 : BitVec 32) <<< nbits v.toNat 48 5)
    let rest := e.badCheck.filter fun x => x.1 != b
    { e with badCheck := if m = 0 then rest else rest ++ [(b, m)] }
  | _ => e

/-- The stores of a core with the error that INJCTL and INJADDR describe for KIND 2 and 3, in whatever mode the bank is; a core without a
vcore holds nothing that is ever read (R33, R478). -/
def injectCore (s : State) (v addr : Word) : State :=
  let put (m : Marks) : Marks :=
    match nbits v.toNat 60 3 with
    | 2 => { m with flips := m.flips.flip (injectBits v (addr.toNat / 256 * 2048)) }
    | 3 => { m with rowFlips := m.rowFlips.flip (injectBits v (nbits v.toNat 32 8 * 16384)) }
    | _ => m
  s.mapVcores fun x => if x.onCore (nbits v.toNat 40 8) then { x with st := { x.st with marks := put x.st.marks } } else x

/-- INJCTL written: an armed write injects one error, and ARM is cleared once it is made (R478). KIND 4 stays armed until the next MCHE of
its core, or until INJCTL is written again. -/
def writeInjctl (s : State) (v : Word) : State :=
  let x := v &&& 0xFFFFFFFF00000000
  let kind := nbits v.toNat 60 3
  if v.getLsbD 63 = false ∨ 6 ≤ kind then setFaults s { s.dev.faults with injctl := x }
  else
    let addr := s.dev.faults.injaddr
    let b := addr.toNat % 2 ^ 47 / 256
    let home := decide (kind = 0) || decide (kind = 1) || decide (kind = 5)
    let s0 := if kind = 1 then l2Fill s b else s
    let hit := (!home || decide (addr.toNat / 2 ^ 47 = s.devId)) && (kind != 1 || s0.inL2 b)
    let s1 := injectCore (if hit then setErrors s0 (inject s0.dev.errors x addr) else s0) x addr
    setFaults s1 { s1.dev.faults with injctl := if kind = 4 then x else x &&& 0x7FFFFFFF00000000 }

/-- The bytes of a register that an access covers: n from byte lo on. -/
structure Span where
  lo : Nat
  n : Nat
  deriving DecidableEq, Repr, Inhabited

/-- All 8 bytes. -/
def Span.whole : Span := ⟨0, 8⟩

/-- Every bit from a to b − 1 lies in the bytes covered; a read clears the RC fields of which this holds (R5). -/
def Span.covers (x : Span) (a b : Nat) : Bool := decide (8 * x.lo ≤ a) && decide (b ≤ 8 * (x.lo + x.n))

/-- Some byte from a to b − 1 is covered. -/
def Span.touches (x : Span) (a b : Nat) : Bool := decide (x.lo < b) && decide (a < x.lo + x.n)

/-- INJCTL written in part: fields of the bytes covered take their values, and only a write of ARM's byte injects (R5, R8, R478). -/
def writeInjctlPart (s : State) (v : Word) (x : Span) : State :=
  if x.covers 56 64 then writeInjctl s v else setFaults s { s.dev.faults with injctl := v &&& 0xFFFFFFFF00000000 }

/-- INJCTL (R478). -/
def execInjctl (value : Word) (s : State) : Out := .next (writeInjctl s value)

/-- MECNT read: its counts, those read in full cleared (R5, R477). -/
def readMecnt (s : State) (x : Span := .whole) : Word × State :=
  let f := s.dev.faults
  (f.ue ++ f.ce, setFaults s { f with ue := if x.covers 32 64 then 0 else f.ue, ce := if x.covers 0 32 then 0 else f.ce })

/-- MELOG read: its event, the fields read in full cleared (R5, R477); an event recorded in the read's own cycle is returned and
stays (R6). -/
def readMelog (s : State) (x : Span := .whole) : Word × State :=
  let f := s.dev.faults
  let field (a b : Nat) : Word := if x.covers a b then ((2 ^ (b - a) - 1) : Word) <<< a else 0
  let gone := field 60 64 ||| field 57 60 ||| field 56 57 ||| field 8 56
  (f.melog, if f.melogAt = s.dev.time ∧ Config.sameCycle s.steps then s else setFaults s { f with melog := f.melog &&& ~~~gone })

/-- MECNT_READ (R477). -/
def execMecntRead (_store : Nat) (s : State) : Out := .next (readMecnt s).2

/-- MELOG_READ (R477). -/
def execMelogRead (_store : Nat) (s : State) : Out := .next (readMelog s).2

/-- LERRn read: its counts, those read in full cleared (R5, R505). -/
def readLerr (s : State) (port : Nat) (x : Span := .whole) : Word × State :=
  match s.dev.links.ports.toList[port]? with
  | none => (0, s)
  | some p =>
    ((zx p.retry <<< 32) ||| (zx p.downs <<< 16),
      { s with dev := { s.dev with links := { s.dev.links with ports := vecSet s.dev.links.ports port { p with
        retry := if x.covers 32 64 then 0 else p.retry
        downs := if x.covers 16 32 then 0 else p.downs } } } })

/-- LERR_READ (R505). -/
def execLerrRead (port : Nat) (s : State) : Out := .next (readLerr s port).2

end Sys2Proof.Machine
end

