-- ==== Sys2Proof/Machine/Tables.lean ====
section
/-! DEFINITION. What Bedrock keeps in the carve-outs: the stage-2 tables of the worlds and the slots of the integrity metadata
(spec/05 R117, R119; spec/16 R366, R368, R373, R511). Tables grow from the bottom of a carve-out in pages of 4 KiB, metadata slots of
16 KiB from its top; the frame table and the evicted-page table are held as data (log 15). -/

namespace Sys2Proof.Machine

/-- A range of whole blocks zeroed: no error of it remains, and no slice holds it (R366, R474). -/
def zeroRange (s : State) (a n : Nat) : State :=
  let out (b : Nat) : Bool := decide (b * 256 + 256 ≤ a) || decide (a + n ≤ b * 256)
  let d := s.dev
  let e := d.errors
  { s with
    mem := s.mem.clear a n
    dev := { d with
      l2 := d.l2.filter fun l => out l.block
      errors := { e with
        poison := e.poison.filter out
        badCheck := e.badCheck.filter fun x => out x.1
        flips := e.flips.filter fun x => out (x / 2048)
        l2Flips := e.l2Flips.filter fun x => out (x / 2048) } } }

/-! ### Room -/

/-- The slots that a quarter's frames take. -/
def slotsOf (s : State) (q : Nat) : List Nat :=
  (s.dev.bedrock.metaSlots.filter fun x => quarterOf (x.1 * 2 ^ 16) == q).map (·.2)

/-- The pages of tables in a quarter. -/
def pagesOf (s : State) (q : Nat) : List Nat := (s.dev.bedrock.tables.map (·.1)).filter fun p => quarterOf p == q

/-- The first offset that metadata of a quarter take. -/
def metaStart (s : State) (q : Nat) : Nat := (slotsOf s q).foldl (fun m i => min m (carveEnd q - (i + 1) * 2 ^ 14)) (carveEnd q)

/-- The first offset beyond the tables of a quarter. -/
def tablesEnd (s : State) (q : Nat) : Nat := (pagesOf s q).foldl (fun m p => max m (p + 4096)) (s.carveStart q)

/-- The lowest n free slots of a quarter. -/
def freshSlots (s : State) (q n : Nat) : List Nat :=
  let used := slotsOf s q
  ((List.range (used.length + n)).filter fun i => !used.contains i).take n

/-- The metadata of n more ENC-IR frames fit a quarter's carve-out (R511). -/
def metadataFits (s : State) (q n : Nat) : Bool :=
  (freshSlots s q n).all fun i => decide (tablesEnd s q + (i + 1) * 2 ^ 14 ≤ carveEnd q)

/-- Slots given to n frames from `first` on. -/
def takeSlots (s : State) (first n : Nat) : State :=
  let b := s.dev.bedrock
  let fs := freshSlots s (quarterOf (first * 2 ^ 16)) n
  setBedrock s { b with metaSlots := b.metaSlots ++ fs.zipIdx.map fun x => (first + x.2, x.1) }

/-- Slots and contents of frames given up: the lines that a compartment had written back are written once more, with zeros, so that its
tree fits what they hold (R366, R373). -/
def dropSlots (s : State) (first n : Nat) : State :=
  let b := s.dev.bedrock
  let inside (f : Nat) : Bool := decide (first ≤ f) && decide (f < first + n)
  let lines := b.counters.filter fun x => x.level == 0 && inside ((quarterLine x.quarter + x.index) * 64 / 2 ^ 16)
  lines.foldl (fun t x => countLine t x.world x.comp (quarterLine x.quarter + x.index) (List.replicate 64 0))
    (setBedrock s { b with metaSlots := b.metaSlots.filter fun x => !inside x.1 })

/-- The lowest free page of a quarter's carve-out, where the metadata leave one (R511, R513). -/
def freshPage (s : State) (q : Nat) : Option Nat :=
  let used := pagesOf s q
  ((List.range (used.length + 1)).map fun i => s.carveStart q + 4096 * i).find? fun p =>
    !used.contains p && decide (p + 4096 ≤ metaStart s q)

/-- A new table of a world, all entries invalid. -/
def newTable (s : State) (w : Nat) : Option (Nat × State) :=
  (freshPage s (s.world w).quarter).map fun p =>
    let s1 := zeroRange s p 4096
    (p, setBedrock s1 { s1.dev.bedrock with tables := s1.dev.bedrock.tables ++ [(p, w)] })

/-! ### Entries (R118, R119) -/

/-- A table entry. -/
def tableEntry (s : State) (page : Nat) : Nat := s.devId * 2 ^ 47 + page + 1

/-- A leaf's entry. -/
def leafEntry (l : Leaf) : Nat :=
  l.pa / 2 ^ 16 * 2 ^ 16 + l.keyid * 2 ^ 12 + l.prot.toNat * 2 ^ 10 + bitsOf [true, true] + 2 ^ 7 * bitsOf [l.r, l.w, l.x]

/-- The level of a leaf (R117). -/
def leafLevel (l : Leaf) : Nat := 4 - l.size

/-- A leaf's entry written below a table of a level, with tables made where there are none. -/
def putEntry (l : Leaf) (w : Nat) : Nat → Nat → Nat → State → Option State
  | 0, _, _, _ => none
  | fuel + 1, level, table, s =>
    let a := s2EntryAt table level l.ipa
    if level = leafLevel l then some (homeWrite s a (bytesLE 8 (leafEntry l)))
    else
      let e := BitVec.ofNat 64 (s.mem.load a 8)
      if e.getLsbD 0 && !e.getLsbD 1 then putEntry l w fuel (level + 1) (s2Table e) s
      else
        match newTable s w with
        | none => none
        | some (p, s1) => putEntry l w fuel (level + 1) p (homeWrite s1 a (bytesLE 8 (tableEntry s p)))

/-- Where the entry of a leaf stands. -/
def entryOf (s : State) (l : Leaf) : Nat → Nat → Nat → Option Nat
  | 0, _, _ => none
  | fuel + 1, level, table =>
    let a := s2EntryAt table level l.ipa
    if level = leafLevel l then some a
    else
      let e := BitVec.ofNat 64 (s.mem.load a 8)
      if e.getLsbD 0 && !e.getLsbD 1 then entryOf s l fuel (level + 1) (s2Table e) else none

/-- A leaf of a world entered in its tables; none where the carve-out has no room for a table. -/
def mapLeaf (s : State) (w : Nat) (l : Leaf) : Option State :=
  let rooted : Option (Nat × State) := match (s.world w).s2root with
    | some r => some (r, s)
    | none => (newTable s w).map fun x => (x.1, setWorld x.2 w { x.2.world w with s2root := some x.1 })
  (rooted.bind fun x => putEntry l w 5 0 x.1 x.2).map fun t =>
    setBedrock t { t.dev.bedrock with leaves := t.dev.bedrock.leaves ++ [l] }

/-- A leaf gone from its tables, from every TLB and walk cache, and from Bedrock's own list (R368). -/
def unmapLeaf (s : State) (w : Nat) (l : Leaf) : State :=
  let s1 := match (s.world w).s2root.bind (entryOf s l 5 0) with
    | some a => homeWrite s a (bytesLE 8 0)
    | none => s
  let held (e : TlbEntry) : Bool := e.stage2 && e.world == w && e.level == leafLevel l && e.vpn == l.ipa >>> levelShift (leafLevel l)
  let s2 := { s1 with dev := { s1.dev with tlb := s1.dev.tlb.filter fun e => !held e } }
  setBedrock s2 { s2.dev.bedrock with leaves := s2.dev.bedrock.leaves.filter (· != l) }

/-- The tables of a world given up, with what TLBs hold of it (R364). -/
def dropTables (s : State) (w : Nat) : State :=
  let mine := (s.dev.bedrock.tables.filter fun t => t.2 == w).map (·.1)
  let s1 := mine.foldl (fun t p => zeroRange t p 4096) s
  let s2 := { s1 with dev := { s1.dev with tlb := s1.dev.tlb.filter fun e => e.world != w } }
  let s3 := setBedrock s2 { s2.dev.bedrock with tables := s2.dev.bedrock.tables.filter fun t => t.2 != w }
  setWorld s3 w { s3.world w with s2root := none }

end Sys2Proof.Machine
end

