-- ==== Sys2Proof/Machine/Bedrock.lean ====
section
/-! DEFINITION. Bedrock's mailbox and its requests (spec/16 R364 to R376, R382, R385, R511 to R514; spec/22 R467, R468, R470; spec/23
R492). Sealed buffers follow the algorithms of Machine/Crypto.lean; where the spec does not lay their bytes out, log 11 does. -/

namespace Sys2Proof.Machine

/-! ### Request blocks (R369, R370, R514) -/

def rqCmd (b : Nat) : Nat := nbits b 0 16
def rqWorld (b : Nat) : Nat := nbits b 16 8
def rqComp (b : Nat) : Nat := nbits b 24 8
def rqOp (b : Nat) (i : Nat) : Nat := nbits b (64 * (i + 1)) 64

/-- Status codes of R470. -/
def stState : Nat := 1
def stNoWorld : Nat := 2
def stNoComp : Nat := 3
def stFrame : Nat := 4
def stAlias : Nat := 5
def stSealedX : Nat := 6
def stNoRoom : Nat := 7
def stTag : Nat := 8
def stVersion : Nat := 9
def stReserved : Nat := 10
def stSleep : Nat := 11
def stLost : Nat := 12
def stNoLeaf : Nat := 13
def stOverlap : Nat := 14

/-- A range of HOST frames of this device: its device offset (R366, R370). -/
def hostRange (s : State) (pa len : Nat) : Option Nat :=
  let o := pa % 2 ^ 47
  let ok (i : Nat) : Bool :=
    let a := (o / 2 ^ 16 + i) * 2 ^ 16
    decide (o + len ≤ a) || (decide (a < hbmSize) && s.backed a && !s.inCarve a && s.frame (a / 2 ^ 16) == .host)
  if pa / 2 ^ 47 = s.devId ∧ (List.range (len / 2 ^ 16 + 2)).all ok then some o else none

/-- STATUS, SEQ and the interrupt of a completed request (R369, R389). -/
def finishRequest (s : State) (status : Nat) : State :=
  let b := s.dev.bedrock
  raiseMsix (setBedrock s { b with status := BitVec.ofNat 16 status, seq := b.seq + 1, request := none }) 0 1

/-- A request answered: the response, then STATUS and SEQ (R514). Its fields hold where the status is OK. -/
def answer (s : State) (pa status f1 f2 : Nat) : State :=
  let ok := status == 0
  let bs := bytesLE 8 status ++ bytesLE 8 (if ok then f1 else 0) ++ bytesLE 8 (if ok then f2 else 0) ++ List.replicate 104 0
  finishRequest (homeWrite s (pa % 2 ^ 47 + 0x80) bs) status

/-- BRREQ written (R369): the block is read at once. A block outside HOST frames, or a command of no row, is answered by its
status alone (log 23). -/
def startRequest (s : State) (v : Word) : State :=
  let b := s.dev.bedrock
  let pa := nbits v.toNat 8 48 * 256
  if b.request.isSome then setBedrock s { b with ovr := true }
  else
    match hostRange s pa 256 with
    | none => finishRequest s stFrame
    | some o =>
      let blk := s.mem.load o 256
      if rqCmd blk = 0 ∨ 0x11 < rqCmd blk then answer s pa stReserved 0 0
      else setBedrock s { b with request := some (pa, blk) }

/-- A command's effect: its status, its response fields and the state. -/
abbrev Reply := Nat × Nat × Nat × State

/-- A refusal changes nothing. -/
def refuse (s : State) (status : Nat) : Reply := (status, 0, 0, s)

/-- OK without response fields. -/
def okay (s : State) : Reply := (0, 0, 0, s)

/-- The event of a command: nothing unless a request with that CMD is in progress. -/
def onRequest (s : State) (cmd : Nat) (k : Nat → Reply) : Out :=
  match s.dev.bedrock.request with
  | none => .next s
  | some (pa, b) =>
    if rqCmd b ≠ cmd then .next s
    else
      let (st, f1, f2, t) := if nbits b 32 32 = 0 then k b else refuse s stReserved
      .next (answer t pa st f1 f2)

/-! ### Worlds, compartments and frames -/

/-- The checks of WORLD and COMP: the world is in a phase that p allows, and the compartment exists (R470). -/
def worldCheck (s : State) (b : Nat) (p : WorldPhase → Bool) (comp : Bool) (k : Reply) : Reply :=
  let w := s.world (rqWorld b)
  if 16 ≤ rqWorld b ∨ w.phase = .free then refuse s stNoWorld
  else if comp ∧ (8 ≤ rqComp b ∨ (w.comp (rqComp b)).created = false) then refuse s stNoComp
  else if !p w.phase then refuse s stState
  else k

/-- The driver's phases (R364). -/
def mayMap (p : WorldPhase) : Bool := p == .building || p == .running

/-- A fresh compartment: its keys are drawn (R380). -/
def freshComp (s : State) : Comp × State :=
  let (k, s1) := drawKeys s
  ({ compOff with created := true, keys := k }, s1)

/-- Lines that L2 holds of a range of frames written back and dropped, so that none carries a tag that the frame table no longer gives. The
spec names no such action of Bedrock (DESIGN CHOICE, log 33). -/
def flushFrames (s : State) (first n : Nat) : State :=
  ((s.dev.l2.filter fun l => decide (first ≤ l.block / 256) && decide (l.block / 256 < first + n)).map (·.block)).foldl l2Evict s

/-- Frames given a state. -/
def setFrames (s0 : State) (first n : Nat) (f : Frame) : State :=
  let s := flushFrames s0 first n
  let b := s.dev.bedrock
  let old := b.frames.filter fun x => !(decide (first ≤ x.1) && decide (x.1 < first + n))
  setBedrock s { b with frames := (if f = b.frameDefault then [] else (List.range n).map fun i => (first + i, f)) ++ old }

/-- Frames zeroed, their errors and metadata gone (R366, R474). -/
def zeroFrames (s : State) (first n : Nat) : State := zeroRange (dropSlots s first n) (first * 2 ^ 16) (n * 2 ^ 16)

/-- Frames zeroed and FREE. -/
def freeFrames (s : State) (first n : Nat) : State := setFrames (zeroFrames s first n) first n .free

/-- The frames of a world that p selects, one by one. -/
def worldFrames (s : State) (w : Nat) (p : Nat → Bool) : List Nat :=
  s.dev.bedrock.frames.filterMap fun x => match x.2 with
    | .world v k _ _ => if v == w && p k then some x.1 else none
    | _ => none

/-- The local HBM frames that a leaf maps. -/
def leafFrames (s : State) (l : Leaf) : Option Nat :=
  if l.pa / 2 ^ 47 = s.devId ∧ l.pa % 2 ^ 47 < hbmSize then some (l.pa % 2 ^ 47 / 2 ^ 16) else none

/-- A leaf removed: frames that no other leaf of the world maps are zeroed and FREE (R368). -/
def removeLeaf (s : State) (w : Nat) (l : Leaf) : State :=
  let s1 := unmapLeaf s w l
  match leafFrames s l with
  | none => s1
  | some f0 =>
    let mapped (f : Nat) : Bool := s1.dev.bedrock.leaves.any fun x => x.world == l.world && match leafFrames s x with
      | some g => decide (g ≤ f) && decide (f < g + leafBytes x.size / 2 ^ 16)
      | none => false
    (List.range (leafBytes l.size / 2 ^ 16)).foldl (fun t i => if mapped (f0 + i) then t else freeFrames t (f0 + i) 1) s1

/-! ### Discarding work (R492) -/

/-- EN cleared in the descriptors at places that name a world (R324, R419). -/
def clearEn (s : State) (w shift : Nat) (places : List (Option Nat)) : State :=
  places.foldl (fun t p => match p with
    | some a =>
      let x := t.mem.load a 64
      if x.testBit 63 && nbits x shift 4 == w then homeWrite t (a + 7) (bytesLE 1 (nbits x 56 7)) else t
    | none => t) s

/-- Nodes that p selects discarded, with their vcores and their records, and those of entries not accepted that `entries` selects by
world (R492). -/
def discardNodes (s : State) (p : Node → Bool) (entries : Nat → Bool) : State :=
  let ks := (s.dev.sched.nodes.filter p).map (·.key)
  let s1 := ks.foldl (fun t k => dropParked (dropVcores t k) k) s
  { s1 with dev := { s1.dev with
    sched := { s1.dev.sched with
      nodes := s1.dev.sched.nodes.filter fun n => !ks.contains n.key
      stalls := s1.dev.sched.stalls.filter fun x => !ks.contains (x.1 / 1024) }
    faults := { s1.dev.faults with records := s1.dev.faults.records.filter fun r => match r.vc, r.about with
      | some (k, _), _ => !ks.contains k
      | none, some (_, some k) => !ks.contains k
      | none, some (w, none) => !entries w
      | none, none => true } } }

/-- The work of a destroyed world discarded. -/
def discardWorld (s : State) (w : Nat) : State :=
  let s1 := clearEn s w 40 ((List.range 1024).map (queueAt s))
  let s2 := clearEn s1 w 48 ((List.range 4096).map fun d => fqAt s (BitVec.ofNat 12 d))
  let s3 := (List.range 1024).foldl (fun t q =>
    if (s.queue q).gone.isEmpty || qWorld (queueDesc s q) != w then t else setQueue t q { t.queue q with gone := [] }) s2
  discardNodes s3 (fun n => n.world == w) (· == w)

/-- Everything of a world that p selects by compartment: leaves, contexts, gates, evicted pages gone, frames freed. -/
def dropComps (s : State) (w : Nat) (p : Nat → Bool) : State :=
  let s1 := (s.dev.bedrock.leaves.filter fun l => l.world == some w && p l.keyid).foldl (fun t l => unmapLeaf t w l) s
  let b := s1.dev.bedrock
  let s2 := setBedrock s1 { b with
    ctxs := b.ctxs.filter fun c => !(c.world == w && p c.comp)
    gates := b.gates.filter fun g => !(g.world == w && (p g.srcc || p g.dstc))
    evicted := b.evicted.filter fun e => !(e.world == w && p e.comp)
    counters := b.counters.filter fun x => !(x.world == w && p x.comp)
    roots := b.roots.filter fun x => !(x.world == w && p x.comp)
    poisoned := b.poisoned.filter fun x => !(x.1 == w && p x.2.1) }
  (worldFrames s w p).foldl (fun t f => freeFrames t f 1) s2

/-! ### World requests -/

/-- WCREATE (R370). -/
def execWcreate (s : State) : Out := onRequest s 1 fun b =>
  let w := rqWorld b
  if 16 ≤ w then refuse s stNoWorld
  else if (s.world w).phase ≠ .free then refuse s stState
  else if rqOp b 2 / 4 ≠ 0 then refuse s stReserved
  else
    let (c, s1) := freshComp s
    okay (setWorld s1 w { worldOff with
      phase := .building
      isOpen := (rqOp b 0).testBit 0
      quarter := rqOp b 2
      rcb := rqOp b 1
      comps := vecSet worldOff.comps 0 c })

/-- CCREATE (R370). -/
def execCcreate (s : State) : Out := onRequest s 2 fun b =>
  worldCheck s b mayMap false <|
    if 8 ≤ rqComp b then refuse s stNoComp
    else if ((s.world (rqWorld b)).comp (rqComp b)).created then refuse s stState
    else
      let (c, s1) := freshComp s
      okay (setComp s1 (rqWorld b) (rqComp b) c)

/-- Pages that R371 measures. -/
def measure (wm : BitVec 512) (ipa op2 comp : Nat) (page : List Byte) : BitVec 512 :=
  shake512 (bytesLE 64 wm.toNat ++ bytesLE 8 ipa ++ bytesLE 1 op2 ++ bytesLE 1 comp ++ page)

/-- The bytes that a PA range holds: of this device's memory, or of another device's (R371). -/
def rangeBytes (s : State) (pa n : Nat) : List Byte :=
  if pa / 2 ^ 47 = s.devId then s.mem.bytes (pa % 2 ^ 47) n else fitBytes n (Config.remoteRead (pa / 2 ^ 47) (pa % 2 ^ 47) n s.steps)

/-- A leaf of another device's memory that breaks R367 beside a new one: it overlaps the PA range with another world, KEYID, PROT or
SHARED. Frames of this device are checked in the frame table. -/
def remoteClash (s : State) (l : Leaf) : Bool :=
  l.pa / 2 ^ 47 != s.devId && s.dev.bedrock.leaves.any fun x =>
    decide (x.pa < l.pa + leafBytes l.size) && decide (l.pa < x.pa + leafBytes x.size)
    && !(x.world == l.world && x.keyid == l.keyid && x.prot == l.prot && x.shared == l.shared)

/-- S2MAP (R371, R511, R513). -/
def execS2map (s : State) : Out := onRequest s 3 fun b =>
  worldCheck s b mayMap true <|
    let w := rqWorld b
    let c := rqComp b
    let wd := s.world w
    let ipa := rqOp b 0
    let pa := rqOp b 1
    let op2 := rqOp b 2
    let n := leafBytes (op2 % 4)
    let prot := BitVec.ofNat 2 (nbits op2 6 2)
    let shared := op2.testBit 5
    let x := op2.testBit 4
    let l : Leaf := ⟨some w, ipa, op2 % 4, pa, op2.testBit 2, op2.testBit 3, x, c, prot, shared⟩
    let o := pa % 2 ^ 47
    let inHbm := pa / 2 ^ 47 == s.devId && decide (o < hbmSize)
    let fs := if inHbm then (List.range (n / 2 ^ 16)).map fun i => s.frame (o / 2 ^ 16 + i) else []
    let mine (f : Frame) : Bool := f == .world w c prot shared
    let other (f : Frame) : Bool := match f with
      | .world .. => !mine f
      | _ => false
    let fresh := inHbm && fs.all (· == .free)
    if op2 % 4 = 3 ∨ op2 / 256 ≠ 0 ∨ prot = 3 then refuse s stReserved
    else if ipa % n ≠ 0 ∨ pa % n ≠ 0 ∨ 2 ^ 56 ≤ ipa ∨ 2 ^ 56 ≤ pa then refuse s stFrame
    else if x ∧ wd.phase = .running then refuse s stSealedX
    else if (s.dev.bedrock.leaves.any fun l => l.world == some w && decide (l.ipa < ipa + n) && decide (ipa < l.ipa + leafBytes l.size)) then
      refuse s stOverlap
    else if fs.any other ∨ remoteClash s l ∨ (shared ∧ prot ≠ 0) then refuse s stAlias
    else if fs.any (· == .host) ∨ (inHbm ∧ (s.inCarve o ∨ s.inCarve (o + n - 1))) ∨ (fs.any (· == .free) ∧ fs.any mine)
        ∨ (hbmSize ≤ o ∧ !isRegSpace o) then refuse s stFrame
    else if (s.dev.bedrock.poisoned.any fun y =>
        y.1 == w && y.2.1 == c && decide (ipa / 2 ^ 16 ≤ y.2.2) && decide (y.2.2 < (ipa + n) / 2 ^ 16)) then
      refuse s stState
    else if prot = 2 ∧ fresh ∧ !metadataFits s (quarterOf o) (n / 2 ^ 16) then refuse s stNoRoom
    else
      let wm := if x then measure wd.wm ipa (op2 % 256) c (rangeBytes s pa n) else wd.wm
      let s1 := setWorld s w { wd with wm := wm }
      let s2 := if inHbm then setFrames s1 (o / 2 ^ 16) (n / 2 ^ 16) (.world w c prot shared) else s1
      let s3 := if prot = 2 ∧ fresh then takeSlots s2 (o / 2 ^ 16) (n / 2 ^ 16) else s2
      match mapLeaf s3 w l with
      | some t => okay t
      | none => refuse s stNoRoom

/-- The leaf of a size that begins at an IPA. -/
def leafAt (s : State) (w ipa size : Nat) : Option Leaf :=
  s.dev.bedrock.leaves.find? fun l => l.world == some w && l.ipa == ipa && l.size == size

/-- S2UNMAP (R368, R513). -/
def execS2unmap (s : State) : Out := onRequest s 4 fun b =>
  worldCheck s b mayMap true <|
    match leafAt s (rqWorld b) (rqOp b 0) (rqOp b 2 % 4) with
    | none => refuse s stNoLeaf
    | some l => okay (removeLeaf s (rqWorld b) l)

/-- CTXREG (R370). -/
def execCtxreg (s : State) : Out := onRequest s 5 fun b =>
  worldCheck s b (· == .building) true <|
    let ctx := BitVec.ofNat 16 (rqOp b 0)
    if (s.ctxOf (rqWorld b) ctx).isSome then refuse s stState
    else okay (setBedrock s { s.dev.bedrock with
      ctxs := s.dev.bedrock.ctxs ++ [⟨ctx, rqWorld b, rqComp b, BitVec.ofNat 64 (rqOp b 1)⟩] })

/-- WSEAL (R370, R371). -/
def execWseal (s : State) : Out := onRequest s 6 fun b =>
  worldCheck s b (· == .building) false <|
    okay (setWorld s (rqWorld b) { s.world (rqWorld b) with phase := .running })

/-- WDESTROY (R364, R492). -/
def execWdestroy (s : State) : Out := onRequest s 7 fun b =>
  worldCheck s b mayMap false <|
    let s1 := discardWorld s (rqWorld b)
    okay (setWorld s1 (rqWorld b) { s1.world (rqWorld b) with phase := .destroying })

/-- WORLD_FREED (R364): frames zeroed, keys erased. -/
def execWorldFreed (world : Nat) (s : State) : Out :=
  if (s.world world).phase = .destroying then
    .next (setWorld (dropTables (dropComps s world fun _ => true) world) world worldOff)
  else .next s

/-! ### Eviction (R376, R468) -/

/-- Contents put into a frame. -/
def putFrame (s : State) (off : Nat) (bytes : List Byte) : State := homeWrite (zeroFrames s (off / 2 ^ 16) 1) off bytes

def evictLen : Nat := 2 ^ 16 + 256

/-- The trailer of an evicted page: world, COMP, IPA, v and the tag, in the order of R376 and each on an 8-byte boundary but COMP
(log 11). -/
def evictTrailer (w c ipa v : Nat) (tag : List Byte) : List Byte :=
  fitBytes 256 (bytesLE 1 w ++ bytesLE 7 c ++ bytesLE 8 ipa ++ bytesLE 8 v ++ fitBytes 16 tag)

/-- The buffer of an evicted page: the frame under AES-256-GCM with the park key and v as the nonce, then the trailer. -/
def evictBuffer (key : List Byte) (w c ipa v : Nat) (page : List Byte) : List Byte :=
  let x := gcmSeal key v page
  fitBytes (2 ^ 16) x.1 ++ evictTrailer w c ipa v x.2

/-- The version and contents of a buffer whose tag verifies; none where it does not, or where the trailer names another page. -/
def openEvicted (key : List Byte) (w c ipa : Nat) (buf : List Byte) : Option (Nat × List Byte) :=
  let tr := buf.drop (2 ^ 16)
  let v := bytesAt tr 16 8
  let tag := (tr.drop 24).take 16
  if tr = evictTrailer w c ipa v tag then (gcmOpen key v (buf.take (2 ^ 16)) tag).map fun p => (v, p) else none

/-- EVICT (R376). -/
def execPageEvict (s : State) : Out := onRequest s 8 fun b =>
  worldCheck s b mayMap true <|
    let w := rqWorld b
    let c := rqComp b
    let ipa := rqOp b 0
    if (s.world w).isOpen then refuse s stState
    else
      match leafAt s w ipa 0, hostRange s (rqOp b 1) evictLen with
      | none, _ => refuse s stNoLeaf
      | some _, none => refuse s stFrame
      | some l, some o =>
        if l.keyid ≠ c ∨ (leafFrames s l).isNone then refuse s stNoLeaf
        else
          let cm := (s.world w).comp c
          let v := cm.evictions + 1
          let page := s.mem.bytes (l.pa % 2 ^ 47) (2 ^ 16)
          let s1 := setComp s w c { cm with evictions := v }
          let s2 := homeWrite s1 o (evictBuffer cm.keys.park w c ipa v page)
          let s3 := removeLeaf s2 w l
          let older := s3.dev.bedrock.evicted.filter fun e => !(e.world == w && e.comp == c && e.ipa == ipa)
          (0, v, 0, setBedrock s3 { s3.dev.bedrock with evicted := older ++ [⟨w, c, ipa, v, l⟩] })

/-- RETURN (R376, R468). Over a leaf that the IPA has been given since, it is refused as an S2MAP is (R470; DESIGN CHOICE, log 11). -/
def execPageReturn (s : State) : Out := onRequest s 9 fun b =>
  worldCheck s b mayMap true <|
    let w := rqWorld b
    let c := rqComp b
    let ipa := rqOp b 0
    let pa := rqOp b 1
    let o := pa % 2 ^ 47
    match hostRange s (rqOp b 2) evictLen with
    | none => refuse s stFrame
    | some buf =>
      if pa % 2 ^ 16 ≠ 0 ∨ pa / 2 ^ 47 ≠ s.devId ∨ hbmSize ≤ o ∨ s.inCarve o ∨ s.frame (o / 2 ^ 16) ≠ .free then refuse s stFrame
      else if s.dev.bedrock.leaves.any fun l => l.world == some w && decide (l.ipa < ipa + 2 ^ 16) && decide (ipa < l.ipa + leafBytes l.size) then
        refuse s stOverlap
      else
        let mine (e : Evicted) : Bool := e.world == w && e.comp == c && e.ipa == ipa
        let rest := s.dev.bedrock.evicted.filter fun e => !mine e
        let fail (st : Nat) : Reply := (st, 0, 0, poisonIpa (setBedrock s { s.dev.bedrock with evicted := rest }) w c (ipa / 2 ^ 16))
        match openEvicted ((s.world w).comp c).keys.park w c ipa (s.mem.bytes buf evictLen), s.dev.bedrock.evicted.find? mine with
        | none, _ => fail stTag
        | some _, none => fail stVersion
        | some (v, page), some e =>
          if v ≠ e.version then fail stVersion
          else if e.leaf.prot = 2 ∧ !metadataFits s (quarterOf o) 1 then refuse s stNoRoom
          else
            let s1 := setFrames (putFrame s o page) (o / 2 ^ 16) 1 (.world w c e.leaf.prot e.leaf.shared)
            let s2 := if e.leaf.prot = 2 then takeSlots s1 (o / 2 ^ 16) 1 else s1
            match mapLeaf s2 w { e.leaf with pa := pa } with
            | some u => okay (setBedrock u { u.dev.bedrock with evicted := rest })
            | none => refuse s stNoRoom

/-! ### Checkpoints (R467) -/

/-- One frame in a checkpoint: IPA, PROT, the permissions and SHARED, the contents (log 11). -/
def ckptFrame (s : State) (l : Leaf) : List Byte :=
  bytesLE 8 l.ipa ++ bytesLE 1 l.prot.toNat ++ bytesLE 7 (bitsOf [l.r, l.w, l.x, l.shared]) ++ s.mem.bytes (l.pa % 2 ^ 47) (2 ^ 16)

/-- Bytes of a frame in a checkpoint. -/
def ckptFrameLen : Nat := 16 + 2 ^ 16

/-- Bytes behind the frames: the tag, then the trailer with the key epoch and the KMAC256 tag. -/
def ckptTail : Nat := 16 + 8 + 32

/-- A checkpoint: the frames under AES-256-GCM with the park key and the epoch as the nonce, the tag, the epoch, and KMAC256 under the
park key over all that comes before (R467; log 11). -/
def ckptBytes (key : List Byte) (epoch : Nat) (frames : List Byte) : List Byte :=
  let x := gcmSeal key epoch frames
  let body := x.1 ++ x.2 ++ bytesLE 8 epoch
  body ++ kmac256 key body 32

/-- The epoch and the frames of a checkpoint whose tags verify. -/
def openCkpt (key : List Byte) (b : List Byte) : Option (Nat × List Byte) :=
  let n := b.length - ckptTail
  let epoch := bytesAt b (n + 16) 8
  if ckptTail ≤ b.length ∧ b.drop (n + 24) = kmac256 key (b.take (n + 24)) 32 then
    (gcmOpen key epoch (b.take n) ((b.drop n).take 16)).map fun p => (epoch, p)
  else none

/-- The frames of a checkpoint as leaves of a world and compartment with their contents. -/
def ckptLeaves (w c : Nat) : Nat → List Byte → List (Leaf × List Byte)
  | 0, _ => []
  | fuel + 1, b =>
    if b.length < ckptFrameLen then []
    else
      let a := bytesAt b 9 7
      (⟨some w, bytesAt b 0 8, 0, 0, a.testBit 0, a.testBit 1, a.testBit 2, c, BitVec.ofNat 2 (bytesAt b 8 1), a.testBit 3⟩,
        (b.drop 16).take (2 ^ 16)) :: ckptLeaves w c fuel (b.drop ckptFrameLen)

/-- A leaf split into leaves of 64 KiB. -/
def smallLeaves (l : Leaf) : List Leaf :=
  (List.range (leafBytes l.size / 2 ^ 16)).map fun i => { l with ipa := l.ipa + i * 2 ^ 16, pa := l.pa + i * 2 ^ 16, size := 0 }

/-- The frames of a compartment with their leaves. -/
def compLeaves (s : State) (w c : Nat) : List Leaf :=
  (s.dev.bedrock.leaves.filter fun l => l.world == some w && l.keyid == c && (leafFrames s l).isSome).flatMap smallLeaves

/-- CKPT (R467). -/
def execCkpt (s : State) : Out := onRequest s 0x0D fun b =>
  worldCheck s b (· == .running) true <|
    let w := rqWorld b
    let c := rqComp b
    let cm := (s.world w).comp c
    if cm.quarantined then refuse s stState
    else
      let bytes := ckptBytes cm.keys.park cm.epoch ((compLeaves s w c).flatMap (ckptFrame s))
      match hostRange s (rqOp b 0) (rqOp b 1) with
      | none => refuse s stFrame
      | some o => if rqOp b 1 < bytes.length then refuse s stNoRoom else (0, bytes.length, cm.epoch, homeWrite s o bytes)

/-- A FREE frame, for a page that is mapped no more. -/
def someFree (s : State) : Option Nat := (s.dev.bedrock.frames.find? fun x => x.2 == .free).map (·.1)

/-- One frame of a checkpoint put back: at its leaf, or in a FREE frame with a leaf of its own; none where there is no room, or another
compartment has the IPA (log 33). -/
def restoreFrame (s : State) (w : Nat) (f : Leaf × List Byte) : Option State :=
  match s.dev.bedrock.leaves.find? fun l => l.world == some w && decide (l.ipa ≤ f.1.ipa) && decide (f.1.ipa < l.ipa + leafBytes l.size) with
  | some l =>
    if l.keyid = f.1.keyid ∧ (leafFrames s l).isSome then some (homeWrite s ((l.pa + (f.1.ipa - l.ipa)) % 2 ^ 47) f.2) else none
  | none =>
    (someFree s).bind fun n =>
      let s1 := setFrames (putFrame s (n * 2 ^ 16) f.2) n 1 (.world w f.1.keyid f.1.prot f.1.shared)
      let s2 := if f.1.prot = 2 then takeSlots s1 n 1 else s1
      mapLeaf s2 w { f.1 with pa := s.devId * 2 ^ 47 + n * 2 ^ 16 }

/-- CRESTORE (R467). -/
def execCrestore (s : State) : Out := onRequest s 0x0E fun b =>
  worldCheck s b (· == .running) true <|
    let w := rqWorld b
    let c := rqComp b
    let cm := (s.world w).comp c
    if cm.quarantined = false then refuse s stState
    else
      match hostRange s (rqOp b 0) (rqOp b 1) with
      | none => refuse s stFrame
      | some o =>
        match openCkpt cm.keys.park (s.mem.bytes o (rqOp b 1)) with
        | none => refuse s stTag
        | some (epoch, bytes) =>
          if epoch ≠ cm.epoch then refuse s stVersion
          else
            let fs := ckptLeaves w c (bytes.length / ckptFrameLen + 1) bytes
            match fs.foldl (fun t f => t.bind fun u => restoreFrame u w f) (some s) with
            | none => refuse s stNoRoom
            | some s1 =>
              let ipas := fs.map fun f => f.1.ipa
              let s2 := setBedrock s1 { s1.dev.bedrock with
                poisoned := s1.dev.bedrock.poisoned.filter fun y => !(y.1 == w && y.2.1 == c)
                evicted := s1.dev.bedrock.evicted.filter fun e => !(e.world == w && e.comp == c && ipas.contains e.ipa) }
              (0, cm.epoch + 1, 0, setComp (rebuildTree s2 w c) w c { cm with quarantined := false, restored := true, epoch := cm.epoch + 1 })

/-- CDESTROY (R467, R492). -/
def execCdestroy (s : State) : Out := onRequest s 0x0F fun b =>
  worldCheck s b mayMap true <|
    let w := rqWorld b
    let c := rqComp b
    let mine (n : Node) : Bool := n.world == w && ((s.ctxOf w n.ctx).map (fun x => x.comp == c)).getD false
    let last := (List.range 8).all fun i => i == c || !((s.world w).comp i).created
    let s1 := if last then discardWorld s w else discardNodes s mine fun _ => false
    okay (setComp (dropComps s1 w (· == c)) w c compOff)

/-! ### Frames of the physical function (R512) -/

/-- The range of HRELEASE and HGRANT: its first frame and their number. -/
def frameRange (s : State) (b : Nat) : Except Nat (Nat × Nat) :=
  let pa := rqOp b 0
  let n := leafBytes (rqOp b 2 % 4)
  let o := pa % 2 ^ 47
  if rqOp b 2 / 4 ≠ 0 ∨ rqOp b 2 = 3 then .error stReserved
  else if pa % n ≠ 0 ∨ pa / 2 ^ 47 ≠ s.devId ∨ hbmSize < o + n ∨ s.inCarve o ∨ s.inCarve (o + n - 1) then .error stFrame
  else .ok (o / 2 ^ 16, n / 2 ^ 16)

/-- Every frame of a range is in a state. -/
def allFrames (s : State) (first n : Nat) (f : Frame) : Bool := (List.range n).all fun i => s.frame (first + i) == f

/-- HRELEASE (R512). -/
def execHrelease (s : State) : Out := onRequest s 0x10 fun b =>
  match frameRange s b with
  | .error st => refuse s st
  | .ok (f, n) => if allFrames s f n .host then okay (freeFrames s f n) else refuse s stFrame

/-- HGRANT (R512). -/
def execHgrant (s : State) : Out := onRequest s 0x11 fun b =>
  match frameRange s b with
  | .error st => refuse s st
  | .ok (f, n) => if allFrames s f n .free then okay (setFrames s f n .host) else refuse s stFrame

/-! ### Records and sleep -/

/-- RECORD (R382): an offered record replaces the older copy. -/
def execRecord (s : State) : Out := onRequest s 0x0C fun b =>
  match hostRange s (rqOp b 0) (rqOp b 1) with
  | none => refuse s stFrame
  | some o =>
    let bytes := s.mem.bytes o (rqOp b 1)
    match Config.recordValid s.dev.bedrock.record.ownerKey bytes with
    | none => refuse s stTag
    | some seq =>
      let r := s.dev.bedrock.record
      if seq < r.rollback then refuse s stVersion
      else
        let (x, y) := match r.copies with
          | [x, y] => (x, y)
          | _ => ((0, []), (0, []))
        let copies := if x.1 < y.1 then [(seq, bytes), y] else [x, (seq, bytes)]
        (0, seq, 0, setBedrock s { s.dev.bedrock with record := { r with copies := copies } })

/-- What goes into the retention SRAM for deep sleep: the keys of every compartment, the integrity roots, the sessions with their
counters (R385; the order is the model's, log 11). -/
def retained (s : State) : List Byte :=
  let comp (c : Comp) : List Byte := c.keys.xts ++ c.keys.enc ++ c.keys.mac ++ c.keys.park
  let b := s.dev.bedrock
  (b.worlds.toList.flatMap fun w => w.comps.toList.flatMap comp)
  ++ (b.roots.flatMap fun r => bytesLE 8 (r.world * 32 + r.comp * 4 + r.quarter) ++ bytesLE 8 r.count ++ bytesLE 8 r.mac)
  ++ b.sessions.flatMap fun x => bytesLE 8 x.id ++ x.keys ++ bytesLE 8 x.count

/-- SLEEP (R385): every chiplet gated, no node running; keys are wrapped into the retention SRAM, HBM refreshes itself, and the
powered-down port keeps what it has to send. -/
def execSleep (s : State) : Out := onRequest s 0x0B fun _ =>
  let ok := (List.range 8).all (fun c => (s.chip c).gated) && s.dev.sched.nodes.all (fun n => n.phase != .running)
  if !ok then refuse s stSleep
  else
    let b := s.dev.bedrock
    let s1 := setBedrock s { b with sleep := .asleep, retention := keyWrap b.secrets.wrapping (retained s) }
    let s2 := setPow s1 { s1.dev.power with selfRefresh := .replicate 4 true }
    okay (setHost s2 { s2.dev.host with portUp := false })

/-- REKEY (R373): fresh keys for a compartment of which a counter has come near its limit; no other effect that a program sees. -/
def execRekey (s : State) : Out :=
  let i := Config.pick s.steps % 128
  let w := i / 8
  let c := i % 8
  let due := s.dev.bedrock.counters.any fun x =>
    decide (Config.rekeyAt ≤ x.count) && s.counts w c x
  if ((s.world w).comp c).created && due then .next (rekeyComp s w c) else .next s

end Sys2Proof.Machine
end

