-- ==== Sys2Proof/Machine/Owner.lean ====
section
/-! DEFINITION. SPDM and the owners' requests (spec/16 R377 to R380, R384), with SECMSG (R370), by which they also arrive. The coding
of messages is that of a public standard and of the owners' software, not of the spec (log 11). -/

namespace Sys2Proof.Machine

/-! ### Sessions -/

def sessionOff (id : Nat) : Session := ⟨id, 0, [], [], [], 0⟩

def State.session (s : State) (id : Nat) : Session := (s.dev.bedrock.sessions.find? fun x => x.id == id).getD (sessionOff id)

def setSession (s : State) (x : Session) : State :=
  setBedrock s { s.dev.bedrock with sessions := (s.dev.bedrock.sessions.filter fun y => y.id != x.id) ++ [x] }

/-- SPDM request codes. -/
def spdmVersion : Nat := 0x84
def spdmCapabilities : Nat := 0xE1
def spdmAlgorithms : Nat := 0xE3
def spdmDigests : Nat := 0x81
def spdmCertificate : Nat := 0x82
def spdmChallenge : Nat := 0x83
def spdmMeasurements : Nat := 0xE0
def spdmKeyExchange : Nat := 0xE4
def spdmFinish : Nat := 0xE5
def spdmEnd : Nat := 0xEC
def spdmVendor : Nat := 0xFE

/-- The stage that a request leads to; none where it may not come yet. -/
def spdmStage (code stage : Nat) : Option Nat :=
  if code = spdmVersion then some 1
  else if code = spdmCapabilities then (if stage = 1 then some 2 else none)
  else if code = spdmAlgorithms then (if stage = 2 then some 3 else none)
  else if code = spdmKeyExchange then (if 3 ≤ stage then some 4 else none)
  else if code = spdmFinish then (if stage = 4 then some 5 else none)
  else if code = spdmEnd then (if stage = 5 then some 3 else none)
  else if 3 ≤ stage then some stage else none

/-- A secured session. -/
def Session.secured (x : Session) : Bool := x.stage == 5

/-- The nonce of a message of a secured session: its number (log 11). -/
def Session.nonce (x : Session) : Nat := x.count

/-- A message of a session as Bedrock takes it: in a secured one, opened under the key of requests; none where its tag fails (R384). -/
def Session.take (x : Session) (msg : List Byte) : Option (List Byte) :=
  if x.secured then gcmOpen (x.keys.take 32) x.nonce (msg.take (msg.length - 16)) (msg.drop (msg.length - 16)) else some msg

/-- A reply as the session carries it: in a secured one, sealed under the key of replies. -/
def Session.give (x : Session) (reply : List Byte) : List Byte :=
  if x.secured then
    let y := gcmSeal (x.keys.drop 32) x.nonce reply
    y.1 ++ y.2
  else reply

/-- The session acts for the owner of a compartment: its public key is the one bound to it (R380). -/
def Session.owns (s : State) (x : Session) (w c : Nat) : Bool :=
  x.secured && decide (w < 16) && decide (c < 8) && ((s.world w).comp c).claim == some x.key

/-- A measurement block: its index, and the raw digest (R384). -/
def measurementBlock (i : Nat) (m : BitVec 512) : List Byte := bytesLE 1 i ++ bytesLE 64 m.toNat

/-- What goes into a reply beside the session's transcript (R381, R384): the measurements, with WM of each world in which the session
holds a claim; the certificate; the private key with which Bedrock signs. -/
def shown (s : State) (x : Session) (code : Nat) : List Byte :=
  let b := s.dev.bedrock
  if code = spdmMeasurements then
    (b.measurements.flatMap fun m => measurementBlock m.1 m.2)
    ++ (((List.range 16).filter fun w => (List.range 8).any fun c => x.owns s w c).flatMap fun w =>
      measurementBlock (0x10 + w) (s.world w).wm) ++ b.secrets.signing
  else if code = spdmDigests ∨ code = spdmCertificate then b.record.certificate
  else if code = spdmChallenge ∨ code = spdmKeyExchange then b.record.certificate ++ b.secrets.signing
  else []

/-- A message of a secured session has been taken. -/
def countMessage (s : State) (id : Nat) : State :=
  let x := s.session id
  if x.secured then setSession s { x with count := x.count + 1 } else s

/-- A request of a session, as opened: the reply as the session carries it, and the session's new stage (R384). -/
def spdm (s : State) (id code : Nat) (msg : List Byte) : List Byte × State :=
  let x := s.session id
  let reply := Config.spdmReply id (x.transcript ++ shown s x code) msg
  match spdmStage code x.stage with
  | none => (x.give reply, countMessage s id)
  | some k =>
    let tr := if code = spdmVersion then msg ++ reply else x.transcript ++ msg ++ reply
    let y : Session :=
      if k = 5 ∧ code = spdmFinish then ⟨id, k, tr, Config.peerKey tr, fitBytes 64 (Config.sessionKeys tr), 0⟩
      else if k = 5 then ⟨id, k, tr, x.key, x.keys, x.count + 1⟩
      else ⟨id, k, tr, [], [], 0⟩
    (x.give reply, setSession s y)

/-- The reply to a message that its session cannot open: nothing else follows from it. -/
def spdmError (s : State) (id : Nat) : List Byte := Config.spdmReply id (s.session id).transcript []

/-- A request on the side-band port. -/
def spdmRow (s : State) (id code : Nat) (msg : List Byte) : Out :=
  match (s.session id).take msg with
  | none => .next (sideband s (spdmError s id))
  | some m =>
    let (r, t) := spdm s id code m
    .next (sideband t r)

/-- GET_VERSION (R384). -/
def execGetVersion (session : Nat) (bytes : List Byte) (s : State) : Out := spdmRow s session spdmVersion bytes

/-- GET_CAPABILITIES (R384). -/
def execGetCapabilities (session : Nat) (bytes : List Byte) (s : State) : Out := spdmRow s session spdmCapabilities bytes

/-- NEGOTIATE_ALGORITHMS (R384). -/
def execNegotiateAlgorithms (session : Nat) (bytes : List Byte) (s : State) : Out := spdmRow s session spdmAlgorithms bytes

/-- GET_DIGESTS (R384). -/
def execGetDigests (session : Nat) (bytes : List Byte) (s : State) : Out := spdmRow s session spdmDigests bytes

/-- GET_CERTIFICATE (R384). -/
def execGetCertificate (session : Nat) (bytes : List Byte) (s : State) : Out := spdmRow s session spdmCertificate bytes

/-- CHALLENGE (R384). -/
def execChallenge (session : Nat) (bytes : List Byte) (s : State) : Out := spdmRow s session spdmChallenge bytes

/-- GET_MEASUREMENTS (R384). -/
def execGetMeasurements (session : Nat) (bytes : List Byte) (s : State) : Out := spdmRow s session spdmMeasurements bytes

/-- KEY_EXCHANGE (R384). -/
def execKeyExchange (session : Nat) (bytes : List Byte) (s : State) : Out := spdmRow s session spdmKeyExchange bytes

/-- FINISH (R384). -/
def execFinish (session : Nat) (bytes : List Byte) (s : State) : Out := spdmRow s session spdmFinish bytes

/-- END_SESSION (R384). -/
def execEndSession (session : Nat) (bytes : List Byte) (s : State) : Out := spdmRow s session spdmEnd bytes

/-! ### Owners (R380) -/

/-- CLAIM: world and compartment; the session's public key is bound to them, and the first claim wins. WM is extended with the key's
SHAKE256 digest; how, and the digest's length, the spec does not say: the new WM is SHAKE256, to 512 bits, of the old one followed by the
64 bytes of the key's digest (DESIGN CHOICE, log 11). -/
def ownerClaim (s : State) (id : Nat) (b : List Byte) : State :=
  let x := s.session id
  let w := bytesAt b 0 1
  let c := bytesAt b 1 1
  let wd := s.world w
  let cm := wd.comp c
  if x.secured && decide (w < 16) && decide (c < 8) && wd.phase == .building && cm.created && cm.claim.isNone then
    let wm := shake512 (bytesLE 64 wd.wm.toNat ++ shake256 x.key 64)
    setWorld s w { wd with wm := wm, comps := vecSet wd.comps c { cm with claim := some x.key } }
  else s

/-- KEY_IMPORT: world, compartment and 160 bytes of keys, which take the place of the compartment's. -/
def ownerKeys (s : State) (id : Nat) (b : List Byte) : State :=
  let w := bytesAt b 0 1
  let c := bytesAt b 1 1
  if (s.session id).owns s w c && (s.world w).phase == .building then
    setComp s w c { (s.world w).comp c with keys := keysOf (fitBytes 160 (b.drop 2)), imported := true }
  else s

/-! ### Gates (R377, R379) -/

/-- A gate as GATE_OPEN describes it. -/
def gateOf (w : Nat) (b : List Byte) (ph : GatePhase) (id : Nat) : Gate :=
  ⟨w, bytesAt b 0 1, bytesAt b 1 1, bytesAt b 2 1, bytesAt b 3 8, bytesAt b 11 8, bytesAt b 19 8, bytesAt b 27 8, ph, id⟩

/-- A descriptor's fields are in range (R377). -/
def gateOk (g : Gate) : Bool :=
  decide (g.no < 64) && decide (g.srcc < 8) && decide (g.dstc < 8) && g.srcc != g.dstc
  && g.sipa % 2 ^ 16 == 0 && g.slen % 2 ^ 16 == 0 && g.dipa % 2 ^ 16 == 0 && g.dlen % 2 ^ 16 == 0

/-- The same descriptor. -/
def sameGate (a b : Gate) : Bool := { a with phase := .isOpen, session := 0 } == { b with phase := .isOpen, session := 0 }

def setGates (s : State) (l : List Gate) : State := setBedrock s { s.dev.bedrock with gates := l }

/-- GATE_OPEN: a world, then the descriptor; one owner asks, and the other's request with the same descriptor opens the gate. -/
def ownerOpen (s : State) (id : Nat) (b : List Byte) : State :=
  let x := s.session id
  let w := bytesAt b 0 1
  let src := x.owns s w (bytesAt b 2 1)
  let g := gateOf w (b.drop 1) (.asked src) id
  let others := s.dev.bedrock.gates.filter fun h => !(h.world == w && h.no == g.no)
  if (s.world w).phase != .running || !gateOk g || !(src || x.owns s w g.dstc) then s
  else
    match s.dev.bedrock.gates.find? fun h => h.world == w && h.no == g.no with
    | none => setGates s (s.dev.bedrock.gates ++ [g])
    | some h =>
      match h.phase with
      | .asked bySrc =>
        if sameGate g h && (if bySrc then x.owns s w g.dstc else src) then setGates s (others ++ [{ g with phase := .isOpen }])
        else setGates s (others ++ [g])
      | _ => s

/-- The copy commands of a world in flight. -/
def worldCopies (s : State) (w : Nat) : List (Nat × Nat × Nat) :=
  (s.vcores.filter fun v => v.live && v.id.world == w).flatMap fun v =>
    (v.st.ops.filter fun o => o.kind.isCopy).map fun o => (v.id.node, v.id.vcid.toNat, o.id)

/-- GATE_CLOSE: a world and a gate; the gate crosses nothing from now on, and the answer waits for the copies in flight. -/
def ownerClose (s : State) (id : Nat) (b : List Byte) : State :=
  let x := s.session id
  let w := bytesAt b 0 1
  let no := bytesAt b 1 1
  let close (h : Gate) : Gate :=
    if h.world == w && h.no == no && (x.owns s w h.srcc || x.owns s w h.dstc) then
      { h with phase := .closing (match h.phase with
          | .closing l => l
          | _ => worldCopies s w), session := id }
    else h
  if (s.world w).phase == .running then setGates s (s.dev.bedrock.gates.map close) else s

/-- The copies that were in flight when a gate closed have completed (R379). -/
def gateDrained (s : State) (g : Gate) : Bool :=
  match g.phase with
  | .closing l => !(l.any fun x => (worldCopies s g.world).contains x)
  | _ => true

/-- An owner's request in the session, as opened: its effect and the reply. -/
def ownerReply (s : State) (id : Nat) (f : State → Nat → List Byte → State) (m : List Byte) : List Byte × State :=
  ((s.session id).give (Config.spdmReply id (s.session id).transcript m), countMessage (f s id m) id)

/-- An owner's request on the side-band port. -/
def ownerRow (s : State) (id : Nat) (f : State → Nat → List Byte → State) (msg : List Byte) : Out :=
  match (s.session id).take msg with
  | none => .next (sideband s (spdmError s id))
  | some m =>
    let (r, t) := ownerReply s id f m
    .next (sideband t r)

/-- CLAIM (R380). -/
def execClaim (session : Nat) (bytes : List Byte) (s : State) : Out := ownerRow s session ownerClaim bytes

/-- KEY_IMPORT (R380). -/
def execKeyImport (session : Nat) (bytes : List Byte) (s : State) : Out := ownerRow s session ownerKeys bytes

/-- GATE_OPEN (R377). -/
def execGateOpen (session : Nat) (bytes : List Byte) (s : State) : Out := ownerRow s session ownerOpen bytes

/-- GATE_CLOSE (R377, R379): it is answered by GATE_CLOSE_ANSWER. -/
def execGateClose (session : Nat) (bytes : List Byte) (s : State) : Out :=
  match (s.session session).take bytes with
  | none => .next (sideband s (spdmError s session))
  | some m => .next (countMessage (ownerClose s session m) session)

/-- GATE_CLOSE_ANSWER (R379): every copy that was in flight at the close has completed. -/
def execGateCloseAnswer (gate : Nat) (s : State) : Out :=
  match s.dev.bedrock.gates[gate]? with
  | none => .next s
  | some g =>
    match g.phase with
    | .closing _ =>
      if !gateDrained s g then .next s
      else
        .next (sideband (setGates s (s.dev.bedrock.gates.eraseIdx gate))
          ((s.session g.session).give (Config.spdmReply g.session (s.session g.session).transcript (bytesLE 1 g.no))))
    | _ => .next s

/-! ### SECMSG -/

/-- The sessions that arrive through the mailbox are numbered from here on. A SECMSG buffer begins with the session's number in 4
bytes; the SPDM message follows (log 11). -/
def hostSession (msg : List Byte) : Nat := 2 ^ 16 + bytesAt msg 0 4

/-- The owner's request within a vendor-defined one: 1 CLAIM, 2 KEY_IMPORT, 3 GATE_OPEN, 4 GATE_CLOSE. -/
def vendorCode (m : List Byte) : Nat := if bytesAt m 1 1 = spdmVendor then bytesAt m 2 1 else 0

/-- The effect of an owner's request by its code. -/
def ownerEffect (code : Nat) (s : State) (id : Nat) (b : List Byte) : State :=
  match code with
  | 1 => ownerClaim s id b
  | 2 => ownerKeys s id b
  | 3 => ownerOpen s id b
  | 4 => ownerClose s id b
  | _ => s

/-- The SPDM message in a SECMSG buffer: what follows the session's number, opened where the session is secured. -/
def hostOpened (s : State) (msg : List Byte) : Option (List Byte) := (s.session (hostSession msg)).take (msg.drop 4)

/-- A message of the host passed to Bedrock: an owner's request, or SPDM. -/
def hostMessage (s : State) (msg : List Byte) : List Byte × State :=
  let id := hostSession msg
  match hostOpened s msg with
  | none => (spdmError s id, s)
  | some m =>
    if bytesAt m 1 1 = spdmVendor then ownerReply s id (fun t i _ => ownerEffect (vendorCode m) t i (m.drop 3)) m
    else spdm s id (bytesAt m 1 1) m

/-- A GATE_CLOSE passed through the mailbox whose gate still waits for copies in flight: the request stays in progress (R379). -/
def closeWaits (s : State) (m : List Byte) : Bool :=
  let b := m.drop 3
  vendorCode m == 4 && s.dev.bedrock.gates.any fun g =>
    g.world == bytesAt b 0 1 && g.no == bytesAt b 1 1 && !gateDrained s g

/-- A gate closed through the mailbox is gone once its close is answered. -/
def dropClosed (s : State) (m : List Byte) : State :=
  let b := m.drop 3
  if vendorCode m = 4 then
    setGates s (s.dev.bedrock.gates.filter fun g => !(g.world == bytesAt b 0 1 && g.no == bytesAt b 1 1 && match g.phase with
      | .closing _ => true
      | _ => false))
  else s

/-- A GATE_CLOSE passed through the mailbox that waits for copies in flight: the gate is closed, and nothing is answered yet (R379). -/
def closeHeld (s : State) (msg : List Byte) : Option State :=
  (hostOpened s msg).bind fun m =>
    let t := if vendorCode m = 4 then ownerClose s (hostSession msg) (m.drop 3) else s
    if closeWaits t m then some t else none

/-- SECMSG (R370): the reply takes the place of the message; one longer than the buffer of OP1 bytes is refused, with nothing done
(log 11). -/
def execSecmsg (s : State) : Out :=
  match s.dev.bedrock.request with
  | none => .next s
  | some (_, b) =>
    let read := hostRange s (rqOp b 0) (rqOp b 1)
    let msg := match read with
      | some o => s.mem.bytes o (rqOp b 1)
      | none => []
    let (r, t) := hostMessage s msg
    match (if rqCmd b = 0x0A ∧ read.isSome ∧ nbits b 32 32 = 0 then closeHeld s msg else none) with
    | some u => .next u
    | none =>
      onRequest s 0x0A fun b =>
        match hostRange s (rqOp b 0) (rqOp b 1) with
        | none => refuse s stFrame
        | some o => if rqOp b 1 < r.length then refuse s stNoRoom else (0, r.length, 0, homeWrite (dropClosed t ((hostOpened s msg).getD [])) o r)

end Sys2Proof.Machine
end

