-- ==== Sys2Proof/Machine/DevRegs.lean ====
section
/-! DEFINITION. The register space (spec/00 R5, R6, R8; spec/05 R112, R116; spec/14 R323, R327; spec/15 R350, R363; spec/16 R369;
spec/17 R390 to R392, R395; spec/20 R418; spec/22 R477, R478; spec/23 R491, R505) and PARTCTL's layouts. -/

namespace Sys2Proof.Machine

/-- The agents that reach the register space. -/
inductive Agent
  | pf
  | vf (n : Nat)
  | basecamp
  | context
  deriving DecidableEq, Repr, Inhabited

/-- The registers by what a read or write of them does. -/
inductive DevReg
  | notify (q : Nat)
  | qtbase | schcfg | stallcfg
  | pstat | curtst | pincfg | chipst | etotal | curvseq | tstat
  | brreq | brstat
  | devnum | idtag | bstat | carve | cpres (pair : Nat)
  | cmbaddr | cmblen | cmbstat | partctl | vfworld (n : Nat)
  | lstat (n : Nat) | lerr (n : Nat)
  | fqtbase | fdctl | fdstat | fhold | mecnt | melog | injctl | injaddr | fstop (i : Nat)
  | none
  deriving DecidableEq, Repr, Inhabited

/-- The registers of a page by page offset. -/
def pageReg (page o : Nat) : DevReg :=
  match page, o with
  | 4, 0x00 => .qtbase | 4, 0x08 => .schcfg | 4, 0x10 => .stallcfg
  | 5, 0x00 => .pstat | 5, 0x08 => .curtst | 5, 0x10 => .pincfg | 5, 0x18 => .chipst | 5, 0x20 => .etotal | 5, 0x28 => .curvseq
  | 5, 0x30 => .tstat
  | 6, 0x00 => .brreq | 6, 0x08 => .brstat
  | 7, 0x00 => .devnum | 7, 0x08 => .idtag | 7, 0x10 => .bstat | 7, 0x18 => .carve
  | 8, 0x00 => .cmbaddr | 8, 0x08 => .cmblen | 8, 0x10 => .cmbstat | 8, 0x18 => .partctl
  | 10, 0x00 => .fqtbase | 10, 0x08 => .fdctl | 10, 0x10 => .fdstat | 10, 0x18 => .fhold | 10, 0x20 => .mecnt | 10, 0x28 => .melog
  | 10, 0x30 => .injctl | 10, 0x38 => .injaddr
  | 7, o => if 0x100 ≤ o ∧ o < 0x120 then .cpres ((o - 0x100) / 8) else .none
  | 8, o => if 0x100 < o ∧ o < 0x300 then .vfworld ((o - 0x100) / 8) else .none
  | 9, o => if o < 0x90 then .lstat (o / 8) else if 0x100 ≤ o ∧ o < 0x190 then .lerr ((o - 0x100) / 8) else .none
  | 10, o => if 0x1000 ≤ o ∧ o < 0x1200 then .fstop ((o - 0x1000) / 8) else .none
  | _, _ => .none

/-- The register of 8 bytes at an offset of the register space, a multiple of 8. -/
def devReg (off : Nat) : DevReg :=
  if off < 0x4000000 then (if off % 0x10000 = 0 then .notify (off / 0x10000) else .none)
  else if off < 0xB000000 ∧ off % 0x1000000 < 0x10000 then pageReg (off / 0x1000000) (off % 0x1000000) else .none

/-- Whether an agent reaches a register (R323, R350, R369, R387, R390, R391, R395, R418). -/
def reaches (s : State) (a : Agent) (r : DevReg) (write : Bool) : Bool :=
  let info (x : DevReg) : Bool := match x with
    | .devnum | .idtag | .bstat | .carve | .cpres _ => true
    | _ => false
  match a, r with
  | .pf, _ => true
  | .basecamp, .notify _ => false
  | .basecamp, _ => true
  | .vf n, .notify q => qVf (queueDesc s q) == n
  | .vf _, x => info x && !write
  | .context, .notify _ => true
  | .context, x => info x

/-- CHIPST (R350). -/
def chipstOf (s : State) : Word :=
  (List.range 8).foldl (fun (w : Word) c =>
    let x := s.chip c
    w ||| ((bit64 x.offline 7 ||| bit64 x.gated 6 ||| bit64 x.hot 5 ||| zx x.step) <<< (8 * c))) 0

/-- LSTATn (R395). -/
def lstatOf (s : State) (n : Nat) : Word :=
  match s.dev.links.ports.toList[n]? with
  | some p => (zx p.peer <<< 32) ||| (zx p.peerPort <<< 24) ||| (zx p.lanes <<< 16) ||| bit64 (p.up && !p.retraining) 0
  | none => 0

/-- FSTOP bits 64i to 64i + 63 (R418). -/
def fstopOf (s : State) (i : Nat) : Word :=
  s.dev.faults.stops.foldl (fun (w : Word) x => if x.fdom.toNat / 64 = i then w ||| ((1 : Word) <<< (x.fdom.toNat % 64)) else w) 0

/-- The value of a register that a read changes nothing of (R5). -/
def regValue (s : State) (r : DevReg) : Word :=
  let p := s.dev.power
  let f := s.dev.faults
  let b := s.dev.bedrock
  let h := s.dev.host
  let c := s.dev.sched
  match r with
  | .notify q => notifyRead s q
  | .qtbase => c.qtbase
  | .schcfg => (zx c.age <<< 8) ||| zx c.ywin
  | .stallcfg => zx c.stallTicks
  | .pstat => bit64 p.floor 48 ||| (BitVec.ofNat 64 (p.band % 2 ^ 16) <<< 32) ||| (BitVec.ofNat 64 (p.target % 2 ^ 16) <<< 16)
      ||| BitVec.ofNat 64 (p.avg % 2 ^ 16)
  | .curtst => (zx p.since <<< 16) ||| bit64 p.done 9 ||| bit64 p.src 8 ||| (zx p.thresh <<< 3) ||| zx p.grade
  | .pincfg => (zx p.pinTh <<< 1) ||| bit64 p.pinEn 0
  | .chipst => chipstOf s
  | .etotal => p.etotal
  | .curvseq => p.curvseq
  | .tstat => bit64 p.lock 32 ||| zx p.offset
  | .brstat => (zx b.seq <<< 32) ||| bit64 b.request.isSome 31 ||| bit64 b.ovr 30 ||| bit64 b.wlost 29 ||| zx b.status
  | .devnum => zx h.devnum
  | .idtag => h.idtag
  | .bstat => bit64 h.ready 3 ||| zx h.phase
  | .carve => BitVec.ofNat 64 (natLE h.carve.toList)
  | .cpres i => zx (h.cpres.toList.getD (2 * i) 0) ||| (zx (h.cpres.toList.getD (2 * i + 1) 0) <<< 32)
  | .cmbstat => bit64 h.cmbBusy 31 ||| zx h.cmbResult
  | .partctl => (zx h.applied <<< 16) ||| zx h.layout
  | .vfworld n => zx (h.vfworld.toList.getD n 0)
  | .lstat n => lstatOf s n
  | .fqtbase => f.fqtbase
  | .fdstat => bit64 f.busy 31 ||| bit64 f.ovr 30 ||| (zx f.result <<< 16) ||| (zx f.last <<< 14) ||| zx f.fdom
  | .fhold => zx f.fhold
  | .injctl => f.injctl
  | .injaddr => f.injaddr
  | .fstop i => fstopOf s i
  | .brreq | .cmbaddr | .cmblen | .fdctl | .mecnt | .melog | .lerr _ | .none => 0

/-- A register read: the RC fields that the read covers are cleared (R5, R6). -/
def regRead (s : State) (r : DevReg) (x : Span := .whole) : Word × State :=
  match r with
  | .mecnt => readMecnt s x
  | .melog => readMelog s x
  | .lerr n => readLerr s n x
  | _ => (regValue s r, s)

/-- BASE fields of QTBASE and FQTBASE, PA fields of CMBADDR. -/
def baseField (v : Word) : Word := v &&& 0x00FFFFFFFFFF0000

/-- PARTCTL written: a reserved layout code is ignored (R392). -/
def writePartctl (s : State) (v : Word) : State :=
  let l := v.extractLsb' 0 3
  if 5 ≤ l.toNat then s else setHost s { s.dev.host with layout := l }

/-- The bytes of a register whose writing triggers an action; the other bytes are reserved (R8). -/
def triggerBytes (r : DevReg) : Nat × Nat :=
  match r with
  | .brreq => (1, 7)
  | .cmblen => (0, 2)
  | .fdctl => (0, 2)
  | .injctl => (4, 8)
  | _ => (0, 8)

/-- A register written with a value, of which the bytes x come from the write, by its fields' access codes (R5, R8). A write that
touches reserved bytes only is ignored. -/
def regWrite (s : State) (r : DevReg) (v : Word) (x : Span := .whole) : State :=
  let c := s.dev.sched
  let f := s.dev.faults
  let b := s.dev.bedrock
  let h := s.dev.host
  if !x.touches (triggerBytes r).1 (triggerBytes r).2 then s
  else
  match r with
  | .notify q => notify s q v
  | .qtbase => setSched s { c with qtbase := baseField v }
  | .schcfg => setSched s { c with age := v.extractLsb' 8 8, ywin := v.extractLsb' 0 8 }
  | .stallcfg => setSched s { c with stallTicks := v.extractLsb' 0 8 }
  | .pincfg => applyGrade (setPow s { s.dev.power with pinTh := v.extractLsb' 1 5, pinEn := v.getLsbD 0 })
  | .brreq => startRequest s v
  | .brstat => setBedrock s { b with ovr := b.ovr && !v.getLsbD 30, wlost := b.wlost && !v.getLsbD 29 }
  | .cmbaddr => setHost s { h with cmbaddr := v &&& 0x00FFFFFFFFFFFF00 }
  | .cmblen => startMailbox s v
  | .partctl => writePartctl s v
  | .vfworld n => dropDead (setHost s { h with vfworld := vecSet h.vfworld n (v.extractLsb' 0 5) })
  | .fqtbase => setFaults s { f with fqtbase := baseField v }
  | .fdctl => writeFdctl s v
  | .fdstat => setFaults s { f with ovr := f.ovr && !v.getLsbD 30 }
  | .fhold => setFaults s { f with fhold := v.extractLsb' 0 8 }
  | .injctl => writeInjctlPart s v x
  | .injaddr => setFaults s { f with injaddr := v }
  | _ => s

/-- The bytes of a register that a narrower write leaves: those of RW fields and of CMBADDR keep their value, others are written as
zero. -/
def keptBytes (s : State) (r : DevReg) : Word :=
  match r with
  | .qtbase | .schcfg | .stallcfg | .pincfg | .partctl | .vfworld _ | .fqtbase | .fhold | .injctl | .injaddr => regValue s r
  | .cmbaddr => s.dev.host.cmbaddr
  | _ => 0

/-- A read of n bytes within one register, by an agent. -/
def devRead (s : State) (a : Agent) (off n : Nat) : Nat × State :=
  let r := devReg (off / 8 * 8)
  if reaches s a r false then
    let (v, t) := regRead s r ⟨off % 8, n⟩
    (nbits v.toNat (8 * (off % 8)) (8 * n), t)
  else (0, s)

/-- A write of n bytes within one register, by an agent. -/
def devWrite (s : State) (a : Agent) (off n v : Nat) : State :=
  let r := devReg (off / 8 * 8)
  if reaches s a r true then regWrite s r (setNat (keptBytes s r) (8 * (off % 8)) (8 * n) v) ⟨off % 8, n⟩ else s

/-- Reads register by register. -/
def devReads (s : State) (a : Agent) : Nat → Nat → Nat → List Byte × State
  | 0, _, _ => ([], s)
  | fuel + 1, off, n =>
    if n = 0 then ([], s)
    else
      let m := min n (8 - off % 8)
      let (v, t) := devRead s a off m
      let (rest, u) := devReads t a fuel (off + m) (n - m)
      (bytesLE m v ++ rest, u)

/-- Writes register by register. -/
def devWrites (s : State) (a : Agent) : Nat → Nat → List Byte → State
  | 0, _, _ => s
  | fuel + 1, off, bs =>
    if bs.isEmpty then s
    else
      let m := min bs.length (8 - off % 8)
      devWrites (devWrite s a off m (natLE (bs.take m))) a fuel (off + m) (bs.drop m)

/-- The agent that a function number names. -/
def agentOf (fn : Nat) : Agent := if fn = 0 then .pf else .vf fn

/-- REGISTER_WRITE (R5): a write of 1 to 8 bytes of a register. -/
def execRegisterWrite (fn off size : Nat) (value : Word) (s : State) : Out :=
  if 1 ≤ size ∧ size + off % 8 ≤ 8 then .next (devWrite s (agentOf fn) off size value.toNat) else .next s

/-- PARTCTL (R392). -/
def execPartctl (value : Word) (s : State) : Out := .next (writePartctl s value)

/-! ### Layouts -/

/-- The partition of a quarter differs between two layouts. -/
def quarterMoves (old new q : Nat) : Bool :=
  ((layoutParts old).find? fun l => l.contains q) != ((layoutParts new).find? fun l => l.contains q)

/-- A job in a quarter of its partition that changes has neither completed nor been parked (R26). -/
def holdsLayout (s : State) (new : Nat) (n : Node) : Bool :=
  let active := match n.phase with
    | .running => true
    | .selected => true
    | .completing _ => true
    | .resting parked => !parked
    | _ => false
  active && (s.partQuarters (s.worldPart n.world)).any (quarterMoves s.dev.host.applied.toNat new)

/-- A parked node some of whose write ranges lie in a quarter that is not of its partition in a layout (R359). -/
def rangesMove (s : State) (new : Nat) (n : Node) : Bool :=
  let mine := ((layoutParts new).find? fun l => l.contains (s.world n.world).quarter).getD []
  n.saved.any fun r => !mine.contains (quarterOf r.1)

/-- The partition regions of a layout (R392, R515): each takes its record's RCB; the region of a partition that the change leaves keeps
its tokens and what is left of its budgets. -/
def layoutRegions (s : State) (new : Nat) : List Region :=
  let rcbs := s.dev.bedrock.record.partRcb.getD new []
  (layoutParts new).zipIdx.map fun x =>
    let r := regionOf (rcbs.getD x.2 0)
    match s.partitions.findIdx? (· == x.1) with
    | some i => { getRegion s (.part i) with bits := r.bits }
    | none => r

/-- The budgets of a tick given again to a region, its tokens left: nothing has been charged there since the boundary. -/
def regive (s : State) (path : List RegionId) : State :=
  match path with
  | [] => s
  | id :: _ => let t := (getRegion s id).tokens; let u := refill s path; setRegion u id { getRegion u id with tokens := t }

/-- The regions of the quarters that a layout moves, at the boundary where it is applied (R322, R326): a new partition region gets its
tokens and its budgets, and the regions below one get their budgets through it. `old` is the layout that was in force. -/
def fillMoved (s : State) (old : Nat) : State :=
  let new := s.dev.host.applied.toNat
  let moved (w : Nat) : Bool := quarterMoves old new (s.world w).quarter
  let fresh := (List.range s.partitions.length).filter fun p => (s.partQuarters p).any (quarterMoves old new)
  let s1 := fresh.foldl (fun t p => refill t [.part p, .root]) s
  let s2 := ((liveWorlds s1).filter moved).foldl (fun t w => regive t (worldPath t w)) s1
  let s3 := ((liveQueues s2).filter fun q => moved (queueWorld s2 q)).foldl (fun t q => regive t (jobPath t q (queueWorld t q))) s2
  (s3.dev.sched.nodes.filter fun n => moved n.world).foldl (fun t n => regive t (nodePath t n)) s3

/-- LAYOUT_APPLY (R26, R326, R359, R392, R515), at a tick boundary: the RCBs of the new layout's partition regions are written, and
APPLIED follows LAYOUT. -/
def execLayoutApply (s : State) : Out :=
  let h := s.dev.host
  let new := h.layout.toNat
  if h.layout = h.applied || !s.atBoundary || s.dev.sched.nodes.any (holdsLayout s new) then .next s
  else
    let mark (n : Node) : Node := if rangesMove s new n then { n with moved := true } else n
    let s1 := setSched s { s.dev.sched with nodes := s.dev.sched.nodes.map mark, parts := layoutRegions s new }
    .next (fillMoved (setHost s1 { h with applied := h.layout }) h.applied.toNat).selectDue

end Sys2Proof.Machine
end

