-- ==== Sys2Proof/Machine/HostPort.lean ====
section
/-! DEFINITION. The host port, the side-band port's PLDM and register accesses, and the scale-up links (spec/17 R386 to R389, R393 to
R397; spec/23 R502 to R506). Completions begin with a byte that tells them apart: 0 successful, 1 Completer Abort, 2 poisoned data,
3 Configuration Request Retry Status. -/

namespace Sys2Proof.Machine

/-- A completion sent while the port is up (R503). -/
def complete (s : State) (code : Nat) (bs : List Byte) : State :=
  if s.dev.host.portUp then setHost s { s.dev.host with sent := s.dev.host.sent ++ [bytesLE 1 code ++ bs] } else s

/-- The world that a function serves (R391). -/
def vfWorld (s : State) (fn : Nat) : Option Nat :=
  let x := s.dev.host.vfworld.toList.getD fn 0
  if x.getLsbD 4 then some (nbits x.toNat 0 4) else none

/-- The home of one host access under its function's stage 2, with the owner check (R365 to R367, R387, R503, R512). -/
def hostPlace (s : State) (fn ipa : Nat) (write : Bool) : Option Nat :=
  if fn = 0 then s.s2Host ipa
  else
    match vfWorld s fn with
    | none => none
    | some w =>
      match s2Walk s ⟨w, 0, 0, 0, false, none⟩ ipa 0 with
      | .error _ => none
      | .ok l =>
        let pa := l.pa
        let o := pa % 2 ^ 47
        let allowed : Bool := match s.frame (o / 2 ^ 16) with
          | .world v k p sh => v == w && k == l.keyid && p == l.prot && (sh || (s.world w).isOpen)
          | _ => false
        let dir : Bool := if write then l.w else l.r
        if decide (pa / 2 ^ 47 = s.devId) && decide (o < hbmSize) && s.backed o && allowed && dir then some o else none

/-- The parts of a host access, page by page: none where one fails. -/
def hostPieces (s : State) (fn : Nat) (write : Bool) : Nat → Nat → Nat → Option (List (Nat × Nat))
  | 0, _, _ => some []
  | fuel + 1, ipa, n =>
    if n = 0 then some []
    else
      let m := min n (2 ^ 16 - ipa % 2 ^ 16)
      match hostPlace s fn ipa write, hostPieces s fn write fuel (ipa + m) (n - m) with
      | some o, some l => some ((o, m) :: l)
      | _, _ => none

/-- A failed request recorded in the PF's AER status (R503). -/
def recordAer (s : State) : State := setHost s { s.dev.host with aer := s.dev.host.aer + 1 }

/-- The bytes of parts. -/
def partBytes (s : State) (l : List (Nat × Nat)) : List Byte := l.flatMap fun p => s.mem.bytes p.1 p.2

/-- Correctable errors that a read of parts meets are corrected and counted (R472). -/
def correctParts (s : State) (l : List (Nat × Nat)) : State :=
  if s.dev.errors.flips.isEmpty && s.dev.errors.l2Flips.isEmpty then s else (l.flatMap fun p => blocksOf p.1 p.2).foldl correctHome s

/-- INTEGRITY_MAC of a host access whose parts follow one another from an IPA (R465). -/
def hostMac (s : State) : Nat → List (Nat × Nat) → Option FaultInfo
  | _, [] => none
  | ipa, p :: ps =>
    match macFaults s false p.1 p.2 ipa with
    | some f => some f
    | none => hostMac s (ipa + p.2) ps

/-- MEMORY_READ (R386 to R388, R475, R503). Of a line that fails its MAC nothing is delivered: Completer Abort (R465; log 34). -/
def execMemoryRead (fn bar addr len : Nat) (s : State) : Out :=
  if s.dev.host.portUp = false then .next s
  else if bar = 0 then
    let (bs, t) := devReads s (agentOf fn) (len / 8 + 2) addr len
    .next (complete t 0 bs)
  else
    match hostPieces s fn false (len / 2 ^ 16 + 2) addr len with
    | none => .next (complete (recordAer s) 1 [])
    | some l =>
      match hostMac s addr l, homePiecesFault s 0 (l.map fun p => (.home p.1 0 0 0, p.2)) with
      | some f, _ => .next (complete (recordAer (integrityEffects s f ((vfWorld s fn).getD 0) 0 none)) 1 [])
      | none, some f =>
        let b := f.block.getD 0
        let s1 := if f.status = 0x4003 then logEvent s 6 3 (s.blockPa b) else dataEffects s f
        .next (complete s1 2 (partBytes s l))
      | none, none => .next (complete (correctParts s l) 0 (partBytes s l))

/-- MEMORY_WRITE (R386 to R388, R503): one that carries poisoned data poisons the blocks that it reaches. Its BAR is `bar % 256`; a
poisoned one has 256 added (log 12). -/
def execMemoryWrite (fn bar addr : Nat) (bytes : List Byte) (s : State) : Out :=
  if s.dev.host.portUp = false then .next s
  else if bar % 256 = 0 then .next (devWrites s (agentOf fn) (bytes.length / 8 + 2) addr bytes)
  else
    match hostPieces s fn true (bytes.length / 2 ^ 16 + 2) addr bytes.length with
    | none => .next (recordAer s)
    | some l =>
      let put (acc : State × List Byte) (p : Nat × Nat) : State × List Byte :=
        let t := softWrite acc.1 p.1 (acc.2.take p.2)
        (if 256 ≤ bar then (blocksOf p.1 p.2).foldl addPoison t else t, acc.2.drop p.2)
      .next (l.foldl put (s, bytes)).1

/-- CONFIGURATION_REQUEST (R386, R398): retry status until phase 3 completes. -/
def execConfigurationRequest (fn : Nat) (write : Bool) (off : Nat) (value : BitVec 32) (s : State) : Out :=
  let h := s.dev.host
  if h.phase.toNat ≤ 3 then .next (setHost s { h with sent := h.sent ++ [bytesLE 1 3] })
  else if h.portUp = false then .next s
  else if write then
    let rest := h.config.filter fun x => !(x.1 == fn && x.2.1 == off)
    .next (complete (setHost s { h with config := rest ++ [(fn, off, value)] }) 0 [])
  else
    let last := (h.config.find? fun x => x.1 == fn && x.2.1 == off).map fun x => x.2.2
    .next (complete s 0 (bytesLE 4 (Config.configRead fn off last).toNat))

/-- MSI-X messages held pending are sent (R503). -/
def sendPending (s : State) : State :=
  let h := s.dev.host
  setHost s { h with msixSent := h.msixSent ++ h.msixPending, msixPending := [] }

/-- HOSTPORT_DOWN (R502, R503). -/
def execHostportDown (down : Bool) (s : State) : Out :=
  if s.dev.host.portUp = !down then .next s
  else
    let s1 := setHost s { s.dev.host with portUp := !down }
    let s2 := if down then s1 else sendPending s1
    .next (rootNotice s2 7 0x7001 (if down then 1 else 0))

/-! ### Side-band -/

/-- What platform monitoring reports: power, die temperatures, grade, LSTAT (R396). -/
def monitoring (s : State) : List Byte :=
  bytesLE 2 s.dev.power.avg ++ (s.dev.power.chips.toList.flatMap fun x => bytesLE 2 x.temp)
  ++ (s.dev.power.dieTemp.toList.flatMap fun x => bytesLE 2 x)
  ++ (s.dev.power.hbmTemp.toList.flatMap fun x => bytesLE 2 x) ++ bytesLE 1 s.dev.power.grade.toNat
  ++ (List.range 18).flatMap fun n => bytesLE 8 (lstatOf s n).toNat

/-- PLDM_PLATFORM_MONITORING (R396). -/
def execPldmPlatformMonitoring (bytes : List Byte) (s : State) : Out := .next (sideband s (Config.pldmReply (bytes ++ monitoring s)))

/-- PLDM_FIRMWARE_UPDATE (R383, R396): the images that it leaves are verified when they are next to run. -/
def execPldmFirmwareUpdate (bytes : List Byte) (s : State) : Out :=
  .next (sideband (setBedrock s { s.dev.bedrock with firmware := s.dev.bedrock.firmware ++ [bytes] }) (Config.pldmReply bytes))

/-- MCTP_REGISTER_ACCESS (R506): 8-byte aligned reads and writes. The message's coding is the model's: a byte, 0 for a read and 1 for
a write, the offset in 8 bytes, the value in 8 (log 11). -/
def execMctpRegisterAccess (bytes : List Byte) (s : State) : Out :=
  let off := bytesAt bytes 1 8
  if off % 8 ≠ 0 then .next s
  else if bytesAt bytes 0 1 = 1 then .next (sideband (devWrite s .basecamp off 8 (bytesAt bytes 9 8)) [])
  else
    let (v, t) := devRead s .basecamp off 8
    .next (sideband t (bytesLE 8 v))

/-! ### Links -/

def setPort (s : State) (n : Nat) (p : Port) : State :=
  { s with dev := { s.dev with links := { s.dev.links with ports := vecSet s.dev.links.ports n p } } }

/-- A count of n bits that holds at its maximum. -/
def satAdd (n x k : Nat) : BitVec n := BitVec.ofNat n (min (x + k) (2 ^ n - 1))

/-- LINK_DOWN (R395, R502, R504, R505): down after a failed retraining, or trained again; a port that bring-up has not trained stays
down. -/
def execLinkDown (port : Nat) (down : Bool) (s : State) : Out :=
  match s.dev.links.ports.toList[port]? with
  | none => .next s
  | some p =>
    if !down && p.lanes == 0 then .next s else
    let q := { p with up := !down, retraining := false, downs := if down && p.up then satAdd 16 p.downs.toNat 1 else p.downs }
    let s1 := setPort s port q
    .next (if p.up = q.up then s1 else rootNotice s1 7 0x7002 (BitVec.ofNat 32 (port + if down then 2 ^ 8 else 0)))

/-- LINK_RETRAINING (R504): flits are replayed, and routes fail over meanwhile. -/
def execLinkRetraining (port : Nat) (s : State) : Out :=
  match s.dev.links.ports.toList[port]? with
  | none => .next s
  | some p =>
    if p.up then .next (setPort s port { p with retraining := true, retry := satAdd 32 p.retry.toNat (Config.pick s.steps) })
    else .next s

/-- The copy command that a timed-out access belongs to. -/
def waitingCopy (s : State) : Option EngOp :=
  s.vc.st.ops.find? fun o => !o.stopped && match o.kind with
    | .copy c => !tailReady c || decide (c.done < c.count)
    | _ => false

/-- REMOTE_TIMEOUT (R502, R504). -/
def execRemoteTimeout (index : Nat) (s : State) : Out :=
  match s.dev.links.outstanding[index]? with
  | none => .next s
  | some a =>
    let s1 := { s with dev := { s.dev with links := { s.dev.links with outstanding := s.dev.links.outstanding.eraseIdx index } } }
    match s1.focusOn a.node a.vcid with
    | none => .next s1
    | some t =>
      let f : FaultInfo := ⟨0x7004, a.va, BitVec.ofNat 32 a.dev, a.isRead, 0, none⟩
      if t.vc.stopped then .next t
      else if a.st = .c then
        match waitingCopy t with
        | none => .next t
        | some o =>
          let t' := match o.kind with
            | .copy c => c.done
            | _ => 0
          .next (faultOp t o (atOrdinal t' f))
      else .next (faultBefore t a.st f)

/-- What a flit asks for. The flit's coding is the model's (log 12): sequence number 4 bytes, kind 1 (1 a write, 2 a read), PA 8, world 1,
compartment 1, poison 1, length 1, sending device 2, PROT 1, data. To a protected frame the data come under AES-256-GCM with the key
agreed with the sender and the sequence number as the nonce, followed by the tag (R374). -/
structure FlitAsk where
  seq : Nat
  kind : Nat
  pa : Nat
  world : Nat
  comp : Nat
  poisoned : Bool
  n : Nat
  sender : Nat
  prot : BitVec 2
  data : List Byte
  deriving DecidableEq, Repr, Inhabited

def flitAsk (b : List Byte) : FlitAsk :=
  ⟨bytesAt b 0 4, bytesAt b 4 1, bytesAt b 5 8, bytesAt b 13 1, bytesAt b 14 1, bytesAt b 15 1 == 1, bytesAt b 16 1, bytesAt b 17 2,
    BitVec.ofNat 2 (bytesAt b 19 1), b.drop 20⟩

/-- A reply to another device. -/
def replyFlit (s : State) (dev pa : Nat) (payload : List Byte) (poisoned : Bool) : State :=
  setLinks s { s.dev.links with sent := s.dev.links.sent ++ [⟨dev, pa, payload, poisoned⟩] }

/-- The check of a flit at this home (R463): its place is backed HBM of one frame, whose owner, KEYID and PROT are those that it carries. -/
def flitRefused (s : State) (x : FlitAsk) : Option (BitVec 16) :=
  let o := x.pa % 2 ^ 47
  let one := decide (o / 2 ^ 16 = (o + x.n - 1) / 2 ^ 16)
  if !(decide (x.pa / 2 ^ 47 = s.devId) && decide (o + x.n ≤ hbmSize) && s.backed o && one) then some 0x200A
  else
    let who : Who := ⟨x.world, 0, x.comp, 0, false, none⟩
    let hit : S2Hit := ⟨x.pa, true, true, false, x.comp, x.prot⟩
    (frameFault s who false s.devId (s.homeFrame o) hit o x.n 0 none).map (·.status)

/-- A flit performed at its home (R374, R393, R394, R463, R474): a write, its poison with it; or a read, whose reply carries the
bytes, or the poison flag. A refused one changes no frame, and its reply carries the status. -/
def performFlit (s : State) (b : List Byte) : State :=
  let x := flitAsk b
  let o := x.pa % 2 ^ 47
  match flitRefused s x with
  | some st => replyFlit s x.sender x.pa (bytesLE 2 st.toNat) false
  | none =>
    let s0 := agreeLink s x.sender x.prot
    let key := (linkKeyOf s0 x.sender).getD []
    if x.kind = 1 then
      (match (if x.prot = 0 then some x.data else gcmOpen key x.seq (x.data.take x.n) ((x.data.drop x.n).take 16)) with
      | none => s0
      | some d =>
        let s1 := softWrite s0 o (fitBytes x.n d)
        if x.poisoned then (blocksOf o x.n).foldl addPoison s1 else s1)
    else if x.kind = 2 then
      match macFaults s0 false o x.n 0, homePiecesFault s0 0 [(.home o 0 0 0, x.n)] with
      | some f, _ => replyFlit (integrityEffects s0 f x.world x.comp none) x.sender x.pa (bytesLE 2 f.status.toNat) false
      | none, some f => replyFlit (dataEffects s0 f) x.sender x.pa [] true
      | none, none =>
        let d := s0.mem.bytes o x.n
        let sealed := gcmSeal key x.seq d
        replyFlit (correctParts s0 [(o, x.n)]) x.sender x.pa (if x.prot = 0 then d else sealed.1 ++ sealed.2) false
    else s0

/-- SPAN_FLIT (R393, R504): performed once, by its sequence number. -/
def execSpanFlit (port : Nat) (bytes : List Byte) (s : State) : Out :=
  match s.dev.links.ports.toList[port]? with
  | none => .next s
  | some p =>
    let seq := bytesAt bytes 0 4
    if p.up && !p.retraining && decide (p.lastFlit < seq) then .next (performFlit (setPort s port { p with lastFlit := seq }) bytes)
    else .next s

end Sys2Proof.Machine
end

