-- ==== Sys2Proof/Machine/BringUp.lean ====
section
/-! DEFINITION. Bring-up, module reset, deep sleep and lost retention (spec/00 R7; spec/16 R382, R383, R385, R511, R512, R515; spec/17
R397, R398; spec/22 R483, R484). -/

namespace Sys2Proof.Machine

/-! ### Lost retention (R484) -/

/-- HOST frames of stacks whose self-refresh did not hold are zeroed. -/
def dropUnkept (s : State) : State :=
  let kept (c : Host.Cell) : Bool := decide (hbmSize ≤ c.1) || Config.stackKept s.steps (hbmPlace c.1).stack
  { s with mem := s.mem.filter kept }

/-- WORLDS_LOST (R484, R492). -/
def worldsLost (s : State) : State :=
  let ws := (List.range 16).filter fun w => (s.world w).phase != .free
  let s1 := ws.foldl (fun t w => setWorld (dropTables (dropComps (discardWorld t w) w fun _ => true) w) w worldOff) s
  let s2 := dropUnkept s1
  let b := s2.dev.bedrock
  let s3 := setBedrock s2 { b with
    evicted := [], poisoned := [], gates := [], sessions := [], ctxs := [], retention := [], wlost := true, sleep := .awake }
  sideband (finishRequest s3 stLost) (Config.pldmReply (bytesLE 2 stLost))

/-! ### Records (R382, R515) -/

/-- The harvest map of a record. -/
def recordHarvest (b : List Byte) : Vector (BitVec 32) 8 := .ofFn fun i => (Config.recordField b i.val).setWidth 32

/-- The carve-out size of a quarter in a record. -/
def recordCarve (b : List Byte) (q : Nat) : BitVec 8 := (Config.recordField b (24 + q)).setWidth 8

/-- An RCB of a record: no field reserved, none that inherits (R333, R515). -/
def rcbFull (b : Rec64) : Bool :=
  let x := b.toNat
  !rcbBad b && rcbPrio b != 31 && rcbWeight b != 0 && rcbTokens b != 0xFFFF && rcbFdom b != 0xFFF && rcbEnergy b != 0xFFFFFFFF
  && rcbIpeak b != 0xFFFFFFFF && nbits x 128 9 != 0x1FF && nbits x 144 9 != 0x1FF && nbits x 160 9 != 0x1FF

/-- The RCBs of a record: the device root's, and those of every layout's partitions. -/
def recordRcbs (b : List Byte) : List Rec64 :=
  Config.recordField b 13 :: (List.range 5).flatMap fun l => (List.range (layoutParts l).length).map fun p => Config.recordField b (32 + 8 * l + p)

/-- A record is valid only with carve-outs of 2 to 36 GiB (R511), with the part's own harvest map, which is fixed for its life (R27), and
with regions of which no field inherits (R515). -/
def recordFits (r : Config6) (b : List Byte) : Bool :=
  recordHarvest b == r.harvest && (recordRcbs b).all rcbFull
    && (List.range 4).all fun q => decide (2 ≤ (recordCarve b q).toNat) && decide ((recordCarve b q).toNat ≤ 36)

/-- The fields of a record's bytes (R382). -/
def recordOf (r : Config6) (seq : Nat) (b : List Byte) : Config6 :=
  let f := Config.recordField b
  let sec := Config.recordBytes b
  { r with
    harvest := recordHarvest b
    trims := sec 0
    helper := sec 1
    certificate := sec 2
    ownerKey := sec 3
    keySlots := .ofFn fun i => sec (4 + i.val)
    versions := (sec 8).map BitVec.toNat
    fallback := (f 12).toNat
    rootRcb := f 13
    partRcb := (List.range 5).map fun l => (List.range (layoutParts l).length).map fun p => f (32 + 8 * l + p)
    carve := .ofFn fun i => recordCarve b i.val
    seq := seq }

/-- The copy that Bedrock uses: the valid one with the higher SEQ, not below the counter. -/
def selectRecord (r : Config6) : Config6 :=
  let ok := r.copies.filter fun c => decide (r.rollback ≤ c.1) && recordFits r c.2
  match ok with
  | [] => r
  | c :: l =>
    let best := l.foldl (fun (x : Nat × List Byte) d => if x.1 < d.1 then d else x) c
    { recordOf r best.1 best.2 with rollback := best.1 }

/-- What Bedrock derives at boot (R381): a secret of 256 bits, the identity key pair and the two keys in their algorithms' lengths. -/
def bootSecrets (r : Config6) : Secrets :=
  let d := fitBytes 32 (Config.deviceSecret r.helper)
  ⟨d, fitBytes 64 (Config.derive 0 d), fitBytes 128 (Config.derive 3 d), fitBytes 32 (Config.derive 1 d), fitBytes 32 (Config.derive 2 d)⟩

/-! ### Bring-up (R398) -/

/-- Phase 0: the record is selected, the device secret reconstructed, the generator seeded, the firmware verified. DEVID is the first
8 bytes of the digest of the identity public key (R380, R381). -/
def bootRom (s : State) : State :=
  let r := selectRecord s.dev.bedrock.record
  let x := bootSecrets r
  let s1 := setBedrock s { s.dev.bedrock with record := r, secrets := x, drbg := .instantiate (Config.entropy s.steps) }
  setHost s1 { s1.dev.host with cpres := r.harvest, idtag := BitVec.ofNat 64 (natLE (shake256 x.identity 8)) }

/-- Phase 1: Basecamp writes the root's RCB and that of the layout in force (R515), and the timer makes its forward step (R362). -/
def startBasecamp (s0 : State) : State :=
  let s := stepTimer s0 (Config.forwardStep s0.steps)
  let r := s.dev.bedrock.record
  setSched s { s.dev.sched with
    root := regionOf r.rootRcb, parts := (r.partRcb.getD s.dev.host.applied.toNat []).map regionOf }

/-- Phase 2: the carve-outs are reserved, and every other frame is HOST (R511, R512). -/
def reserveCarves (s : State) : State :=
  let s1 := setBedrock s { s.dev.bedrock with frames := [], frameDefault := .host }
  setHost s1 { s1.dev.host with carve := s.dev.bedrock.record.carve }

/-- Phase 4: ports trained, with 1 to 8 lanes (R395), routes loaded, DEVNUM set. -/
def trainLinks (s : State) : State :=
  let port (i : Nat) (p : Port) : Port := match Config.trained i with
    | some (d, n, l) => { p with up := true, peer := d, peerPort := n, lanes := BitVec.ofNat 4 (max 1 (min l.toNat 8)) }
    | none => p
  let l := s.dev.links
  let s1 := { s with dev := { s.dev with links := { l with ports := .ofFn fun i => port i.val (l.ports.get i), routes := Config.routes } } }
  setHost s1 { s1.dev.host with devnum := Config.devnum }

/-- A phase completed: the next begins. -/
def nextPhase (s : State) : State := setHost s { s.dev.host with phase := s.dev.host.phase + 1 }

/-- A firmware image may run under a record (R383): its signature verifies, as that of the images does that the part came with (log 11),
and its version is not below the record's minimum. -/
def imageRuns (s : State) (r : Config6) (k : Nat) : Bool :=
  let (b, version, sig) := Config.image k s.dev.bedrock.firmware
  (s.dev.bedrock.firmware.isEmpty || Config.verifies Config.firmwareKey b sig) && decide (r.versions.getD k 0 ≤ version)

/-- What a measurement of bytes is: their SHAKE256 digest. -/
def digest (b : List Byte) : BitVec 512 := BitVec.ofNat 512 (natLE (shake256 b 64))

/-- The measurements that phase 0 leaves (R383, R384): the boot ROM, both images, the record. -/
def bootMeasurements (s : State) (r : Config6) : List (Nat × BitVec 512) :=
  let copy := ((r.copies.find? fun c => c.1 == r.seq).map (·.2)).getD []
  [(1, digest Config.bootRomImage), (2, digest (Config.image 0 s.dev.bedrock.firmware).1),
    (3, digest (Config.image 1 s.dev.bedrock.firmware).1), (4, digest copy)]

/-- POWER_GOOD (R398): the current phase of bring-up completes. An image that fails is not run (R383). -/
def execPowerGood (s : State) : Out :=
  let h := s.dev.host
  if h.ready then .next s
  else
    match h.phase.toNat with
    | 0 =>
      let r := selectRecord s.dev.bedrock.record
      if imageRuns s r 0 && imageRuns s r 1 then
        let t := bootRom s
        .next (nextPhase (setBedrock t { t.dev.bedrock with measurements := bootMeasurements s r }))
      else .next s
    | 1 => .next (nextPhase (startBasecamp s))
    | 2 => .next (nextPhase (reserveCarves s))
    | 3 => .next (nextPhase (sendPending (setHost s { h with portUp := true })))
    | 4 => .next (nextPhase (trainLinks s))
    | _ =>
      let s1 := if s.dev.bedrock.sleep = .lost then worldsLost s else s
      .next (setHost s1 { s1.dev.host with ready := true })

/-- Worlds stood, or retention was already lost, when the module was reset: phase 0 treats retention as lost (R484, R500). -/
def resetLoses (s : State) : Bool :=
  (List.range 16).any (fun w => (s.world w).phase != .free) || s.dev.bedrock.sleep != .awake

/-- MODULE_RESET (R7): every field at its reset value; the flash keeps the record's copies and the firmware images, and the timer does
not go back (R362). -/
def execModuleReset (s : State) : Out :=
  let r := State.reset
  .next { r with
    steps := s.steps
    dev := { r.dev with time := s.dev.time, sched := { r.dev.sched with tick := s.dev.sched.tick }, bedrock := { r.dev.bedrock with
      record := { r.dev.bedrock.record with
        harvest := s.dev.bedrock.record.harvest, copies := s.dev.bedrock.record.copies, rollback := s.dev.bedrock.record.rollback }
      firmware := s.dev.bedrock.firmware
      sleep := if resetLoses s then .lost else .awake } } }

/-! ### Deep sleep (R385) -/

/-- RETENTION_POWER_LOSS (R385). -/
def execRetentionPowerLoss (s : State) : Out :=
  if s.dev.bedrock.sleep = .asleep then .next (setBedrock s { s.dev.bedrock with sleep := .lost }) else .next s

/-- WAKE (R385, R397, R483): the wrapping key is derived again, what the retention SRAM holds is unwrapped and verified, and every stack
reports its self-refresh; worlds resume in the state they held, or are lost. Bring-up after a reset goes its own way. -/
def execWake (s : State) : Out :=
  let up (t : State) : State :=
    let t1 := setPow t { t.dev.power with selfRefresh := .replicate 4 false }
    sendPending (setHost t1 { t1.dev.host with portUp := true })
  match s.dev.bedrock.sleep with
  | .awake => .next s
  | .asleep =>
    let b := s.dev.bedrock
    let x := bootSecrets b.record
    let held := keyUnwrap x.wrapping b.retention == some (retained s) && (List.range 12).all (Config.stackKept s.steps)
    .next (up (if held then setBedrock s { b with secrets := x, sleep := .awake, retention := [] } else worldsLost s))
  | .lost => .next (if s.dev.host.ready then up (worldsLost s) else s)
  | .dark => .next s

end Sys2Proof.Machine
end

