-- ==== Sys2Proof/Machine/ScalarFp.lean ====
section
/-! DEFINITION. Scalar floating-point instructions (spec/09_scalar_instructions.md R206 to R213), with the threshold test of
spec/04_assay.md R99 and R100. -/

namespace Sys2Proof.Machine

/-- The end of a checked word: `low` is its lowest low lane or block, `done` the state after the word; `s0` is the state
before it (R99). -/
def checkLow (s0 done : State) (st : StreamId) (low : Option (Nat × Nat)) : State :=
  match low with
  | none => done
  | some (j, a) =>
    let s1 := setLow done st
    if (s1.stream st).asyte.getLsbD 0 then faultAfter s0 s1 st (assayLow j a) else s1

/-- A floating-point result written: pattern x of type t with its assay, flags, and the test of a checked result (R206,
R213). -/
def fWrite (s : State) (d : BitVec 6) (t : Fmt) (x asy : Nat) (fl : Flags) (checked : Bool) : Out :=
  let done := sRetire ((s.setF d (fregOf t x asy)).orFlags .s fl)
  let low := checked && isLow s.vc.sS.asyth (decodeF t x) asy
  .next (checkLow s done .s (if low then some (0, asy) else none))

/-- The mode's draw is ready, or the word faults (R435). -/
def withDraw (s : State) (mode : BitVec 3) (k : Out) : Out :=
  match drawFault s mode s.vc.sS.fctl with
  | f :: _ => sFault s f
  | [] => k

/-- A rounding operation of one or two operands: `op` gives the exact result and its flags, `asy` the assay of the rounded
one (R207). -/
def fBinary (d a b : BitVec 6) (mode : BitVec 3) (t : Fmt) (op : Val → Val → Val × Flags)
    (asy : Opnd → Opnd → Val → Val → Nat) (s : State) : Out :=
  withDraw s mode <|
    let (_, fa, x) := readFt t (s.getF a)
    let (_, fb, y) := readFt t (s.getF b)
    let (e, fo) := op x.v y.v
    let (r, fr) := roundF t mode (drawAt s mode s.vc.sS.fctl 0) false e
    fWrite s d t r (asy x y e (decodeF t r)) (fa ||| fb ||| fo ||| fr) true

/-- FADD (R207). -/
def execFadd (d a b : BitVec 6) (r : BitVec 3) (t : BitVec 2) (s : State) : Out :=
  fBinary d a b r (ftFmt t) (addV r) (fun x y e v => asyAdd x y e v (.plain (ftFmt t))) s

/-- FSUB (R207). -/
def execFsub (d a b : BitVec 6) (r : BitVec 3) (t : BitVec 2) (s : State) : Out :=
  fBinary d a b r (ftFmt t) (fun x y => addV r x y.neg) (fun x y e v => asyAdd x y e v (.plain (ftFmt t))) s

/-- FMUL (R207). -/
def execFmul (d a b : BitVec 6) (r : BitVec 3) (t : BitVec 2) (s : State) : Out :=
  fBinary d a b r (ftFmt t) mulV (fun x y e v => asyMul x y e v (.plain (ftFmt t))) s

/-- FDIV (R207). -/
def execFdiv (d a b : BitVec 6) (r : BitVec 3) (t : BitVec 2) (s : State) : Out :=
  fBinary d a b r (ftFmt t) divV (fun x y e v => asyMul x y e v (.plain (ftFmt t))) s

/-- FSQRT (R207). -/
def execFsqrt (d a : BitVec 6) (r : BitVec 3) (t : BitVec 2) (s : State) : Out :=
  withDraw s r <|
    let f := ftFmt t
    let (_, fa, x) := readFt f (s.getF a)
    let (e, fo) := sqrtV x.v
    let (y, fr) := roundF f r (drawAt s r s.vc.sS.fctl 0) false e
    fWrite s d f y (asySqrt x e (decodeF f y) (.plain f)) (fa ||| fo ||| fr) true

/-- FMIN and FMAX (R208). -/
def fChoose (lower : Bool) (d a b : BitVec 6) (t : Fmt) (s : State) : Out :=
  let (px, fa, x) := readFt t (s.getF a)
  let (py, fb, y) := readFt t (s.getF b)
  let (r, asy, fl) := chooseV lower t x y px py
  fWrite s d t r asy (fa ||| fb ||| fl) false

/-- FMIN (R208). -/
def execFmin (d a b : BitVec 6) (t : BitVec 2) (s : State) : Out := fChoose true d a b (ftFmt t) s

/-- FMAX (R208). -/
def execFmax (d a b : BitVec 6) (t : BitVec 2) (s : State) : Out := fChoose false d a b (ftFmt t) s

/-- FMV (R209). -/
def execFmv (d a : BitVec 6) (s : State) : Out := sNext (s.setF d (s.getF a))

/-- FMA: x × y + read_t(f[d]) (R207). -/
def execFma (d a b : BitVec 6) (r : BitVec 3) (t : BitVec 2) (s : State) : Out :=
  withDraw s r <|
    let f := ftFmt t
    let (_, fa, x) := readFt f (s.getF a)
    let (_, fb, y) := readFt f (s.getF b)
    let (_, fc, z) := readFt f (s.getF d)
    let (e, fo) := fmaV r x.v y.v z.v
    let (q, fr) := roundF f r (drawAt s r s.vc.sS.fctl 0) false e
    fWrite s d f q (asyFma x y z (mulV x.v y.v).1 e (decodeF f q) (.plain f)) (fa ||| fb ||| fc ||| fo ||| fr) true

/-- The class mask of a value of format t (R210). -/
def classMask (t : Fmt) (v : Val) : Word :=
  let sub := v.lead < 1 - (t.bias : Int)
  let bit : Nat := match v with
    | .inf n => if n then 0 else 7
    | .nan sn => if sn then 8 else 9
    | .fin n sg _ _ =>
      if sg = 0 then (if n then 3 else 4) else if sub then (if n then 2 else 5) else (if n then 1 else 6)
  (1 : Word) <<< bit

/-- FCLASS (R210). -/
def execFclass (d a : BitVec 6) (t : BitVec 2) (s : State) : Out :=
  let (_, _, x) := readFt (ftFmt t) (s.getF a)
  sWrite s d (classMask (ftFmt t) x.v)

/-- FASY: the effective assay (R210). -/
def execFasy (d a : BitVec 6) (t : BitVec 2) (s : State) : Out :=
  let (_, _, x) := readFt (ftFmt t) (s.getF a)
  sWrite s d (BitVec.ofNat 64 x.eff)

/-- FSETASY (R210). -/
def execFsetasy (d a : BitVec 6) (s : State) : Out :=
  sNext (s.setF d { s.getF d with asy := BitVec.ofNat 7 (min (s.getS a).toNat 127) })

/-- FCMP (R211). -/
def execFcmp (cond c : BitVec 3) (a b : BitVec 6) (t : BitVec 2) (s : State) : Out :=
  let (_, fa, x) := readFt (ftFmt t) (s.getF a)
  let (_, fb, y) := readFt (ftFmt t) (s.getF b)
  let (r, fl) := condF cond x.v y.v
  sNext ((s.setC c r).orFlags .s (fa ||| fb ||| fl))

/-- An integer result of type f extended to 64 bits (R212, R215). -/
def extend64 (f : Fmt) (x : Nat) : Word := BitVec.ofInt 64 (decodeI f x)

/-- Whether SAT applies to an integer destination: narrower than the source, or of the other signedness (R212). -/
def satApplies (dst src : Fmt) : Bool := decide (dst.width < src.width) || dst.isSigned != src.isSigned

/-- FCVT between the formats of its codes (R212). -/
def fcvtBody (d a : BitVec 6) (mode : BitVec 3) (dst src : Fmt) (sat : Bool) (s : State) : Out :=
  let u := drawAt s mode s.vc.sS.fctl 0
  if src.isInt then
    let n := decodeI src (s.getS a).toNat
    if dst.isInt then
      let (r, fl) := fitI dst (sat && satApplies dst src) n
      sNext ((s.setS d (extend64 dst r)).orFlags .s fl)
    else
      let (r, fl) := roundF dst mode u sat (.ofInt n)
      fWrite s d dst r (asyFromInt (decodeF dst r) (.plain dst)) fl true
  else
    let (_, fa, x) := readFt src (s.getF a)
    if dst.isInt then
      let (r, fl) := roundI dst mode u x.v
      sNext ((s.setS d (extend64 dst r)).orFlags .s (fa ||| fl))
    else
      let (r, fl) := roundF dst mode u sat x.v
      fWrite s d dst r (asyConvert x (decodeF dst r) (.plain dst)) (fa ||| fl ||| nvOf [x.v]) true

/-- FCVT (R212); the word's check admits only formats of R176. -/
def execFcvt (d a : BitVec 6) (r : BitVec 3) (dst src : BitVec 5) (sat : Bool) (s : State) : Out :=
  withDraw s r (fcvtBody d a r ((fmtOfCode dst).getD .i64) ((fmtOfCode src).getD .i64) sat s)

end Sys2Proof.Machine
end

