-- ==== Sys2Proof/Machine/ScalarMem.lean ====
section
/-! DEFINITION. Scalar loads and stores (spec/09_scalar_instructions.md R214 to R216; spec/05 R104, R116; spec/07 R150, R162;
spec/22 R454; spec/06 R134). -/

namespace Sys2Proof.Machine

/-- va of layout SM (R214). -/
def smAddr (s : State) (a : BitVec 6) (imm : BitVec 11) : Word := s.getS a + sx imm

/-- The register-space offset of an access that reached a DEVICE page. -/
def deviceOffset (ps : List Piece) : Option Nat :=
  match ps with
  | [(.device o, _)] => some (o - regBase)
  | _ => none

/-- A scalar load of n bytes at va: `k` continues with the bytes read, the pieces, and the state after the read. -/
def smLoad (s : State) (va : Word) (n : Nat) (k : Nat → List Piece → State → Out) : Out :=
  match pieces s s.who accLoad va n with
  | .error f => sAccessFault s f
  | .ok ps =>
    match dataFault s va ps with
    | some f => sAccessFault s f
    | none =>
      whenAnswered s ps va true <|
        match deviceOffset ps with
        | some off =>
          let (v, s1) := devRead s .context off n
          k v ps s1
        | none =>
          let (bs, s1) := readPieces (clearRemote s .s) va ps
          k (natLE bs) ps s1

/-- Whether a register-space offset is a queue notify register. -/
def isNotify (off : Nat) : Bool :=
  match devReg (off / 8 * 8) with
  | .notify _ => true
  | _ => false

/-- A store to the register space; one to a queue notify register flushes the cache first and is not idempotent (R58, R134). -/
def storeDevice (s : State) (off n v : Nat) : Out :=
  if isNotify off then
    let s1 := flushAll s
    if someLocked s1 fun _ => true then .next (s1.setWait .s 5 0 0)
    else sNext (devWrite s1 .context off n v).setNi
  else sNext (devWrite s .context off n v)

/-- A scalar store of the low n bytes of v at va, with flags to set once it is performed. -/
def smStore (s : State) (va : Word) (n v : Nat) (fl : Flags) : Out :=
  match pieces s s.who accStore va n with
  | .error f => sAccessFault s f
  | .ok ps =>
    match deviceOffset ps with
    | some off => storeDevice (s.orFlags .s fl) off n v
    | none => sNext ((writePieces s va ps (bytesLE n v)).orFlags .s fl)

/-- The bytes that LD loads (R215). -/
def ldBytes (sz : BitVec 3) : Nat := 2 ^ (sz.toNat % 4)

/-- The extension that LD gives: signed for codes 0 to 3 (R215). -/
def ldExtend (sz : BitVec 3) (v : Nat) : Word :=
  if sz.toNat < 4 then BitVec.ofInt 64 (sgn (8 * ldBytes sz) v) else BitVec.ofNat 64 v

/-- LD (R214, R215). -/
def execLd (d a : BitVec 6) (sz : BitVec 3) (imm : BitVec 11) (s : State) : Out :=
  smLoad s (smAddr s a imm) (ldBytes sz) fun v _ s1 => sWrite s1 d (ldExtend sz v)

/-- ST (R214, R215). -/
def execSt (d a : BitVec 6) (sz : BitVec 3) (imm : BitVec 11) (s : State) : Out :=
  smStore s (smAddr s a imm) (ldBytes sz) (s.getS d).toNat 0

/-- The type of LDF and STF. -/
def sfFmt (sz : BitVec 3) : Fmt := ftFmt (sz.setWidth 2)

/-- The assay of a loaded value (R96, R162). -/
def ldfAssay (s : State) (f : Fmt) (ps : List Piece) (x : Nat) : Nat :=
  let own := asyLoad s.vc.sS.asyld (decodeF f x) (.plain f)
  match ps with
  | [(.quarry q o, _)] => ((cfgAt s q o).loadAssay f (8 * o)).getD own
  | _ => own

/-- LDF (R215): every pattern passes unchanged. -/
def execLdf (d a : BitVec 6) (sz : BitVec 3) (imm : BitVec 11) (s : State) : Out :=
  let f := sfFmt sz
  smLoad s (smAddr s a imm) (f.width / 8) fun x ps s1 => sNext (s1.setF d (fregOf f x (ldfAssay s f ps x)))

/-- STF (R206, R215): the assay is dropped. -/
def execStf (d a : BitVec 6) (sz : BitVec 3) (imm : BitVec 11) (s : State) : Out :=
  let f := sfFmt sz
  let (x, fl) := narrowF f (s.getF d).v.toNat
  smStore s (smAddr s a imm) (f.width / 8) x fl

/-- LDA: the stored assay (R215). -/
def execLda (d a : BitVec 6) (_sz : BitVec 3) (imm : BitVec 11) (s : State) : Out :=
  smLoad s (smAddr s a imm) 1 fun v _ s1 => sNext (s1.setF d { s1.getF d with asy := BitVec.ofNat 7 v })

/-- STA (R215). -/
def execSta (d a : BitVec 6) (_sz : BitVec 3) (imm : BitVec 11) (s : State) : Out :=
  smStore s (smAddr s a imm) 1 (s.getF d).asy.toNat 0

end Sys2Proof.Machine
end

