-- ==== Sys2Proof/Machine/Locked.lean ====
section
/-! DEFINITION. A line that has stayed locked too long (spec/22 R480): its dirty bytes are lost, and the stream or command that waited for
its write-back reports it. -/

namespace Sys2Proof.Machine

/-- The S word that waits for a write-back goes on (R134, R479). -/
def finishWait (s : State) : State :=
  match fetch s .s s.vc.sS.pc 4 with
  | .error _ => s
  | .ok w =>
    let o := match decode (codeOf .s w) with
      | .ok (.amo d a b op w u acq rel) => execAmo d a b op w u acq rel s
      | .ok (.sacq d a) => execSacq d a s
      | .ok (.srel a b) => execSrel a b s
      | .ok (.fence p q sc) => execFence p q sc s
      | .ok .ifence => execIfence s
      | .ok (.st d a sz imm) => execSt d a sz imm s
      | .ok (.stf d a sz imm) => execStf d a sz imm s
      | .ok (.sta d a sz imm) => execSta d a sz imm s
      | _ => .next s
    match o with
    | .next t => t
    | _ => s

/-- The S stream's word waits for the write-back of a line: with nothing else to wait for, it would wait still (R480). -/
def sWaitsFor (s : State) (l : Line) : Bool :=
  let only := s.setStore { s.vc.st with cache := [l], ops := [] }
  s.vc.sS.wait.waiting && s.vc.sS.wait.cause == 5 && !s.vc.stopped && (finishWait only).vc.sS.pc == s.vc.sS.pc

/-- The copy command that waits for the write-back of a line: a CATOM, or a CREM at its completion word (R295, R296, R480). -/
def copyWaitsFor (s : State) (l : Line) : Option (EngOp × Nat) :=
  let held (va : Word) (all : Bool) : Bool := (all && boundTo s va l) || match placeOf s s.who accAtomic va 8 none with
    | .ok p => l.block == placeBlock s p
    | .error _ => false
  s.vc.st.ops.findSome? fun o => match o.kind with
    | .copy c => match c.i with
      | .catom w => if !c.tailDone && held c.dbase (cRel w || cAcq w) then some (o, 0) else none
      | .crem w => if !c.tailDone && decide (c.count ≤ c.done) && held w.imm true then some (o, c.count) else none
      | _ => none
    | _ => none

/-- WRITEBACK_LOST (R480): raised in the stream that waits for the line, after the word that waited or the command that goes on, else with
STREAM 4. A word that waits for further locked lines reports before it (DESIGN CHOICE, log 34). -/
def execWritebackLost (core line : Nat) (s : State) : Out :=
  match s.focusCore core with
  | none => .next s
  | some s1 =>
    match s1.vc.st.cache[line]? with
    | none => .next s1
    | some l =>
      let old := match l.lockedAt with
        | some t => decide (t + 100000000 ≤ s1.dev.time)
        | none => false
      if !old then .next s1
      else
        let s2 := loseLine s1 l
        if sWaitsFor s1 l then
          let t := finishWait s2
          .next (if t.vc.sS.pc == s2.vc.sS.pc then faultBefore t .s (mkFault 0x4004 0 5) else faultAfter s2 t .s (mkFault 0x4004 0 5))
        else
          match copyWaitsFor s1 l with
          | some (o, t) => .next (takeFault s2 .c (opPoint s2 o true) (atOrdinal t (mkFault 0x4004 0 5)))
          | none => .next (stopDomain (addRecord s2 (stream4Record s2 0x4004 0 5)) s2.vc.id.fdom)

end Sys2Proof.Machine
end

