-- ==== Sys2Proof/Machine/Scalar.lean ====
section
/-! DEFINITION. Scalar integer and address instructions (spec/09_scalar_instructions.md R201 to R205). None of them sets a flag
or faults (R435). -/

namespace Sys2Proof.Machine

/-- ADD (R201). -/
def execAdd (d a b : BitVec 6) (s : State) : Out := sWrite s d (s.getS a + s.getS b)

/-- SUB (R201). -/
def execSub (d a b : BitVec 6) (s : State) : Out := sWrite s d (s.getS a - s.getS b)

/-- MUL (R201). -/
def execMul (d a b : BitVec 6) (s : State) : Out := sWrite s d (s.getS a * s.getS b)

/-- MULH: bits [127:64] of the signed product (R201). -/
def execMulh (d a b : BitVec 6) (s : State) : Out :=
  sWrite s d (BitVec.ofInt 64 ((s.getS a).toInt * (s.getS b).toInt / 2 ^ 64))

/-- MULH.n64: bits [127:64] of the unsigned product (R201). -/
def execMulhN64 (d a b : BitVec 6) (s : State) : Out :=
  sWrite s d (BitVec.ofNat 64 ((s.getS a).toNat * (s.getS b).toNat / 2 ^ 64))

/-- The signed quotient of R201: toward zero, all ones by zero; the most negative value by −1 wraps to itself. -/
def divS (x y : Word) : Word := if y = 0 then -1 else BitVec.ofInt 64 (x.toInt.tdiv y.toInt)

/-- The unsigned quotient of R201. -/
def divU (x y : Word) : Word := if y = 0 then -1 else x / y

/-- DIV (R201). -/
def execDiv (d a b : BitVec 6) (s : State) : Out := sWrite s d (divS (s.getS a) (s.getS b))

/-- DIV.n64 (R201). -/
def execDivN64 (d a b : BitVec 6) (s : State) : Out := sWrite s d (divU (s.getS a) (s.getS b))

/-- REM: s[a] − q × s[b] with DIV's q; s[a] by zero (R201). -/
def execRem (d a b : BitVec 6) (s : State) : Out :=
  sWrite s d (if s.getS b = 0 then s.getS a else s.getS a - divS (s.getS a) (s.getS b) * s.getS b)

/-- REM.n64 (R201). -/
def execRemN64 (d a b : BitVec 6) (s : State) : Out :=
  sWrite s d (if s.getS b = 0 then s.getS a else s.getS a % s.getS b)

/-- AND (R201). -/
def execAnd (d a b : BitVec 6) (s : State) : Out := sWrite s d (s.getS a &&& s.getS b)

/-- OR (R201). -/
def execOr (d a b : BitVec 6) (s : State) : Out := sWrite s d (s.getS a ||| s.getS b)

/-- XOR (R201). -/
def execXor (d a b : BitVec 6) (s : State) : Out := sWrite s d (s.getS a ^^^ s.getS b)

/-- sh of R201: s[b][5:0]. -/
def shiftCount (s : State) (b : BitVec 6) : Nat := (s.getS b).toNat % 64

/-- SHL (R201). -/
def execShl (d a b : BitVec 6) (s : State) : Out := sWrite s d (s.getS a <<< shiftCount s b)

/-- SHR (R201). -/
def execShr (d a b : BitVec 6) (s : State) : Out := sWrite s d (s.getS a >>> shiftCount s b)

/-- SRA (R201). -/
def execSra (d a b : BitVec 6) (s : State) : Out := sWrite s d ((s.getS a).sshiftRight (shiftCount s b))

/-- MIN (R201). -/
def execMin (d a b : BitVec 6) (s : State) : Out :=
  sWrite s d (if (s.getS b).slt (s.getS a) then s.getS b else s.getS a)

/-- MIN.n64 (R201). -/
def execMinN64 (d a b : BitVec 6) (s : State) : Out :=
  sWrite s d (if (s.getS b).ult (s.getS a) then s.getS b else s.getS a)

/-- MAX (R201). -/
def execMax (d a b : BitVec 6) (s : State) : Out :=
  sWrite s d (if (s.getS a).slt (s.getS b) then s.getS b else s.getS a)

/-- MAX.n64 (R201). -/
def execMaxN64 (d a b : BitVec 6) (s : State) : Out :=
  sWrite s d (if (s.getS a).ult (s.getS b) then s.getS b else s.getS a)

/-- Leading zeros of a word; 64 for 0. -/
def clzWord (x : Word) : Nat := if x = 0 then 64 else 63 - topBit 64 x.toNat

/-- CLZ (R201). -/
def execClz (d a : BitVec 6) (s : State) : Out := sWrite s d (BitVec.ofNat 64 (clzWord (s.getS a)))

/-- POPC (R201). -/
def execPopc (d a : BitVec 6) (s : State) : Out := sWrite s d (BitVec.ofNat 64 (popCount 64 (s.getS a).toNat))

/-- SEL (R201). -/
def execSel (d a b : BitVec 6) (c : BitVec 3) (s : State) : Out := sWrite s d (if s.getC c then s.getS a else s.getS b)

/-- LEA (R201). -/
def execLea (d a b : BitVec 6) (h : BitVec 3) (s : State) : Out := sWrite s d (s.getS a + (s.getS b <<< h.toNat))

/-- The conditions of R175 on words: signed for eq to ge, unsigned for ltu and geu (R204). -/
def condI (c : BitVec 3) (x y : Word) : Bool :=
  match c.toNat with
  | 0 => x == y
  | 1 => x != y
  | 2 => x.slt y
  | 3 => x.sle y
  | 4 => y.slt x
  | 5 => y.sle x
  | 6 => x.ult y
  | _ => y.ule x

/-- CMP (R204). -/
def execCmp (cond c : BitVec 3) (a b : BitVec 6) (s : State) : Out :=
  sNext (s.setC c (condI cond (s.getS a) (s.getS b)))

/-- ADDI (R202). -/
def execAddi (d a : BitVec 6) (imm : BitVec 14) (s : State) : Out := sWrite s d (s.getS a + sx imm)

/-- ANDI (R202). -/
def execAndi (d a : BitVec 6) (imm : BitVec 14) (s : State) : Out := sWrite s d (s.getS a &&& zx imm)

/-- ORI (R202). -/
def execOri (d a : BitVec 6) (imm : BitVec 14) (s : State) : Out := sWrite s d (s.getS a ||| zx imm)

/-- XORI (R202). -/
def execXori (d a : BitVec 6) (imm : BitVec 14) (s : State) : Out := sWrite s d (s.getS a ^^^ zx imm)

/-- SHLI (R202). -/
def execShli (d a n : BitVec 6) (s : State) : Out := sWrite s d (s.getS a <<< n.toNat)

/-- SHRI (R202). -/
def execShri (d a n : BitVec 6) (s : State) : Out := sWrite s d (s.getS a >>> n.toNat)

/-- SRAI (R202). -/
def execSrai (d a n : BitVec 6) (s : State) : Out := sWrite s d ((s.getS a).sshiftRight n.toNat)

/-- CMPI (R204). -/
def execCmpi (cond c : BitVec 3) (a : BitVec 6) (imm : BitVec 14) (s : State) : Out :=
  sNext (s.setC c (condI cond (s.getS a) (sx imm)))

/-- The mask of a field of w + 1 bits (R203). -/
def fieldMask (w : BitVec 6) : Word := BitVec.ofNat 64 (2 ^ (w.toNat + 1) - 1)

/-- BFX; the word's w field holds the width less one (R203). -/
def execBfx (d a lo w : BitVec 6) (s : State) : Out := sWrite s d ((s.getS a >>> lo.toNat) &&& fieldMask w)

/-- BFI (R203). -/
def execBfi (d a lo w : BitVec 6) (s : State) : Out :=
  let m := fieldMask w <<< lo.toNat
  sWrite s d ((s.getS d &&& ~~~m) ||| ((s.getS a <<< lo.toNat) &&& m))

/-- LI (R205). -/
def execLi (d : BitVec 6) (imm : BitVec 20) (s : State) : Out := sWrite s d (sx imm)

/-- LIH: 16-bit field h replaced (R205). -/
def execLih (d : BitVec 6) (h : BitVec 2) (imm : BitVec 16) (s : State) : Out :=
  sWrite s d (setField (s.getS d) (16 * h.toNat) imm)

end Sys2Proof.Machine
end

