-- ==== Sys2Proof/Machine/Dispatch.lean ====
section
/-! DEFINITION. The meaning of every instruction: one arm for each constructor of Instr. -/

namespace Sys2Proof.Machine

def exec (i : Instr) (s : State) : Host.Outcome State Fault Refusal :=
  match i with
  | .add d a b => Sys2Proof.Machine.execAdd d a b s
  | .sub d a b => Sys2Proof.Machine.execSub d a b s
  | .mul d a b => Sys2Proof.Machine.execMul d a b s
  | .mulh d a b => Sys2Proof.Machine.execMulh d a b s
  | .mulhN64 d a b => Sys2Proof.Machine.execMulhN64 d a b s
  | .div d a b => Sys2Proof.Machine.execDiv d a b s
  | .divN64 d a b => Sys2Proof.Machine.execDivN64 d a b s
  | .rem d a b => Sys2Proof.Machine.execRem d a b s
  | .remN64 d a b => Sys2Proof.Machine.execRemN64 d a b s
  | .and d a b => Sys2Proof.Machine.execAnd d a b s
  | .or d a b => Sys2Proof.Machine.execOr d a b s
  | .xor d a b => Sys2Proof.Machine.execXor d a b s
  | .shl d a b => Sys2Proof.Machine.execShl d a b s
  | .shr d a b => Sys2Proof.Machine.execShr d a b s
  | .sra d a b => Sys2Proof.Machine.execSra d a b s
  | .min d a b => Sys2Proof.Machine.execMin d a b s
  | .minN64 d a b => Sys2Proof.Machine.execMinN64 d a b s
  | .max d a b => Sys2Proof.Machine.execMax d a b s
  | .maxN64 d a b => Sys2Proof.Machine.execMaxN64 d a b s
  | .clz d a => Sys2Proof.Machine.execClz d a s
  | .popc d a => Sys2Proof.Machine.execPopc d a s
  | .sel d a b c => Sys2Proof.Machine.execSel d a b c s
  | .lea d a b h => Sys2Proof.Machine.execLea d a b h s
  | .cmp cond c a b => Sys2Proof.Machine.execCmp cond c a b s
  | .addi d a imm => Sys2Proof.Machine.execAddi d a imm s
  | .andi d a imm => Sys2Proof.Machine.execAndi d a imm s
  | .ori d a imm => Sys2Proof.Machine.execOri d a imm s
  | .xori d a imm => Sys2Proof.Machine.execXori d a imm s
  | .shli d a n => Sys2Proof.Machine.execShli d a n s
  | .shri d a n => Sys2Proof.Machine.execShri d a n s
  | .srai d a n => Sys2Proof.Machine.execSrai d a n s
  | .cmpi cond c a imm => Sys2Proof.Machine.execCmpi cond c a imm s
  | .bfx d a lo w => Sys2Proof.Machine.execBfx d a lo w s
  | .bfi d a lo w => Sys2Proof.Machine.execBfi d a lo w s
  | .li d imm => Sys2Proof.Machine.execLi d imm s
  | .lih d h imm => Sys2Proof.Machine.execLih d h imm s
  | .fadd d a b r t => Sys2Proof.Machine.execFadd d a b r t s
  | .fsub d a b r t => Sys2Proof.Machine.execFsub d a b r t s
  | .fmul d a b r t => Sys2Proof.Machine.execFmul d a b r t s
  | .fdiv d a b r t => Sys2Proof.Machine.execFdiv d a b r t s
  | .fsqrt d a r t => Sys2Proof.Machine.execFsqrt d a r t s
  | .fmin d a b t => Sys2Proof.Machine.execFmin d a b t s
  | .fmax d a b t => Sys2Proof.Machine.execFmax d a b t s
  | .fmv d a => Sys2Proof.Machine.execFmv d a s
  | .fma d a b r t => Sys2Proof.Machine.execFma d a b r t s
  | .fclass d a t => Sys2Proof.Machine.execFclass d a t s
  | .fasy d a t => Sys2Proof.Machine.execFasy d a t s
  | .fsetasy d a => Sys2Proof.Machine.execFsetasy d a s
  | .fcmp cond c a b t => Sys2Proof.Machine.execFcmp cond c a b t s
  | .fcvt d a r dst src sat => Sys2Proof.Machine.execFcvt d a r dst src sat s
  | .ld d a sz imm => Sys2Proof.Machine.execLd d a sz imm s
  | .st d a sz imm => Sys2Proof.Machine.execSt d a sz imm s
  | .ldf d a sz imm => Sys2Proof.Machine.execLdf d a sz imm s
  | .stf d a sz imm => Sys2Proof.Machine.execStf d a sz imm s
  | .lda d a sz imm => Sys2Proof.Machine.execLda d a sz imm s
  | .sta d a sz imm => Sys2Proof.Machine.execSta d a sz imm s
  | .amo d a b op w u acq rel => Sys2Proof.Machine.execAmo d a b op w u acq rel s
  | .sacq d a => Sys2Proof.Machine.execSacq d a s
  | .srel a b => Sys2Proof.Machine.execSrel a b s
  | .bind d a b => Sys2Proof.Machine.execBind d a b s
  | .unbind d a b => Sys2Proof.Machine.execUnbind d a b s
  | .pbt t off => Sys2Proof.Machine.execPbt t off s
  | .pbtr t a imm => Sys2Proof.Machine.execPbtr t a imm s
  | .br t ci cm => Sys2Proof.Machine.execBr t ci cm s
  | .call t ci cm lk => Sys2Proof.Machine.execCall t ci cm lk s
  | .ret t ci cm => Sys2Proof.Machine.execRet t ci cm s
  | .semset m a => Sys2Proof.Machine.execSemset m a s
  | .semadd m a imm => Sys2Proof.Machine.execSemadd m a imm s
  | .semwait m take imm => Sys2Proof.Machine.execSemwait m take imm s
  | .fence p q scope => Sys2Proof.Machine.execFence p q scope s
  | .rdcsr d csr => Sys2Proof.Machine.execRdcsr d csr s
  | .wrcsr a csr => Sys2Proof.Machine.execWrcsr a csr s
  | .cairn => Sys2Proof.Machine.execCairn s
  | .rdv => Sys2Proof.Machine.execRdv s
  | .sstep => Sys2Proof.Machine.execSstep s
  | .halt => Sys2Proof.Machine.execHalt s
  | .yieldack => Sys2Proof.Machine.execYieldack s
  | .qfence => Sys2Proof.Machine.execQfence s
  | .ifence => Sys2Proof.Machine.execIfence s
  | .trap code => Sys2Proof.Machine.execTrap code s
  | .rdtime d => Sys2Proof.Machine.execRdtime d s
  | .bankmode d a => Sys2Proof.Machine.execBankmode d a s
  | .qcfg d a => Sys2Proof.Machine.execQcfg d a s
  | .ctxsave a => Sys2Proof.Machine.execCtxsave a s
  | .ctxrst a => Sys2Proof.Machine.execCtxrst a s
  | .tlbinv d a b => Sys2Proof.Machine.execTlbinv d a b s
  | .cairnE w => Sys2Proof.Machine.execCairnE w s
  | .rdvE w => Sys2Proof.Machine.execRdvE w s
  | .sstepE w => Sys2Proof.Machine.execSstepE w s
  | .haltE w => Sys2Proof.Machine.execHaltE w s
  | .yieldackE w => Sys2Proof.Machine.execYieldackE w s
  | .qfenceE w => Sys2Proof.Machine.execQfenceE w s
  | .trapE w => Sys2Proof.Machine.execTrapE w s
  | .rdtimeE w => Sys2Proof.Machine.execRdtimeE w s
  | .rdcsrE w => Sys2Proof.Machine.execRdcsrE w s
  | .wrcsrE w => Sys2Proof.Machine.execWrcsrE w s
  | .bankmodeE w => Sys2Proof.Machine.execBankmodeE w s
  | .qcfgE w => Sys2Proof.Machine.execQcfgE w s
  | .ctxsaveE w => Sys2Proof.Machine.execCtxsaveE w s
  | .ctxrstE w => Sys2Proof.Machine.execCtxrstE w s
  | .tlbinvE w => Sys2Proof.Machine.execTlbinvE w s
  | .nop e cl => Sys2Proof.Machine.execNop e cl s
  | .vadd w => Sys2Proof.Machine.execVadd w s
  | .vsub w => Sys2Proof.Machine.execVsub w s
  | .vmul w => Sys2Proof.Machine.execVmul w s
  | .vfma w => Sys2Proof.Machine.execVfma w s
  | .vdiv w => Sys2Proof.Machine.execVdiv w s
  | .vmin w => Sys2Proof.Machine.execVmin w s
  | .vmax w => Sys2Proof.Machine.execVmax w s
  | .vabs w => Sys2Proof.Machine.execVabs w s
  | .vneg w => Sys2Proof.Machine.execVneg w s
  | .vsqrt w => Sys2Proof.Machine.execVsqrt w s
  | .vrsqrt w => Sys2Proof.Machine.execVrsqrt w s
  | .vrcp w => Sys2Proof.Machine.execVrcp w s
  | .vexp2 w => Sys2Proof.Machine.execVexp2 w s
  | .vlog2 w => Sys2Proof.Machine.execVlog2 w s
  | .vcvt w => Sys2Proof.Machine.execVcvt w s
  | .vaddw w => Sys2Proof.Machine.execVaddw w s
  | .vmulw w => Sys2Proof.Machine.execVmulw w s
  | .vsat w => Sys2Proof.Machine.execVsat w s
  | .vand w => Sys2Proof.Machine.execVand w s
  | .vor w => Sys2Proof.Machine.execVor w s
  | .vxor w => Sys2Proof.Machine.execVxor w s
  | .vnot w => Sys2Proof.Machine.execVnot w s
  | .vshl w => Sys2Proof.Machine.execVshl w s
  | .vshr w => Sys2Proof.Machine.execVshr w s
  | .vsra w => Sys2Proof.Machine.execVsra w s
  | .vcmp w => Sys2Proof.Machine.execVcmp w s
  | .vsel w => Sys2Proof.Machine.execVsel w s
  | .vmov w => Sys2Proof.Machine.execVmov w s
  | .vsplat w => Sys2Proof.Machine.execVsplat w s
  | .vredadd w => Sys2Proof.Machine.execVredadd w s
  | .vredmax w => Sys2Proof.Machine.execVredmax w s
  | .vredmin w => Sys2Proof.Machine.execVredmin w s
  | .vscan w => Sys2Proof.Machine.execVscan w s
  | .vld w => Sys2Proof.Machine.execVld w s
  | .vst w => Sys2Proof.Machine.execVst w s
  | .vldh w => Sys2Proof.Machine.execVldh w s
  | .vsth w => Sys2Proof.Machine.execVsth w s
  | .vadv w => Sys2Proof.Machine.execVadv w s
  | .vgath w => Sys2Proof.Machine.execVgath w s
  | .vscat w => Sys2Proof.Machine.execVscat w s
  | .vasy w => Sys2Proof.Machine.execVasy w s
  | .vasyset w => Sys2Proof.Machine.execVasyset w s
  | .vasylt w => Sys2Proof.Machine.execVasylt w s
  | .vlda w => Sys2Proof.Machine.execVlda w s
  | .vsta w => Sys2Proof.Machine.execVsta w s
  | .pand w => Sys2Proof.Machine.execPand w s
  | .por w => Sys2Proof.Machine.execPor w s
  | .pnot w => Sys2Proof.Machine.execPnot w s
  | .pset w => Sys2Proof.Machine.execPset w s
  | .vany w => Sys2Proof.Machine.execVany w s
  | .vall w => Sys2Proof.Machine.execVall w s
  | .vbr w => Sys2Proof.Machine.execVbr w s
  | .vloop w => Sys2Proof.Machine.execVloop w s
  | .vrot w => Sys2Proof.Machine.execVrot w s
  | .slabdef w => Sys2Proof.Machine.execSlabdef w s
  | .slabretype w => Sys2Proof.Machine.execSlabretype w s
  | .slabpwr w => Sys2Proof.Machine.execSlabpwr w s
  | .mldb w => Sys2Proof.Machine.execMldb w s
  | .mldbT w => Sys2Proof.Machine.execMldbT w s
  | .mldbp w => Sys2Proof.Machine.execMldbp w s
  | .mma w => Sys2Proof.Machine.execMma w s
  | .mmap w => Sys2Proof.Machine.execMmap w s
  | .mchb w => Sys2Proof.Machine.execMchb w s
  | .mche w => Sys2Proof.Machine.execMche w s
  | .mzero w => Sys2Proof.Machine.execMzero w s
  | .manch w => Sys2Proof.Machine.execManch w s
  | .mloop w => Sys2Proof.Machine.execMloop w s
  | .cnest w => Sys2Proof.Machine.execCnest w s
  | .ccopy w => Sys2Proof.Machine.execCcopy w s
  | .cmcast w => Sys2Proof.Machine.execCmcast w s
  | .cgath w => Sys2Proof.Machine.execCgath w s
  | .cscat w => Sys2Proof.Machine.execCscat w s
  | .ctrans w => Sys2Proof.Machine.execCtrans w s
  | .cfill w => Sys2Proof.Machine.execCfill w s
  | .cfoll w => Sys2Proof.Machine.execCfoll w s
  | .crem w => Sys2Proof.Machine.execCrem w s
  | .catom w => Sys2Proof.Machine.execCatom w s
  | .cloop w => Sys2Proof.Machine.execCloop w s
  | .latchBankFilled core => Sys2Proof.Machine.execLatchBankFilled core s
  | .copyCommandComplete core op upTo => Sys2Proof.Machine.execCopyCommandComplete core op upTo s
  | .cmcastDelivery core op target => Sys2Proof.Machine.execCmcastDelivery core op target s
  | .cfollDelivery core op => Sys2Proof.Machine.execCfollDelivery core op s
  | .cremCompletionWord core op => Sys2Proof.Machine.execCremCompletionWord core op s
  | .bankmodeComplete core op => Sys2Proof.Machine.execBankmodeComplete core op s
  | .tlbinvComplete core op => Sys2Proof.Machine.execTlbinvComplete core op s
  | .rdvMatch core => Sys2Proof.Machine.execRdvMatch core s
  | .cairnCommit core => Sys2Proof.Machine.execCairnCommit core s
  | .superstepEnd core => Sys2Proof.Machine.execSuperstepEnd core s
  | .gangBarrier core => Sys2Proof.Machine.execGangBarrier core s
  | .ctxsaveCommit core => Sys2Proof.Machine.execCtxsaveCommit core s
  | .ctxrstMatch core => Sys2Proof.Machine.execCtxrstMatch core s
  | .vcoreComplete core => Sys2Proof.Machine.execVcoreComplete core s
  | .slabWakeWindowEnd core cluster => Sys2Proof.Machine.execSlabWakeWindowEnd core cluster s
  | .tickBoundary => Sys2Proof.Machine.execTickBoundary s
  | .politeWindowExpiry node => Sys2Proof.Machine.execPoliteWindowExpiry node s
  | .idleStepZero chiplet => Sys2Proof.Machine.execIdleStepZero chiplet s
  | .eclassDemoted node => Sys2Proof.Machine.execEclassDemoted node s
  | .stall core => Sys2Proof.Machine.execStall core s
  | .vcoreImage core => Sys2Proof.Machine.execVcoreImage core s
  | .notifyWrite queue value => Sys2Proof.Machine.execNotifyWrite queue value s
  | .mapperRead slot => Sys2Proof.Machine.execMapperRead slot s
  | .selection => Sys2Proof.Machine.execSelection s
  | .binderPlace node => Sys2Proof.Machine.execBinderPlace node s
  | .powerSample watts => Sys2Proof.Machine.execPowerSample watts s
  | .voltageTrim column mv => Sys2Proof.Machine.execVoltageTrim column mv s
  | .thermalReading chiplet temp => Sys2Proof.Machine.execThermalReading chiplet temp s
  | .thermalEmergency chiplet => Sys2Proof.Machine.execThermalEmergency chiplet s
  | .chipletOnline chiplet => Sys2Proof.Machine.execChipletOnline chiplet s
  | .hbmTemperatureReading stack temp => Sys2Proof.Machine.execHbmTemperatureReading stack temp s
  | .currentMeasurement cluster amps => Sys2Proof.Machine.execCurrentMeasurement cluster amps s
  | .curtPins pins => Sys2Proof.Machine.execCurtPins pins s
  | .chipletGate chiplet => Sys2Proof.Machine.execChipletGate chiplet s
  | .chipletUngate chiplet => Sys2Proof.Machine.execChipletUngate chiplet s
  | .curtLate => Sys2Proof.Machine.execCurtLate s
  | .curveMessage bytes => Sys2Proof.Machine.execCurveMessage bytes s
  | .cmblen value => Sys2Proof.Machine.execCmblen value s
  | .curveCheck => Sys2Proof.Machine.execCurveCheck s
  | .curveStart => Sys2Proof.Machine.execCurveStart s
  | .curveLapse => Sys2Proof.Machine.execCurveLapse s
  | .faultRecordDelivery index => Sys2Proof.Machine.execFaultRecordDelivery index s
  | .resume fdom => Sys2Proof.Machine.execResume fdom s
  | .cutback fdom => Sys2Proof.Machine.execCutback fdom s
  | .abort fdom => Sys2Proof.Machine.execAbort fdom s
  | .writebackRetry core line => Sys2Proof.Machine.execWritebackRetry core line s
  | .writebackLost core line => Sys2Proof.Machine.execWritebackLost core line s
  | .patrolScrub => Sys2Proof.Machine.execPatrolScrub s
  | .injctl value => Sys2Proof.Machine.execInjctl value s
  | .mecntRead store => Sys2Proof.Machine.execMecntRead store s
  | .melogRead store => Sys2Proof.Machine.execMelogRead store s
  | .lerrRead port => Sys2Proof.Machine.execLerrRead port s
  | .registerWrite fn off size value => Sys2Proof.Machine.execRegisterWrite fn off size value s
  | .partctl value => Sys2Proof.Machine.execPartctl value s
  | .layoutApply => Sys2Proof.Machine.execLayoutApply s
  | .wcreate => Sys2Proof.Machine.execWcreate s
  | .ccreate => Sys2Proof.Machine.execCcreate s
  | .s2map => Sys2Proof.Machine.execS2map s
  | .s2unmap => Sys2Proof.Machine.execS2unmap s
  | .ctxreg => Sys2Proof.Machine.execCtxreg s
  | .wseal => Sys2Proof.Machine.execWseal s
  | .wdestroy => Sys2Proof.Machine.execWdestroy s
  | .worldFreed world => Sys2Proof.Machine.execWorldFreed world s
  | .pageEvict => Sys2Proof.Machine.execPageEvict s
  | .pageReturn => Sys2Proof.Machine.execPageReturn s
  | .secmsg => Sys2Proof.Machine.execSecmsg s
  | .sleep => Sys2Proof.Machine.execSleep s
  | .record => Sys2Proof.Machine.execRecord s
  | .ckpt => Sys2Proof.Machine.execCkpt s
  | .crestore => Sys2Proof.Machine.execCrestore s
  | .cdestroy => Sys2Proof.Machine.execCdestroy s
  | .hrelease => Sys2Proof.Machine.execHrelease s
  | .hgrant => Sys2Proof.Machine.execHgrant s
  | .rekey => Sys2Proof.Machine.execRekey s
  | .claim session bytes => Sys2Proof.Machine.execClaim session bytes s
  | .keyImport session bytes => Sys2Proof.Machine.execKeyImport session bytes s
  | .gateOpen session bytes => Sys2Proof.Machine.execGateOpen session bytes s
  | .gateClose session bytes => Sys2Proof.Machine.execGateClose session bytes s
  | .gateCloseAnswer gate => Sys2Proof.Machine.execGateCloseAnswer gate s
  | .getVersion session bytes => Sys2Proof.Machine.execGetVersion session bytes s
  | .getCapabilities session bytes => Sys2Proof.Machine.execGetCapabilities session bytes s
  | .negotiateAlgorithms session bytes => Sys2Proof.Machine.execNegotiateAlgorithms session bytes s
  | .getDigests session bytes => Sys2Proof.Machine.execGetDigests session bytes s
  | .getCertificate session bytes => Sys2Proof.Machine.execGetCertificate session bytes s
  | .challenge session bytes => Sys2Proof.Machine.execChallenge session bytes s
  | .getMeasurements session bytes => Sys2Proof.Machine.execGetMeasurements session bytes s
  | .keyExchange session bytes => Sys2Proof.Machine.execKeyExchange session bytes s
  | .finish session bytes => Sys2Proof.Machine.execFinish session bytes s
  | .endSession session bytes => Sys2Proof.Machine.execEndSession session bytes s
  | .wake => Sys2Proof.Machine.execWake s
  | .pldmFirmwareUpdate bytes => Sys2Proof.Machine.execPldmFirmwareUpdate bytes s
  | .pldmPlatformMonitoring bytes => Sys2Proof.Machine.execPldmPlatformMonitoring bytes s
  | .mctpRegisterAccess bytes => Sys2Proof.Machine.execMctpRegisterAccess bytes s
  | .memoryRead fn bar addr len => Sys2Proof.Machine.execMemoryRead fn bar addr len s
  | .memoryWrite fn bar addr bytes => Sys2Proof.Machine.execMemoryWrite fn bar addr bytes s
  | .configurationRequest fn write off value => Sys2Proof.Machine.execConfigurationRequest fn write off value s
  | .hostportDown down => Sys2Proof.Machine.execHostportDown down s
  | .linkDown port down => Sys2Proof.Machine.execLinkDown port down s
  | .remoteTimeout index => Sys2Proof.Machine.execRemoteTimeout index s
  | .spanFlit port bytes => Sys2Proof.Machine.execSpanFlit port bytes s
  | .ptpMessage offset lock => Sys2Proof.Machine.execPtpMessage offset lock s
  | .powerGood => Sys2Proof.Machine.execPowerGood s
  | .moduleReset => Sys2Proof.Machine.execModuleReset s
  | .dieFatalError chiplet => Sys2Proof.Machine.execDieFatalError chiplet s
  | .linkRetraining port => Sys2Proof.Machine.execLinkRetraining port s
  | .retentionPowerLoss => Sys2Proof.Machine.execRetentionPowerLoss s

end Sys2Proof.Machine
end

