-- ==== Sys2Proof/Machine/Sequence.lean ====
section
/-! DEFINITION. What a stream does when it is its turn (spec/02 R34, R35; spec/06 R140; spec/10 R259; spec/12 R294; spec/21 R432,
R436; spec/22 R456), what hardware does ahead of need (spec/05 R105, R121; spec/06 R140), and what ends every step. -/

namespace Sys2Proof.Machine

/-- What a stream has at its place. -/
inductive Next
  /-- it issues nothing: no vcore on the core, stopped, halted, or at a meeting point -/
  | idle (s : State)
  /-- it has faulted in place of a fetch -/
  | faulted (s : State)
  /-- a word -/
  | word (s : State) (x : Code)

/-- FETCH_ALIGN (R436): the record names the transfer word, and comes after its delay slot. -/
def fetchAlign (s : State) (t : Transfer) : State :=
  let x := s.vc.sS
  takeFault s .s ⟨t.pc, x.pc, x.cmdix - 2, true, false, false, t.target, false⟩ (mkFault 0x100D)

/-- The word that a stream fetches at its program counter; a fetch that faults does so when the word would issue (R456). -/
def fetchNext (s : State) (st : StreamId) : Next :=
  let x := s.stream st
  if st == .s && x.pc.extractLsb' 0 2 != 0 then .faulted (fetchAlign s (s.vc.delay.getD ⟨x.pc, x.pc, true⟩))
  else
    match fetch s st x.pc st.bytes with
    | .error f => .faulted (accessFault s st f)
    | .ok w => .word (afterFetch s st x.pc st.bytes) (codeOf st w)

/-- A body word that the loop word could not fetch: it is fetched now, as it would issue; a forbidden one raises LOOP_BODY here (R450,
R456; DEDUCED, log 9). -/
def bodyWord (s : State) (st : StreamId) (i : Nat) : Next :=
  match fetchNext s st with
  | .word t c => if loopForbids c then .faulted (faultBefore t st (loopBodyFault i)) else .word t c
  | other => other

/-- Some vcore of the job of the vcore in focus is not resident (R44). -/
def gangApart (s : State) : Bool :=
  s.others.any fun v => v.id.node == s.vc.id.node && match v.res with
    | .off | .imaged | .imagedAt _ _ _ => true
    | _ => false

/-- The next word of a stream of the vcore in focus: first a word that CFOLL delivered (R294), then a word of the active loop's
body (R259), then the word at the program counter. -/
def nextWord (s : State) (st : StreamId) : Next :=
  if s.vc.stopped && !(stopping s s.vc st && Config.stopsLate s.steps) then .idle (stopStream s st)
  else if s.vc.id.gang && (s.vc.ended || gangApart s) then .idle s
  else
    match isDelivered s st, s.vc.st.follow with
    | true, f :: _ => .word s (.m f.w)
    | _, _ =>
      let x := s.stream st
      if x.halted || x.point.isSome then .idle s
      else
        match x.loop with
        | some l =>
          match l.body[l.idx]? with
          | some (some c) => .word s c
          | some none => bodyWord s st l.idx
          | none => .idle s
        | none => fetchNext s st

/-- The next word of a stream of the vcore on a core; none while its cluster's issue is gated (R494). A node's first is its START
(R332). -/
def turnWord (s : State) (core : Nat) (st : StreamId) : Next :=
  match s.focusCore core with
  | none => .idle s
  | some s1 =>
    if s1.dev.power.clusterGated.toList.getD (core / 8) false then .idle s1
    else
      match nextWord s1 st with
      | .word t x => .word (noteStart t) x
      | other => other

/-- RESERVED_CODE that a word meets in the state, beside what its own fields hold: FCTL.MODE of a word that rounds, the entry size of a
BANKMODE, the kind of a TLBINV (R408, R432, R433). -/
def stateReserved (s : State) (x : Code) : Bool :=
  match parse x with
  | some i =>
    match i with
    | .bankmode _ a => decide (5 < bmEsz (s.getS a))
    | .bankmodeE w => decide (5 < bmEsz (s.kCode w.w.sa))
    | .tlbinv _ _ b => nbits (s.getS b).toNat 0 2 == 3
    | .tlbinvE w => nbits (s.kCode w.w.sb).toNat 0 2 == 3
    | _ => roundsByFctl i && decide (5 < (fctlMode s.vc.sV.fctl).toNat)
  | none => false

/-- The word is one of the loads of a latch bank (R268). -/
def loadsLatch (x : Code) : Bool :=
  match x with
  | .m _ =>
    match parse x with
    | some (.mldb _) | some (.mldbT _) | some (.mldbp _) => true
    | _ => false
  | _ => false

/-- A word of R430's class 0x1 that decoding refuses, or the lower fault that it meets in the state (R408). An engine word's WAIT clause
comes first (R429, R432); a load of a latch bank leaves it empty (R409). -/
def illegalWord (s : State) (x : Code) (e : Illegal) : Out :=
  let own := mkFault e.code.status 0 e.info
  let f := if stateReserved s x then lowerFault own (mkFault 0x1002) else own
  match x with
  | .s _ => sFault s f
  | .v w => issue .v (parseClauses w) s [] (.faults f)
  | .m w =>
    if loadsLatch x && waitMet s .m (parseClauses w) then .next (accessFault (setLatch s s.vc.st.nextBank .empty) .m f)
    else issue .m (parseClauses w) s [] (.faults f)
  | .c w => issue .c (parseClauses (w.extractLsb' 0 64)) s [] (.faults f)

/-! ### Ahead of need -/

/-- A sequencer fetches a block of executable memory ahead of its words (R140); nothing is observed of a fetch that would fault
(R456). -/
def prefetchBlock (s : State) (core : Nat) (st : StreamId) (va : Word) : State :=
  match s.focusCore core with
  | none => s
  | some s1 =>
    let va0 := va &&& ~~~0xFF
    match placeOf s1 s1.who accFetch va0 256 none with
    | .ok (.home pa ipa _ _) =>
      if (macFaults s1 false pa 256 ipa).isSome || (homeDataFault s1 pa va0 0).isSome then s1
      else s1.setStore { s1.vc.st with
        icache := s1.vc.st.icache ++ [⟨st, blockOf s1.devId pa, blockBits (homeBlock s1 s1.devId pa)⟩] }
    | .ok (.remote dev pa _ _) =>
      if Config.remotePoison dev (pa / 256) s1.steps then s1
      else s1.setStore { s1.vc.st with icache := s1.vc.st.icache ++ [⟨st, blockOf dev pa, blockBits (homeBlock s1 dev pa)⟩] }
    | _ => s1

/-- An entry as each of the TLBs and walk caches that serve an access holds it (R121). -/
def heldBy (who : Who) (stage2 : Bool) (level addr : Nat) (e : Word) : List TlbEntry :=
  who.holders.map fun h => ⟨h, stage2, who.world, if stage2 then 0 else who.ctx, level, addr >>> levelShift level, e⟩

/-- The valid stage-2 entries that a walk reads, with their levels, until it ends (R117, R121). -/
def s2Entries (s : State) (who : Who) (ipa : Nat) : Nat → Nat → Nat → List TlbEntry
  | 0, _, _ => []
  | fuel + 1, level, table =>
    let a := s2EntryAt table level ipa
    let e := BitVec.ofNat 64 (s.mem.load a 8)
    if (homeDataFault s a 0 0).isSome || !e.getLsbD 0 then []
    else heldBy who true level ipa e ++ (if e.getLsbD 1 then [] else s2Entries s who ipa fuel (level + 1) (s2Table e))

/-- The valid stage-1 entries that a walk reads, each behind those of the stage-2 walk of its own IPA; a leaf is followed by the stage-2
entries of the page (R117, R121). -/
def walkEntries (s : State) (who : Who) (va : Word) : Nat → Nat → Nat → List TlbEntry
  | 0, _, _ => []
  | fuel + 1, level, ea =>
    let below := match (s.world who.world).s2root with
      | some r => s2Entries s who ea 5 0 r
      | none => []
    match readEntry s who ea va with
    | .error _ => below
    | .ok e =>
      if !e.getLsbD 0 || s1BadFormat e level then below
      else
        let here := below ++ heldBy who false level va.toNat e
        if e.getLsbD 1 then
          here ++ (match (s.world who.world).s2root with
            | some r => if e.extractLsb' 10 2 = 1 then [] else
                s2Entries s who ((e.extractLsb' 16 40).toNat * 2 ^ 16 + va.toNat % 2 ^ levelShift level) 5 0 r
            | none => [])
        else here ++ walkEntries s who va fuel (level + 1)
          ((e.extractLsb' 8 48).toNat * 256 + 8 * nbits va.toNat (levelShift (level + 1)) (levelBits (level + 1)))

/-- The walk that leaves entries in the TLBs and walk caches that serve `who` (R121). -/
def walkFor (s : State) (who : Who) (va : Word) : State :=
  if va.extractLsb' 57 7 != 0 || windowBase ≤ va.toNat then s
  else
    let l := walkEntries s who va 5 0 ((who.root.extractLsb' 12 44).toNat * 4096 + 8 * nbits va.toNat 48 9)
    let s1 := correctWalk s who va
    { s1 with dev := { s1.dev with tlb := s1.dev.tlb ++ l.filter fun e => !s1.dev.tlb.contains e } }

/-- An entry leaves a TLB or walk cache: a parity error invalidates it, or another takes its place (R121, R472). -/
def loseTlb (s : State) (n : Nat) : State := { s with dev := { s.dev with tlb := s.dev.tlb.eraseIdx n } }

/-- REG_PARITY (R453, R471, R476): the stream of the vcore on a core stops at once, and the record names its next word. -/
def upsetStream (s : State) (core : Nat) (st : StreamId) : State :=
  match s.focusCore core with
  | none => s
  | some s1 => if s1.vc.stopped then s1 else faultBefore s1 st (mkFault 0x4005 0 8)

/-- A walk ahead of need: of the vcore on a core, or, from 256 on, of the IOD under a registered context (R121). -/
def walkAhead (s : State) (core : Nat) (va : Word) : State :=
  if core < 256 then
    (match s.focusCore core with
    | none => s
    | some s1 => walkFor s1 s1.who va)
  else
    match s.dev.bedrock.ctxs[core - 256]? with
    | none => s
    | some c => walkFor s ⟨c.world, c.ctx, c.comp, c.root, false, none⟩ va

/-- A line of the core data cache leaves it: dirty bytes are written back first (R105, R134). -/
def evictLine (s : State) (core line : Nat) : State :=
  match s.focusCore core with
  | none => s
  | some s1 =>
    match s1.vc.st.cache[line]? with
    | none => s1
    | some l => cleanLines s1 (fun x => x.block == l.block) true

/-! ### The end of a step -/

/-- Nanoseconds in a tick (R322). -/
def tickNs : Nat := 100000

/-- A stream's word that has executed reads under the configurations before a QFENCE, and under the clusters before a SLABPWR, no more
(R165, R444). -/
def endReading (s : State) : State :=
  match s.turn with
  | .stream _ st =>
    if s.vc.st.reading.isEmpty && s.vc.st.before.isEmpty then s
    else s.setStore { s.vc.st with
      reading := s.vc.st.reading.filter fun r => r.1 != st
      before := s.vc.st.before.filter fun r => r.1 != st }
  | _ => s

/-- Step n ends: time passes, short of the next tick boundary, and the next turn is drawn (log 2, log 3). -/
def afterStep (n : Nat) (s0 : State) : State :=
  let s := endReading s0
  { s with
    turn := Config.schedule n
    steps := n + 1
    dev := { s.dev with time := advanceTime s.dev.time (min (s.dev.time + Config.elapsed n) ((s.dev.sched.tick + 1) * tickNs - 1)) } }

/-- Step n ends in the state that an outcome holds. -/
def settle (n : Nat) (o : Out) : Out :=
  match o with
  | .next s => .next (afterStep n s)
  | .fault f => .fault f
  | .refused r => .refused r

/-- A word of the table's first part (an instruction) is no event of the part. -/
def isEvent (i : Instr) : Bool := !i.isWord

/-! ### Deep sleep -/

/-- Every die but Bedrock's retention domain and the wake logic is powered down: deep sleep once bring-up is complete, or the loss of
the IOD (R385, R397, R500). -/
def State.dormant (s : State) : Bool :=
  match s.dev.bedrock.sleep with
  | .awake => false
  | .dark => true
  | _ => s.dev.host.ready

/-- The timer goes on through a sleep, boundary by boundary (R362; log 3). -/
def sleepTick (s : State) : State :=
  let k := s.dev.sched.tick + 1
  { s with dev := { s.dev with time := advanceTime s.dev.time (k * tickNs), sched := { s.dev.sched with tick := k } } }

/-- What a powered-down device still takes: the wake request, the loss of retention, module reset (R385, R397). -/
def actsAsleep (i : Instr) : Bool :=
  match i with
  | .wake => true
  | .retentionPowerLoss => true
  | .moduleReset => true
  | _ => false

/-! ### Bring-up -/

/-- Whether what brings an event is there yet in bring-up (R398): the side-band port and Basecamp answer from phase 1 on, the host's
register writes come over a port that is up, and a port comes back only after the phase that trains it. -/
def heard (s : State) (i : Instr) : Bool :=
  let phase := s.dev.host.phase.toNat
  match i with
  | .registerWrite _ _ _ _ => s.dev.host.portUp
  | .hostportDown down => down || decide (4 ≤ phase)
  | .linkDown _ down => down || decide (5 ≤ phase)
  | .curveMessage _ | .cmblen _ | .partctl _ | .injctl _ | .mecntRead _ | .melogRead _ | .lerrRead _ => decide (1 ≤ phase)
  | .pldmFirmwareUpdate _ | .pldmPlatformMonitoring _ | .mctpRegisterAccess _ => decide (1 ≤ phase)
  | .claim _ _ | .keyImport _ _ | .gateOpen _ _ | .gateClose _ _ => decide (1 ≤ phase)
  | .getVersion _ _ | .getCapabilities _ _ | .negotiateAlgorithms _ _ | .getDigests _ _ | .getCertificate _ _ => decide (1 ≤ phase)
  | .challenge _ _ | .getMeasurements _ _ | .keyExchange _ _ | .finish _ _ | .endSession _ _ => decide (1 ≤ phase)
  | _ => true

/-! ### A word placed where the next step fetches -/

/-- Where the placed word stands, and the tables of its context: a root, two tables and a leaf of 1 GiB that maps VA to the same
PA. -/
def placeVa : Nat := 0x4000

/-- Stage-1 tables that map the first GiB onto itself, read, write, execute (R117, R118). -/
def placeTables (m : Memory) : Memory :=
  let m1 := m.store 0x1000 8 (0x2000 + 1)
  let m2 := m1.store 0x2000 8 (0x3000 + 1)
  m2.store 0x3000 8 0x383

/-- The stream that fetches an instruction of a number of bits (decodeTableWord). -/
def placeStream (nbits w : Nat) : StreamId :=
  if nbits ≤ 32 then .s
  else if nbits ≤ 64 then
    (match (decode (.v (BitVec.ofNat 64 w))).instr? with
    | some _ => .v
    | none => .m)
  else .c

/-- A running stream at an address. -/
def placedStream (x : Stream) (pc : Word) : Stream :=
  { x with pc := pc, halted := false, point := none, loop := none, part := none, wait := waitNone }

/-- A vcore launched on core 0 whose stream st is at the placed word (log 1). -/
def placeVcore (v : Vcore) (st : StreamId) : Vcore :=
  let v1 := { v with
    res := .core 0
    regs := { v.regs with s1root := 0x1000 }
    delay := none
    stopped := false
    st := { v.st with follow := [], icache := [], before := [] } }
  v1.setStream st (placedStream (v1.stream st) (BitVec.ofNat 64 placeVa))

/-- What stands in the way of the fetch taken out: TLB entries, a gated cluster, errors of frame 0, a poisoned IPA; a world owns
frame 0 (R366). -/
def placeDev (d : Device) (w comp : Nat) : Device :=
  let free (b : Nat) : Bool := 256 ≤ b
  { d with
    tlb := []
    power := { d.power with clusterGated := .replicate 32 false }
    errors := { d.errors with
      poison := d.errors.poison.filter free
      badCheck := d.errors.badCheck.filter fun x => free x.1
      flips := d.errors.flips.filter fun x => free (x / 2048)
      l2Flips := d.errors.l2Flips.filter fun x => free (x / 2048) }
    bedrock := { d.bedrock with
      poisoned := []
      frames := (0, .world w comp 0 false) :: d.bedrock.frames } }

/-- The leaf of 1 GiB that maps the frame at IPA 0. -/
def placeLeaf (d : Device) (w comp : Nat) : Leaf :=
  ⟨some w, 0, 2, d.host.devnum.toNat * 2 ^ 47, true, true, true, comp, 0, false⟩

/-- The word, its tables of both stages and its vcore placed. -/
def placeWord (s : State) (nbits w : Nat) : State :=
  let st := placeStream nbits w
  let world := s.vc.id.world
  let comp := s.vc.id.comp
  let s1 := { s with
    vc := placeVcore s.vc st
    mem := (placeTables s.mem).store placeVa (st.size.toNat) w
    dev := placeDev s.dev world comp
    turn := .stream 0 st }
  (mapLeaf s1 world (placeLeaf s.dev world comp)).getD s1

end Sys2Proof.Machine
end

