-- ==== Sys2Proof/Machine/Step.lean ====
section
/-! DEFINITION. One step: the agent whose turn it is moves (spec/02 R34, R60; log 2). -/

namespace Sys2Proof.Machine

/-- A word decoded and executed, or refused as illegal (R432). -/
def runWord (s : State) (x : Code) : Out :=
  match decode x with
  | .ok i => exec i s
  | .illegal e => illegalWord s x e

/-- What a powered-down device does in a turn (R385, R397). -/
def actAsleep (s : State) : Out :=
  match s.turn with
  | .event .tickBoundary => .next (sleepTick s)
  | .event i => if actsAsleep i then exec i s else .next s
  | _ => .next s

/-- What the agent of the turn does while the device is awake. -/
def actAwake (s : State) : Out :=
  match s.turn with
  | .stream core st =>
    match turnWord s core st with
    | .idle s1 => .next s1
    | .faulted s1 => .next s1
    | .word s1 x => runWord s1 x
  | .event i => if isEvent i && heard s i then exec i s else .next s
  | .prefetch core st va => .next (prefetchBlock s core st va)
  | .walk core va => .next (walkAhead s core va)
  | .evict core line => .next (evictLine s core line)
  | .l2Fill b => .next (l2Fill s b)
  | .l2Evict b => .next (l2Evict s b)
  | .tlbLoss n => .next (loseTlb s n)
  | .upset core st => .next (upsetStream s core st)

/-- What the agent of the turn does. -/
def act (s : State) : Out := if s.dormant then actAsleep s else actAwake s

/-- One step of the machine. -/
def step (s : State) : Host.Outcome State Fault Refusal := settle s.steps (act s)

/-- The state in which the next step fetches and runs the instruction whose bits are w (log 1). -/
def State.withFetchWord (s : State) (nbits w : Nat) : State := placeWord s nbits w

end Sys2Proof.Machine
end

