-- ==== Sys2Proof/Safety.lean ====
section
/-! DEFINITION. The vocabulary of the statements: what a word completes with, what it leaves alone, and the invariants of the
machine. Nothing in the machine uses these definitions. -/

namespace Sys2Proof.Machine

/-- The outcome is a next state that satisfies P. -/
def Gives (o : Out) (P : State → Prop) : Prop := ∃ t, o = .next t ∧ P t

/-- A stream waits at its word, a word that CFOLL delivered at its CFOLL, for a cause (R313): its WSTAT says so, and nothing else
changes. A stream at a meeting point keeps reporting that point. -/
def State.waitsFor (s : State) (st : StreamId) (cause : BitVec 3) (idx : BitVec 6) (n : BitVec 16) : State :=
  s.setStream st { s.stream st with
    wait := if (s.stream st).point.isSome then (s.stream st).wait else ⟨true, (s.wordPc st).setWidth 32, cause, idx, n⟩ }

/-! ### The S stream after a word -/

/-- The word at the program counter lies in a delay slot (R222). -/
def InDelaySlot (s : State) : Prop := ∃ x, s.vc.delay = some x ∧ s.vc.sS.pc = x.pc + 4

/-- Where the S stream goes after a word that transfers nothing itself: on to pc + 4, or from a delay slot to where the pending
transfer goes (R222). -/
def pcAfter (s : State) : Word :=
  match s.vc.delay with
  | some x => if s.vc.sS.pc = x.pc + 4 ∧ x.taken = true then x.target else s.vc.sS.pc + 4
  | none => s.vc.sS.pc + 4

/-- An S word that touches nothing but the registers of its vcore: program counter, CMDIX and WSTAT move on, the pending transfer
is spent, and memory, device, storage, the other streams and every other vcore stay. -/
structure OnlyRegs (s t : State) : Prop where
  rest : t = { s with vc := { s.vc with regs := t.vc.regs, sS := t.vc.sS, delay := t.vc.delay } }
  stream : t.vc.sS = { s.vc.sS with
    pc := pcAfter s, cmdix := s.vc.sS.cmdix + 1, wait := waitNone, fflags := t.vc.sS.fflags, asyte := t.vc.sS.asyte }

/-- No flag, no LOW bit. -/
def SameFlags (s t : State) : Prop := t.vc.sS.fflags = s.vc.sS.fflags ∧ t.vc.sS.asyte = s.vc.sS.asyte

/-- s register d takes v, unless it is s0, which takes nothing; every other register stays (R199). -/
structure WritesS (s t : State) (d : BitVec 6) (v : Word) : Prop extends OnlyRegs s t where
  value : ∀ r, t.getS r = if r = d ∧ d ≠ 0 then v else s.getS r
  files : t.vc.regs = { s.vc.regs with s := t.vc.regs.s }
  flags : SameFlags s t

/-- c register c takes v; every other register stays. -/
structure WritesC (s t : State) (c : BitVec 3) (v : Bool) : Prop extends OnlyRegs s t where
  value : ∀ r, t.getC r = if r = c then v else s.getC r
  files : t.vc.regs = { s.vc.regs with c := t.vc.regs.c }

/-- b register b takes v; every other register stays. -/
structure WritesB (s t : State) (b : BitVec 3) (v : Word) : Prop extends OnlyRegs s t where
  value : ∀ r, t.getB r = if r = b then v else s.getB r
  files : t.vc.regs = { s.vc.regs with b := t.vc.regs.b }
  flags : SameFlags s t

/-- A state with other notes of the semaphores lowered in this cycle (R193). -/
def State.withLowered (s : State) (l : List Lowered) : State := s.setStore { s.vc.st with lowered := l }

/-- Semaphore m takes v, which is noted where it lowers it (R193); every other register stays. -/
structure WritesM (s t : State) (m : BitVec 6) (v : BitVec 16) : Prop extends OnlyRegs (s.withLowered t.vc.st.lowered) t where
  value : ∀ r, t.getM r = if r = m then v else s.getM r
  files : t.vc.regs = { s.vc.regs with m := t.vc.regs.m }
  flags : SameFlags s t

/-- f register d takes v; every other register stays, flags apart. -/
structure WritesF (s t : State) (d : BitVec 6) (v : FReg) : Prop extends OnlyRegs s t where
  value : ∀ r : BitVec 6, r.toNat < 32 → t.getF r = if r = d then v else s.getF r
  files : t.vc.regs = { s.vc.regs with f := t.vc.regs.f }

/-- No register at all is written. -/
structure WritesNothing (s t : State) : Prop extends OnlyRegs s t where
  files : t.vc.regs = s.vc.regs
  flags : SameFlags s t

/-- The conditions of R175 for CMP and CMPI: eq, ne, lt, le, gt, ge over int, ltu and geu over nat (R204). -/
def wordCondition (cond : BitVec 3) (x y : Word) : Bool :=
  match cond.toNat with
  | 0 => decide (x = y)
  | 1 => decide (x ≠ y)
  | 2 => decide (x.toInt < y.toInt)
  | 3 => decide (x.toInt ≤ y.toInt)
  | 4 => decide (y.toInt < x.toInt)
  | 5 => decide (y.toInt ≤ x.toInt)
  | 6 => decide (x.toNat < y.toNat)
  | _ => decide (y.toNat ≤ x.toNat)

/-! ### Scalar floating point -/

/-- s register d takes v and flags are raised; every other register stays. -/
structure WritesSF (s t : State) (d : BitVec 6) (v : Word) (fl : Flags) : Prop extends OnlyRegs s t where
  value : ∀ r, t.getS r = if r = d ∧ d ≠ 0 then v else s.getS r
  files : t.vc.regs = { s.vc.regs with s := t.vc.regs.s }
  flags : t.vc.sS.fflags = s.vc.sS.fflags ||| fl
  low : t.vc.sS.asyte = s.vc.sS.asyte

/-- f register i read in the type of code t (R206): the operand with its assay, its pattern, and the flags of its narrowing. -/
def fArg (s : State) (t : BitVec 2) (i : BitVec 6) : Opnd := (readFt (ftFmt t) (s.getF i)).2.2
def fPattern (s : State) (t : BitVec 2) (i : BitVec 6) : Nat := (readFt (ftFmt t) (s.getF i)).1
def fArgFlags (s : State) (t : BitVec 2) (i : BitVec 6) : Flags := (readFt (ftFmt t) (s.getF i)).2.1

/-- The choice of R208 of the smaller (`lower`) or larger of two operands with patterns px and py: the pattern and the stored
assay that result. −0 lies below +0; of equal operands the smaller assay is taken. -/
def Chosen (f : Fmt) (lower : Bool) (x y : Opnd) (px py pat asy : Nat) : Prop :=
  if x.v.isNan ∧ y.v.isNan then pat = canonNan f ∧ asy = 0
  else if x.v.isNan then pat = py ∧ asy = y.stored
  else if y.v.isNan then pat = px ∧ asy = x.stored
  else if beforeV x.v y.v then (if lower then pat = px ∧ asy = x.stored else pat = py ∧ asy = y.stored)
  else if beforeV y.v x.v then (if lower then pat = py ∧ asy = y.stored else pat = px ∧ asy = x.stored)
  else pat = px ∧ asy = min x.stored y.stored

/-- A checked floating-point result: pattern x of format f with an assay in f register d, flags raised, LOW set where the result
is finite and its assay lies below ASYTH; where LOW traps, one record of status ASSAY_LOW follows the word, and its fault
domain stops; nothing else changes (R98 to R100, R206, R213). -/
structure FpDone (s t : State) (d : BitVec 6) (f : Fmt) (x asy : Nat) (fl : Flags) : Prop where
  value : ∀ r : BitVec 6, r.toNat < 32 → t.getF r = if r = d then fregOf f x asy else s.getF r
  flags : t.vc.sS.fflags = s.vc.sS.fflags ||| fl
  low : t.vc.sS.asyte = if isLow s.vc.sS.asyth (decodeF f x) asy then s.vc.sS.asyte ||| 2 else s.vc.sS.asyte
  place : t.vc.sS.pc = pcAfter s
  store : t.vc.st = s.vc.st
  mem : t.mem = s.mem
  plain : (isLow s.vc.sS.asyth (decodeF f x) asy && s.vc.sS.asyte.getLsbD 0) = false →
    OnlyRegs s t ∧ t.vc.regs = { s.vc.regs with f := t.vc.regs.f }
  trap : (isLow s.vc.sS.asyth (decodeF f x) asy && s.vc.sS.asyte.getLsbD 0) = true →
    t.vc.regs = { s.vc.regs with f := t.vc.regs.f, ystat := t.vc.regs.ystat } ∧
    ∃ r : Record, t.dev.faults.records = s.dev.faults.records ++ [r] ∧ r.bits.extractLsb' 0 16 = 0x0002 ∧
      t.dev.faults.stops.any (fun x => x.fdom == s.vc.id.fdom) = true

/-! ### Memory accesses of the S stream -/

/-- Every dirty line of the core data cache still matches its frame, so that no write-back raises ALIAS (R464). -/
def NoAlias (s : State) : Prop := ∀ l ∈ s.vc.st.cache, l.dirty = 0 ∨ lineMatches s l = true

/-- Home memory outside `stored`: a byte reads as before, or takes the dirty byte that a line of the core data cache held for it,
which a write-back may bring home at any access (R105, R134). -/
def HomeKept (s t : State) (stored : Nat → Prop) : Prop :=
  ∀ a, ¬ stored a → t.mem.read a = s.mem.read a ∨
    ∃ l ∈ s.vc.st.cache, ∃ i < 256, l.dirty.getLsbD i = true ∧ a = l.block * 256 % 2 ^ 47 + i ∧ t.mem.read a = byteOf l.data i

/-- The addresses of home memory, and of SCRATCH, that pieces cover. -/
def homeIn (ps : List Piece) (a : Nat) : Prop :=
  ∃ p n pa, (p, n) ∈ ps ∧ ((∃ ipa k pr, p = .home pa ipa k pr) ∨ ∃ ipa, p = .deviceHome pa ipa) ∧ pa ≤ a ∧ a < pa + n
def scratchIn (ps : List Piece) (a : Nat) : Prop := ∃ c n, (Place.scratch c, n) ∈ ps ∧ c ≤ a ∧ a < c + n

/-- What a completed access of the S stream leaves alone: every other stream and vcore, every register but those of `regs`, all
storage but the cache and SCRATCH, the records, and memory outside the bytes stored. -/
structure AccessFrame (s t : State) (home scratch : Nat → Prop) : Prop where
  place : t.vc.sS.pc = pcAfter s ∧ t.vc.sS.cmdix = s.vc.sS.cmdix + 1
  streams : t.vc.sV = s.vc.sV ∧ t.vc.sM = s.vc.sM ∧ t.vc.sC = s.vc.sC
  store : t.vc.st = { s.vc.st with cache := t.vc.st.cache, scratch := t.vc.st.scratch, marks := t.vc.st.marks }
  others : t.others = s.others
  records : t.dev.faults.records = s.dev.faults.records
  homeKept : HomeKept s t home
  scratchKept : ∀ a, ¬ scratch a → t.vc.st.scratch.read a = s.vc.st.scratch.read a

/-- The address of layout SM (R214). -/
def vaOf (s : State) (a : BitVec 6) (imm : BitVec 11) : Word := s.getS a + BitVec.ofInt 64 imm.toInt

/-- An S load of n bytes at va that translates, finds no failed data, is answered, and reaches no DEVICE page. -/
def Loadable (s : State) (va : Word) (n : Nat) (ps : List Piece) : Prop :=
  pieces s s.who accLoad va n = .ok ps ∧ dataFault s va ps = none ∧ remotePending s ps = false ∧ deviceOffset ps = none

/-- The bytes that such a load reads. -/
def loaded (s : State) (va : Word) (ps : List Piece) : Nat := natLE (readPieces (clearRemote s .s) va ps).1

/-- An S store of n bytes at va that translates and reaches no DEVICE page. -/
def Storable (s : State) (va : Word) (n : Nat) (ps : List Piece) : Prop :=
  pieces s s.who accStore va n = .ok ps ∧ deviceOffset ps = none

/-- Bytes of home memory that only the device writes (R5): READ and WRITE of a queue descriptor (R324), TAIL of a fault-queue
descriptor (R419). -/
def DeviceByte (s : State) (a : Nat) : Prop :=
  32 ≤ a % 64 ∧ a % 64 < 40 ∧ (s.inTable s.dev.sched.qtbase 1024 a = true ∨ (a % 64 < 36 ∧ s.inTable s.dev.faults.fqtbase 4096 a = true))

/-- What the core reads after a store to one place: the bytes stored, in SCRATCH, or at the home or in the line that holds
them, but for the bytes that only the device writes. -/
def StoredAt (t : State) (p : Place) (n v : Nat) : Prop :=
  match p with
  | .scratch c => t.vc.st.scratch.bytes c n = bytesLE n v
  | .home pa _ _ _ => ∀ i < n, ¬ DeviceByte t (pa + i) → (engineRead t t.devId pa n)[i]? = (bytesLE n v)[i]?
  | .deviceHome pa _ => ∀ i < n, ¬ DeviceByte t (pa + i) → (t.mem.bytes pa n)[i]? = (bytesLE n v)[i]?
  | _ => True

/-- The n bytes of v written at pa of this device's home memory, in place of those of s: a byte that only the device writes keeps its
value (R5). -/
def SoftStored (s t : State) (pa n v : Nat) : Prop :=
  ∀ i < n, t.mem.read (pa + i) = if s.deviceOnly (pa + i) = true then s.mem.read (pa + i) else BitVec.ofNat 8 (v / 256 ^ i)

/-- The value that an AMO of n bytes leaves at its location (R217). -/
def amoResult (op : BitVec 3) (unsigned : Bool) (n old src cmp : Nat) : Nat :=
  let less (x y : Nat) : Bool := if unsigned then decide (x < y) else decide (sgn (8 * n) x < sgn (8 * n) y)
  if op = 0 then (old + src) % 2 ^ (8 * n)
  else if op = 1 then src
  else if op = 2 then (if old = cmp then src else old)
  else if op = 3 then (if less src old then src else old)
  else if op = 4 then (if less old src then src else old)
  else if op = 5 then old &&& src
  else old ||| src

/-- BIND and UNBIND change nothing but the table, and move the S stream on. -/
structure BindFrame (s t : State) : Prop where
  rest : t = { s with vc := { s.vc with sS := t.vc.sS, delay := t.vc.delay,
                                        st := { s.vc.st with bindings := t.vc.st.bindings } } }
  stream : t.vc.sS = { s.vc.sS with pc := pcAfter s, cmdix := s.vc.sS.cmdix + 1, wait := waitNone }

/-! ### Transfers -/

/-- A transfer word's own step: the stream goes on to the delay slot with the decision and the target read (R222). -/
structure EntersSlot (s t : State) (target : Word) (taken : Bool) : Prop where
  delay : t.vc.delay = some ⟨s.vc.sS.pc, target, taken⟩
  stream : t.vc.sS = { s.vc.sS with pc := s.vc.sS.pc + 4, cmdix := s.vc.sS.cmdix + 1, wait := waitNone }
  streams : t.vc.sV = s.vc.sV ∧ t.vc.sM = s.vc.sM ∧ t.vc.sC = s.vc.sC
  others : t.others = s.others

/-- Everything of the vcore but its S stream, pending transfer, registers and NI, and all else of the machine, stays. -/
def OnlySlot (s t : State) : Prop :=
  t = { s with vc := { s.vc with sS := t.vc.sS, delay := t.vc.delay, regs := t.vc.regs } }

/-- The decision of a transfer (R222). -/
def decides (s : State) (ci : BitVec 3) (cm : BitVec 2) : Bool :=
  if cm = 0 then true else if cm = 1 then s.getC ci else !s.getC ci

/-! ### A fault before a word's effect -/

/-- The word raises a fault and has no effect (R409, R413, R415): one record of the status and ADDR joins the queue, the stream
stays at the word, its domain stops, and no register but YSTAT, no storage and no memory changes. -/
structure FaultsAt (s t : State) (st : StreamId) (status : BitVec 16) (addr : Word) (info : BitVec 32) : Prop where
  record : ∃ r : Record, t.dev.faults.records = s.dev.faults.records ++ [r] ∧ r.bits.extractLsb' 0 16 = status
    ∧ r.bits.extractLsb' 128 64 = (stopBefore s st).pc ∧ r.bits.extractLsb' 256 64 = addr ∧ r.bits.extractLsb' 384 32 = info
    ∧ r.bits.extractLsb' 56 4 = BitVec.ofNat 4 st.code ∧ r.bits.getLsbD 54 = false
  stops : t.dev.faults.stops.any (fun x => x.fdom == s.vc.id.fdom) = true
  stream : t.stream st = { s.stream st with wait := waitNone }
  regs : t.vc.regs = { s.vc.regs with ystat := t.vc.regs.ystat }
  storage : t.vc.st = s.vc.st
  memory : t.mem = s.mem

/-! ### Accesses that a check refuses -/

/-- The record a refused access leaves: its status, ADDR and INFO. -/
structure Refused where
  status : BitVec 16
  addr : Word
  info : BitVec 32
  deriving DecidableEq, Repr

/-- The refusals at this device's home of an access that stage 2 has let pass (R452, R463 to R465): the frame is in no hands of the
world, in another compartment's, or carried under another PROT or KEYID. -/
def HomeRefuses (s : State) (l : S2Hit) (ipa : Nat) (x : Refused) : Prop :=
  let a := BitVec.ofNat 64 ipa
  let f := s.frame (l.pa % 2 ^ 47 / 2 ^ 16)
  let carved := s.inCarve (l.pa % 2 ^ 47)
  (carved = true ∧ x = ⟨0x3001, a, 0x300⟩)
  ∨ (carved = false ∧ ((f = .host ∧ x = ⟨0x3001, a, 0x100⟩) ∨ (f = .free ∧ x = ⟨0x3001, a, 0x200⟩)
    ∨ ∃ w k p sh, f = .world w k p sh ∧
      ((¬ (w = s.vc.id.world ∧ k = s.vc.id.comp) ∧ x = ⟨0x3001, a, BitVec.ofNat 32 (w + 16 * k)⟩)
      ∨ (w = s.vc.id.world ∧ k = s.vc.id.comp ∧ ¬ (k = l.keyid ∧ p = l.prot) ∧ x = ⟨0x3002, a, BitVec.ofNat 32 (p.toNat + 16 * k)⟩))))

/-- The refusals of steps 5 to 7 of R454 but for those of a remote device, of a line held under a tag that its frame no longer has and of a
failed integrity check: no leaf where the page was not poisoned, a right that stage 2 denies, no backing, the register space through a page
that is not DEVICE. -/
def IpaRefuses (s : State) (acc : Acc) (va : Word) (ipa : Nat) (device : Bool) (x : Refused) : Prop :=
  let a := BitVec.ofNat 64 ipa
  (∃ f, s2Walk s s.who ipa va = .error f ∧ f.status = 0x2005
    ∧ (∀ p ∈ s.dev.bedrock.poisoned, ¬ (p.1 = s.vc.id.world ∧ p.2.1 = s.vc.id.comp ∧ p.2.2 = ipa / 2 ^ 16)) ∧ x = ⟨f.status, f.addr, f.info⟩)
  ∨ ∃ l, s2Walk s s.who ipa va = .ok l ∧
    let o := l.pa % 2 ^ 47
    let allowed := (acc.r = true → l.r = true) ∧ (acc.w = true → l.w = true)
    (¬ allowed ∧ x = ⟨0x2006, a, acc.need⟩)
    ∨ (allowed ∧ l.pa / 2 ^ 47 = s.devId ∧
      ((s.backed o = false ∧ x = ⟨0x200A, va, 0⟩)
      ∨ (s.backed o = true ∧ isRegSpace o = true ∧ device = false ∧ x = ⟨0x2009, va, 0⟩)
      ∨ (s.backed o = true ∧ isRegSpace o = false ∧ HomeRefuses s l ipa x)))

/-- The refusals from the stage-1 leaf on, steps 3 to 7 of R454, of an S load or store of n bytes: a right that stage 1 denies, a
quarry page whose slot is OFF or takes no stores, a misaligned access to a DEVICE page, and those of the IPA. -/
def LeafRefuses (s : State) (acc : Acc) (va : Word) (n : Nat) (e : Word) (level : Nat) (x : Refused) : Prop :=
  let allowed := (acc.r = true → e.getLsbD 7 = true) ∧ (acc.w = true → e.getLsbD 8 = true)
  let mt := e.extractLsb' 10 2
  let q := (e.extractLsb' 56 4).toNat
  let c := s.vc.st.slotCfg q
  let ipa := (e.extractLsb' 16 40).toNat * 2 ^ 16 + va.toNat % 2 ^ levelShift level
  (¬ allowed ∧ x = ⟨0x2003, va, acc.need⟩)
  ∨ (allowed ∧
    ((mt = 1 ∧ acc.w = true ∧ ¬ (c.sink = true ∧ c.kind ≠ 0) ∧ x = ⟨0x2007, va, BitVec.ofNat 32 q⟩)
    ∨ (mt = 1 ∧ acc.w = false ∧ c.kind = 0 ∧ x = ⟨0x2008, va, BitVec.ofNat 32 q⟩)
    ∨ (mt = 2 ∧ va.toNat % n ≠ 0 ∧ x = ⟨0x2009, va, 0⟩)
    ∨ (mt ≠ 1 ∧ (mt = 2 → va.toNat % n = 0) ∧ IpaRefuses s acc va ipa (mt == 2) x)))

/-- The first check that an S load or store of n bytes within one 64 KiB page fails, in the order of R454, with what R451 and R452
give its record: the range of the VA, the bank that the local window names, the stage-1 walk, and the checks of the leaf. -/
def AccessRefused (s : State) (acc : Acc) (va : Word) (n : Nat) (x : Refused) : Prop :=
  let bank := (va.toNat - windowBase) / bankBytes
  (2 ^ 57 ≤ va.toNat ∧ x = ⟨0x2001, va, 0⟩)
  ∨ (va.toNat < 2 ^ 57 ∧ windowBase ≤ va.toNat ∧ s.vc.st.scratchOk bank = false ∧ x = ⟨0x200B, va, BitVec.ofNat 32 bank⟩)
  ∨ (va.toNat < windowBase ∧
    ((∃ f, walk s s.who va = .error f ∧ (f.status = 0x2002 ∨ f.status = 0x2004) ∧ x = ⟨f.status, f.addr, f.info⟩)
    ∨ ∃ e level, walk s s.who va = .ok (e, level) ∧ LeafRefuses s acc va n e level x))

/-! ### Fences -/

/-- Every slot's pending configuration is its active one, and none is pending (R163, R164). -/
def SlotsActive (s t : State) : Prop :=
  ∀ i : Fin 16, (t.vc.st.q.get i).active = (s.vc.st.q.get i).pending.getD (s.vc.st.q.get i).active
    ∧ (t.vc.st.q.get i).pending = none

/-- What a completed fence leaves alone: registers, every storage but caches and slots, other streams and vcores, the records,
and home memory but for bytes written back. -/
structure FenceFrame (s t : State) : Prop where
  stream : t.vc.sS = { s.vc.sS with pc := pcAfter s, cmdix := s.vc.sS.cmdix + 1, wait := waitNone }
  streams : t.vc.sV = s.vc.sV ∧ t.vc.sM = s.vc.sM ∧ t.vc.sC = s.vc.sC
  regs : t.vc.regs = s.vc.regs
  storage : t.vc.st = { s.vc.st with
    cache := t.vc.st.cache, icache := t.vc.st.icache, q := t.vc.st.q, reading := t.vc.st.reading, marks := t.vc.st.marks }
  others : t.others = s.others
  records : t.dev.faults.records = s.dev.faults.records
  home : HomeKept s t (fun _ => False)

/-! ### Words of the V, M and C streams -/

/-- The WAIT clause of a word is satisfied (R191). -/
def Waited (s : State) (cl : Clauses) : Prop := cl.wn.toNat ≤ (s.getM cl.wi).toNat

/-- The SET clause of a word leaves its semaphore in range (R192, R438). -/
def SetFits (s : State) (cl : Clauses) : Prop :=
  (cl.so = 1 → s.getM cl.si ≠ 0xFFFF) ∧ (cl.so = 2 → s.getM cl.si ≠ 0)

/-- Semaphore i after the clauses of a word that completes: the take, or the SET (R192). -/
def semAfter (s : State) (cl : Clauses) (i : BitVec 6) : BitVec 16 :=
  if cl.so = 3 ∧ i = cl.wi then s.getM i - cl.wn.setWidth 16
  else if cl.so = 1 ∧ i = cl.si then s.getM i + 1
  else if cl.so = 2 ∧ i = cl.si then s.getM i - 1
  else s.getM i

/-- The same where the SET comes later, at the completion of an engine operation: the take alone (R192). -/
def semIssued (s : State) (cl : Clauses) (i : BitVec 6) : BitVec 16 :=
  if cl.so = 3 ∧ i = cl.wi then s.getM i - cl.wn.setWidth 16 else s.getM i

/-- The stream is in no loop body, and the word is none that CFOLL delivered. -/
def Plain (s : State) (st : StreamId) : Prop := (s.stream st).loop = none ∧ isDelivered s st = false

/-- A stream past the word it was at, outside a loop. -/
def Stream.next (x : Stream) (st : StreamId) : Stream :=
  { x with pc := x.pc + st.size, cmdix := x.cmdix + 1, wait := waitNone, part := none }

/-- A state with the semaphores of another and a stream replaced. -/
def State.withSems (s : State) (st : StreamId) (x : Stream) (m : Vector (BitVec 16) 64) : State :=
  { s with vc := { s.vc.setStream st x with regs := { s.vc.regs with m := m } } }

/-- The end of a word of stream st: `s1` is what its own effect leaves. Memory, storage, the other streams and every register
but semaphores, the rotation bases and YSTAT are as in s1; outside loops, with a SET in range, the stream goes on to the next
word, the semaphores are `sem`, and nothing else of the machine changes. -/
structure WordEnds (st : StreamId) (cl : Clauses) (s1 t : State) (sem : BitVec 6 → BitVec 16) :
    Prop where
  memory : t.mem = s1.mem
  storage : t.vc.st = { s1.vc.st with follow := t.vc.st.follow, loopEnds := t.vc.st.loopEnds, lowered := t.vc.st.lowered }
  regs : t.vc.regs = { s1.vc.regs with m := t.vc.regs.m, rb := t.vc.regs.rb, pb := t.vc.regs.pb, ystat := t.vc.regs.ystat }
  streams : ∀ a, a ≠ st → t.stream a = s1.stream a
  own : t.stream st = { s1.stream st with
    pc := (t.stream st).pc, cmdix := (s1.stream st).cmdix + 1,
    wait := (t.stream st).wait, loop := (t.stream st).loop, part := (t.stream st).part }
  plain : Plain s1 st → SetFits s1 cl →
    t = (s1.withSems st ((s1.stream st).next st) t.vc.regs.m).withLowered t.vc.st.lowered
    ∧ ∀ i, t.getM i = sem i

/-- The word completes with effect s1. -/
def Completes (st : StreamId) (cl : Clauses) (s1 : State) (o : Out) : Prop :=
  Gives o fun t => WordEnds st cl s1 t (semAfter s1 cl)

/-- The word issues an engine operation: s1 is the state with the operation in flight; its SET comes at the completion. -/
def Issues (st : StreamId) (cl : Clauses) (s1 : State) (o : Out) : Prop :=
  Gives o fun t => WordEnds st { cl with so := 0 } s1 t (semIssued s1 cl)

/-! ### System forms -/

/-- A stream waits at a meeting point of kind k (R304, R313); its take apart, nothing else has changed. -/
structure WaitsAt (st : StreamId) (cl : Clauses) (k : PointKind) (s t : State) : Prop where
  state : t = s.withSems st
    { s.stream st with
      point := some ⟨k, (s.stream st).pc, cl⟩, wait := ⟨true, (s.stream st).pc.setWidth 32, 3, 0, 0⟩ } t.vc.regs.m
  sems : ∀ i, t.getM i = semIssued s cl i

/-- s1 is s with an engine operation of stream st in flight (R125, R138). -/
structure InFlight (s s1 : State) (st : StreamId) (cl : Clauses) (kind : OpKind) : Prop where
  op : ∃ o : EngOp, s1.vc.st = { s.vc.st with ops := s.vc.st.ops ++ [o], nextId := s.vc.st.nextId + 1 } ∧ o.kind = kind ∧
    o.st = st ∧ o.cl = cl ∧ o.id = s.vc.st.nextId ∧ o.stopped = false
  regs : s1.vc.regs = s.vc.regs
  memory : s1.mem = s.mem
  device : s1.dev = s.dev
  others : s1.others = s.others

/-- A trap after a word: one record of status TRAP with the code, which says that the word completed and where its stream goes on;
the domain stops, and NI is set (R58, R306, R407). -/
structure Traps (s t : State) (st : StreamId) (npc : Word) (code : BitVec 12) : Prop where
  record : ∃ r : Record, t.dev.faults.records = s.dev.faults.records ++ [r] ∧ r.bits.extractLsb' 0 16 = 0x0001
    ∧ r.bits.extractLsb' 128 64 = (stopBefore s st).pc ∧ r.bits.extractLsb' 192 64 = npc
    ∧ r.bits.extractLsb' 384 32 = code.setWidth 32 ∧ r.bits.getLsbD 54 = true ∧ r.bits.getLsbD 55 = true
  stops : t.dev.faults.stops.any (fun x => x.fdom == s.vc.id.fdom) = true
  place : (t.stream st).pc = npc
  ni : t.vc.ni = true
  storage : t.vc.st.rows = s.vc.st.rows ∧ t.vc.st.scratch = s.vc.st.scratch ∧ t.vc.st.h = s.vc.st.h ∧ t.vc.st.q = s.vc.st.q
  memory : t.mem = s.mem

/-- The configuration of slot n, staged and active. -/
def State.slot (s : State) (n : Fin 16) : Slot := s.vc.st.q.get n

/-- QCFG of slot n stages c: the slot's pending configuration is c, its active one stays, and every other slot stays (R163,
R316). -/
def Stages (s t : State) (n : Fin 16) (c : SlotCfg) : Prop :=
  ∀ i : Fin 16, t.slot i = if i = n then ⟨(s.slot n).active, some c⟩ else s.slot i

/-- What QCFG leaves alone besides caches: registers, rows, handles, SCRATCH, the records, and home memory but for write-backs. -/
structure QcfgFrame (s t : State) : Prop where
  regs : t.vc.regs.s = s.vc.regs.s ∧ t.vc.regs.f = s.vc.regs.f ∧ t.vc.regs.k = s.vc.regs.k ∧ t.vc.regs.p = s.vc.regs.p
  storage : t.vc.st.rows = s.vc.st.rows ∧ t.vc.st.h = s.vc.st.h ∧ t.vc.st.scratch = s.vc.st.scratch
  home : HomeKept s t (fun _ => False)

/-! ### Words over rows -/

/-- Row r of the slab store. -/
def State.row (s : State) (r : Nat) : Row := s.vc.st.rows.toList.getD r ⟨0, 0⟩

/-- What the word's checks and waits come to: its WAIT is satisfied; its handles are bound with ESZ 5, hold an entry for each
pop, and have room for the push; its rows lie in POWERED clusters and hold no error; each operand of .xa finds an anchor; and
where it rounds, FCTL names a mode and its draws are ready (R229, R231, R439 to R442, R471). -/
structure VReady (s : State) (w : VWord) (srcs : List (BitVec 7 × Fmt)) (fd : Fmt) (pdst rounds : Bool) : Prop where
  wait : Waited s w.cl
  bound : ∀ h ∈ handlesOf (if pdst then srcs.map (·.1) else w.dst :: srcs.map (·.1)),
    (s.vc.st.handle h).bound = true ∧ (s.vc.st.handle h).esz = 5
  power : ∀ r ∈ rowsOf s (if pdst then srcs.map (·.1) else w.dst :: srcs.map (·.1)),
    (s.vc.st.cluster (clusterOf r)).power = .powered
  anchorD : fd = .xa → pdst = false → (dstAnchor s pdst w.dst (srcs.map (·.1))).isSome = true
  anchors : ∀ x ∈ srcs, (srcAnchor s (dstAnchor s pdst w.dst (srcs.map (·.1))) x.1 x.2).isSome = true
  mode : rounds = true → (vMode s).toNat ≤ 5 ∧ drawFault s (vMode s) s.vc.sV.fctl = []
  intact : ∀ r ∈ rowsOf s (srcs.map (·.1)), s.vc.st.marks.rowUe r = false
  filled : ∀ h ∈ handlesOf (srcs.map (·.1)), (handlesOf (srcs.map (·.1))).count h ≤ (s.vc.st.handle h).fill
  sound : popFaults s (handlesOf (srcs.map (·.1))) = []
  room : pdst = false → isHndCode w.dst = true →
    (s.vc.st.handle (w.dst.toNat - 64)).free + (handlesOf (srcs.map (·.1))).count (w.dst.toNat - 64) ≠ 0

/-- The destination's anchor (R231). -/
def vAnchor (s : State) (w : VWord) (srcs : List (BitVec 7 × Fmt)) (pdst : Bool) : Anchor :=
  (dstAnchor s pdst w.dst (srcs.map (·.1))).getD ⟨0, false⟩

/-- The sources in field order under their anchors, and the state that reading them leaves. -/
def vSources (s : State) (w : VWord) (srcs : List (BitVec 7 × Fmt)) (pdst : Bool) : List VSrc × State :=
  takeSrcs s (srcs.map fun x => (x.1, x.2, (srcAnchor s (dstAnchor s pdst w.dst (srcs.map (·.1))) x.1 x.2).getD ⟨0, false⟩))

/-- The image that the destination held: a row's, or zero for an entry to be pushed. -/
def vOld (s : State) (w : VWord) : Row := if isHndCode w.dst then ⟨0, 0⟩ else s.row (s.vRow w.dst.toNat)

/-- A row image after a result (R97, R227, R230): the lanes written, the lanes written as zero, and the lanes that keep their
bits; assays lane by lane, or block by block as R94 forms them; the scales of an MX row. -/
structure LaneImage (an : Anchor) (old img : Row) (r : VRes) : Prop where
  lanes : ∀ j < r.f.lanes, laneBits r.f img.data.toNat j =
    match r.outs.find? (·.j == j) with
    | some o => o.x % 2 ^ r.f.width
    | none => if r.zeroed.testBit j then 0 else laneBits r.f old.data.toNat j
  assays : r.f.isInt = false → r.ints = false → r.f.isBlock = false → ∀ j < r.f.lanes, laneAssay r.f img.side.toNat j =
    match r.outs.find? (·.j == j) with
    | some o => o.asy % 2 ^ (assayPlace r.f j).2
    | none => if r.zeroed.testBit j then 0 else laneAssay r.f old.side.toNat j
  blocks : r.f.isInt = false → r.ints = false → r.f.isBlock = true → ∀ b < r.f.lanes / 32, laneAssay r.f img.side.toNat (32 * b) =
    if b ∈ r.blocks then newBlock r.f an img.data.toNat (laneAssay r.f old.side.toNat (32 * b)) r b % 16
    else laneAssay r.f old.side.toNat (32 * b)
  plain : r.f.isInt = true ∨ r.ints = true → img.side = 0
  scales : r.f.isMx = true → ∀ b < 32, mxScale img.data.toNat b =
    match r.scales.find? (·.1 == b) with
    | some x => x.2 % 256
    | none => if nbits r.zeroed (32 * b) 32 = 2 ^ 32 - 1 then 0 else mxScale old.data.toNat b

/-- A row image written to the destination of a V word, with flags: the row takes it, or in a wake window nothing with WAKEHZ;
or it is pushed as one full entry. Nothing else changes (R106, R230, R443). -/
structure Written (s t : State) (w : VWord) (img : Row) (fl : Flags) : Prop where
  row : isHndCode w.dst = false →
    (∀ r, t.row r = if r = s.vRow w.dst.toNat ∧ s.vc.st.hazard r = false then img else s.row r)
    ∧ t = { s with vc := { s.vc with sV := t.vc.sV, st := { s.vc.st with rows := t.vc.st.rows, marks := t.vc.st.marks } } }
    ∧ t.vc.sV = { s.vc.sV with
        fflags := s.vc.sV.fflags ||| fl ||| (if s.vc.st.hazard (s.vRow w.dst.toNat) then flWAKEHZ else 0) }
  entry : isHndCode w.dst = true →
    (∀ n, n < 16 → t.vc.st.handle n =
      if n = w.dst.toNat - 64 then
        { s.vc.st.handle n with
          entries := (s.vc.st.handle n).entries ++ [⟨s.vc.st.nextId, img.data, img.side, true⟩]
          free := (s.vc.st.handle n).free - 1 }
      else s.vc.st.handle n)
    ∧ t = { s with vc := { s.vc with
        sV := t.vc.sV, st := { s.vc.st with h := t.vc.st.h, nextId := s.vc.st.nextId + 1, marks := t.vc.st.marks } } }
    ∧ t.vc.sV = { s.vc.sV with fflags := s.vc.sV.fflags ||| fl }

/-- A fault record that follows a word which has completed, and stops its domain; registers but YSTAT, storage and memory stay. -/
structure FollowedBy (s t : State) (st : StreamId) (status : BitVec 16) (info : BitVec 32) : Prop where
  record : ∃ r : Record, t.dev.faults.records = s.dev.faults.records ++ [r] ∧ r.bits.extractLsb' 0 16 = status
    ∧ r.bits.extractLsb' 384 32 = info ∧ r.bits.getLsbD 54 = true ∧ r.bits.extractLsb' 192 64 = (s.stream st).pc
  stops : t.dev.faults.stops.any (fun x => x.fdom == s.vc.id.fdom) = true
  stream : t.stream st = { s.stream st with wait := waitNone }
  regs : t.vc.regs = { s.vc.regs with ystat := t.vc.regs.ystat }
  storage : t.vc.st = s.vc.st
  memory : t.mem = s.mem

/-- The end of a word whose result is checked: as of every word; and where a lane is low, LOW is set, and ASSAY_LOW follows if TE
traps (R98 to R100). -/
structure CheckedEnd (st : StreamId) (cl : Clauses) (s1 t : State) (low : Option (Nat × Nat)) : Prop where
  fine : low = none → WordEnds st cl s1 t (semAfter s1 cl)
  low : ∀ j a, low = some (j, a) → ∃ t1, WordEnds st cl s1 t1 (semAfter s1 cl)
    ∧ ((s1.stream st).asyte.getLsbD 0 = false → t = setLow t1 st)
    ∧ ((s1.stream st).asyte.getLsbD 0 = true → FollowedBy (setLow t1 st) t st 0x0002 (BitVec.ofNat 32 (j * 2 ^ 16 + a)))

/-- The outcome of a V word that reads sources and writes a row image: `res` gives the result from the sources and the
destination's anchor. Lanes of an entry that no result names are zero in every form (R230). -/
def VGives (w : VWord) (s : State) (srcs : List (BitVec 7 × Fmt)) (o : Out) (res : List VSrc → Anchor → VRes) : Prop :=
  let (xs, s1) := vSources s w srcs false
  let an := vAnchor s w srcs false
  let r := res xs an
  Gives o fun t => ∃ s2 img, LaneImage an (vOld s w) img (if isHndCode w.dst then { r with zeroed := 0 } else r)
    ∧ Written s1 s2 w img (r.outs.foldl (fun a x => a ||| x.fl) 0)
    ∧ CheckedEnd .v w.cl s2 t (lowOf s.vc.sV.asyth an img r)

/-- One result for each active lane of format f, lane j with its pattern, assay and flags; in a zeroing form the other lanes are
zero. -/
def laneRes (s : State) (w : VWord) (f : Fmt) (carried checked : Bool) (lane : Nat → Nat × Nat × Flags) : VRes :=
  ⟨f, (lanesIn (s.active w.pred f.lanes) f.lanes).map fun j => ⟨j, (lane j).1, (lane j).2.1, (lane j).2.2⟩,
    zeroOf w (s.active w.pred f.lanes) f.lanes, [], carried, checked, false⟩

/-- An integer result n in lane of format f: wrapped, or under sat clamped to the bounds with SAT (R69). -/
def intLane (f : Fmt) (sat : Bool) (n : Int) : Nat × Nat × Flags :=
  let m := if sat then max (intMin f) (min (intMax f) n) else n
  (wrapNat f.width m, 0, if m = n then 0 else flSAT)

/-- An exact result rounded once into lane j of format f by FCTL, for a word of l lanes (R76, R232). -/
def roundLaneOf (s : State) (l : Nat) (f : Fmt) (sat : Bool) (j : Nat) (e : Val) : Nat × Flags :=
  roundF f (vMode s) (drawAt s (vMode s) s.vc.sV.fctl (j + l * loopIter s .v)) sat e

/-- The same for a word whose lanes are those of the result's format. -/
def roundLane (s : State) (f : Fmt) (sat : Bool) (j : Nat) (e : Val) : Nat × Flags := roundLaneOf s f.lanes f sat j e

/-- The outcome of a V word that writes a predicate over the lanes of format f: an active lane takes its bit, another keeps it,
and bits from the lane count up are zero (R228, R230). -/
def PGives (w : VWord) (s : State) (srcs : List (BitVec 7 × Fmt)) (f : Fmt) (o : Out) (bit : List VSrc → Nat → Bool × Flags) : Prop :=
  let (xs, s1) := vSources s w srcs true
  let on (j : Nat) : Bool := (s.active w.pred f.lanes).testBit j
  Gives o fun t => ∃ s2,
    (∀ j < 4096, (s2.getP w.dst.toNat).getLsbD j =
      if j < f.lanes then (if on j then (bit xs j).1 else (s.getP w.dst.toNat).getLsbD j) else false)
    ∧ (∀ i < 16, i ≠ w.dst.toNat → s2.getP i = s.getP i)
    ∧ s2 = { s1 with vc := { s1.vc with sV := s2.vc.sV, regs := { s1.vc.regs with p := s2.vc.regs.p } } }
    ∧ s2.vc.sV = { s1.vc.sV with
        fflags := ((List.range f.lanes).filter on).foldl (fun a j => a ||| (bit xs j).2) s1.vc.sV.fflags }
    ∧ WordEnds .v w.cl s2 t (semAfter s2 w.cl)

/-- An operand's integer under format f. -/
def Lane.num (x : Lane) (f : Fmt) : Int := decodeI f x.x

/-- A floating-point lane from its exact result e (with its flags) in a word of l lanes: rounded once, with the assay of its class. -/
def floatLaneOf (s : State) (l : Nat) (f : Fmt) (sat : Bool) (j : Nat) (e : Val × Flags) (asy : Val → Nat) : Nat × Nat × Flags :=
  let q := roundLaneOf s l f sat j e.1
  (q.1, asy (decodeF f q.1), e.2 ||| q.2)

def floatLane (s : State) (f : Fmt) (sat : Bool) (j : Nat) (e : Val × Flags) (asy : Val → Nat) : Nat × Nat × Flags :=
  floatLaneOf s f.lanes f sat j e asy

/-- The smaller (`lower`) or larger of two lanes, by R208. -/
def chosenLane (lower : Bool) (f : Fmt) (x y : Lane) : Nat × Nat × Flags :=
  let nv := nvOf [x.o.v, y.o.v]
  let takeX := (x.x, x.o.stored, nv)
  let takeY := (y.x, y.o.stored, nv)
  if x.o.v.isNan && y.o.v.isNan then (canonNan f, 0, nv)
  else if x.o.v.isNan then takeY
  else if y.o.v.isNan then takeX
  else if beforeV x.o.v y.o.v then (if lower then takeX else takeY)
  else if beforeV y.o.v x.o.v then (if lower then takeY else takeX)
  else (x.x, min x.o.stored y.o.stored, nv)

/-- The pattern of a lane with its sign changed, or cleared (R237). -/
def signedPattern (neg : Bool) (f : Fmt) (x : Lane) : Nat :=
  if f = .xa then
    (if neg || 2 ^ 127 ≤ x.x then (if x.x = xaNan then x.x else (2 ^ 128 - x.x) % 2 ^ 128) else x.x)
  else if f.isInt then wrapNat f.width (if neg then -(x.num f) else ((x.num f).natAbs : Int))
  else
    let top := 2 ^ (f.width - 1)
    if neg then (if x.x < top then x.x + top else x.x - top) else x.x % top

/-- Destination lane j takes source lane k in a conversion from ls to ld lanes (R239). -/
def Mapped (ls ld part j k : Nat) : Prop := if ls ≤ ld then k < ls ∧ j = part * ls + k else j < ld ∧ k = part * ld + j

/-- The operands of a reduction: the lanes of the active positions. -/
def redOperands (s : State) (w : VWord) (f : Fmt) (xs : List VSrc) : List Lane :=
  (lanesIn (s.active w.pred f.lanes) f.lanes).map (srcLane xs 0)

/-- The sum of a reduction's operands: an XA128 chain; an integer sum wrapped; or an exact sum rounded once (R77, R247). -/
def sumLanes (s : State) (f : Fmt) (an : Anchor) (j : Nat) (ls : List Lane) : Nat × Nat × Flags :=
  if f = .xa then chainOf an (ls.map fun l => l.o.term)
  else if f.isInt then (wrapNat f.width (ls.map fun l => l.num f).sum, 0, 0)
  else (ls.foldl (fun a l => a.add f l.o) sumZero).result f (vMode s) (drawAt s (vMode s) s.vc.sV.fctl (j + f.lanes * loopIter s .v))

/-- The result of a reduction: lane 0 alone; in a zeroing form the other lanes are zero (R247). -/
def laneZero (w : VWord) (f : Fmt) (checked : Bool) (x : Nat × Nat × Flags) : VRes :=
  ⟨f, [⟨0, x.1, x.2.1, x.2.2⟩], zeroOf w 1 f.lanes, [], false, checked, false⟩

/-! ### Memory words of the V stream -/

/-- No block has two lines in the core data cache. -/
def OneLine (s : State) : Prop := (s.vc.st.cache.map (·.block)).Nodup

/-- What memory words leave alone but for the bytes of `ps`: registers, every storage but the cache and SCRATCH, the other streams
and vcores, the records, and memory. -/
structure MemFrame (s t : State) (ps : List Piece) : Prop where
  regs : t.vc.regs = s.vc.regs
  streams : t.vc.sS = s.vc.sS ∧ t.vc.sM = s.vc.sM ∧ t.vc.sC = s.vc.sC ∧ t.vc.sV = { s.vc.sV with fflags := t.vc.sV.fflags }
  store : t.vc.st = { s.vc.st with cache := t.vc.st.cache, scratch := t.vc.st.scratch, marks := t.vc.st.marks }
  others : t.others = s.others
  records : t.dev.faults.records = s.dev.faults.records
  home : HomeKept s t (homeIn ps)
  scratch : ∀ a, ¬ scratchIn ps a → t.vc.st.scratch.read a = s.vc.st.scratch.read a

/-- Byte i of a place of SCRATCH or of this device's memory as its core reads it: the byte of the line that the cache holds for it,
or else the byte at the home (R105). -/
def coreByte (s : State) (p : Place) (i : Nat) : Option Byte :=
  match p with
  | .scratch c => some (s.vc.st.scratch.read (c + i))
  | .home pa _ _ _ =>
    match s.line (blockOf s.devId (pa + i)) with
    | some l => some (byteOf l.data ((pa + i) % 256))
    | none => some (s.mem.read (pa + i))
  | .deviceHome pa _ => some (s.mem.read (pa + i))
  | _ => none

/-- No line of the core data cache is stale: its clean bytes are those at its home. -/
def NotStale (s : State) : Prop :=
  ∀ l ∈ s.vc.st.cache, l.block * 256 / 2 ^ 47 = s.devId → ∀ i < 256, l.dirty.getLsbD i = false →
    byteOf l.data i = s.mem.read (l.block * 256 % 2 ^ 47 + i)

/-- Each byte of an image is the byte that the core reads at its place: in SCRATCH, where the image lies in one place, and wherever
no line is stale (a fill may replace a stale line before a later part is read). -/
def Holds (s : State) (img : Nat) (ps : List Part) : Prop :=
  ∀ p ∈ ps, (∃ c, p.place = .scratch c) ∨ ps = [p] ∨ NotStale s →
    ∀ i < p.len, ∀ b, coreByte s p.place i = some b → nbits img (8 * (p.off + i)) 8 = b.toNat

/-- n bytes of a place and k bytes of another have no byte in common. -/
def Apart (p : Place) (n : Nat) (q : Place) (k : Nat) : Prop :=
  match p, q with
  | .scratch a, .scratch b => a + n ≤ b ∨ b + k ≤ a
  | .home a _ _ _, .home b _ _ _ | .home a _ _ _, .deviceHome b _ | .deviceHome a _, .home b _ _ _
  | .deviceHome a _, .deviceHome b _ => a + n ≤ b ∨ b + k ≤ a
  | _, _ => True

/-- The row of a memory word is POWERED, and has an anchor where the type is .xa. -/
def RowReady (s : State) (w : VWord) (f : Fmt) : Prop :=
  (s.vc.st.cluster (clusterOf (s.vRow w.dst.toNat))).power = .powered
  ∧ (f = .xa → (s.rowAnchor (s.vRow w.dst.toNat)).isSome = true)

/-- The row holds no uncorrectable error. -/
def RowIntact (s : State) (r : Nat) : Prop := s.vc.st.marks.rowUe r = false

/-- The result of loading n lanes from an image of element bytes and one of scale bytes: the active lanes take their bits, with the
assays of R96 or R162. -/
def loadedRes (s : State) (w : VWord) (f : Fmt) (an : Anchor) (n img sc : Nat) (parts : List Part) : VRes :=
  let js := lanesIn (s.active w.pred n) n
  let scale (j : Nat) : Nat := nbits sc (8 * (j / 32)) 8
  ⟨f, js.map fun j =>
      let x := laneBits f img j
      let v := if f.isMx then decodeMx f (scale j) x else laneVal f an 0 0 x
      ⟨j, x, if f.isInt then 0 else loadLaneAssay s parts f j v (if f.isMx then .mx f (scale j) else laneKept f an 0 0), 0⟩,
    zeroOf w (s.active w.pred n) n,
    if f.isMx then (js.map (· / 32)).eraseDups.map fun b => (b, nbits sc (8 * b) 8) else [], false, false, false⟩

/-! ### The M stream -/

/-- The reduction depth K, the stride S of an A row, and the bytes of a B element row and of a tile (R264, R265). -/
def kDepth (f : Fmt) : Nat := if f.width = 16 then 128 else if f.width = 4 then 512 else 256
def aStride (f : Fmt) : Nat := if f.isMx then 288 else 256
def tileBytes (f : Fmt) (t : Bool) : Nat :=
  if t then 128 * aStride f else kDepth f * (16 * f.width) + (if f.isMx then 4 * kDepth f else 0)

/-- The chain element of row i and column n. -/
def element (els : List ChainAcc) (i n : Nat) : ChainAcc := els.getD (128 * i + n) chainZero

/-- The products of an A row and a B column entered into a chain element, in any order (R270, R271). -/
def products (f : Fmt) (an : Anchor) (a b : List Opnd) (c : ChainAcc) : ChainAcc :=
  (List.range (kDepth f)).foldl (fun c k => c.add an (mTerm f (a.getD k default) (b.getD k default))) c

/-- The operands of an A row in SCRATCH, and of column n of a B tile (R265). -/
def aRow (s : State) (f : Fmt) (cs : Nat) : List Opnd :=
  mRowOpnds f s.vc.sM.asyld (s.vc.st.scratch.load cs (aStride f)) 0

/-- The rows of a chain after it has settled: each element's pattern and assay; other rows stay (R272). -/
def SettledInto (d : Word) (els : List ChainAcc) (s t : State) : Prop :=
  ∀ r < 256, ∀ n < 128,
    let an := slabAnchor d
    if slabHas d r = true ∧ s.vc.st.hazard r = false then
      laneBits .xa (t.row r).data.toNat n = ((element els (r - slabRow0 d) n).result an).1
      ∧ laneAssay .xa (t.row r).side.toNat n = ((element els (r - slabRow0 d) n).result an).2.1 % 128
    else t.row r = s.row r

/-- The counters after a chain has settled (R272, R277). -/
def Counted (els : List ChainAcc) (s t : State) : Prop :=
  let up (x : BitVec 32) (k : ChainEvent) : BitVec 32 :=
    BitVec.ofNat 32 (min (x.toNat + els.countP fun c => c.settle.2.1 == k) 0xFFFFFFFF)
  t.vc.regs = { s.vc.regs with
    mxcNan := up s.vc.regs.mxcNan .nan, mxcOvf := up s.vc.regs.mxcOvf .ovf, mxcSat := up s.vc.regs.mxcSat .sat }
  ∧ t.vc.sM = { s.vc.sM with
      fflags := s.vc.sM.fflags ||| (if els.any (fun c => c.settle.2.2) then flNV else 0)
        ||| (t.vc.sM.fflags &&& flWAKEHZ) }

/-- The chain's slab is R rows of 128 elements, within the slab store (R269, R271). -/
def ChainFits (c : Chain) : Prop :=
  c.els.length = 128 * slabRows c.desc ∧ slabRows c.desc ≤ 128 ∧ slabRow0 c.desc + slabRows c.desc ≤ 256

/-- No fault of an accumulator is armed for this core (R478). -/
def NoFlips (s : State) : Prop := s.pendingFlip s.coreId = none

/-- The rows of a descriptor were POWERED when the M word issued (R444), and are intact. -/
def SlabReady (s : State) (d : Word) : Prop :=
  ∀ r, slabHas d r = true → issuedPower s .m (clusterOf r) = .powered ∧ RowIntact s r

/-- An index operand can be read (R269, R439, R442). -/
def IxReady (s : State) (ix : BitVec 7) : Prop :=
  (isHndCode ix = true → (s.vc.st.handle (hndOf ix)).bound = true ∧ (s.vc.st.handle (hndOf ix)).esz = 5 ∧ entryBad s (hndOf ix) = false)
  ∧ (isRowCode ix = true → issuedPower s .m (clusterOf (s.vRow ix.toNat)) = .powered ∧ RowIntact s (s.vRow ix.toNat))

/-! ### Events of engines -/

/-- Semaphore i after the SET of an operation that completes (R192, R299). -/
def semEnded (s : State) (cl : Clauses) (i : BitVec 6) : BitVec 16 :=
  if cl.so = 1 ∧ i = cl.si then s.getM i + 1 else if cl.so = 2 ∧ i = cl.si then s.getM i - 1 else s.getM i

/-- An operation leaves and its SET is applied; nothing else changes. -/
def OpEnded (s : State) (o : EngOp) (t : State) : Prop :=
  ∃ m, t = { s with vc := { s.vc with
        st := { s.vc.st with ops := s.vc.st.ops.filter (fun x => x.id != o.id), loopEnds := [], lowered := t.vc.st.lowered }
        regs := { s.vc.regs with m := m } } }
    ∧ ∀ i, t.getM i = semEnded s o.cl i

/-- No loop waits for operations, and the SET of an operation is in range. -/
def OpFits (s : State) (o : EngOp) : Prop := s.vc.st.loopEnds = [] ∧ SetFits s o.cl

/-- The state with a command replaced in its operation. -/
def State.withCopy (s : State) (id : Nat) (c : CopyOp) : State :=
  { s with vc := { s.vc with st := { s.vc.st with
      ops := s.vc.st.ops.map fun x => if x.id == id then { x with kind := .copy c } else x } } }

/-! ### Meetings and commits -/

/-- Where a stream goes on from the form at which it waits; elsewhere it stays (R35, R222). -/
def pcPast (s : State) (st : StreamId) : Word :=
  match (s.stream st).point, st with
  | none, _ => (s.stream st).pc
  | some _, .s => pcAfter s
  | some _, _ => (s.stream st).pc + st.size

/-- No stream is in a loop, and every SET of a form at which one waits stays in range in any order. -/
def PointsFit (s : State) : Prop :=
  ∀ st, st ≠ .s → (s.stream st).loop = none ∧ ∀ p, (s.stream st).point = some p → p.cl.so = 1 ∨ p.cl.so = 2 →
    3 ≤ (s.getM p.cl.si).toNat ∧ (s.getM p.cl.si).toNat ≤ 0xFFFC

/-- No form at which a stream waits has a SET that counts. -/
def NoSets (s : State) : Prop :=
  ∀ st, st ≠ .s → (s.stream st).loop = none ∧ ∀ p, (s.stream st).point = some p → p.cl.so ≠ 1 ∧ p.cl.so ≠ 2

/-- What the SETs of the forms at which the streams wait add to semaphore i (R193). -/
def pointSum (s : State) (i : BitVec 6) : BitVec 16 :=
  let one (st : StreamId) : BitVec 16 := match (s.stream st).point with
    | some p => if p.cl.si = i then (if p.cl.so = 1 then 1 else if p.cl.so = 2 then 0xFFFF else 0) else 0
    | none => 0
  one .v + one .m + one .c

/-- The streams that wait at a form go on from it, the SETs are applied, and nothing else changes (R35, R193). -/
structure Passed (s t : State) : Prop where
  waited : ∀ st, (s.stream st).point.isSome = true → t.stream st = { s.stream st with
    point := none, pc := pcPast s st, cmdix := (s.stream st).cmdix + 1, wait := waitNone, part := (t.stream st).part }
  halted : ∀ st, (s.stream st).point = none → t.stream st = s.stream st
  sems : ∀ i, t.getM i = s.getM i + pointSum s i
  rest : t = State.withLowered { s with vc := { s.vc with
    sS := t.vc.sS, sV := t.vc.sV, sM := t.vc.sM, sC := t.vc.sC, delay := t.vc.delay, regs := { s.vc.regs with m := t.vc.regs.m } } }
    t.vc.st.lowered

/-- A commit: every stream goes on with CMDIX 0, pending slot configurations become active with the generated lines of the cache dropped,
and the snapshot holds the carried state (R55, R58, R166, R167). -/
structure Committed (s t : State) : Prop where
  streams : ∀ st, t.stream st = { s.stream st with
    pc := pcPast s st, cmdix := 0, point := none, loop := none, part := none, wait := waitNone }
  slots : SlotsActive s t
  sems : ∀ i, t.getM i = s.getM i + pointSum s i
  regs : t.vc.regs = { s.vc.regs with m := t.vc.regs.m }
  storage : t.vc.st = { s.vc.st with
    q := t.vc.st.q, cache := s.vc.st.cache.filter fun l => decide (l.block < 2 ^ 48), reading := [], lowered := t.vc.st.lowered }
  snap : t.vc.snap = ⟨t.vc.regs, t.vc.st.q.map (·.active), t.vc.sS, t.vc.sV, t.vc.sM, t.vc.sC⟩
  ni : t.vc.ni = false
  memory : t.mem = s.mem
  others : t.others = s.others

/-- A commit may be made: the streams meet, no operation is in flight, no handle holds an entry, no line stays locked, and neither a
cutback nor a yield waits for it (R55, R58, R427). -/
def MayCommit (s : State) (k : PointKind → Bool) : Prop :=
  commitReady s k = true ∧ openFifo s = none ∧ moveWaits (flushAll s) = false ∧ s.vc.cutbackDue = false ∧ s.vc.regs.yieldack = false

/-- The vcore in focus is the only one of its node that is not complete; the others have left nothing in their cores' caches. -/
def LastVcore (s : State) : Prop := ∀ v ∈ s.others, v.ofNode s.vc.id.node = true → v.res = .complete ∧ v.st.cache = []

/-! ### Bedrock's requests -/

/-- A request in progress, with no reserved bit set in its header (R369, R370, R470). -/
def Asked (s : State) (cmd pa b : Nat) : Prop :=
  s.dev.bedrock.request = some (pa, b) ∧ pa % 256 = 0 ∧ rqCmd b = cmd ∧ nbits b 32 32 = 0

/-- No error is held for a home block. -/
def CleanBlock (s : State) (b : Nat) : Prop :=
  s.checkMask b = 0 ∧ s.dev.errors.flips.block b = [] ∧ s.dev.errors.l2Flips.block b = []

/-- The request is answered: the response holds the status and two fields, SEQ rises, and nothing else changes in `u`, the state that
the command leaves, but for an interrupt (R369, R389, R514). -/
structure Answered (pa status f1 f2 : Nat) (u t : State) : Prop where
  bedrock : u.encIr (pa % 2 ^ 47) = none → t.dev.bedrock = { u.dev.bedrock with
    status := BitVec.ofNat 16 status, seq := u.dev.bedrock.seq + 1, request := none }
  block : u.mem.wf = true → t.mem.load (pa % 2 ^ 47 + 0x80) 8 = status ∧ t.mem.load (pa % 2 ^ 47 + 0x88) 8 = f1 % 2 ^ 64
    ∧ t.mem.load (pa % 2 ^ 47 + 0x90) 8 = f2 % 2 ^ 64
  memory : ∀ a, (a < pa % 2 ^ 47 + 0x80 ∨ pa % 2 ^ 47 + 0x100 ≤ a) → t.mem.read a = u.mem.read a
  rest : t.vc = u.vc ∧ t.others = u.others ∧ t.dev.sched = u.dev.sched ∧ t.dev.power = u.dev.power
  faults : CleanBlock u (pa % 2 ^ 47 / 256) → t.dev.faults = u.dev.faults

/-- The command is refused with a status and has no effect (R470). -/
def Refuses (s : State) (pa status : Nat) (o : Out) : Prop := Gives o (Answered pa status 0 0 s)

/-- The command completes OK: `u` is the state that it leaves. -/
def Obeys (pa f1 f2 : Nat) (o : Out) (P : State → Prop) : Prop := Gives o fun t => ∃ u, P u ∧ Answered pa 0 f1 f2 u t

/-! ### Words -/

/-- The OP values that a map lists: S words (R173), V words with the zeroing forms (R185, R186, R189), M words and C words (R187 to
R189). -/
def opsS : List Nat :=
  List.range' 0x00 13 ++ List.range' 0x10 4 ++ List.range' 0x18 8 ++ List.range' 0x20 5 ++ List.range' 0x28 3 ++ List.range' 0x30 3
def opsV : List Nat :=
  List.range' 0x00 15 ++ List.range' 0x10 4 ++ List.range' 0x18 7 ++ List.range' 0x20 4 ++ List.range' 0x28 4 ++ List.range' 0x30 7
    ++ List.range' 0x38 5 ++ List.range' 0x40 9 ++ List.range' 0x50 3 ++ List.range' 0x70 15 ++ List.range' 0x81 14
    ++ List.range' 0x90 4 ++ List.range' 0x98 7 ++ List.range' 0xA1 3 ++ List.range' 0xA8 4 ++ [0xB0, 0xB5, 0xB8]
def opsM : List Nat := List.range' 0x00 11 ++ List.range' 0x70 15
def opsC : List Nat := List.range' 0x00 12 ++ List.range' 0x70 15

/-- The FN values that R174, R176, R173 and R179 list under the OPs that FN selects in. -/
def fnListed (op fn : Nat) : Bool :=
  match op with
  | 0x00 => (List.range' 0x00 0x15 ++ List.range' 0x40 8 ++ List.range' 0x50 9).contains fn
  | 0x11 => fn % 8 < 4
  | 0x12 => fn % 8 == 0
  | 0x1F => fn < 4
  | 0x32 => (List.range' 0x00 11 ++ List.range' 0x10 3).contains fn
  | _ => true

/-- The OP of a word, and whether its map lists it with its selector (R432, R433). -/
def Assigned : Code → Prop
  | .s w => (w.extractLsb' 26 6).toNat ∈ opsS ∧ fnListed (w.extractLsb' 26 6).toNat (w.extractLsb' 0 8).toNat = true
  | .v w => (w.extractLsb' 56 8).toNat ∈ opsV
  | .m w => (w.extractLsb' 56 8).toNat ∈ opsM
  | .c w => (w.extractLsb' 56 8).toNat ∈ opsC

/-- The stream of a word and its clauses; an S word has none (R170, R180). -/
def codeStream : Code → StreamId
  | .s _ => .s
  | .v _ => .v
  | .m _ => .m
  | .c _ => .c
def codeClauses : Code → Clauses
  | .s _ => ⟨0, 0, 0, 0⟩
  | .v w => parseClauses w
  | .m w => parseClauses w
  | .c w => parseClauses (w.extractLsb' 0 64)

/-! ### Progress (R60) -/

/-- The turns by which R60's parties move on: those of the streams, of a vcore's meetings and engine operations, and of the scheduler. -/
def Turn.promised : Turn → Bool
  | .stream core _ => decide (core < 256)
  | .event i => match i with
    | .rdvMatch core | .cairnCommit core | .superstepEnd core | .gangBarrier core | .vcoreComplete core
    | .ctxsaveCommit core | .ctxrstMatch core | .latchBankFilled core => decide (core < 256)
    | .copyCommandComplete core _ _ | .cmcastDelivery core _ _ => decide (core < 256)
    | .cfollDelivery core _ | .cremCompletionWord core _ | .bankmodeComplete core _ | .tlbinvComplete core _ => decide (core < 256)
    | .mapperRead slot => decide (slot < 32)
    | .chipletUngate chiplet => decide (chiplet < 8)
    | .binderPlace _ | .tickBoundary | .selection => true
    | _ => false
  | _ => false

/-- A schedule under which every such turn comes again and again: what R60 promises of the device, which the model's own schedule leaves
open (log 2). -/
def FairSchedule : Prop := ∀ x : Turn, x.promised = true → ∀ n, ∃ m, n ≤ m ∧ Config.schedule m = x

/-! ### Invariants -/

/-- Home memory and every vcore's SCRATCH are in canonical form: addresses strictly rising, no byte listed that reads as an
unlisted one does. -/
def Intact (s : State) : Prop := s.mem.wf = true ∧ ∀ v ∈ s.vcores, v.st.scratch.wf = true

end Sys2Proof.Machine
end

