-- ==== Sys2Proof/WellFormed.lean ====
section
/-! DEFINITION. Well-formed instructions: those whose word raises none of the faults that R432 and R433 find in a word's own
fields. Events of the part are well formed. -/

namespace Sys2Proof

/-- No field of the instruction is illegal (R194, R433). -/
abbrev WellFormed (i : Instr) : Prop := Machine.wordFaults i = []

end Sys2Proof
end

