-- ==== Sys2Proof/Certificates/Slice0/Obligations.lean ====
section
/-! DEFINITION. The statements for the provers. Each says which rule of spec/ it formalises; the predicates that they use stand
in Safety.lean. -/

open Sys2Proof Sys2Proof.Machine

/-! ### Scalar integer instructions -/

/-- R201: the sums, the products and LEA write s[d] and nothing else; so do the quotients and remainders, with the results that the rule
gives for a zero divisor and for overflow; the logic operations bit by bit, the shifts as multiplication and division by 2^sh with
sh := s[b][5:0], the two counts, the smaller and the larger of two registers, signed and unsigned, and SEL. -/
def Obligations.IntegerResults : Prop :=
  ((∀ (d a b : BitVec 6) (h : BitVec 3) (s : State),
        Gives (exec (.add d a b) s) (WritesS s · d (s.getS a + s.getS b))
        ∧ Gives (exec (.sub d a b) s) (WritesS s · d (s.getS a - s.getS b))
        ∧ Gives (exec (.mul d a b) s) (WritesS s · d (s.getS a * s.getS b))
        ∧ Gives (exec (.mulh d a b) s)
            (WritesS s · d (((s.getS a).signExtend 128 * (s.getS b).signExtend 128).extractLsb' 64 64))
        ∧ Gives (exec (.mulhN64 d a b) s)
            (WritesS s · d (((s.getS a).setWidth 128 * (s.getS b).setWidth 128).extractLsb' 64 64))
        ∧ Gives (exec (.lea d a b h) s) (WritesS s · d (s.getS a + s.getS b * BitVec.ofNat 64 (2 ^ h.toNat))))
    ∧ (∀ (d a b : BitVec 6) (s : State),
        Gives (exec (.div d a b) s) (WritesS s · d
          (if s.getS b = 0 then 0xFFFFFFFFFFFFFFFF
           else if s.getS a = 0x8000000000000000 ∧ s.getS b = 0xFFFFFFFFFFFFFFFF then 0x8000000000000000
           else BitVec.ofInt 64 ((s.getS a).toInt.tdiv (s.getS b).toInt)))
        ∧ Gives (exec (.divN64 d a b) s) (WritesS s · d
          (if s.getS b = 0 then 0xFFFFFFFFFFFFFFFF else BitVec.ofNat 64 ((s.getS a).toNat / (s.getS b).toNat)))
        ∧ Gives (exec (.rem d a b) s) (WritesS s · d
          (if s.getS b = 0 then s.getS a
           else if s.getS a = 0x8000000000000000 ∧ s.getS b = 0xFFFFFFFFFFFFFFFF then 0
           else BitVec.ofInt 64 ((s.getS a).toInt - (s.getS a).toInt.tdiv (s.getS b).toInt * (s.getS b).toInt)))
        ∧ Gives (exec (.remN64 d a b) s) (WritesS s · d
          (if s.getS b = 0 then s.getS a else BitVec.ofNat 64 ((s.getS a).toNat % (s.getS b).toNat)))))
  ∧ ((∀ (d a b : BitVec 6) (s : State),
        (∃ v, Gives (exec (.and d a b) s) (WritesS s · d v) ∧
          ∀ i, v.getLsbD i = ((s.getS a).getLsbD i && (s.getS b).getLsbD i))
        ∧ (∃ v, Gives (exec (.or d a b) s) (WritesS s · d v) ∧
          ∀ i, v.getLsbD i = ((s.getS a).getLsbD i || (s.getS b).getLsbD i))
        ∧ (∃ v, Gives (exec (.xor d a b) s) (WritesS s · d v) ∧
          ∀ i, v.getLsbD i = ((s.getS a).getLsbD i ^^ (s.getS b).getLsbD i))
        ∧ Gives (exec (.shl d a b) s)
            (WritesS s · d (BitVec.ofNat 64 ((s.getS a).toNat * 2 ^ ((s.getS b).toNat % 64))))
        ∧ Gives (exec (.shr d a b) s)
            (WritesS s · d (BitVec.ofNat 64 ((s.getS a).toNat / 2 ^ ((s.getS b).toNat % 64))))
        ∧ Gives (exec (.sra d a b) s)
            (WritesS s · d (BitVec.ofInt 64 ((s.getS a).toInt / (2 : Int) ^ ((s.getS b).toNat % 64))))
        ∧ (∃ n, n ≤ 64 ∧ Gives (exec (.clz d a) s) (WritesS s · d (BitVec.ofNat 64 n))
          ∧ (∀ i, 64 - n ≤ i → (s.getS a).getLsbD i = false) ∧ (n < 64 → (s.getS a).getLsbD (63 - n) = true))
        ∧ Gives (exec (.popc d a) s)
            (WritesS s · d (BitVec.ofNat 64 ((List.range 64).countP fun i => (s.getS a).getLsbD i))))
    ∧ (∀ (d a b : BitVec 6) (c : BitVec 3) (s : State),
        Gives (exec (.min d a b) s)
          (WritesS s · d (if (s.getS a).toInt ≤ (s.getS b).toInt then s.getS a else s.getS b))
        ∧ Gives (exec (.minN64 d a b) s)
          (WritesS s · d (if (s.getS a).toNat ≤ (s.getS b).toNat then s.getS a else s.getS b))
        ∧ Gives (exec (.max d a b) s)
          (WritesS s · d (if (s.getS b).toInt ≤ (s.getS a).toInt then s.getS a else s.getS b))
        ∧ Gives (exec (.maxN64 d a b) s)
          (WritesS s · d (if (s.getS b).toNat ≤ (s.getS a).toNat then s.getS a else s.getS b))
        ∧ Gives (exec (.sel d a b c) s) (WritesS s · d (if s.getC c = true then s.getS a else s.getS b))))

/-- R202, R203, R205: the immediate forms, the two field forms, LI and LIH. -/
def Obligations.IntegerImmediates : Prop :=
  ∀ (d a n lo w : BitVec 6) (imm : BitVec 14) (k : BitVec 20) (h : BitVec 2) (x : BitVec 16) (s : State),
    Gives (exec (.addi d a imm) s) (WritesS s · d (BitVec.ofInt 64 ((s.getS a).toInt + imm.toInt)))
    ∧ Gives (exec (.andi d a imm) s) (WritesS s · d (s.getS a &&& BitVec.ofNat 64 imm.toNat))
    ∧ Gives (exec (.ori d a imm) s) (WritesS s · d (s.getS a ||| BitVec.ofNat 64 imm.toNat))
    ∧ Gives (exec (.xori d a imm) s) (WritesS s · d (s.getS a ^^^ BitVec.ofNat 64 imm.toNat))
    ∧ Gives (exec (.shli d a n) s) (WritesS s · d (BitVec.ofNat 64 ((s.getS a).toNat * 2 ^ n.toNat)))
    ∧ Gives (exec (.shri d a n) s) (WritesS s · d (BitVec.ofNat 64 ((s.getS a).toNat / 2 ^ n.toNat)))
    ∧ Gives (exec (.srai d a n) s) (WritesS s · d (BitVec.ofInt 64 ((s.getS a).toInt / (2 : Int) ^ n.toNat)))
    ∧ Gives (exec (.bfx d a lo w) s)
        (WritesS s · d (BitVec.ofNat 64 ((s.getS a).toNat / 2 ^ lo.toNat % 2 ^ (w.toNat + 1))))
    ∧ (∃ v, Gives (exec (.bfi d a lo w) s) (WritesS s · d v) ∧
        ∀ i, i < 64 → v.getLsbD i =
          if lo.toNat ≤ i ∧ i < lo.toNat + w.toNat + 1 then (s.getS a).getLsbD (i - lo.toNat) else (s.getS d).getLsbD i)
    ∧ Gives (exec (.li d k) s) (WritesS s · d (BitVec.ofInt 64 k.toInt))
    ∧ (∃ v, Gives (exec (.lih d h x) s) (WritesS s · d v) ∧
        ∀ i, i < 64 → v.getLsbD i = if i / 16 = h.toNat then x.getLsbD (i % 16) else (s.getS d).getLsbD i)

/-- R204: CMP and CMPI write one c register with their condition, int for eq to ge and nat for ltu and geu. -/
def Obligations.IntegerCompare : Prop :=
  ∀ (cond c : BitVec 3) (a b : BitVec 6) (imm : BitVec 14) (s : State),
    Gives (exec (.cmp cond c a b) s)
      (fun t => WritesC s t c (wordCondition cond (s.getS a) (s.getS b)) ∧ SameFlags s t)
    ∧ Gives (exec (.cmpi cond c a imm) s)
      (fun t => WritesC s t c (wordCondition cond (s.getS a) (BitVec.ofInt 64 imm.toInt)) ∧ SameFlags s t)

/-! ### Scalar floating point -/

/-- R208 to R211: FMV copies pattern and stored assay; FMIN and FMAX choose an operand; FSETASY, FASY and FCLASS; FCMP writes one c
register by the table of its rule. None is checked against ASYTH, and only FMIN, FMAX and FCMP set flags. -/
def Obligations.FpMovesAndTests : Prop :=
  (∀ (d a b : BitVec 6) (t : BitVec 2) (s : State),
      (d.toNat < 32 →
        Gives (exec (.fmv d a) s) (fun u => WritesF s u d (s.getF a) ∧ SameFlags s u)
        ∧ Gives (exec (.fsetasy d a) s)
            (fun u => WritesF s u d ⟨(s.getF d).v, BitVec.ofNat 7 (min (s.getS a).toNat 127)⟩ ∧ SameFlags s u)
        ∧ Gives (exec (.fmin d a b t) s) (fun u => ∃ x asy, WritesF s u d (fregOf (ftFmt t) x asy)
            ∧ Chosen (ftFmt t) true (fArg s t a) (fArg s t b) (fPattern s t a) (fPattern s t b) x asy
            ∧ u.vc.sS.fflags = s.vc.sS.fflags ||| fArgFlags s t a ||| fArgFlags s t b ||| nvOf [(fArg s t a).v, (fArg s t b).v]
            ∧ u.vc.sS.asyte = s.vc.sS.asyte)
        ∧ Gives (exec (.fmax d a b t) s) (fun u => ∃ x asy, WritesF s u d (fregOf (ftFmt t) x asy)
            ∧ Chosen (ftFmt t) false (fArg s t a) (fArg s t b) (fPattern s t a) (fPattern s t b) x asy
            ∧ u.vc.sS.fflags = s.vc.sS.fflags ||| fArgFlags s t a ||| fArgFlags s t b ||| nvOf [(fArg s t a).v, (fArg s t b).v]
            ∧ u.vc.sS.asyte = s.vc.sS.asyte))
      ∧ Gives (exec (.fasy d a t) s) (WritesS s · d (BitVec.ofNat 64 (fArg s t a).eff))
      ∧ ∃ k : Nat, Gives (exec (.fclass d a t) s) (WritesS s · d (BitVec.ofNat 64 (2 ^ k))) ∧
          match (fArg s t a).v with
          | .inf true => k = 0
          | .inf false => k = 7
          | .nan true => k = 8
          | .nan false => k = 9
          | .fin n m e st =>
            if m = 0 then k = (if n then 3 else 4)
            else if (Val.fin n m e st).lead < 1 - ((ftFmt t).bias : Int) then k = (if n then 2 else 5)
            else k = (if n then 1 else 6))
  ∧ (∀ (cond c : BitVec 3) (a b : BitVec 6) (t : BitVec 2) (s : State), cond ≠ 7 →
      let x := (fArg s t a).v
      let y := (fArg s t b).v
      Gives (exec (.fcmp cond c a b t) s) (fun u =>
        WritesC s u c
          (if x.isNan || y.isNan then cond = 1 || cond = 6
           else if cond = 0 then eqV x y
           else if cond = 1 then !eqV x y
           else if cond = 2 then ltV x y
           else if cond = 3 then ltV x y || eqV x y
           else if cond = 4 then ltV y x
           else if cond = 5 then ltV y x || eqV x y
           else false)
        ∧ u.vc.sS.fflags = s.vc.sS.fflags ||| fArgFlags s t a ||| fArgFlags s t b
            ||| (if x.isSnan || y.isSnan || ((x.isNan || y.isNan) && 2 ≤ cond.toNat && cond.toNat ≤ 5) then flNV else 0)
        ∧ u.vc.sS.asyte = s.vc.sS.asyte))

/-- R206, R207, R213: the rounding forms read their operands in FT, round the exact result once, write it with the assay of its
class and its flags, and test it against ASYTH. A word whose SR draw is not ready is not among them (R435). -/
def Obligations.FpArithmetic : Prop :=
  ∀ (d a b : BitVec 6) (r : BitVec 3) (t : BitVec 2) (s : State), d.toNat < 32 → drawFault s r s.vc.sS.fctl = [] →
    let f := ftFmt t
    let k := Kept.plain f
    let x := fArg s t a
    let y := fArg s t b
    let z := fArg s t d
    let rnd (e : Val) : Nat × Flags := roundF f r (drawAt s r s.vc.sS.fctl 0) false e
    let ab := fArgFlags s t a ||| fArgFlags s t b
    Gives (exec (.fadd d a b r t) s) (fun u =>
      let e := addV r x.v y.v
      FpDone s u d f (rnd e.1).1 (asyAdd x y e.1 (decodeF f (rnd e.1).1) k) (ab ||| e.2 ||| (rnd e.1).2))
    ∧ Gives (exec (.fsub d a b r t) s) (fun u =>
      let e := addV r x.v y.v.neg
      FpDone s u d f (rnd e.1).1 (asyAdd x y e.1 (decodeF f (rnd e.1).1) k) (ab ||| e.2 ||| (rnd e.1).2))
    ∧ Gives (exec (.fmul d a b r t) s) (fun u =>
      let e := mulV x.v y.v
      FpDone s u d f (rnd e.1).1 (asyMul x y e.1 (decodeF f (rnd e.1).1) k) (ab ||| e.2 ||| (rnd e.1).2))
    ∧ Gives (exec (.fdiv d a b r t) s) (fun u =>
      let e := divV x.v y.v
      FpDone s u d f (rnd e.1).1 (asyMul x y e.1 (decodeF f (rnd e.1).1) k) (ab ||| e.2 ||| (rnd e.1).2))
    ∧ Gives (exec (.fsqrt d a r t) s) (fun u =>
      let e := sqrtV x.v
      FpDone s u d f (rnd e.1).1 (asySqrt x e.1 (decodeF f (rnd e.1).1) k) (fArgFlags s t a ||| e.2 ||| (rnd e.1).2))
    ∧ Gives (exec (.fma d a b r t) s) (fun u =>
      let e := fmaV r x.v y.v z.v
      FpDone s u d f (rnd e.1).1 (asyFma x y z (mulV x.v y.v).1 e.1 (decodeF f (rnd e.1).1) k)
        (ab ||| fArgFlags s t d ||| e.2 ||| (rnd e.1).2))

/-- R212: FCVT by the kinds of its two formats: an integer source is read from the low bits of s[a], an integer destination is
extended to 64 bits; SAT clamps an integer to a narrower format or to the other signedness. -/
def Obligations.FpConvert : Prop :=
  ∀ (d a : BitVec 6) (r : BitVec 3) (dst src : BitVec 5) (sat : Bool) (fd fs : Fmt) (s : State),
    fmtOfCode dst = some fd → fmtOfCode src = some fs → drawFault s r s.vc.sS.fctl = [] →
    let u := drawAt s r s.vc.sS.fctl 0
    let n := decodeI fs (s.getS a).toNat
    let x := (readFt fs (s.getF a)).2.2
    let fa := (readFt fs (s.getF a)).2.1
    (fs.isInt = true → fd.isInt = true →
      let clamps := sat && (decide (fd.width < fs.width) || fd.isSigned != fs.isSigned)
      let m := if clamps then max (intMin fd) (min (intMax fd) n) else n
      Gives (exec (.fcvt d a r dst src sat) s)
        (WritesSF s · d (BitVec.ofInt 64 (decodeI fd (wrapNat fd.width m))) (if m = n then 0 else flSAT)))
    ∧ (fs.isInt = true → fd.isInt = false → d.toNat < 32 →
      let q := roundF fd r u sat (.ofInt n)
      Gives (exec (.fcvt d a r dst src sat) s)
        (FpDone s · d fd q.1 (asyFromInt (decodeF fd q.1) (.plain fd)) q.2))
    ∧ (fs.isInt = false → fd.isInt = true →
      let q := roundI fd r u x.v
      Gives (exec (.fcvt d a r dst src sat) s)
        (WritesSF s · d (BitVec.ofInt 64 (decodeI fd q.1)) (fa ||| q.2)))
    ∧ (fs.isInt = false → fd.isInt = false → d.toNat < 32 →
      let q := roundF fd r u sat x.v
      Gives (exec (.fcvt d a r dst src sat) s)
        (FpDone s · d fd q.1 (asyConvert x (decodeF fd q.1) (.plain fd)) (fa ||| q.2 ||| nvOf [x.v])))

/-! ### Scalar loads, stores, atomics and sync objects -/

/-- R214, R215: LD extends the bytes at va into s[d], LDF widens them into f[d] with the assay of R96 or of the quarry window,
LDA replaces the stored assay of f[d]; memory, SCRATCH and every other register stay. R105 (second part): bytes of one block of home
memory are read from the line that the core data cache holds for the block, re-read where its check value did not match (R473), or else as
they are at the home. R454, R451, R452: a load
within one 64 KiB page of which an address, translation, permission, type, backing, owner or alias check fails raises the fault of the
first such check, with its ADDR and INFO, and has no effect. -/
def Obligations.ScalarLoads : Prop :=
  (∀ (d a : BitVec 6) (sz : BitVec 3) (imm : BitVec 11) (ps : List Piece) (s : State),
      let va := vaOf s a imm
      let none' : Nat → Prop := fun _ => False
      NoAlias s →
      (sz ≠ 7 → Loadable s va (2 ^ (sz.toNat % 4)) ps →
        let v := loaded s va ps
        Gives (exec (.ld d a sz imm) s) (fun t => AccessFrame s t none' none'
          ∧ (∀ r, t.getS r = if r = d ∧ d ≠ 0 then
              (if sz.toNat < 4 then BitVec.ofInt 64 (sgn (8 * 2 ^ (sz.toNat % 4)) v) else BitVec.ofNat 64 v) else s.getS r)
          ∧ t.vc.regs = { s.vc.regs with s := t.vc.regs.s } ∧ SameFlags s t))
      ∧ (sz.toNat < 4 → d.toNat < 32 →
        let f := ftFmt (sz.setWidth 2)
        Loadable s va (f.width / 8) ps →
        let v := loaded s va ps
        Gives (exec (.ldf d a sz imm) s) (fun t => AccessFrame s t none' none'
          ∧ (∀ r : BitVec 6, r.toNat < 32 → t.getF r = if r = d then fregOf f v (ldfAssay s f ps v) else s.getF r)
          ∧ t.vc.regs = { s.vc.regs with f := t.vc.regs.f } ∧ SameFlags s t))
      ∧ (d.toNat < 32 → Loadable s va 1 ps →
        Gives (exec (.lda d a 0 imm) s) (fun t => AccessFrame s t none' none'
          ∧ (∀ r : BitVec 6, r.toNat < 32 →
              t.getF r = if r = d then ⟨(s.getF d).v, BitVec.ofNat 7 (loaded s va ps)⟩ else s.getF r)
          ∧ t.vc.regs = { s.vc.regs with f := t.vc.regs.f } ∧ SameFlags s t)))
  ∧ (∀ (s : State) (pa k : Nat) (pr : BitVec 2) (va : Word) (n : Nat), 0 < n → pa % 256 + n ≤ 256 → pa < 2 ^ 47 →
      (cachedRead s s.devId pa k pr va (n / 256 + 2) n).1 =
        match (recheck s s.devId pa).line (blockOf s.devId pa) with
        | some l => (List.range n).map fun j => byteOf l.data (pa % 256 + j)
        | none => s.mem.bytes pa n)
  ∧ (∀ (d a : BitVec 6) (sz : BitVec 3) (imm : BitVec 11) (s : State) (x : Refused),
      let va := vaOf s a imm
      let refused (i : Instr) (n : Nat) : Prop := va.toNat % 2 ^ 16 + n ≤ 2 ^ 16 → AccessRefused s accLoad va n x →
        Gives (exec i s) (FaultsAt s · .s x.status x.addr x.info)
      (sz ≠ 7 → refused (.ld d a sz imm) (2 ^ (sz.toNat % 4)))
      ∧ (d.toNat < 32 → sz.toNat < 4 → refused (.ldf d a sz imm) ((ftFmt (sz.setWidth 2)).width / 8))
      ∧ (d.toNat < 32 → refused (.lda d a 0 imm) 1))

/-- R214, R215: ST stores the low bytes of s[d], STF the pattern of f[d] narrowed to the type with its flags, STA the stored
assay. Nothing outside the bytes stored changes, and a store that lies in one place is read back. R454, R451, R452: a store within one
64 KiB page of which a check fails raises the fault of the first such check, with its ADDR and INFO, and stores nothing. -/
def Obligations.ScalarStores : Prop :=
  (∀ (d a : BitVec 6) (sz : BitVec 3) (imm : BitVec 11) (ps : List Piece) (s : State),
    let va := vaOf s a imm
    NoAlias s → s.mem.wf = true → s.vc.st.scratch.wf = true →
    (sz.toNat < 4 → Storable s va (2 ^ sz.toNat) ps →
      Gives (exec (.st d a sz imm) s) (fun t => AccessFrame s t (homeIn ps) (scratchIn ps)
        ∧ (∀ p, ps = [(p, 2 ^ sz.toNat)] → StoredAt t p (2 ^ sz.toNat) (s.getS d).toNat)
        ∧ t.vc.regs = s.vc.regs ∧ SameFlags s t))
    ∧ (sz.toNat < 4 →
      let f := ftFmt (sz.setWidth 2)
      let x := narrowF f (s.getF d).v.toNat
      Storable s va (f.width / 8) ps →
      Gives (exec (.stf d a sz imm) s) (fun t => AccessFrame s t (homeIn ps) (scratchIn ps)
        ∧ (∀ p, ps = [(p, f.width / 8)] → StoredAt t p (f.width / 8) x.1)
        ∧ t.vc.regs = s.vc.regs ∧ t.vc.sS.fflags = s.vc.sS.fflags ||| x.2 ∧ t.vc.sS.asyte = s.vc.sS.asyte))
    ∧ (Storable s va 1 ps →
      Gives (exec (.sta d a 0 imm) s) (fun t => AccessFrame s t (homeIn ps) (scratchIn ps)
        ∧ (∀ p, ps = [(p, 1)] → StoredAt t p 1 (s.getF d).asy.toNat)
        ∧ t.vc.regs = s.vc.regs ∧ SameFlags s t)))
  ∧ (∀ (d a : BitVec 6) (sz : BitVec 3) (imm : BitVec 11) (s : State) (x : Refused),
      let va := vaOf s a imm
      let refused (i : Instr) (n : Nat) : Prop := va.toNat % 2 ^ 16 + n ≤ 2 ^ 16 → AccessRefused s accStore va n x →
        Gives (exec i s) (FaultsAt s · .s x.status x.addr x.info)
      (sz.toNat < 4 → refused (.st d a sz imm) (2 ^ sz.toNat) ∧ refused (.stf d a sz imm) ((ftFmt (sz.setWidth 2)).width / 8))
      ∧ refused (.sta d a 0 imm) 1)

/-- R217, R130, R134, R437: an AMO on a naturally aligned location of this device's memory reads it at the home, after the lines
bound to the object are written back if .rel or .acq is given, writes the result of its operation there (bytes that only the device
writes apart, R5), and returns the old value. Misaligned, or acquire or release on what is no 8-byte sync object, it raises
ATOMIC_ALIGN at s[a] before any effect. -/
def Obligations.Atomics : Prop :=
  ∀ (d a b : BitVec 6) (op : BitVec 3) (w u acq rel : Bool) (s : State), op ≠ 7 →
    let va := s.getS a
    let n := if w then 8 else 4
    let aligned := va.toNat % n = 0 ∧ ((acq || rel) = true → w = true ∧ va.toNat % 64 = 0)
    (¬ aligned → exec (.amo d a b op w u acq rel) s = .next (faultBefore s .s (mkFault 0x1010 va)))
    ∧ ∀ pa ipa k pr, aligned → NoAlias s → s.mem.wf = true → atomicPlace s accAtomic va n = .ok (.home pa ipa k pr) →
      let s1 := homeAccess (if rel || acq then releaseActions s va else s) (.home pa ipa k pr)
      pa < 2 ^ 47 → ((rel || acq) = true → someLocked s1 (boundTo s1 va) = false) →
      let old := s1.mem.load pa n
      Gives (exec (.amo d a b op w u acq rel) s) (fun t =>
        SoftStored s1 t pa n (amoResult op u n old ((s.getS b).toNat % 2 ^ (8 * n)) ((s.getS d).toNat % 2 ^ (8 * n)))
        ∧ HomeKept s t (fun x => pa ≤ x ∧ x < pa + n)
        ∧ (∀ r, t.getS r = if r = d ∧ d ≠ 0 then
            (if u || w then BitVec.ofNat 64 old else BitVec.ofInt 64 (sgn 32 old)) else s.getS r)
        ∧ t.vc.regs = { s.vc.regs with s := t.vc.regs.s }
        ∧ t.vc.st = { s.vc.st with cache := t.vc.st.cache, marks := t.vc.st.marks }
        ∧ t.vc.sS.pc = pcAfter s ∧ SameFlags s t ∧ t.vc.ni = true ∧ t.others = s.others)

/-- R128, R130, R134, R218, R437: SACQ writes back the dirty lines bound to its 8-byte object, reads it at the home into s[d] and
then drops every line bound to it; SREL writes back every dirty line bound to it and then writes s[b] to it; an object that is not
64-byte aligned raises ATOMIC_ALIGN. BIND adds its entry unless the table holds it, and fails with BIND_LIMIT where the table is
full; UNBIND removes the equal entry; operands out of range raise BIND_LIMIT with the object as ADDR; neither accesses memory. -/
def Obligations.SyncObjects : Prop :=
  (∀ (d a b : BitVec 6) (s : State),
      let va := s.getS a
      (va.toNat % 64 ≠ 0 → exec (.sacq d a) s = .next (faultBefore s .s (mkFault 0x1010 va))
        ∧ exec (.srel a b) s = .next (faultBefore s .s (mkFault 0x1010 va)))
      ∧ ∀ pa ipa k pr, va.toNat % 64 = 0 → NoAlias s → s.mem.wf = true → pa < 2 ^ 47 →
        (∀ l ∈ s.vc.st.cache, homeRefuses s l.block = false) →
        (atomicPlace s accObjRead va 8 = .ok (.home pa ipa k pr) →
          Gives (exec (.sacq d a) s) (fun t =>
            let s1 := homeAccess (releaseActions s va) (.home pa ipa k pr)
            (∀ r, t.getS r = if r = d ∧ d ≠ 0 then BitVec.ofNat 64 (s1.mem.load pa 8) else s.getS r)
            ∧ t.vc.regs = { s.vc.regs with s := t.vc.regs.s }
            ∧ HomeKept s t (fun _ => False)
            ∧ (∀ l ∈ t.vc.st.cache, boundTo (clearRemote (homeLoad s1 (.home pa ipa k pr) 8).2 .s) va l = false)
            ∧ t.vc.sS.pc = pcAfter s ∧ SameFlags s t ∧ t.vc.ni = true ∧ t.others = s.others))
        ∧ (atomicPlace s accObjWrite va 8 = .ok (.home pa ipa k pr) →
          Gives (exec (.srel a b) s) (fun t =>
            SoftStored (homeAccess (releaseActions s va) (.home pa ipa k pr)) t pa 8 (s.getS b).toNat
            ∧ t.vc.regs = s.vc.regs
            ∧ HomeKept s t (fun x => pa ≤ x ∧ x < pa + 8)
            ∧ (∀ l ∈ t.vc.st.cache, boundTo s va l = true → l.dirty = 0)
            ∧ t.vc.sS.pc = pcAfter s ∧ SameFlags s t ∧ t.vc.ni = true ∧ t.others = s.others)))
  ∧ (∀ (d a b : BitVec 6) (s : State),
      let o := s.getS d
      let e : Binding := ⟨o, s.getS a, s.getS b⟩
      let t0 := s.vc.st.bindings
      let inRange := o.toNat % 64 = 0 ∧ (s.getS a).toNat % 256 = 0 ∧ (s.getS b).toNat % 256 = 0 ∧ 256 ≤ (s.getS b).toNat
        ∧ (s.getS b).toNat ≤ 2 ^ 40
      let limit := mkFault 0x100F o (BitVec.ofNat 32 t0.length)
      (¬ inRange → exec (.bind d a b) s = .next (faultBefore s .s limit) ∧ exec (.unbind d a b) s = .next (faultBefore s .s limit))
      ∧ (inRange → e ∉ t0 → 256 ≤ t0.length → exec (.bind d a b) s = .next (faultBefore s .s limit))
      ∧ (inRange → (e ∈ t0 ∨ t0.length < 256) → Gives (exec (.bind d a b) s) (fun t =>
          t.vc.st.bindings = (if e ∈ t0 then t0 else t0 ++ [e]) ∧ BindFrame s t))
      ∧ (inRange → Gives (exec (.unbind d a b) s) (fun t =>
          (∀ x, x ∈ t.vc.st.bindings ↔ x ∈ t0 ∧ x ≠ e) ∧ BindFrame s t)))

/-! ### Control transfer and semaphores -/

/-- R221: PBT and PBTR write a target. R222, R223, R436: Outside a delay slot BR, CALL and RET read condition and target and go on
to their delay slot; a taken CALL pushes pc + 8 on the shadow stack and writes it to s[lk], spilling the oldest of 64 entries; a
taken RET pops the top that equals its target. In a delay slot each raises DELAY_SLOT. -/
def Obligations.Transfers : Prop :=
  (∀ (bt : BitVec 3) (off : BitVec 23) (a : BitVec 6) (imm : BitVec 14) (s : State),
      Gives (exec (.pbt bt off) s) (WritesB s · bt (s.vc.sS.pc + BitVec.ofInt 64 (4 * off.toInt)))
      ∧ Gives (exec (.pbtr bt a imm) s) (WritesB s · bt (s.getS a + BitVec.ofInt 64 imm.toInt)))
  ∧ (∀ (bt ci : BitVec 3) (cm : BitVec 2) (lk : BitVec 6) (s : State),
      let tgt := s.getB bt
      let ra := s.vc.sS.pc + 8
      let r := s.vc.regs
      (InDelaySlot s →
        Gives (exec (.br bt ci cm) s) (FaultsAt s · .s 0x100C 0 0)
        ∧ Gives (exec (.call bt ci cm lk) s) (FaultsAt s · .s 0x100C 0 0)
        ∧ Gives (exec (.ret bt ci cm) s) (FaultsAt s · .s 0x100C 0 0))
      ∧ (¬ InDelaySlot s →
        Gives (exec (.br bt ci cm) s) (fun t => EntersSlot s t tgt (decides s ci cm) ∧ OnlySlot s t ∧ t.vc.regs = r)
        ∧ (decides s ci cm = false →
          Gives (exec (.call bt ci cm lk) s) (fun t => EntersSlot s t tgt false ∧ OnlySlot s t ∧ t.vc.regs = r)
          ∧ Gives (exec (.ret bt ci cm) s) (fun t => EntersSlot s t tgt false ∧ OnlySlot s t ∧ t.vc.regs = r))
        ∧ (decides s ci cm = true → r.shadow.length < 64 →
          Gives (exec (.call bt ci cm lk) s) (fun t => EntersSlot s t tgt true ∧ OnlySlot s t
            ∧ (∀ i, t.getS i = if i = lk ∧ lk ≠ 0 then ra else s.getS i)
            ∧ t.vc.regs = { r with s := t.vc.regs.s, shadow := ra :: r.shadow }))
        ∧ (∀ e rest, decides s ci cm = true → r.shadow = e :: rest → e = tgt →
          Gives (exec (.ret bt ci cm) s) (fun t => EntersSlot s t tgt true ∧ OnlySlot s t
            ∧ t.vc.regs = { r with shadow := rest }))))

/-- R223, R224, R407: with 64 entries on chip, a taken CALL stores the oldest at SSTK before it pushes; with none on chip and some
spilled, a taken RET whose target equals the entry below SSTK takes it from memory, which is not idempotent. A taken RET whose target
differs from the top entry, or that finds the stack empty, ends in RETURN_MISMATCH before any effect; the record's TGT names the
attempted target, its ADDR the top entry. -/
def Obligations.ShadowStack : Prop :=
  (∀ (bt ci : BitVec 3) (cm : BitVec 2) (lk : BitVec 6) (ps : List Piece) (s : State),
      let tgt := s.getB bt
      let ra := s.vc.sS.pc + 8
      let r := s.vc.regs
      ¬ InDelaySlot s → decides s ci cm = true → NoAlias s → s.mem.wf = true → s.vc.st.scratch.wf = true →
      (r.shadow.length = 64 → spillPlace s r.sstk false = .ok ps →
        Gives (exec (.call bt ci cm lk) s) (fun t => EntersSlot s t tgt true
          ∧ (∀ p, ps = [(p, 8)] → StoredAt t p 8 (r.shadow.getLastD 0).toNat)
          ∧ HomeKept s t (homeIn ps)
          ∧ (∀ i, t.getS i = if i = lk ∧ lk ≠ 0 then ra else s.getS i)
          ∧ t.vc.regs = { r with s := t.vc.regs.s, shadow := ra :: r.shadow.dropLast, sstk := r.sstk + 8, sscnt := r.sscnt + 1 }))
      ∧ (r.shadow = [] → r.sscnt ≠ 0 → spillPlace s (r.sstk - 8) true = .ok ps →
        BitVec.ofNat 64 (natLE (readPieces s (r.sstk - 8) ps).1) = tgt →
        Gives (exec (.ret bt ci cm) s) (fun t => EntersSlot s t tgt true
          ∧ HomeKept s t (fun _ => False)
          ∧ t.vc.regs = { r with sstk := r.sstk - 8, sscnt := r.sscnt - 1 } ∧ t.vc.ni = true)))
  ∧ (∀ (bt ci : BitVec 3) (cm : BitVec 2) (s : State), ¬ InDelaySlot s → decides s ci cm = true →
      (∀ e rest, s.vc.regs.shadow = e :: rest → e ≠ s.getB bt →
        Gives (exec (.ret bt ci cm) s) (fun t => FaultsAt s t .s 0x0003 e 0
          ∧ ∃ r, t.dev.faults.records = s.dev.faults.records ++ [r] ∧ r.bits.extractLsb' 320 64 = s.getB bt))
      ∧ (s.vc.regs.shadow = [] → s.vc.regs.sscnt = 0 →
        Gives (exec (.ret bt ci cm) s) (fun t => FaultsAt s t .s 0x0003 0 1
          ∧ ∃ r, t.dev.faults.records = s.dev.faults.records ++ [r] ∧ r.bits.extractLsb' 320 64 = s.getB bt)))

/-- R222, the rule's example: after a BR, the word of the delay slot runs once, and then the stream goes on at the target that the
BR read or at pc + 8, even where that word rewrites the b register or the condition. -/
def Obligations.DelaySlotRunsOnce : Prop :=
  ∀ (bt ci : BitVec 3) (cm : BitVec 2) (off : BitVec 23) (d a b : BitVec 6) (s t : State), ¬ InDelaySlot s →
    (s.getB bt).toNat % 4 = 0 → exec (.br bt ci cm) s = .next t →
    let onward := if decides s ci cm then s.getB bt else s.vc.sS.pc + 8
    t.vc.sS.pc = s.vc.sS.pc + 4 ∧ InDelaySlot t
    ∧ Gives (exec (.add d a b) t) (fun u => u.vc.sS.pc = onward ∧ u.vc.delay = none)
    ∧ Gives (exec (.pbt bt off) t) (fun u => u.vc.sS.pc = onward ∧ u.vc.delay = none)
    ∧ Gives (exec (.cmp 0 ci a b) t) (fun u => u.vc.sS.pc = onward ∧ u.vc.delay = none)

/-- R225, R226, R438: SEMSET and SEMADD write m[d], or raise SEM_RANGE and leave it where the value lies outside 0 to 0xFFFF;
SEMWAIT waits at its place until m[d] ≥ n and with take subtracts n in the same step. -/
def Obligations.Semaphores : Prop :=
  ∀ (m a : BitVec 6) (imm : BitVec 14) (take : Bool) (s : State),
    let sum : Int := (s.getM m).toNat + (s.getS a).toNat + imm.toInt
    ((s.getS a).toNat ≤ 0xFFFF → Gives (exec (.semset m a) s) (WritesM s · m ((s.getS a).setWidth 16)))
    ∧ (0xFFFF < (s.getS a).toNat → Gives (exec (.semset m a) s) (FaultsAt s · .s 0x100E 0 (m.setWidth 32)))
    ∧ (0 ≤ sum → sum ≤ 0xFFFF → Gives (exec (.semadd m a imm) s) (WritesM s · m (BitVec.ofInt 16 sum)))
    ∧ (sum < 0 ∨ 0xFFFF < sum → Gives (exec (.semadd m a imm) s) (FaultsAt s · .s 0x100E 0 (m.setWidth 32)))
    ∧ (imm.toNat ≤ (s.getM m).toNat → Gives (exec (.semwait m take imm) s)
        (WritesM s · m (if take then BitVec.ofNat 16 ((s.getM m).toNat - imm.toNat) else s.getM m)))
    ∧ ((s.getM m).toNat < imm.toNat → exec (.semwait m take imm) s = .next (s.waitsFor .s 0 m (imm.setWidth 16)))

/-! ### Fences -/

/-- R134, R135, R140, R219, R220: a FENCE that waits for no engine operation and whose write-backs succeed leaves no dirty line
where it orders writes above the core or fetches, no line at all where later reads are ordered above the core, no instruction-cache
block where fetches are ordered, and every pending slot configuration active where configurations come first; IFENCE is
fence rw, i, core. QFENCE drops the generated lines (R167) and no other. Registers, SCRATCH and slab store stay. -/
def Obligations.Fences : Prop :=
  ∀ (p q : BitVec 8) (scope : BitVec 3) (s : State),
    NoAlias s → (∀ l ∈ s.vc.st.cache, homeRefuses s l.block = false) →
    (fenceWaits s p q = false → Gives (exec (.fence p q scope) s) (fun t => FenceFrame s t
        ∧ ((p.getLsbD 1 = true ∧ scope ≠ 0) ∨ q.getLsbD 3 = true → ∀ l ∈ t.vc.st.cache, l.dirty = 0)
        ∧ (q.getLsbD 0 = true → scope ≠ 0 → t.vc.st.cache = [])
        ∧ (q.getLsbD 3 = true → t.vc.st.icache = [])
        ∧ (p.getLsbD 4 = true → q.getLsbD 0 = true ∨ q.getLsbD 2 = true → SlotsActive s t)))
    ∧ (fenceWaits s p q = true → exec (.fence p q scope) s = .next (s.waitsFor .s 5 0 0))
    ∧ Gives (exec .ifence s) (fun t => FenceFrame s t ∧ (∀ l ∈ t.vc.st.cache, l.dirty = 0) ∧ t.vc.st.icache = [])
    ∧ Gives (exec .qfence s) (fun t => FenceFrame s t ∧ t.vc.st.cache = s.vc.st.cache.filter (fun l => decide (l.block < 2 ^ 48)) ∧ SlotsActive s t)

/-! ### System forms -/

/-- R190, R304, R305, R307: RDTIME reads the global timer, HALT halts its stream, YIELDACK records an acknowledgement where a
request is pending, QFENCE activates the pending slots, NOP does nothing: in the S stream, and in V, M and C with their clauses. -/
def Obligations.TimeHaltAck : Prop :=
  ∀ (d : BitVec 6) (w : EngineWord) (e : Engine) (cl : Clauses) (s : State),
    let time := BitVec.ofNat 64 s.dev.time
    let acked : State := s.setRegs { s.vc.regs with yieldack := s.vc.regs.yieldack || s.vc.regs.ystat }
    Gives (exec (.rdtime d) s) (WritesS s · d time)
    ∧ Gives (exec .halt s) (fun t => t = { s with vc := { s.vc with sS := t.vc.sS, delay := t.vc.delay } } ∧
        t.vc.sS = { s.vc.sS with
          halted := true, pc := pcAfter s, cmdix := s.vc.sS.cmdix + 1, wait := waitNone })
    ∧ Gives (exec .yieldack s) (fun t => OnlyRegs s t ∧ t.vc.regs = acked.vc.regs ∧ SameFlags s t)
    ∧ (Waited s cl → Completes (engineStream e) cl s (exec (.nop e cl) s))
    ∧ (Waited s w.w.cl →
      Completes (engineStream w.e) w.w.cl (s.setK (w.w.dst.setWidth 4) time) (exec (.rdtimeE w) s)
      ∧ ((w.e = .m → s.vc.st.chain = none) →
        Completes (engineStream w.e) w.w.cl (s.setStream (engineStream w.e) { s.stream (engineStream w.e) with halted := true }) (exec (.haltE w) s))
      ∧ Completes (engineStream w.e) w.w.cl acked (exec (.yieldackE w) s)
      ∧ ∃ begun, Completes (engineStream w.e) w.w.cl (s.setStore { s.vc.st with
            q := s.vc.st.q.map fun x => ⟨x.pending.getD x.active, none⟩, cache := s.vc.st.cache.filter (fun l => decide (l.block < 2 ^ 48))
            reading := begun })
          (exec (.qfenceE w) s))

/-- R107, R168, R309, R311, R313: what the control registers read, by address and stream, with the cross view and the addresses that are
reserved. PEND compares configurations without the mask bits that R153 lets a kind ignore. -/
def Obligations.ControlRegisterMap : Prop :=
  ∀ (s : State) (st : StreamId) (i : Fin 16),
    let x := s.stream st
    let r := s.vc.regs
    readCsr s st 0x00 = x.fflags.setWidth 64 ∧ readCsr s st 0x01 = x.fctl ∧ readCsr s st 0x02 = x.asyld.setWidth 64
    ∧ readCsr s st 0x03 = x.asyth.setWidth 64 ∧ readCsr s st 0x04 = x.asyte.setWidth 64
    ∧ readCsr s .s 0x05 = r.sstk ∧ readCsr s .s 0x06 = r.sscnt.setWidth 64
    ∧ readCsr s .v 0x08 = r.vwb.setWidth 64 <<< 5
    ∧ readCsr s .v 0x09 = r.pb.setWidth 64 <<< 8 ||| r.rb.setWidth 64
    ∧ readCsr s .m 0x0C = r.mxcOvf.setWidth 64 ∧ readCsr s .m 0x0D = r.mxcNan.setWidth 64
    ∧ readCsr s .m 0x0E = r.mxcSat.setWidth 64
    ∧ (st ≠ .s → readCsr s st 0x05 = 0 ∧ readCsr s st 0x06 = 0) ∧ (st ≠ .v → readCsr s st 0x08 = 0 ∧ readCsr s st 0x0A = 0)
    ∧ (st ≠ .m → readCsr s st 0x0C = 0)
    ∧ readCsr s st 0x10 = (if x.wait.waiting then
        x.wait.pc.setWidth 64 <<< 32 ||| (1 : Word) <<< 31 ||| x.wait.cause.setWidth 64 <<< 28 ||| x.wait.idx.setWidth 64 <<< 16
          ||| x.wait.n.setWidth 64 else 0)
    ∧ readCsr s st 0x20 = s.vc.id.vcid.setWidth 64 ∧ readCsr s st 0x21 = s.vc.id.vcnt.setWidth 64
    ∧ readCsr s st 0x22 = BitVec.ofNat 64 s.coreId ∧ readCsr s st 0x23 = s.vc.id.ctx.setWidth 64
    ∧ readCsr s st 0x24 = BitVec.ofNat 64 s.dev.time ∧ readCsr s st 0x25 = BitVec.ofNat 64 (((s.node? s.vc.id.node).map (·.energy)).getD 0) ∧ readCsr s st 0x26 = s.vc.st.bkmode
    ∧ readCsr s st 0x27 = r.bklock.setWidth 64 ∧ readCsr s st 0x29 = (if r.ystat then 1 else 0)
    ∧ readCsr s st (0x40 + i.val) = r.k.get i ∧ readCsr s st (0x50 + i.val) = (s.vc.st.h.get i).hst
    ∧ readCsr s st 0x80 = r.s1root
    ∧ (readCsr s .v 0x0A).getLsbD i.val = decide ((s.vc.st.q.get i).active.kind ≠ 0)
    ∧ (readCsr s .v 0x0A).getLsbD (16 + i.val) = (match (s.vc.st.q.get i).pending with
        | some c => decide (c.effective ≠ (s.vc.st.q.get i).active.effective)
        | none => false)
    ∧ (∀ j : Fin 8, (readCsr s st 0x28).extractLsb' (2 * j.val) 2 = BitVec.ofNat 2 (s.vc.st.clusters.get j).power.code)
    ∧ (∀ a, a < 0x20 → readCsr s st (0x100 + a) = readCsr s .s a ∧ readCsr s st (0x120 + a) = readCsr s .v a
        ∧ readCsr s st (0x140 + a) = readCsr s .m a ∧ readCsr s st (0x160 + a) = readCsr s .c a)
    ∧ (∀ a, 0x180 ≤ a → readCsr s st a = 0)

/-- R308, R303, R313, R434: RDCSR writes the register's value to its destination; WRCSR changes, of all control registers, the one it
names by its access code, and WSTAT as every word does; a stream that reads its own WSTAT waits no more. S1ROOT needs the privilege flag. -/
def Obligations.ControlRegisterAccess : Prop :=
  ∀ (d a : BitVec 6) (csr : BitVec 12) (w : EngineWord) (s : State),
    let n := csr.toNat
    let v := s.getS a
    let old := readCsr s .s n
    let na := w.w.low12.toNat
    (n ≠ 0x80 ∨ s.vc.id.priv = true →
      Gives (exec (.rdcsr d csr) s) (WritesS s · d old)
      ∧ Gives (exec (.wrcsr a csr) s) (fun t =>
        readCsr t .s n = (if n = 0x00 then old &&& ~~~(v &&& 0x7F)
          else if n = 0x01 then v &&& 0xFFFFFFFF000000F7
          else if n = 0x02 then v &&& 0xFF
          else if n = 0x03 then v &&& 0x7F
          else if n = 0x04 then (old &&& ~~~v &&& 2) ||| (v &&& 1)
          else if n = 0x05 then v &&& ~~~7
          else if n = 0x06 then v &&& 0xFFFFFFFF
          else if n = 0x27 then old &&& ~~~(v &&& 0xFFFFFFFF)
          else if n = 0x80 then v &&& 0xFFFFFFFFFFFFFF
          else if 0x40 ≤ n ∧ n < 0x50 then v
          else if n = 0x10 ∨ n = 0x110 then 0
          else old)
        ∧ (∀ b, b ≠ n → b ≠ 0x100 + n → b ≠ 0x10 → b ≠ 0x110 → readCsr t .s b = readCsr s .s b)
        ∧ t.vc.regs.s = s.vc.regs.s ∧ t.vc.regs.f = s.vc.regs.f ∧ t.vc.regs.c = s.vc.regs.c ∧ t.vc.regs.b = s.vc.regs.b
        ∧ t.vc.regs.m = s.vc.regs.m ∧ t.vc.regs.p = s.vc.regs.p ∧ t.vc.st = s.vc.st ∧ t.mem = s.mem ∧ t.dev = s.dev
        ∧ t.vc.sS.pc = pcAfter s))
    ∧ (na ≠ 0x80 ∨ s.vc.id.priv = true → Waited s w.w.cl →
      Completes (engineStream w.e) w.w.cl (s.setK (w.w.dst.setWidth 4)
          (readCsr (s.setStream (engineStream w.e) { s.stream (engineStream w.e) with wait := waitNone }) (engineStream w.e) na)) (exec (.rdcsrE w) s)
      ∧ Completes (engineStream w.e) w.w.cl (writeCsr s (engineStream w.e) na (s.getK (w.w.sa.setWidth 4))) (exec (.wrcsrE w) s))

/-- R58, R306, R407: TRAP, once no engine operation that its stream has issued is in flight, completes, and its record names it, its
code and the next word; the stream stands there. Until then it waits; the wait's
CAUSE is the model's choice (log 36). -/
def Obligations.TrapForms : Prop :=
  ∀ (code : BitVec 12) (w : EngineWord) (s : State),
    let idle (st : StreamId) : Prop := ∀ o ∈ s.vc.st.ops, o.st ≠ st
    (idle .s →
      Gives (exec (.trap code) s) (fun t => Traps s t .s (pcAfter s) code ∧ t.vc.regs = { s.vc.regs with ystat := t.vc.regs.ystat }))
    ∧ (¬ idle .s → exec (.trap code) s = .next (s.waitsFor .s 5 0 0))
    ∧ (Waited s w.w.cl → ¬ idle (engineStream w.e) → exec (.trapE w) s = .next (s.waitsFor (engineStream w.e) 5 0 0))
    ∧ (Waited s w.w.cl → idle (engineStream w.e) → Plain s (engineStream w.e) → SetFits s w.w.cl →
      Gives (exec (.trapE w) s) (fun t => Traps s t (engineStream w.e) ((s.stream (engineStream w.e)).pc + (engineStream w.e).size) w.w.low12
        ∧ ∀ i, t.getM i = semAfter s w.w.cl i))

/-- R35, R55, R303, R304, R318, R319, R434, R446: CAIRN, RDV, SSTEP, CTXSAVE and CTXRST wait at their place for the other streams; the last
two need the privilege flag, and the M stream's forms but CTXRST need no chain to be open. Without the flag CTXSAVE, CTXRST, a
well-formed TLBINV and an access to S1ROOT raise PRIVILEGED and do nothing else, in every stream. -/
def Obligations.MeetingForms : Prop :=
  (∀ (a : BitVec 6) (w : EngineWord) (s : State),
      let at' (k : PointKind) (o : Out) : Prop := Gives o (WaitsAt .s ⟨0, 0, 0, 0⟩ k s)
      let atE (k : PointKind) (o : Out) : Prop := Gives o (WaitsAt (engineStream w.e) w.w.cl k s)
      at' .cairn (exec .cairn s) ∧ at' .rdv (exec .rdv s) ∧ at' .sstep (exec .sstep s)
      ∧ (s.vc.id.priv = true → at' (.ctxsave (s.getS a)) (exec (.ctxsave a) s) ∧ at' (.ctxrst (s.getS a)) (exec (.ctxrst a) s))
      ∧ (Waited s w.w.cl →
        ((w.e = .m → s.vc.st.chain = none) →
          atE .cairn (exec (.cairnE w) s) ∧ atE .rdv (exec (.rdvE w) s) ∧ atE .sstep (exec (.sstepE w) s)
          ∧ (s.vc.id.priv = true → atE (.ctxsave (s.getK (w.w.sa.setWidth 4))) (exec (.ctxsaveE w) s)))
        ∧ (s.vc.id.priv = true → atE (.ctxrst (s.getK (w.w.sa.setWidth 4))) (exec (.ctxrstE w) s))))
  ∧ (∀ (d a b : BitVec 6) (w : EngineWord) (s : State), s.vc.id.priv = false →
      let no (o : Out) : Prop := Gives o (FaultsAt s · .s 0x1011 0 0)
      let noE (o : Out) : Prop := Gives o (FaultsAt s · (engineStream w.e) 0x1011 0 0)
      let okCtl (x : Word) : Prop := x.toNat % 4 ≠ 3 ∧ operandBad x 0xFFFFFFFF0000FFFC = none
      no (exec (.ctxsave a) s) ∧ no (exec (.ctxrst a) s) ∧ no (exec (.rdcsr d 0x80) s) ∧ no (exec (.wrcsr a 0x80) s)
      ∧ (okCtl (s.getS b) → no (exec (.tlbinv d a b) s))
      ∧ (Waited s w.w.cl → (w.e = .m → s.vc.st.chain = none) →
        noE (exec (.ctxsaveE w) s) ∧ noE (exec (.ctxrstE w) s)
        ∧ (okCtl (s.getK (w.w.sb.setWidth 4)) → noE (exec (.tlbinvE w) s))
        ∧ (w.w.low12 = 0x80 → noE (exec (.rdcsrE w) s) ∧ noE (exec (.wrcsrE w) s))))

/-- R108, R122, R302, R315, R317: a BANKMODE or TLBINV that passes its checks puts one engine operation in flight, which holds its
operand and the semaphore that its completion raises. -/
def Obligations.BankAndTlbOperations : Prop :=
  ∀ (d a b : BitVec 6) (w : EngineWord) (s : State),
    let x := s.getS a
    let kx := s.getK (w.w.sa.setWidth 4)
    let ky := s.getK (w.w.sb.setWidth 4)
    let m := w.w.dst.setWidth 6
    (bankmodeChecks s x = [] → Gives (exec (.bankmode d a) s) (fun t =>
      ∃ s1, InFlight s s1 .s ⟨0, 0, 0, 0⟩ (.bankmode x d) ∧ t = sRetire s1))
    ∧ (tlbinvChecks s (s.getS b) = [] → Gives (exec (.tlbinv d a b) s) (fun t =>
      ∃ s1, InFlight s s1 .s ⟨0, 0, 0, 0⟩ (.tlbinv x (s.getS b) d) ∧ t = sRetire s1))
    ∧ (Waited s w.w.cl → bankmodeChecks s kx = [] →
      ∃ s1, InFlight s s1 (engineStream w.e) w.w.cl (.bankmode kx m) ∧ Issues (engineStream w.e) w.w.cl s1 (exec (.bankmodeE w) s))
    ∧ (Waited s w.w.cl → tlbinvChecks s ky = [] →
      ∃ s1, InFlight s s1 (engineStream w.e) w.w.cl (.tlbinv kx ky m) ∧ Issues (engineStream w.e) w.w.cl s1 (exec (.tlbinvE w) s))

/-- R154, R163, R316, R449: QCFG reads its 64-byte descriptor, and a theta table where the descriptor names one, and stages both in
its slot, KIND OFF as the unconfigured slot (R33, R152); the active configuration stays until a QFENCE; while another device has not
answered, the word waits. A descriptor that is not 64-byte aligned, or that R153 forbids, raises
DESCRIPTOR. -/
def Obligations.SlotStaging : Prop :=
  ∀ (d a : BitVec 6) (n : Fin 16) (w : EngineWord) (s s1 s2 : State) (x y : Nat),
    let va := s.getS a
    let vaE := s.getK (w.w.sa.setWidth 4) + BitVec.ofInt 64 (w.w.imm14.toInt * 64)
    let desc := BitVec.ofNat 512 x
    let themed := nbits x 20 4 = 3
    let tva := BitVec.ofNat 64 (nbits x 64 64)
    let good (t : State) : Prop := QcfgFrame s t ∧ ∃ theta, Stages s t n (if nbits x 20 4 = 0 then ⟨0, 0⟩ else ⟨desc, theta⟩) ∧
      theta = if themed then BitVec.ofNat 8192 y else 0
    let table (st : StreamId) : Prop := themed → loadWaits s1 st tva 1024 = none ∧ loadBytes s1 accRead tva 1024 = .ok (y, s2)
    NoAlias s →
    (d.toNat = n.val → va.toNat % 64 = 0 → loadWaits s .s va 64 = none → loadBytes s accRead va 64 = .ok (x, s1) →
      (∀ bit, slotFault desc = some bit →
        Gives (exec (.qcfg d a) s) (FaultsAt s · .s 0x1012 va (BitVec.ofNat 32 bit)))
      ∧ (slotFault desc = none → table .s → Gives (exec (.qcfg d a) s) good))
    ∧ (d.toNat = n.val → va.toNat % 64 ≠ 0 → Gives (exec (.qcfg d a) s) (FaultsAt s · .s 0x1012 va 0))
    ∧ (d.toNat = n.val → va.toNat % 64 = 0 → ∀ t, loadWaits s .s va 64 = some t → exec (.qcfg d a) s = .next t)
    ∧ (w.w.dst.toNat = n.val → Waited s w.w.cl → vaE.toNat % 64 = 0 → loadWaits s (engineStream w.e) vaE 64 = none →
      loadBytes s accRead vaE 64 = .ok (x, s1) → slotFault desc = none → table (engineStream w.e) → Gives (exec (.qcfgE w) s) good)

/-! ### Vector arithmetic and logic -/

/-- R229 to R232, R235, R236, R69, R76, R92: the lanes of VADD, VSUB, VMUL, VDIV and VFMA. A floating-point lane is the exact result
rounded once, an integer lane wraps or under .sat clamps, an .xa lane settles a chain of its two terms; each with its assay and flags. -/
def Obligations.VectorArithmetic : Prop :=
  ∀ (w : VWord) (s : State),
    let f := vFmt w
    let sat := w.sc.getLsbD 6
    let mode := vMode s
    let two := [(w.sa, f), (w.sb, f)]
    let plain := Kept.plain f
    (VReady s w two f false f.inF →
      VGives w s two (exec (.vadd w) s) (fun xs an => laneRes s w f false true fun j =>
        let x := srcLane xs 0 j
        let y := srcLane xs 1 j
        if f = .xa then chainOf an [x.o.term, y.o.term]
        else if f.isInt then intLane f sat (x.num f + y.num f)
        else floatLane s f sat j (addV mode x.o.v y.o.v) fun r => asyAdd x.o y.o (addV mode x.o.v y.o.v).1 r plain)
      ∧ VGives w s two (exec (.vsub w) s) (fun xs an => laneRes s w f false true fun j =>
        let x := srcLane xs 0 j
        let y := srcLane xs 1 j
        if f = .xa then chainOf an [x.o.term, y.o.negate.term]
        else if f.isInt then intLane f sat (x.num f - y.num f)
        else floatLane s f sat j (addV mode x.o.v y.o.v.neg) fun r => asyAdd x.o y.o (addV mode x.o.v y.o.v.neg).1 r plain)
      ∧ VGives w s two (exec (.vmul w) s) (fun xs _ => laneRes s w f false true fun j =>
        let x := srcLane xs 0 j
        let y := srcLane xs 1 j
        if f.isInt then intLane f sat (x.num f * y.num f)
        else floatLane s f sat j (mulV x.o.v y.o.v) fun r => asyMul x.o y.o (mulV x.o.v y.o.v).1 r plain)
      ∧ VGives w s two (exec (.vdiv w) s) (fun xs _ => laneRes s w f false true fun j =>
        let x := srcLane xs 0 j
        let y := srcLane xs 1 j
        if f.isInt then intLane f false (if y.num f = 0 then -1 else (x.num f).tdiv (y.num f))
        else floatLane s f sat j (divV x.o.v y.o.v) fun r => asyMul x.o y.o (divV x.o.v y.o.v).1 r plain))
    ∧ (VReady s w [(w.sa, f), (w.sb, f), (w.sc, f)] f false true →
      VGives w s [(w.sa, f), (w.sb, f), (w.sc, f)] (exec (.vfma w) s) (fun xs _ => laneRes s w f false true fun j =>
        let x := srcLane xs 0 j
        let y := srcLane xs 1 j
        let z := srcLane xs 2 j
        floatLane s f false j (fmaV mode x.o.v y.o.v z.o.v) fun r =>
          asyFma x.o y.o z.o (mulV x.o.v y.o.v).1 (fmaV mode x.o.v y.o.v z.o.v).1 r plain))

/-- R235, R237, R238: VMIN and VMAX choose, VABS and VNEG change the sign alone and keep the assay, the special functions round the
exact value once. -/
def Obligations.VectorFunctions : Prop :=
  ∀ (w : VWord) (s : State),
    let f := vFmt w
    let one := [(w.sa, f)]
    let two := [(w.sa, f), (w.sb, f)]
    let plain := Kept.plain f
    (VReady s w two f false false →
      VGives w s two (exec (.vmin w) s) (fun xs _ => laneRes s w f false false fun j => chosenLane true f (srcLane xs 0 j) (srcLane xs 1 j))
      ∧ VGives w s two (exec (.vmax w) s)
        (fun xs _ => laneRes s w f false false fun j => chosenLane false f (srcLane xs 0 j) (srcLane xs 1 j)))
    ∧ (VReady s w one f false false → f.isMx = false →
      VGives w s one (exec (.vabs w) s) (fun xs _ => laneRes s w f true false fun j =>
        (signedPattern false f (srcLane xs 0 j), (srcLane xs 0 j).o.stored, 0))
      ∧ VGives w s one (exec (.vneg w) s) (fun xs _ => laneRes s w f true false fun j =>
        (signedPattern true f (srcLane xs 0 j), (srcLane xs 0 j).o.stored, 0)))
    ∧ (VReady s w one f false true →
      VGives w s one (exec (.vsqrt w) s) (fun xs _ => laneRes s w f false true fun j =>
        let x := (srcLane xs 0 j).o
        floatLane s f false j (sqrtV x.v) fun r => asySqrt x (sqrtV x.v).1 r plain)
      ∧ VGives w s one (exec (.vrsqrt w) s) (fun xs _ => laneRes s w f false true fun j =>
        let x := (srcLane xs 0 j).o
        floatLane s f false j (rsqrtV x.v) fun r => asySqrt x (rsqrtV x.v).1 r plain)
      ∧ VGives w s one (exec (.vrcp w) s) (fun xs _ => laneRes s w f false true fun j =>
        let x := (srcLane xs 0 j).o
        floatLane s f false j (rcpV x.v) fun r => asyMul (oneOpnd f) x (rcpV x.v).1 r plain)
      ∧ VGives w s one (exec (.vexp2 w) s) (fun xs _ => laneRes s w f false true fun j =>
        let x := (srcLane xs 0 j).o
        floatLane s f false j (exp2V x.v) fun r => asyExp2 x r plain)
      ∧ VGives w s one (exec (.vlog2 w) s) (fun xs _ => laneRes s w f false true fun j =>
        let x := (srcLane xs 0 j).o
        floatLane s f false j (log2V x.v) fun r => asyLog2 x (log2V x.v).1 r plain))

/-- R242: the logic and shift forms act on lane patterns, a count being taken modulo W. -/
def Obligations.VectorLogic : Prop :=
  ∀ (w : VWord) (s : State),
    let f := vFmt w
    let two := [(w.sa, f), (w.sb, f)]
    let form (o : Out) (op : Nat → Nat → Nat) : Prop :=
      VGives w s two o (fun xs _ => laneRes s w f false false fun j => (op (srcLane xs 0 j).x (srcLane xs 1 j).x, 0, 0))
    (VReady s w two f false false →
      form (exec (.vand w) s) (fun x y => x &&& y) ∧ form (exec (.vor w) s) (fun x y => x ||| y)
      ∧ form (exec (.vxor w) s) (fun x y => x ^^^ y)
      ∧ form (exec (.vshl w) s) (fun x y => x * 2 ^ (y % f.width) % 2 ^ f.width)
      ∧ form (exec (.vshr w) s) (fun x y => x / 2 ^ (y % f.width))
      ∧ form (exec (.vsra w) s) (fun x y => wrapNat f.width (sgn f.width x / (2 : Int) ^ (y % f.width))))
    ∧ (VReady s w [(w.sa, f)] f false false →
      VGives w s [(w.sa, f)] (exec (.vnot w) s)
        (fun xs _ => laneRes s w f false false fun j => (2 ^ f.width - 1 - (srcLane xs 0 j).x, 0, 0)))

/-- R68, R69, R84, R85, R239, R241: VCVT and VSAT convert the lanes that the mapping names; every other lane of the destination
stays. To an MX format (second part) VCVT converts block by block: a block with an active lane takes scale 0xFF with zero elements
where an active value is not finite, scale 0 where all are zero, and else the scale of the largest of them, over which each active
lane is rounded. -/
def Obligations.VectorConvert : Prop :=
  (∀ (w : VWord) (s : State) (fs fd : Fmt),
      let form (part : Nat) (sat : Bool) (o : Out) : Prop :=
        fd.isMx = false → (fs.lanes ≤ fd.lanes → (part + 1) * fs.lanes ≤ fd.lanes) →
        VReady s w [(w.sa, fs)] fd false (fd != .xa && !(fs.isInt && fd.isInt)) →
        ∃ res, VGives w s [(w.sa, fs)] o res ∧ ∀ xs an,
          (res xs an).f = fd ∧ (res xs an).scales = [] ∧ (res xs an).checked = true ∧ (res xs an).carried = false ∧ (res xs an).ints = false
          ∧ ((res xs an).outs.map (·.j)).Pairwise (· < ·)
          ∧ (∀ j, (res xs an).zeroed.testBit j = true ↔
              w.z = true ∧ (s.active w.pred fd.lanes).testBit j = false ∧ ∃ k, Mapped fs.lanes fd.lanes part j k)
          ∧ (∀ y, y ∈ (res xs an).outs ↔ (s.active w.pred fd.lanes).testBit y.j = true ∧ ∃ k, Mapped fs.lanes fd.lanes part y.j k ∧
              let x := srcLane xs 0 k
              let v := if fs.isInt then .ofInt (x.num fs) else x.o.v
              let q := roundLane s fd sat y.j v
              let r := decodeF fd q.1
              (y.x, y.asy, y.fl) =
                if fd = .xa then chainOf an [if fs.isInt then ⟨v, none, true, false⟩ else x.o.term]
                else if fd.isInt then
                  if fs.isInt then intLane fd sat (x.num fs)
                  else
                    let i := roundI fd (vMode s) (drawAt s (vMode s) s.vc.sV.fctl (y.j + fd.lanes * loopIter s .v)) v
                    (i.1, 0, i.2 ||| nvOf [v])
                else (q.1, if fs.isInt then asyFromInt r (.plain fd) else asyConvert x.o r (.plain fd), q.2 ||| nvOf [v]))
      (fmtOfCode (w.sc.extractLsb' 0 5) = some fs → fmtOfCode (w.sb.extractLsb' 0 5) = some fd →
        form w.cvtPart (w.sb.getLsbD 6) (exec (.vcvt w) s))
      ∧ (fmtOfCode (w.sc.extractLsb' 0 5) = some fs → fmtOfCode (typeToCode w.ty) = some fd →
        form w.sb.toNat true (exec (.vsat w) s)))
  ∧ (∀ (w : VWord) (s : State) (fs fd : Fmt),
      fmtOfCode (w.sc.extractLsb' 0 5) = some fs → fmtOfCode (w.sb.extractLsb' 0 5) = some fd → fd.isMx = true →
      (fs.lanes ≤ fd.lanes → (w.cvtPart + 1) * fs.lanes ≤ fd.lanes) → VReady s w [(w.sa, fs)] fd false true →
      ∃ res, VGives w s [(w.sa, fs)] (exec (.vcvt w) s) res ∧ ∀ xs an,
        let r := res xs an
        let on (j : Nat) (x : Lane) : Prop := (s.active w.pred fd.lanes).testBit j = true
          ∧ ∃ k, Mapped fs.lanes fd.lanes w.cvtPart j k ∧ x = srcLane xs 0 k
        let val (x : Lane) : Val := if fs.isInt then .ofInt (x.num fs) else x.o.v
        let assay (x : Lane) (e : Val) (sc : Nat) : Nat :=
          if fs.isInt then asyFromInt e (.mx fd sc) else asyConvert x.o e (.mx fd sc)
        r.f = fd ∧ r.checked = true ∧ r.carried = false ∧ r.ints = false
        ∧ (r.outs.map (·.j)).Pairwise (· < ·) ∧ (r.scales.map (·.1)).Nodup
        ∧ (∀ y ∈ r.outs, ∃ x, on y.j x) ∧ (∀ b sc, (b, sc) ∈ r.scales → ∃ j x, j / 32 = b ∧ on j x)
        ∧ (∀ j x, on j x → ∃ sc, (j / 32, sc) ∈ r.scales ∧ ∃ y ∈ r.outs, y.j = j
            ∧ ((∃ i u, i / 32 = j / 32 ∧ on i u ∧ (val u).isFin = false) →
              sc = 255 ∧ y.x = 0 ∧ y.asy = 0 ∧ y.fl = nvOf [val x] ||| flIf (val x).isInf (flOF ||| flNX))
            ∧ ((∀ i u, i / 32 = j / 32 → on i u → (val u).isZero = true) → sc = 0 ∧ y.x = 0 ∧ y.fl = 0
              ∧ y.asy = assay x (.zero false) 0)
            ∧ (∀ top : Int, (∀ i u, i / 32 = j / 32 → on i u → (val u).isFin = true ∧ ((val u).isZero = true ∨ (val u).lead ≤ top)) →
                (∃ i u, i / 32 = j / 32 ∧ on i u ∧ (val u).isZero = false ∧ (val u).lead = top) →
                let k := max (-127) (min 127 (top - mxEmax fd))
                (sc : Int) = k + 127 ∧ y.asy = assay x (decodeMx fd sc y.x) sc
                ∧ (y.x, y.fl) = mxElemOf fd (vMode s) (drawAt s (vMode s) s.vc.sV.fctl (j + fd.lanes * loopIter s .v)) k (val x))))

/-- R232, R240: VADDW and VMULW on the half of a narrow row that h names; lane j draws at D + j + L × t with L of the narrow type, the
word's TYPE. -/
def Obligations.VectorWiden : Prop :=
  ∀ (w : VWord) (s : State) (fn fd : Fmt), fmtOfCode (typeToCode w.ty) = some fn → fn.wide = some fd →
    let h := if w.sc.getLsbD 0 then fn.lanes / 2 else 0
    let mode := vMode s
    let plain := Kept.plain fd
    (VReady s w [(w.sa, fd), (w.sb, fn)] fd false fd.isFloat →
      VGives w s [(w.sa, fd), (w.sb, fn)] (exec (.vaddw w) s) (fun xs an => laneRes s w fd false true fun j =>
        let x := srcLane xs 0 j
        let y := srcLane xs 1 (h + j)
        if fd = .xa then chainOf an [x.o.term, if fn.isInt then ⟨.ofInt (y.num fn), none, true, false⟩ else y.o.term]
        else if fd.isInt then intLane fd false (x.num fd + y.num fn)
        else floatLaneOf s fn.lanes fd false j (addV mode x.o.v y.o.v) fun r => asyAdd x.o y.o (addV mode x.o.v y.o.v).1 r plain))
    ∧ (VReady s w [(w.sa, fn), (w.sb, fn)] fd false fd.isFloat →
      VGives w s [(w.sa, fn), (w.sb, fn)] (exec (.vmulw w) s) (fun xs an => laneRes s w fd false true fun j =>
        let x := srcLane xs 0 (h + j)
        let y := srcLane xs 1 (h + j)
        if fd = .xa then chainOf an [⟨.ofInt (x.num fn * y.num fn), none, true, false⟩]
        else if fd.isInt then intLane fd false (x.num fn * y.num fn)
        else floatLaneOf s fn.lanes fd false j (mulV x.o.v y.o.v) fun r => asyMul x.o y.o (mulV x.o.v y.o.v).1 r plain))

/-! ### Vector moves, reductions and predicates -/

/-- R227, R244 to R246: VSEL takes each lane from A or B with its stored assay, VROT rotates, VMOV copies lanes with their assays, a
k register into every lane with its cap, or the low bytes of a row into a k register; VSPLAT converts an FP64 value into every lane. How
.xa patterns pass from one anchor to another is the model's reading of R83 (log 26). VMOV between MX rows (second part) moves element bits,
block assays and the scales of the blocks with an active lane (the scales are the model's choice, log 22). -/
def Obligations.VectorMoves : Prop :=
  (∀ (w : VWord) (s : State),
      let f := vFmt w
      let one := [(w.sa, f)]
      let two := [(w.sa, f), (w.sb, f)]
      let take (an : Anchor) (x : Lane) : Nat × Nat × Flags :=
        if f = .xa then ((chainOf an [x.o.term]).1, x.o.stored, (chainOf an [x.o.term]).2.2) else (x.x, x.o.stored, 0)
      (VReady s w two f false false → VGives w s two (exec (.vsel w) s) (fun xs an => laneRes s w f false false fun j =>
        take an (if (s.getP w.sc.toNat).getLsbD j then srcLane xs 0 j else srcLane xs 1 j)))
      ∧ (VReady s w one f false false → VGives w s one (exec (.vrot w) s) (fun xs an => laneRes s w f (w.imm14.toNat % 32 == 0) false fun j =>
        take an (srcLane xs 0 ((j + w.imm14.toNat) % f.lanes))))
      ∧ (VReady s w [] f false (!f.inI && f != .xa) → VGives w s [] (exec (.vsplat w) s) (fun _ an => laneRes s w f false true fun j =>
        let k := s.getK (w.sa.setWidth 4)
        let v := decodeF .f64 k.toNat
        let x := mkOpnd (.plain .f64) v (capOf v (.plain .f64))
        if f.inI then (k.toNat % 2 ^ f.width, 0, 0)
        else if f = .xa then chainOf an [x.term]
        else if f.isInt then
          let q := roundI f (vMode s) (drawAt s (vMode s) s.vc.sV.fctl (j + f.lanes * loopIter s .v)) v
          (q.1, 0, q.2 ||| nvOf [v])
        else floatLane s f false j (v, nvOf [v]) fun r => asyConvert x r (.plain f)))
      ∧ (isKCode w.dst = false → VReady s w one f false false → f.isMx = false →
        VGives w s one (exec (.vmov w) s) (fun xs an => laneRes s w f (isRowCode w.sa || isHndCode w.sa) false fun j =>
          let x := srcLane xs 0 j
          (x.x, if isRowCode w.sa || isHndCode w.sa then x.o.stored else capOf (laneVal f an 0 0 x.x) (laneKept f an 0 0), 0)))
      ∧ (isKCode w.dst = true → Waited s w.cl → (s.vc.st.cluster (clusterOf (s.vRow w.sa.toNat))).power = .powered →
        s.vc.st.marks.rowUe (s.vRow w.sa.toNat) = false →
        let r := readRow s .v (s.vRow w.sa.toNat)
        Completes .v w.cl (r.2.setK (w.dst.setWidth 4) (r.1.data.setWidth 64)) (exec (.vmov w) s)))
  ∧ (∀ (w : VWord) (s : State) (f : Fmt), vFmt w = f → f.isMx = true → isKCode w.dst = false → (isRowCode w.sa || isHndCode w.sa) = true →
      VReady s w [(w.sa, f)] f false false →
      VGives w s [(w.sa, f)] (exec (.vmov w) s) (fun xs _ =>
        { laneRes s w f true false (fun j => ((srcLane xs 0 j).x, (srcLane xs 0 j).o.stored, 0)) with
          scales := ((List.range 32).filter fun b => (List.range 32).any fun i => (s.active w.pred f.lanes).testBit (32 * b + i)).map
            fun b => (b, match xs with
              | .img _ _ r :: _ => mxScale r.data.toNat b
              | _ => 0) }))

/-- R77, R247: VREDADD sums the active lanes into lane 0, which is tested against ASYTH where it is active itself (R99, R232), VSCAN
writes each active lane with the sum of the active lanes up to it, VREDMAX and VREDMIN leave in lane 0 a NaN where every operand is
one, the identity where there is none, and else an operand that no other passes. A sum does not depend on the positions of its
operands (second part). -/
def Obligations.VectorReductions : Prop :=
  (∀ (w : VWord) (s : State),
      let f := vFmt w
      let one := [(w.sa, f)]
      (VReady s w one f false f.inF →
        VGives w s one (exec (.vredadd w) s) (fun xs an => laneZero w f ((s.active w.pred f.lanes).testBit 0) (sumLanes s f an 0 (redOperands s w f xs)))
        ∧ VGives w s one (exec (.vscan w) s) (fun xs an => laneRes s w f false true fun j =>
          sumLanes s f an j ((lanesIn (s.active w.pred f.lanes) (j + 1)).map (srcLane xs 0))))
      ∧ (VReady s w one f false false → ∀ lower : Bool, f = .xa ∨ f.isInt = true ∨ f.inF = true →
        ∃ pick : Anchor → List Lane → Nat × Nat × Flags,
          VGives w s one (exec (if lower then .vredmin w else .vredmax w) s)
            (fun xs an => laneZero w f false (pick an (redOperands s w f xs)))
          ∧ ∀ an ls,
            (ls = [] → pick an ls = (if f = .xa then (if lower then xaPosInf else xaNegInf)
              else if f.isInt then wrapNat f.width (if lower then intMax f else intMin f) else infPat f (!lower), 0, 0))
            ∧ (ls ≠ [] → (∀ x ∈ ls, x.o.v.isNan = true) →
              pick an ls = (if f = .xa then xaNan else canonNan f, 0, nvOf (ls.map fun x => x.o.v)))
            ∧ ((∃ x ∈ ls, x.o.v.isNan = false) → f ≠ .xa → ∃ x ∈ ls, x.o.v.isNan = false ∧ (pick an ls).1 = x.x
              ∧ (∀ y ∈ ls, y.o.v.isNan = false → (if lower then beforeV y.o.v x.o.v else beforeV x.o.v y.o.v) = false)
              ∧ (pick an ls).2.2 = nvOf (ls.map fun x => x.o.v)
              ∧ (pick an ls).2.1 ≤ x.o.stored ∧ ∃ y ∈ ls, (pick an ls).2.1 = y.o.stored)))
  ∧ (∀ (s : State) (f : Fmt) (an : Anchor) (j : Nat) (l l' : List Lane), l.Perm l' → sumLanes s f an j l = sumLanes s f an j l')

/-- R81: the accumulator of a chain is a function of the multiset of its terms; with no term clamped and a sum within ±XMAX the result
is that sum exactly; and the accumulator is the sum of the clamped terms while that stays within ±2^135, as for at most 255 terms. -/
def Obligations.ChainOrder : Prop :=
  ∀ (a : Anchor) (l l' : List Term),
    let clamp (t : Term) : Int := match t.v with
      | .fin n s e st => max (-xmax) (min xmax (termUnits a n s e st).1)
      | _ => 0
    let acc (l : List Term) : ChainAcc := l.foldl (fun c t => c.add a t) chainZero
    let sum (l : List Term) : Int := (l.map clamp).sum
    (l.Perm l' → (acc l).acc = (acc l').acc ∧ chainOf a l = chainOf a l')
    ∧ ((∀ t ∈ l, t.v.isFin = true ∧ ∀ n s e st, t.v = .fin n s e st → clamp t = (termUnits a n s e st).1) →
        -(xmax : Int) ≤ sum l → sum l ≤ xmax → (acc l).settle.1 = wrapNat 128 (sum l) ∧ (acc l).settle.2.1 = .none)
    ∧ (-(2 : Int) ^ 135 ≤ sum l → sum l < (2 : Int) ^ 135 → (acc l).acc.toInt = sum l)
    ∧ (l.length ≤ 255 → (acc l).acc.toInt = sum l)
    ∧ ((∀ t ∈ l, t.v.isFin = true) → l.length ≤ 255 ∨ (-(2 : Int) ^ 135 ≤ sum l ∧ sum l < (2 : Int) ^ 135) →
        (xmax < sum l → (acc l).settle.1 = xmax) ∧ (sum l < -xmax → (acc l).settle.1 = wrapNat 128 (-xmax)))

/-- R175, R211, R243, R252, R254, R255: the forms that write predicates. VCMP by condition, VASYLT by effective assay, PAND, POR and
PNOT over active lanes; PSET sets the first n bits; VANY and VALL write every lane below L with the vote of the active ones. -/
def Obligations.VectorPredicates : Prop :=
  ∀ (w : VWord) (s : State), w.dst.toNat < 16 →
    let f := vFmt w
    let two := [(w.sa, f), (w.sb, f)]
    let cond := w.sc.extractLsb' 0 3
    let a := s.getP w.sa.toNat
    let b := s.getP w.sb.toNat
    let on (j : Nat) : Prop := (s.active w.pred f.lanes).testBit j = true
    let whole (o : Out) (bit : Nat → Bool) : Prop := Gives o fun t => ∃ s2,
      (∀ j < 4096, (s2.getP w.dst.toNat).getLsbD j = bit j) ∧ (∀ i < 16, i ≠ w.dst.toNat → s2.getP i = s.getP i)
      ∧ s2 = { s with vc := { s.vc with regs := { s.vc.regs with p := s2.vc.regs.p } } } ∧ WordEnds .v w.cl s2 t (semAfter s2 w.cl)
    (VReady s w two f true false →
      (cond ≠ 7 → PGives w s two f (exec (.vcmp w) s) (fun xs j =>
        let x := (srcLane xs 0 j).o.v
        let y := (srcLane xs 1 j).o.v
        (if x.isNan || y.isNan then cond = 1 || cond = 6
         else if cond = 0 then eqV x y
         else if cond = 1 then !eqV x y
         else if cond = 2 then ltV x y
         else if cond = 3 then ltV x y || eqV x y
         else if cond = 4 then ltV y x
         else if cond = 5 then ltV y x || eqV x y
         else false,
         if x.isSnan || y.isSnan || ((x.isNan || y.isNan) && 2 ≤ cond.toNat && cond.toNat ≤ 5) then flNV else 0)))
      ∧ PGives w s two f (exec (.vasylt w) s) (fun xs j =>
        (decide ((srcLane xs 0 j).o.eff <
          if isKCode w.sb then (s.getK (w.sb.setWidth 4)).toNat % 128 else min (srcLane xs 1 j).x 127), 0)))
    ∧ (Waited s w.cl →
      PGives w s [] f (exec (.pand w) s) (fun _ j => (a.getLsbD j && b.getLsbD j, 0))
      ∧ PGives w s [] f (exec (.por w) s) (fun _ j => (a.getLsbD j || b.getLsbD j, 0))
      ∧ PGives w s [] f (exec (.pnot w) s) (fun _ j => (!a.getLsbD j, 0))
      ∧ whole (exec (.pset w) s) (fun j => decide (j < w.imm14.toNat))
      ∧ whole (exec (.vany w) s) (fun j => decide (j < f.lanes ∧ ∃ i < f.lanes, on i ∧ a.getLsbD i = true))
      ∧ whole (exec (.vall w) s) (fun j => decide (j < f.lanes ∧ ∀ i < f.lanes, on i → a.getLsbD i = true)))

/-- R90, R97, R252: VASY writes effective assays as integers into an integer row; VASYSET writes the stored assays of active lanes,
of a block that of its first lane, and leaves every value. -/
def Obligations.VectorAssays : Prop :=
  ∀ (w : VWord) (s : State),
    let f := vFmt w
    let one := [(w.sa, f)]
    let row := s.vRow w.dst.toNat
    let xs := (vSources s w one false).1
    VReady s w one f false false →
      VGives w s one (exec (.vasy w) s) (fun xs _ =>
        { laneRes s w f false false (fun j => ((srcLane xs 0 j).o.eff, 0, 0)) with ints := true })
      ∧ (isRowCode w.dst = true → s.vc.st.hazard row = false → f.isInt = false → f ≠ .f64 →
        Gives (exec (.vasyset w) s) fun t => ∃ s2,
          (s2.row row).data = (s.row row).data
          ∧ (f.isBlock = false → ∀ j < f.lanes, laneAssay f (s2.row row).side.toNat j =
              if (s.active w.pred f.lanes).testBit j then min (srcLane xs 0 j).x (2 ^ f.assayBits - 1)
              else laneAssay f (s.row row).side.toNat j)
          ∧ (f.isBlock = true → ∀ b < f.lanes / 32, laneAssay f (s2.row row).side.toNat (32 * b) =
              if (s.active w.pred f.lanes).testBit (32 * b) then min (srcLane xs 0 (32 * b)).x (2 ^ f.assayBits - 1)
              else laneAssay f (s.row row).side.toNat (32 * b))
          ∧ (∀ r, r ≠ row → s2.row r = s.row r) ∧ s2.vc.regs = s.vc.regs ∧ s2.mem = s.mem
          ∧ WordEnds .v w.cl s2 t (semAfter s2 w.cl))

/-! ### Vector memory and control -/

/-- R96, R97, R248 to R250, R253: VLD loads the active lanes of a row from its parts of memory, VLDH an entry, VLDA the plane of assays;
each byte is the one that the core reads at its place, and no other storage changes. An uncorrectable error, a pending remote answer and
an unmapped part are the hypotheses' business. -/
def Obligations.VectorLoads : Prop :=
  ∀ (w : VWord) (s : State) (ps : List Part × List Part) (plane : List Part),
    let f := memFmt w
    let row := s.vRow w.dst.toNat
    let an := (s.rowAnchor row).getD ⟨0, false⟩
    let h := w.dst.toNat - 64
    let n := entryLanes f (s.vc.st.handle h).esz.toNat
    let ok (n : Nat) : Prop := vParts s w accRead f (s.active w.pred n) n = .ok ps ∧ vPartsFault s w f ps = none
      ∧ remotePending s (piecesOfParts ps) = false
    Waited s w.cl → NoAlias s → OneLine s →
    (isHndCode w.dst = false → RowReady s w f → ok f.lanes → Gives (exec (.vld w) s) fun t => ∃ s1 s2 image x y,
      Holds s x ps.1 ∧ Holds s y ps.2 ∧ MemFrame s s1 []
      ∧ LaneImage an (s.row row) image (loadedRes s w f an f.lanes x y ps.1)
      ∧ Written s1 s2 w image 0 ∧ WordEnds .v w.cl s2 t (semAfter s2 w.cl))
    ∧ (isHndCode w.dst = true → (s.vc.st.handle h).bound = true → (s.vc.st.handle h).esz.toNat ≤ 5 →
        (f.isMx = true ∨ f.width = 6 → (s.vc.st.handle h).esz = 5) → (s.vc.st.handle h).free ≠ 0 → ok n →
      Gives (exec (.vldh w) s) fun t => ∃ s1 s2 image x y,
        Holds s x ps.1 ∧ Holds s y ps.2 ∧ MemFrame s s1 []
        ∧ LaneImage ⟨0, false⟩ ⟨0, 0⟩ image { loadedRes s w f ⟨0, false⟩ n x y ps.1 with zeroed := 0 }
        ∧ Written s1 s2 w image 0 ∧ WordEnds .v w.cl s2 t (semAfter s2 w.cl))
    ∧ (isHndCode w.dst = false → RowReady s w f → f.isInt = false →
        rowParts s s.who accRead (memEa s w) 8 [(0, planeBytes f)] = .ok plane → partsFault s (memEa s w) 8 plane = none →
        remotePending s (plane.map Part.piece) = false →
      Gives (exec (.vlda w) s) fun t => ∃ s1 s2 image x,
        Holds s x plane ∧ MemFrame s s1 [] ∧ image.data = (s.row row).data
        ∧ (∀ j < f.lanes, f.isBlock = false → laneAssay f image.side.toNat j = nbits x (assayPlace f j).1 (assayPlace f j).2)
        ∧ (∀ b < f.lanes / 32, f.isBlock = true → laneAssay f image.side.toNat (32 * b) = nbits x (8 * b) 4)
        ∧ Written s1 s2 w image 0 ∧ WordEnds .v w.cl s2 t (semAfter s2 w.cl))

/-- R97, R249, R250, R253: VST stores the bits of the active lanes of a row, VSTH those of a popped entry, VSTA the plane of assays. Nothing
outside the parts changes; where a row of whole bytes lies in one place, the core reads back what was stored. -/
def Obligations.VectorStores : Prop :=
  ∀ (w : VWord) (s : State) (ps : List Part × List Part) (plane : List Part),
    let f := memFmt w
    let row := s.vRow w.dst.toNat
    let h := w.dst.toNat - 64
    let n := entryLanes f (s.vc.st.handle h).esz.toNat
    let readBack (t : State) (l : List Part) (v : Nat) : Prop := ∀ p, l = [p] → StoredAt t p.place p.len (v >>> (8 * p.off))
    let whole (t : State) (v : Nat) : Prop := f.width % 8 = 0 → ps.2 = [] → readBack t ps.1 v
    Waited s w.cl → NoAlias s → s.mem.wf = true → s.vc.st.scratch.wf = true →
    (RowReady s w f → RowIntact s row → vParts s w accWrite f (s.active w.pred f.lanes) f.lanes = .ok ps →
      Gives (exec (.vst w) s) fun t => ∃ s2, MemFrame s s2 (piecesOfParts ps) ∧ whole s2 (readRow s .v row).1.data.toNat
        ∧ WordEnds .v w.cl s2 t (semAfter s2 w.cl))
    ∧ (∀ e s1, (s.vc.st.handle h).bound = true → (s.vc.st.handle h).esz.toNat ≤ 5 →
        (f.isMx = true ∨ f.width = 6 → (s.vc.st.handle h).esz = 5) → popEntry s h = some (e, s1) → entryBad s h = false →
        vParts s w accWrite f (s.active w.pred n) n = .ok ps →
      Gives (exec (.vsth w) s) fun t => ∃ s2, MemFrame s1 s2 (piecesOfParts ps) ∧ whole s2 e.data.toNat
        ∧ WordEnds .v w.cl s2 t (semAfter s2 w.cl))
    ∧ (RowReady s w f → RowIntact s row → rowParts s s.who accWrite (memEa s w) 8 [(0, planeBytes f)] = .ok plane →
      Gives (exec (.vsta w) s) fun t => ∃ s2, MemFrame s s2 (plane.map Part.piece)
        ∧ readBack s2 plane ((readRow s .v row).1.side.toNat &&& sideMask f)
        ∧ WordEnds .v w.cl s2 t (semAfter s2 w.cl))

/-- R142, R251: VGATH loads each active lane from base + index × W/8, VSCAT stores each active lane there in ascending order, so that the
highest lane of an address remains. -/
def Obligations.VectorGather : Prop :=
  ∀ (w : VWord) (s : State) (l : List (Nat × Word × List Piece)),
    let f := vFmt w
    let row := s.vRow w.dst.toNat
    let ir := s.vRow w.sb.toNat
    let act := s.active w.pred f.lanes
    let an := (s.rowAnchor row).getD ⟨0, false⟩
    let idx := (readRow s .v ir).1
    let at' (j : Nat) : Word :=
      s.kCode w.sa + BitVec.ofInt 64 (loopOffset s .v) + BitVec.ofNat 64 (laneBits f idx.data.toNat j % 2 ^ 64 * (f.width / 8))
    let places (acc : Acc) : Prop := gatherPieces s w acc f idx (lanesIn act f.lanes) = .ok l
    Waited s w.cl → NoAlias s → OneLine s → RowReady s w f → RowIntact s ir → isHndCode w.dst = false → f.isMx = false →
    (s.vc.st.cluster (clusterOf ir)).power = .powered →
    (places accRead → remotePending s (l.flatMap fun x => x.2.2) = false → (∀ x ∈ l, dataFault s x.2.1 x.2.2 = none) →
      Gives (exec (.vgath w) s) fun t => ∃ s1 s2 image r, MemFrame s s1 [] ∧ LaneImage an (s.row row) image r
        ∧ r.f = f ∧ r.outs.map (·.j) = lanesIn act f.lanes ∧ r.zeroed = zeroOf w act f.lanes ∧ r.scales = [] ∧ r.ints = false
        ∧ (∀ o ∈ r.outs, ∃ p, (o.j, at' o.j, p) ∈ l ∧ pieces s s.who accRead (at' o.j) (f.width / 8) = .ok p
            ∧ (∀ q, p = [(q, f.width / 8)] → (∃ c, q = .scratch c) ∨ NotStale s →
                ∀ i < f.width / 8, ∀ b, coreByte s q i = some b → nbits o.x (8 * i) 8 = b.toNat)
            ∧ (f.isInt = true → o.asy = 0)
            ∧ (f.isInt = false → (∀ q ∈ p, ∀ a b, q.1 ≠ .quarry a b) →
                o.asy = asyLoad s.vc.sV.asyld (laneVal f an 0 0 o.x) (laneKept f an 0 0)))
        ∧ Written s1 s2 w image 0 ∧ WordEnds .v w.cl s2 t (semAfter s2 w.cl))
    ∧ (places accWrite → RowIntact s row → s.mem.wf = true → s.vc.st.scratch.wf = true →
      Gives (exec (.vscat w) s) fun t => ∃ s2, MemFrame s s2 (l.flatMap fun x => x.2.2)
        ∧ (∀ j p q, (j, at' j, p) ∈ l → p = [(q, f.width / 8)] →
            (∀ i z, (i, at' i, z) ∈ l → j < i → ∀ y ∈ z, Apart q (f.width / 8) y.1 y.2) →
            StoredAt s2 q (f.width / 8) (laneBits f (readRow (readRow s .v ir).2 .v row).1.data.toNat j))
        ∧ WordEnds .v w.cl s2 t (semAfter s2 w.cl))

/-- R106, R250: VADV pops n entries, each as soon as it is filled. While fewer are filled it waits at its place with those popped already
gone; it tests its WAIT and applies its take once, at the start, and its SET once, at the end. -/
def Obligations.EntryAdvance : Prop :=
  ∀ (w : VWord) (s : State),
    let h := w.sa.toNat - 64
    let x := s.vc.st.handle h
    let done := s.vc.sV.part.getD 0
    let left := w.imm14.toNat - done
    let cl : Clauses := if s.vc.sV.part = none then w.cl else ⟨0, 0, w.cl.si, if w.cl.so = 3 then 0 else w.cl.so⟩
    let popped (k : Nat) : State := setHandle s h { x with entries := x.entries.drop k, free := x.free + k }
    h < 16 → x.bound = true → Waited s cl → done ≤ w.imm14.toNat →
    (left ≤ x.fill → Completes .v cl (popped left) (exec (.vadv w) s))
    ∧ (x.fill < left → Gives (exec (.vadv w) s) fun t =>
        t = (popped x.fill).withSems .v { s.vc.sV with
              part := some (done + x.fill)
              wait := if s.vc.sV.point.isSome then s.vc.sV.wait
                else ⟨true, s.vc.sV.pc.setWidth 32, 1, BitVec.ofNat 6 h, BitVec.ofNat 16 (left - x.fill)⟩ } t.vc.regs.m
        ∧ ∀ i, t.getM i = semIssued s cl i)

/-- R182, R256, R258: a taken VBR goes on at its own address plus 8 times its offset, and rotates if that is not forward; an untaken one
goes on at the next word. -/
def Obligations.VectorBranch : Prop :=
  ∀ (w : VWord) (s : State), Waited s w.cl → SetFits s w.cl → s.vc.sV.loop = none →
    let lane0 := (s.getP (w.pred.extractLsb' 0 4).toNat).getLsbD 0
    let taken := w.pred = 0 ∨ lane0 ≠ w.pred.getLsbD 4
    let back := (sx w.off21).toInt ≤ 0
    (taken → Gives (exec (.vbr w) s) fun t =>
      t.vc.sV = { s.vc.sV with pc := s.vc.sV.pc + 8 * sx w.off21, cmdix := s.vc.sV.cmdix + 1, wait := waitNone }
      ∧ t.vc.regs.rb = (if back then s.vc.regs.rb - 1 else s.vc.regs.rb) ∧ t.vc.regs.pb = (if back then s.vc.regs.pb - 1 else s.vc.regs.pb)
      ∧ (∀ i, t.getM i = semAfter s w.cl i)
      ∧ t = State.withLowered { s with vc := { s.vc with
          sV := t.vc.sV, regs := { s.vc.regs with m := t.vc.regs.m, rb := t.vc.regs.rb, pb := t.vc.regs.pb } } } t.vc.st.lowered)
    ∧ (¬ taken → Completes .v w.cl s (exec (.vbr w) s))

/-- R102, R111, R260 to R262, R443: SLABDEF replaces a descriptor: rows new to its range become zero, rows that it keeps have their
assays set to 0 where the type changes. SLABRETYPE sets the type, and assays to 0 unless they stay. Rows in a wake window stay.
SLABPWR (second part) sets the eight row clusters: gated rows are lost, a cluster that returns to POWERED is in its wake window; it
waits (third part) for the operations in flight of its stream, and then its WSTAT says FENCE (log 21). -/
def Obligations.SlabWords : Prop :=
  (∀ (w : VWord) (s : State), w.dst.toNat < 16 → Waited s w.cl →
      let d := w.dst.toNat
      let old := s.getA d
      let x := s.kCode w.sa
      let row0 (a : Word) : Nat := a.toNat % 256
      let inside (a : Word) (r : Nat) : Prop := row0 a ≤ r ∧ r < row0 a + a.toNat / 2 ^ 8 % 512
      let code := vTypeCode (.sc setAll) w
      let stays := slabFmt old = code
        ∨ (w.sb.getLsbD 0 = true ∧ (fmtAt (slabFmt old)).width = (fmtAt code).width ∧ (fmtAt (slabFmt old)).isInt = false)
      let on (r : Nat) : Prop := (s.vc.st.cluster (clusterOf r)).power = .powered
      let free' : Prop := ∀ c, s.vc.st.chain = some c → c.slab.toNat ≠ d
      let frame (t s2 : State) (a : Word) : Prop :=
        s2.vc.regs = { s.vc.regs with a := s2.vc.regs.a } ∧ (∀ i < 16, s2.getA i = if i = d then a else s.getA i)
        ∧ s2.vc.st = { s.vc.st with rows := s2.vc.st.rows, marks := s2.vc.st.marks } ∧ s2.mem = s.mem ∧ WordEnds .v w.cl s2 t (semAfter s2 w.cl)
      (free' → x.toNat < 2 ^ 32 → row0 x + x.toNat / 2 ^ 8 % 512 ≤ 256 → (slabIsXa x = true → (slabAnchor x).l ≤ 127) →
          slabFmt x ≠ 0x0A → (slabFmt x).toNat ≤ 0x17 → (∀ r, inside x r → on r) → Gives (exec (.slabdef w) s) fun t => ∃ s2, frame t s2 x
        ∧ ∀ r < 256, s2.row r =
          if s.vc.st.hazard r then s.row r
          else if inside x r ∧ ¬ inside old r then ⟨0, 0⟩
          else if inside x r ∧ slabFmt x ≠ slabFmt old then ⟨(s.row r).data, 0⟩
          else s.row r)
      ∧ (free' → row0 old + old.toNat / 2 ^ 8 % 512 ≤ 256 → (¬ stays → ∀ r, inside old r → on r) →
        Gives (exec (.slabretype w) s) fun t => ∃ s2, frame t s2 (setField old 17 code)
        ∧ ∀ r < 256, s2.row r =
          if s.vc.st.hazard r then s.row r else if inside old r ∧ ¬ stays then ⟨(s.row r).data, 0⟩ else s.row r))
  ∧ (∀ (w : VWord) (s : State), Waited s w.cl →
      (∀ o ∈ s.vc.st.ops, o.st ≠ .v) → Gives (exec (.slabpwr w) s) fun t => ∃ s2,
        (∀ j < 8, let c := s.vc.st.cluster j
          s2.vc.st.cluster j =
            if w.pwrCode j = 0 then ⟨.powered, decide (c.power ≠ .powered) || c.waking⟩
            else if w.pwrCode j = 1 then ⟨.retained, false⟩ else ⟨.gated, false⟩)
        ∧ (∀ r < 256, s2.row r = if w.pwrCode (r / 32) = 0 ∨ w.pwrCode (r / 32) = 1 then s.row r else ⟨0, 0⟩)
        ∧ s2.vc.regs = s.vc.regs ∧ s2.mem = s.mem
        ∧ s2.vc.st = { s.vc.st with
            rows := s2.vc.st.rows, clusters := s2.vc.st.clusters, marks := s2.vc.st.marks, before := s2.vc.st.before }
        ∧ WordEnds .v w.cl s2 t (semAfter s2 w.cl))
  ∧ (∀ (w : VWord) (s : State), Waited s w.cl → (∃ o ∈ s.vc.st.ops, o.st = .v) → exec (.slabpwr w) s = .next (s.waitsFor .v 5 0 0))

/-- R191, R192, R258, R259, R276, R297: VLOOP, MLOOP and CLOOP hold a body that has no forbidden word and go to its first word with
iteration 0; a nest without a bound ends the word at issue, past the body, with its SET. The words of a body run in order, iteration
after iteration (second part, for a NOP without clauses): the end of an iteration of a VLOOP rotates, and the stream leaves after
the last. -/
def Obligations.Loops : Prop :=
  (∀ (w : VWord) (m : MWord) (c : CWord) (s : State),
      let enters (st : StreamId) (cl : Clauses) (nest len : Nat) (o : Out) : Prop := ∀ body,
        Waited s cl → fetchBody s st len ((s.stream st).pc + st.size) = body → firstForbidden body = none →
        (nestCount (s.nest nest) ≠ 0 → Gives o fun t =>
          t = s.withSems st { s.stream st with
            pc := (s.stream st).pc + st.size, cmdix := (s.stream st).cmdix + 1, wait := waitNone,
            loop := some ⟨body, (s.stream st).pc + st.size, (s.stream st).cmdix, 0, 0, nestCount (s.nest nest), s.nest nest, cl, []⟩ } t.vc.regs.m
          ∧ ∀ i, t.getM i = semIssued s cl i)
        ∧ (nestCount (s.nest nest) = 0 → SetFits s cl → Gives o fun t =>
          t = (s.withSems st { s.stream st with
            pc := (s.stream st).pc + st.size + st.size * BitVec.ofNat 64 len, cmdix := (s.stream st).cmdix + 1, wait := waitNone }
            t.vc.regs.m).withLowered t.vc.st.lowered
          ∧ ∀ i, t.getM i = semAfter s cl i)
      enters .v w.cl w.dst.toNat (w.sb.toNat + 1) (exec (.vloop w) s)
      ∧ enters .m m.cl m.slab.toNat (m.addr.toNat + 1) (exec (.mloop m) s)
      ∧ (nestBusy s c.dop.toNat = false →
        enters .c c.cl c.dop.toNat ((c.aux.extractLsb' 0 5).toNat + 1) (exec (.cloop c) s)))
  ∧ (∀ (e : Engine) (l : LoopState) (s : State),
      let st := engineStream e
      let x := s.stream st
      let rot (t : State) : Prop := if e = .v then t.vc.regs.rb = s.vc.regs.rb - 1 ∧ t.vc.regs.pb = s.vc.regs.pb - 1
        else t.vc.regs.rb = s.vc.regs.rb ∧ t.vc.regs.pb = s.vc.regs.pb
      x.loop = some l → isDelivered s st = false →
      Gives (exec (.nop e ⟨0, 0, 0, 0⟩) s) fun t =>
        (t.stream st).cmdix = x.cmdix + 1 ∧ t.mem = s.mem
        ∧ (l.idx + 1 < l.body.length →
          (t.stream st).pc = x.pc + st.size ∧ (t.stream st).loop = some { l with idx := l.idx + 1 } ∧ t.vc.regs = s.vc.regs)
        ∧ (l.body.length ≤ l.idx + 1 → rot t
          ∧ (l.t + 1 < l.count → (t.stream st).pc = l.start ∧ (t.stream st).loop = some { l with idx := 0, t := l.t + 1 })
          ∧ (l.count ≤ l.t + 1 → (t.stream st).pc = x.pc + st.size ∧ (t.stream st).loop = none)))

/-! ### The M stream and the C stream -/

/-- R191, R263 to R268, R430, R447: MLDB, MLDB.t and MLDBP read 128 columns or rows, or a pattern, from SCRATCH into the bank that
the previous load did not fill, as engine operations; a range outside SCRATCH raises BANK_STATE, a pattern with a reserved bit
ILLEGAL_OPERAND, and the bank is left empty; a bank still filling stalls the stream. -/
def Obligations.MatrixLoads : Prop :=
  ∀ (w : MWord) (s : State), Waited s w.cl →
    let f := mFmt w
    let b := s.vc.st.nextBank
    let cs : Int := 32 * (w.addr.toNat : Int) + loopOffset s .m
    let bank : Latch := if b then s.vc.st.latch1 else s.vc.st.latch0
    let legal : Prop := ∀ i < 128, s.vc.st.scratch.load (cs.toNat + 2 * i) 2 / 2 ^ 7 % 2 ^ 8 = 0
    let refused (o : Out) (status : BitVec 16) (info : BitVec 32) : Prop := Gives o fun t =>
      t.vc.st = { s.vc.st with latch0 := if b then s.vc.st.latch0 else .empty, latch1 := if b then .empty else s.vc.st.latch1 }
      ∧ t.vc.sM = { s.vc.sM with wait := waitNone } ∧ t.mem = s.mem
      ∧ ∃ r : Record, t.dev.faults.records = s.dev.faults.records ++ [r] ∧ r.bits.extractLsb' 0 16 = status
        ∧ r.bits.extractLsb' 384 32 = info
    let form (o : Out) (n : Nat) (own : Prop) (kind : OpKind) : Prop :=
      (bankState s.vc.st cs n = [] → own → (∀ i, bank ≠ .filling i) → ∃ s1 op, Issues .m w.cl s1 o ∧ op.kind = kind ∧ op.cl = w.cl
        ∧ op.st = .m ∧ op.id = s.vc.st.nextId ∧ op.stopped = false
        ∧ s1.vc.st = { s.vc.st with
            ops := s.vc.st.ops ++ [op], nextId := s.vc.st.nextId + 1, nextBank := !b
            latch0 := if b then s.vc.st.latch0 else .filling s.vc.st.nextId
            latch1 := if b then .filling s.vc.st.nextId else s.vc.st.latch1 }
        ∧ s1.vc.regs = s.vc.regs ∧ s1.mem = s.mem ∧ s1.dev = s.dev)
      ∧ (bankState s.vc.st cs n = [] → own → (∃ i, bank = .filling i) → o = .next (s.waitsFor .m 4 0 0))
      ∧ (∀ e l, bankState s.vc.st cs n = e :: l → refused o 0x1013 e.info)
    form (exec (.mldb w) s) (tileBytes f false) True (.mldb (if b then 1 else 0) f false cs.toNat s.vc.sM.asyld)
    ∧ form (exec (.mldbT w) s) (tileBytes f true) True (.mldb (if b then 1 else 0) f true cs.toNat s.vc.sM.asyld)
    ∧ form (exec (.mldbp w) s) 256 legal (.mldbp (if b then 1 else 0) cs.toNat)
    ∧ (bankState s.vc.st cs 256 = [] → scratchFault s cs.toNat 256 = none → ¬ legal → refused (exec (.mldbp w) s) 0x1006 5)

/-- R99, R269 to R272, R277, R447: MCHB opens a chain whose first terms are the elements of its slab; MMA enters the K products of
each gathered row of A and each column of the latched tile; MCHE writes every element settled, counts its event, and closes the
chain; an MMA with no chain open does all three. A latch that holds no tile of the format raises LATCH_STATE. -/
def Obligations.MatrixChains : Prop :=
  ∀ (w : MWord) (s : State), Waited s w.cl →
    let f := mFmt w
    let d := s.getA w.slab.toNat
    let rows := slabRows d
    let xa := slabIsXa d = true ∧ 0 < rows ∧ rows ≤ 128
    let fit := xa ∧ slabRow0 d + rows ≤ 256 ∧ SlabReady s d
    let cs (k : Nat) : Int := 32 * (w.addr.toNat : Int) + loopOffset s .m + (k * aStride f : Nat)
    let prior (i n : Nat) : ChainAcc :=
      let r := slabRow0 d + i
      chainZero.add (slabAnchor d) (laneOf .xa (slabAnchor d) (if s.vc.st.hazard r then ⟨0, 0⟩ else s.row r) n).o.term
    let low (dd : Word) (els : List ChainAcc) : Option (Nat × Nat) :=
      ((List.range els.length).find? fun k =>
        let r := (els.getD k chainZero).result (slabAnchor dd)
        isLow s.vc.sM.asyth (decodeXa (slabAnchor dd).l r.1) r.2.1).map fun k => (k, ((els.getD k chainZero).result (slabAnchor dd)).2.1)
    let settles (dd : Word) (els : List ChainAcc) (s1 : State) (o : Out) : Prop := Gives o fun t => ∃ s2,
      SettledInto dd els s s2 ∧ Counted els s s2 ∧ s2.mem = s.mem
      ∧ s2.vc.st = { s1.vc.st with rows := s2.vc.st.rows, chain := none, marks := s2.vc.st.marks } ∧ CheckedEnd .m w.cl s2 t (low dd els)
    let bank : Latch := if s.vc.st.nextBank then s.vc.st.latch0 else s.vc.st.latch1
    (s.vc.st.chain = none → fit → Gives (exec (.mchb w) s) fun t => ∃ s1 els,
      s1.vc.st = { s.vc.st with chain := some ⟨w.slab, d, els⟩, marks := s1.vc.st.marks } ∧ els.length = 128 * rows
      ∧ (∀ i < rows, ∀ n < 128, element els i n = prior i n)
      ∧ s1.vc.regs = s.vc.regs ∧ s1.mem = s.mem ∧ WordEnds .m w.cl s1 t (semAfter s1 w.cl))
    ∧ (∀ c, s.vc.st.chain = some c → c.slab = w.slab → xa → ChainFits c → SlabReady s c.desc → NoFlips s →
      settles c.desc c.els s (exec (.mche w) s))
    ∧ (∀ tr bytes asyld idx dd, bank = .tile f tr bytes asyld → IxReady s w.ix →
        ixList s w.ix (slabRows dd) = some idx → dd = (match s.vc.st.chain with | some c => c.desc | none => d) →
        0 ≤ cs 0 → cs 0 < coreStoreBytes → (∀ k ∈ idx, bankState s.vc.st (cs k) (aStride f) = [] ∧ scratchFault s (cs k).toNat (aStride f) = none) →
        let entered (els : List ChainAcc) (old : Nat → Nat → ChainAcc) : Prop := els.length = 128 * slabRows dd
          ∧ ∀ i < slabRows dd, ∀ n < 128, element els i n =
            products f (slabAnchor dd) (aRow s f (cs (idx.getD i 0)).toNat) (mColOpnds f tr asyld (natLE bytes) n) (old i n)
        (∀ c, s.vc.st.chain = some c → c.slab = w.slab → xa → ChainFits c → Gives (exec (.mma w) s) fun t => ∃ s1 els,
          entered els (element c.els) ∧ s1.vc.st = { (ixTake s w.ix).vc.st with chain := some { c with els := els }, marks := s1.vc.st.marks }
          ∧ s1.vc.regs = s.vc.regs ∧ s1.mem = s.mem ∧ WordEnds .m w.cl s1 t (semAfter s1 w.cl))
        ∧ (s.vc.st.chain = none → fit → NoFlips s → ∃ els, entered els prior ∧ settles d els (ixTake s w.ix) (exec (.mma w) s)))
    ∧ (s.vc.st.chain = none → fit → IxReady s w.ix → (∀ i, bank ≠ .filling i) → (∀ tr x a, bank ≠ .tile f tr x a) →
        Gives (exec (.mma w) s) (FaultsAt s · .m 0x100A 0 (if s.vc.st.nextBank then 0 else 1)))

/-- R274, R275: MMAP writes window wd of each row of its slab with lanes of window ws of the row that the index names, as the
latched pattern says, all rows read before any is written; MZERO writes zeros with full assays; MANCH replaces anchor and mode. -/
def Obligations.MatrixRows : Prop :=
  ∀ (w : MWord) (s : State), Waited s w.cl →
    let f := mFmt w
    let d := s.getA w.slab.toNat
    let rows := slabRows d
    let fs := fmtAt (slabFmt d)
    let noChain : Prop := ∀ c, s.vc.st.chain = some c → c.slab.toNat ≠ w.slab.toNat
    let ws := (w.addr.extractLsb' 0 3).toNat
    let wd := (w.addr.extractLsb' 3 3).toNat
    let kept (st0 s1 t : State) : Prop := s1.vc.regs = s.vc.regs ∧ s1.mem = s.mem
      ∧ s1.vc.st = { st0.vc.st with rows := s1.vc.st.rows, marks := s1.vc.st.marks } ∧ WordEnds .m w.cl s1 t (semAfter s1 w.cl)
    (∀ es idx, (if s.vc.st.nextBank then s.vc.st.latch0 else s.vc.st.latch1) = .pattern es → es.length = 128 →
        ixList s w.ix rows = some idx → IxReady s w.ix → fs = f → 0 < rows → rows ≤ 128 → slabRow0 d + rows ≤ 256 →
        ws < f.lanes / 128 → wd < f.lanes / 128 → SlabReady s d →
        (∀ k ∈ idx, issuedPower s .m (clusterOf (k % 256)) = .powered ∧ RowIntact s (k % 256)) →
      Gives (exec (.mmap w) s) fun t => ∃ s1, kept (ixTake s w.ix) s1 t
        ∧ (∀ r < 256, slabHas d r = false ∨ s.vc.st.hazard r = true → s1.row r = s.row r)
        ∧ ∀ i < rows, s.vc.st.hazard (slabRow0 d + i) = false →
          let k := idx.getD i 0 % 256
          let src : Row := if s.vc.st.hazard k then ⟨0, 0⟩ else s.row k
          let out (n : Nat) : LaneOut :=
            let e := es.getD n 0
            if e.getLsbD 15 then
              ⟨128 * wd + n, laneBits f src.data.toNat (128 * ws + e.toNat % 128), laneAssay f src.side.toNat (128 * ws + e.toNat % 128), 0⟩
            else ⟨128 * wd + n, 0, 0, 0⟩
          LaneImage ⟨0, false⟩ (s.row (slabRow0 d + i)) (s1.row (slabRow0 d + i))
            ⟨f, (List.range 128).map out, 0, [], true, false, false⟩)
    ∧ (noChain → slabRow0 d + rows ≤ 256 → (∀ r, slabHas d r = true → issuedPower s .m (clusterOf r) = .powered) →
      Gives (exec (.mzero w) s) fun t => ∃ s1, kept s s1 t ∧ ∀ r < 256,
        if slabHas d r = true ∧ s.vc.st.hazard r = false then
          (s1.row r).data = 0
          ∧ (fs.isInt = true → (s1.row r).side = 0)
          ∧ (fs.isInt = false → fs ≠ .f64 → ∀ j < fs.lanes, laneAssay fs (s1.row r).side.toNat j = fs.prec)
        else s1.row r = s.row r)
    ∧ (noChain → slabIsXa d = true → Completes .m w.cl
        (s.setA w.slab.toNat (setField (setField d 22 (w.addr.extractLsb' 0 9)) 31 (w.addr.extractLsb' 9 1))) (exec (.manch w) s))

/-- R281 to R286, R289 to R296, R299, R448: a copy word that passes its checks takes a copy slot: what it reads at issue is held in
its operation, and its SET waits for its completion. With all 16 slots taken, or a CNEST in flight on its nest, it waits. -/
def Obligations.CopyIssue : Prop :=
  ∀ (w : CWord) (s : State), Waited s w.cl →
    let off := BitVec.ofInt 64 (loopOffset s .c)
    let high : Word := (w.imm.extractLsb' 32 32).signExtend 64
    let low : Word := (w.imm.extractLsb' 0 32).signExtend 64
    let d := s.getK (w.dop.setWidth 4)
    let x := s.getK (w.sop.setWidth 4)
    let free' : Prop := slotsUsed s < 16 ∧ (w.nested = true → nestBusy s (cNestNo w) = false)
    let holds (c : CopyOp) (i : Instr) (db sb : Word) : Prop :=
      c.i = i ∧ c.dbase = db ∧ c.sbase = sb ∧ c.nest = s.nest (cNestNo w) ∧ c.asyld = s.vc.sC.asyld ∧ c.done = 0 ∧ c.val = x
      ∧ c.cmp = s.getK ((w.sop + 1).setWidth 4) ∧ c.count = copyCount i (s.nest (cNestNo w)) ∧ c.tailDone = false
    let form (i : Instr) (db sb : Word) : Prop := (free' → copyChecks s i (copyOf s i) = [] →
        ∃ s1 c, InFlight s s1 .c w.cl (.copy c) ∧ Issues .c w.cl s1 (exec i s) ∧ holds c i db sb ∧ c.index = 0)
      ∧ ((w.nested = true ∧ nestBusy s (cNestNo w) = true) ∨ 16 ≤ slotsUsed s → exec i s = .next (s.waitsFor .c 4 0 0))
    let indexed (i : Instr) : Prop := ∀ r, free' → copyChecks s i (copyOf s i) = [] → isRowCode (cIx w) = true ∨ isHndCode (cIx w) = true →
      ixRow s (cIx w) = some r → (isHndCode (cIx w) = true → popsBefore s s.vc.st.nextId (hndOf (cIx w)) = false) →
        ∃ s0 s1 c, (isRowCode (cIx w) = true → s0 = (readRow s .c (s.vRow (cIx w).toNat)).2)
          ∧ (isHndCode (cIx w) = true → ∃ e, popEntry s (hndOf (cIx w)) = some (e, s0)) ∧ InFlight s0 s1 .c w.cl (.copy c) ∧ Issues .c w.cl s1 (exec i s)
          ∧ holds c i (d + high + off) (x + low + off) ∧ c.index = r.data
    form (.ccopy w) (d + high + off) (x + low + off) ∧ form (.cmcast w) (d + high + off) (x + low + off)
    ∧ form (.ctrans w) (d + high + off) (x + low + off) ∧ form (.cfill w) (d + off) 0
    ∧ form (.cfoll w) (d + off) (x + off + 64 * (w.aux.extractLsb' 0 10).setWidth 64) ∧ form (.crem w) (d + off) (x + off)
    ∧ form (.catom w) (d + high + off) 0 ∧ indexed (.cgath w) ∧ indexed (.cscat w)
    ∧ (∀ ps, slotsUsed s < 16 → nestBusy s w.dop.toNat = false → (x + w.imm).toNat % 64 = 0 →
        pieces s s.who accCopyRead (x + w.imm) 64 = .ok ps → remotePending s ps = false → dataFault s (x + w.imm) ps = none →
        let n := BitVec.ofNat 512 (natLE (ps.flatMap (readPieceE s)))
        nestBad n = none → ∃ s0 s1 c, s0 = clearRemote s .c ∧ InFlight s0 s1 .c w.cl (.copy c) ∧ Issues .c w.cl s1 (exec (.cnest w) s)
          ∧ c.i = .cnest w ∧ c.nest = n ∧ c.done = 0)

/-- R283, R290, R299: a CFILL of whole bytes into a run of SCRATCH of its core writes its pattern into each of its elements, and
nothing else; then it leaves its slot and its SET is applied. -/
def Obligations.CopyFill : Prop :=
  ∀ (core id upTo csa : Nat) (s s0 : State) (o : EngOp) (w : CWord) (c : CopyOp),
    let f := cFmt w
    let n := f.width / 8
    let x := if f = .xa then (w.imm.signExtend 128).toNat else w.imm.toNat % 2 ^ f.width
    s.focusCore core = some s0 → copyAt s0 id = some (o, c) → c.i = .cfill w → isHndCode w.dop = false → w.nested = false →
    c.done = 0 → c.count ≤ upTo → f.width % 8 = 0 → f.isMx = false → s0.vc.st.scratch.wf = true →
    c.dbase.toNat = windowBase + csa → csa + c.count * n ≤ coreStoreBytes →
    (∀ b, csa / bankBytes ≤ b → b ≤ (csa + c.count * n - 1) / bankBytes → s0.vc.st.scratchOk b = true) →
    (∀ t < c.count, (csa + t * n) % bankBytes + n ≤ bankBytes) →
    Gives (exec (.copyCommandComplete core id upTo) s) fun t =>
      (∀ k < c.count, t.vc.st.scratch.bytes (csa + k * n) n = bytesLE n x)
      ∧ (∀ a, a < csa ∨ csa + c.count * n ≤ a → t.vc.st.scratch.read a = s0.vc.st.scratch.read a)
      ∧ t.mem = s0.mem ∧ (∀ q ∈ t.vc.st.ops, q.id ≠ o.id) ∧ t.vc.st.rows = s0.vc.st.rows ∧ t.vc.regs.s = s0.vc.regs.s
      ∧ (o.cl.so = 1 → s0.getM o.cl.si ≠ 0xFFFF → s0.vc.st.loopEnds = [] → t.getM o.cl.si = s0.getM o.cl.si + 1)


/-! ### Events of the engines -/

/-- R111, R122, R267, R293 to R295, R315, R317, R443: a latch-bank load takes its bytes and its SET; a delivery of CMCAST signals
its core; CFOLL's word enters the follow-on queue; CREM's completion word is incremented at its home after the release actions on it
(R134); a bank change and a TLB invalidation of the core's partition take effect and signal their semaphores; a wake window ends. -/
def Obligations.EngineEvents : Prop :=
  ∀ (core : Nat) (s s0 : State), s.focusCore core = some s0 →
    (∀ o b f tr cs a, firstLoad s0 = some o → o.kind = .mldb b f tr cs a → scratchFault s0 cs (tileBytes f tr) = none → OpFits s0 o →
      let l : Latch := .tile f tr (s0.vc.st.scratch.bytes cs (tileBytes f tr)) a
      let u := correctScratch s0 cs (tileBytes f tr)
      Gives (exec (.latchBankFilled core) s) (OpEnded
        { u with vc := { u.vc with st := { u.vc.st with
            latch0 := if b = 1 then s0.vc.st.latch0 else l, latch1 := if b = 1 then l else s0.vc.st.latch1 } } } o))
    ∧ (∀ o b cs, firstLoad s0 = some o → o.kind = .mldbp b cs → scratchFault s0 cs 256 = none → OpFits s0 o →
      let es := (List.range 128).map fun i => BitVec.ofNat 16 (s0.vc.st.scratch.load (cs + 2 * i) 2)
      let u := correctScratch s0 cs 256
      (∀ e ∈ es, e.extractLsb' 7 8 = 0) →
      Gives (exec (.latchBankFilled core) s) (OpEnded
        { u with vc := { u.vc with st := { u.vc.st with
            latch0 := if b = 1 then s0.vc.st.latch0 else .pattern es, latch1 := if b = 1 then .pattern es else s0.vc.st.latch1 } } } o))
    ∧ (∀ id o c w target, copyAt s0 id = some (o, c) → c.i = .cmcast w → c.count ≤ c.done → target < 8 → (cMask w).getLsbD target = true →
        target ∉ c.delivered →
      let n := core / 8 * 8 + target
      let signal (u : Vcore) : Regs :=
        if u.onCore n then { u.regs with m := u.regs.m.set (cSem w).toFin (u.regs.m.get (cSem w).toFin + 1) } else u.regs
      (s0.vcores.countP (fun u => u.onCore n) ≤ 1) → (∀ u ∈ s0.vcores, u.onCore n = true → u.regs.m.get (cSem w).toFin ≠ 0xFFFF) →
      Gives (exec (.cmcastDelivery core id target) s) fun t =>
        t.vc.st = (s0.withCopy o.id { c with delivered := c.delivered ++ [target] }).vc.st ∧ t.vcores.map (·.regs) = s0.vcores.map signal
        ∧ t.vc.ni = true ∧ t.mem = s0.mem ∧ t.dev = s0.dev)
    ∧ (∀ id o c w, copyAt s0 id = some (o, c) → c.i = .cfoll w → c.count ≤ c.done → c.tailDone = false → s0.vc.st.follow.length < 8 →
      exec (.cfollDelivery core id) s = .next (({ s0 with vc := { s0.vc with st := { s0.vc.st with
        follow := s0.vc.st.follow ++ [⟨w.imm, o.pc⟩] } } } : State).withCopy o.id { c with tailDone := true }))
    ∧ (∀ id o c w pa ipa k pr, copyAt s0 id = some (o, c) → c.i = .crem w → c.count ≤ c.done → c.tailDone = false → NoAlias s0 →
        s0.mem.wf = true → pa < 2 ^ 47 → atomicPlace s0 ⟨true, true, false, true, false, true, false⟩ w.imm 8 = .ok (.home pa ipa k pr) →
        (∀ l ∈ s0.vc.st.cache, homeRefuses s0 l.block = false) →
      let s1 := homeAccess (releaseActions s0 w.imm) (.home pa ipa k pr)
      Gives (exec (.cremCompletionWord core id) s) fun t =>
        SoftStored s1 t pa 8 ((s1.mem.load pa 8 + 1) % 2 ^ 64) ∧ (∀ l ∈ t.vc.st.cache, boundTo s0 w.imm l = true → l.dirty = 0)
        ∧ HomeKept s0 t (fun x => pa ≤ x ∧ x < pa + 8) ∧ t.vc.regs = s0.vc.regs ∧ t.vc.ni = true
        ∧ t.vc.st.ops = (s0.withCopy o.id { c with tailDone := true }).vc.st.ops ∧ t.others = s0.others)
    ∧ (∀ o x m, firstBankmode s0 = some o → o.kind = .bankmode x m → s0.vc.st.bankMode (bmBank x) ≠ 1 → s0.getM m ≠ 0xFFFF →
        (∀ l ∈ s0.vc.st.cache, l.way ≠ bmBank x) → OpFits (s0.setM m (s0.getM m + 1)) o →
      Gives (exec (.bankmodeComplete core o.id) s) fun t =>
        t.vc.st.bkmode = setNat s0.vc.st.bkmode (2 * bmBank x) 2 (bmMode x)
        ∧ (bmMode x = 3 → (s0.vc.st.handle (bmHandle x)).bound = false → t.vc.st.handle (bmHandle x) =
            ⟨true, BitVec.ofNat 5 (bmBank x), BitVec.ofNat 3 (bmEsz x), [], bankBytes / entryBytes (bmEsz x)⟩)
        ∧ (∀ a, t.vc.st.scratch.read a =
            if (s0.vc.st.bankMode (bmBank x) = 2 ∨ bmMode x = 2) ∧ bmBank x * bankBytes ≤ a ∧ a < bmBank x * bankBytes + bankBytes then 0
            else s0.vc.st.scratch.read a)
        ∧ (∀ i, t.getM i = semEnded (s0.setM m (s0.getM m + 1)) o.cl i) ∧ (∀ q ∈ t.vc.st.ops, q.id ≠ o.id)
        ∧ t.vc.st.rows = s0.vc.st.rows ∧ t.vc.st.cache = s0.vc.st.cache ∧ t.mem = s0.mem)
    ∧ (∀ o va ctl m, s0.op? o.id = some o → o.kind = .tlbinv va ctl m → s0.getM m ≠ 0xFFFF → OpFits (s0.setM m (s0.getM m + 1)) o →
      Gives (exec (.tlbinvComplete core o.id) s) (OpEnded
        { s0.setM m (s0.getM m + 1) with
            dev := { s0.dev with tlb := s0.dev.tlb.filter fun e => !(tlbReached s0 e && tlbMatches s0.vc.id.world va ctl e) } } o))
    ∧ (∀ n : Fin 8, exec (.slabWakeWindowEnd core n.val) s = .next { s0 with vc := { s0.vc with st := { s0.vc.st with
        clusters := s0.vc.st.clusters.set n.val { s0.vc.st.clusters.get n with waking := false } } } })

/-! ### Events of vcores -/

/-- R35, R38, R42, R45, R55, R318, R319, R427: where the streams meet at RDV they all go on; a commit takes the snapshot, and with
an entry in a handle it raises FIFO_AT_COMMIT; the end of a superstep and the barrier of a gang commit, the barrier with the
instruction cache emptied (R140); CTXSAVE writes the image, and CTXRST replaces the state by one. Where the streams do not meet
nothing happens. What CTXRST does with dirty lines, and what keeps an image from being used beyond its header, are the model's (logs
35, 36). -/
def Obligations.MeetingEvents : Prop :=
  ∀ (core : Nat) (s s0 : State), s.focusCore core = some s0 → NoAlias s0 →
    (meets s0 (· == .rdv) = true → PointsFit s0 → Gives (exec (.rdvMatch core) s) (Passed s0))
    ∧ (meets s0 (· == .rdv) = false → exec (.rdvMatch core) s = .next s0)
    ∧ (MayCommit s0 (· == .cairn) → PointsFit s0 → Gives (exec (.cairnCommit core) s) (Committed s0))
    ∧ (commitReady s0 (· == .cairn) = false → exec (.cairnCommit core) s = .next s0)
    ∧ (∀ n h, commitReady s0 (· == .cairn) = true → openFifo s0 = some (n, h) →
      Gives (exec (.cairnCommit core) s) (FaultsAt s0 · .s 0x0004 0 (BitVec.ofNat 32 (h.fill % 2048 * 2 ^ 16 + n))))
    ∧ (s0.vc.id.gang = false → s0.vc.ended = false → MayCommit s0 (· == .sstep) →
        (∃ v ∈ s0.others, v.ofNode s0.vc.id.node = true ∧ v.live = true ∧ v.ended = false) →
        s0.others.any (waitingVcore s0.vc.id.node) = false →
      exec (.superstepEnd core) s = .next { flushAll s0 with vc := { (flushAll s0).vc with ended := true } })
    ∧ (s0.vc.id.gang = false → s0.vc.ended = false → MayCommit s0 (· == .sstep) → NoSets s0 → LastVcore s0 →
      Gives (exec (.superstepEnd core) s) fun t =>
        t.vc.superstep = s0.vc.superstep + 1 ∧ t.vc.ended = false ∧ t.vc.ni = false
        ∧ (∀ st, t.stream st = { s0.stream st with
            pc := pcPast s0 st, cmdix := 0, point := none, loop := none, part := none, wait := waitNone })
        ∧ t.vc.regs = { s0.vc.regs with m := .replicate 64 0, a := .replicate 16 0, n := .replicate 8 0, bklock := 0 }
        ∧ t.vc.st.rows = .replicate 256 ⟨0, 0⟩ ∧ t.vc.st.scratch = [] ∧ t.vc.st.bindings = s0.vc.st.bindings ∧ t.vc.st.bkmode = s0.vc.id.bankCfg
        ∧ (∀ i : Fin 16, t.slot i = ⟨(s0.slot i).pending.getD (s0.slot i).active, none⟩)
        ∧ t.vc.snap = ⟨t.vc.regs, t.vc.st.q.map (·.active), t.vc.sS, t.vc.sV, t.vc.sM, t.vc.sC⟩)
    ∧ (s0.vc.id.gang = true → MayCommit s0 (· == .sstep) → PointsFit s0 → LastVcore s0 →
      let u := flushAll s0
      Gives (exec (.gangBarrier core) s) (Committed { u with vc := { u.vc with st := { u.vc.st with icache := [] } } }))
    ∧ (∀ a ps, MayCommit s0 isSave → PointsFit s0 → saveAddr s0 = .ok a →
        pieces (flushAll s0) (flushAll s0).who accWrite a imageSize = .ok ps →
      ∃ s1, Committed (flushAll s0) s1 ∧ exec (.ctxsaveCommit core) s = .next (writeImage s1 (imageOf s1.vc) (badBlocks s1.vc) 0 ps))
    ∧ (∀ a ps, commitReady s0 isRestore = true → NoSets s0 → saveAddr s0 = .ok a → moveWaits (flushAll s0) = false →
        pieces (flushAll s0) (flushAll s0).who accRead a imageSize = .ok ps → homePiecesFault (flushAll s0) a ps = none →
        imageBad (readImage (flushAll s0) 0 ps) s0.vc.id.ctx = none →
      let img := readImage (flushAll s0) 0 ps
      Gives (exec (.ctxrstMatch core) s) fun t =>
        (∀ i : BitVec 6, t.getS i = if i = 0 then 0 else BitVec.ofNat 64 (img.load (0x100 + 8 * i.toNat) 8))
        ∧ (∀ i : BitVec 4, t.getK i = BitVec.ofNat 64 (img.load (0x480 + 8 * i.toNat) 8))
        ∧ (∀ i : BitVec 6, t.getM i = BitVec.ofNat 16 (img.load (0x500 + 2 * i.toNat) 2))
        ∧ (∀ st, (t.stream st).pc = BitVec.ofNat 64 (img.load (0x10 + 8 * st.code) 8)
            ∧ (t.stream st).halted = (img.load 0x30 1).testBit st.code ∧ (t.stream st).cmdix = 0 ∧ (t.stream st).point = none)
        ∧ t.vc.st.bkmode = BitVec.ofNat 64 (img.load 0x38 8) ∧ t.vc.st.latch0 = .empty ∧ t.vc.st.latch1 = .empty ∧ t.vc.st.chain = none
        ∧ t.vc.delay = none ∧ t.vc.ni = false ∧ t.mem = (flushAll s0).mem)

/-- R37, R43, R46, R134, R426: a vcore whose streams have halted and whose operations are done writes its lines back and leaves its
core complete, one of a gang job when all of the job have finished; with the last vcore its node ends. A stopped vcore that an image
can hold is imaged after FHOLD ticks, and leaves its core. -/
def Obligations.VcoreEnds : Prop :=
  ∀ (core : Nat) (s s0 : State), s.focusCore core = some s0 →
    let k := s0.vc.id.node
    let done : Prop := s0.vc.stopped = false ∧ s0.vc.st.ops = [] ∧ s0.vc.st.follow = []
      ∧ (∀ st, (s0.stream st).halted = true ∧ (s0.stream st).point = none) ∧ NoAlias s0 ∧ moveWaits (flushAll s0) = false
    (s0.vc.id.gang = true → done → (∃ v ∈ s0.others, v.ofNode k = true ∧ v.live = true ∧ v.finished = false) →
      exec (.vcoreComplete core) s = .next s0)
    ∧ (s0.vc.id.gang = false → done → (∃ v ∈ s0.others, v.ofNode k = true ∧ v.live = true ∧ v.ended = false) →
      Gives (exec (.vcoreComplete core) s) fun t => t.vc.res = .complete ∧ t.vc.st.cache = [] ∧ t.vc.st.icache = [] ∧ t.vc.regs = s0.vc.regs
        ∧ HomeKept s0 t (fun _ => False))
    ∧ (done → LastVcore s0 → (∀ n ∈ s0.dev.sched.nodes, n.key = k → n.phase = .running) →
      Gives (exec (.vcoreComplete core) s) fun t => ∀ n ∈ t.dev.sched.nodes, n.key = k → n.phase = .completing 1)
    ∧ (∀ x : Stop, s0.stop? s0.vc.id.fdom = some x → s0.dev.faults.fhold ≠ 0 → s0.dev.faults.fhold.toNat ≤ x.ticks →
        imageable s0 s0.vc = true → s0.vc.id.gang = false → NoAlias s0 → moveWaits (flushAll s0) = false →
      Gives (exec (.vcoreImage core) s) fun t => t.vc.resident = false ∧ t.vc.st.cache = [] ∧ t.vc.regs = s0.vc.regs
        ∧ (∀ n, t.node? k = some n → core ∉ n.cores))
    ∧ (s0.dev.faults.fhold = 0 → exec (.vcoreImage core) s = .next s0)

/-! ### Events of the scheduler and of power -/

/-- R322, R325, R327, R328, R332, R334 to R337, R341, R347, R488, R490, R491, R495: the tick boundary; a notify write, accepted or
rejected; the mapper's visit of a slot, which a queue that is not live loses; selection and placement of a node; a polite window that has
expired; an idle chiplet, both at a tick boundary; a demotion; a stall. -/
def Obligations.SchedulerEvents : Prop :=
  ∀ (s : State),
    let c := s.dev.sched
    (Gives (exec .tickBoundary s) fun t =>
      t.dev.sched.tick = c.tick + 1 ∧ t.dev.time = max s.dev.time (min ((c.tick + 1) * 100000) (2 ^ 64 - 1))
      ∧ t.dev.sched.ageNow = c.age ∧ t.dev.sched.ywinNow = c.ywin ∧ t.dev.sched.stallNow = c.stallTicks ∧ t.dev.sched.due = true)
    ∧ (∀ q v a, queueAt s q = some a → q < c.queues.length → q < 1024 → s.dev.host.ready = true → queueLive s (queueDesc s q) = true →
        let d := queueDesc s q
        0 < (v - qWrite d).toNat → (v - qWrite d).toNat + (qWrite d - qRead d).toNat ≤ 2 ^ qLog2n d → s.mem.wf = true →
      Gives (exec (.notifyWrite q v) s) fun t => t.mem.load (a + 32) 4 = v.toNat
        ∧ (∀ x, x < a + 32 ∨ a + 36 ≤ x → t.mem.read x = s.mem.read x)
        ∧ ((t.queue q).slot.isSome = true ∨ (t.queue q).waiting.isSome = true) ∧ t.vc = s.vc ∧ t.dev.faults = s.dev.faults)
    ∧ (∀ q v, q < c.queues.length → (s.dev.host.ready = false ∨ queueLive s (queueDesc s q) = false ∨ v = qWrite (queueDesc s q)) →
        (s.queue q).noticed = false →
      Gives (exec (.notifyWrite q v) s) fun t => t.mem = s.mem ∧ (t.queue q).noticed = true ∧ t.vc = s.vc
        ∧ ∃ r : Record, t.dev.faults.records = s.dev.faults.records ++ [r] ∧ r.bits.extractLsb' 0 16 = 0x5006 ∧ r.notice = true)
    ∧ (∀ q, (dropDead s).queue q = if queueLive s (queueDesc s q) = true then s.queue q else { s.queue q with slot := none, waiting := none })
    ∧ dropDead s = { s with dev := { s.dev with sched := { c with queues := (dropDead s).dev.sched.queues } } }
    ∧ (∀ slot, visitedSlot (dropDead s) ≠ some slot → exec (.mapperRead slot) s = .next (dropDead s))
    ∧ (∀ s1 slot q who, s1 = dropDead s → visitedSlot s1 = some slot → (s1.dev.sched.queues.findIdx? fun x => x.slot == some slot) = some q →
        let s := s1
        let c := s.dev.sched
        let d := queueDesc s q
      (queueLive s d = true → queueWho s d = some who →
      (qRead d = qWrite d → exec (.mapperRead slot) s = .next { s with dev := { s.dev with sched := { c with visit := (slot + 1) % 32 } } })
      ∧ (∀ hdr table, (s.queue q).blocked = false → qRead d ≠ qWrite d → goneCode s q (qRead d) hdr = none → s.dev.power.grade ≠ 3 →
          (c.nodes.filter fun n => s.worldPart n.world == s.worldPart (qWorld d)).length < 1024 * (s.partQuarters (s.worldPart (qWorld d))).length →
          schedRead s who (qRing d + BitVec.ofNat 64 (256 * ((qRead d).toNat % 2 ^ qLog2n d))) 256 = .ok hdr →
          badByte hdr headerReserved 256 = none → nbits hdr (8 * 0x18) 4 ≠ 0 → nbits hdr (8 * 0x18) 4 ≤ 8 →
          readTable s who (BitVec.ofNat 64 (nbits hdr 64 64)) (nbits hdr (8 * 0x18) 4) = .ok table →
          tableFault (BitVec.ofNat 64 (nbits hdr 64 64)) table = [] → rangeFault s q hdr (predsOf s q (qRead d) hdr) = [] →
        Gives (exec (.mapperRead slot) s) fun t =>
          t.dev.sched.nodes = c.nodes ++ [newNode s q d hdr table (predsOf s q (qRead d) hdr)]
          ∧ (s.mem.wf = true → ∀ a, queueAt s q = some a → t.mem.load (a + 36) 4 = (qRead d + 1).toNat)
          ∧ t.dev.sched.visit = (slot + 1) % 32 ∧ t.vc = s.vc)))
    ∧ (c.due = false → exec .selection s = .next s)
    ∧ (c.due = true → passOrder s = [] → exec .selection s = .next { s with dev := { s.dev with sched := { c with due := false } } })
    ∧ (∀ n ns i cores s2, c.due = true → passOrder s = n :: ns → n.launch.isSome = true → s.node? n.key = some n → candidate s n = true →
        ¬ (s.dev.power.grade = 3 ∧ affected s n = true) → admits s n = some (i, cores, s2) →
      Gives (exec .selection s) fun t => (∃ m, t.node? n.key = some m ∧ m.entry = i ∧ m.cores = n.cores ++ cores
        ∧ m.phase = if n.phase = .running then .running else .selected) ∧ t.dev.sched.due = true ∧ t.vc = s.vc ∧ t.others = s.others ∧ t.mem = s.mem)
    ∧ (∀ k n l s1, s.node? k = some n → n.phase = .selected → n.launch = some l → n.started = false → s.isStopped (nodeFdom s n) = false →
        queueLive s (queueDesc s n.queue) = true → writeOpstart s n = .ok s1 → s.dev.power.grade = 0 → (∀ v ∈ s.vcores, v.ofNode k = false) → lrVcnt l ≤ 1024 →
      Gives (exec (.binderPlace k) s) fun t =>
        (∃ m, t.node? k = some m ∧ m.phase = .running ∧ m.started = true ∧ m.opStart = n.entry ∧ m.start = n.start)
        ∧ t.dev.sched.launched = true
        ∧ (nodeVcores t k).length = lrVcnt l
        ∧ ∀ v ∈ nodeVcores t k, v.regs.s.get 0 = 0 ∧ v.regs.s.get 1 = lrArgs l ∧ v.regs.s.get 2 = v.id.vcid.setWidth 64
          ∧ v.regs.s.get 3 = BitVec.ofNat 64 (lrVcnt l) ∧ v.sS.pc = lrPc l 0 ∧ v.sV.pc = lrPc l 1 ∧ v.sM.pc = lrPc l 2 ∧ v.sC.pc = lrPc l 3
          ∧ v.sS.halted = (lrPc l 0 == 0) ∧ v.st.bkmode = lrBanks l)
    ∧ (∀ k n, s.node? k = some n → n.phase = .selected → queueLive s (queueDesc s n.queue) = false → exec (.binderPlace k) s = .next s)
    ∧ (∀ k, s.atBoundary = false → exec (.politeWindowExpiry k) s = .next s)
    ∧ (∀ k n x w, s.node? k = some n → n.polite = some (x, w) → x < w → exec (.politeWindowExpiry k) s = .next s)
    ∧ (∀ n x w, s.atBoundary = true → s.vc.regs.yieldack = false → s.node? s.vc.id.node = some n → n.key = s.vc.id.node → n.polite = some (x, w) → w ≤ x → n.phase = .running →
        s.vc.resident = true → s.vc.stopped = false → s.vc.ni = false → s.vc.id.gang = false → NoAlias s → moveWaits (flushAll s) = false →
        (∀ v ∈ s.others, v.ofNode s.vc.id.node = false) →
      Gives (exec (.politeWindowExpiry s.vc.id.node) s) fun t => t.vc.res = .off ∧ t.vc.regs.s = s.vc.snap.regs.s
        ∧ (∀ st, (t.stream st).pc = (match st with
            | .s => s.vc.snap.sS.pc | .v => s.vc.snap.sV.pc | .m => s.vc.snap.sM.pc | .c => s.vc.snap.sC.pc))
        ∧ (n.parking = false → HomeKept s t fun _ => False)
        ∧ ∃ m, t.node? s.vc.id.node = some m ∧ m.phase = .resting n.parking ∧ m.cores = [] ∧ m.polite = none ∧ m.waited = 0
          ∧ (n.parking = false → m.preempts = n.preempts + 1))
    ∧ (∀ i, s.atBoundary = false → exec (.idleStepZero i) s = .next s)
    ∧ (∀ i, i < 8 → s.atBoundary = true → 16 ≤ (s.chip i).idle → chipEmpty s i = true → Gives (exec (.idleStepZero i) s) fun t =>
        (t.chip i).step = 0 ∧ (∀ j < 8, j ≠ i → t.chip j = s.chip j) ∧ t.vc = s.vc ∧ t.mem = s.mem)
    ∧ (∀ i, (s.chip i).idle < 16 → exec (.idleStepZero i) s = .next s)
    ∧ (∀ k n, s.node? k = some n → n.key = k → 8 ≤ n.overTicks → n.demoted = false → Gives (exec (.eclassDemoted k) s) fun t =>
        (∃ m, t.node? k = some m ∧ m = { n with demoted := true })
        ∧ ∃ r : Record, t.dev.faults.records = s.dev.faults.records ++ [r] ∧ r.bits.extractLsb' 0 16 = 0x6002 ∧ r.notice = true
          ∧ r.bits.extractLsb' 384 32 = BitVec.ofNat 32 n.ownClass)
    ∧ (∀ core s0, s.focusCore core = some s0 → c.stallNow ≠ 0 → s0.vc.stopped = false →
        s0.atBoundary = true → s0.vc.resident = true → s0.vc.st.ops = [] → s0.vc.st.follow = [] → (∃ st, (s0.stream st).halted = false) →
        (∀ st, (s0.stream st).halted = false → (s0.stream st).wait.waiting = true ∧ (s0.stream st).wait.cause.toNat ≤ 3) →
        (∃ x ∈ c.stalls, x.1 = s0.vc.id.node * 1024 + s0.vc.id.vcid.toNat ∧ c.stallNow.toNat ≤ x.2.1 ∧ x.2.2 = issuedWords s0.vc) →
      Gives (exec (.stall core) s) fun t => t.isStopped s0.vc.id.fdom = true ∧ t.vc.stopped = true
        ∧ (∀ st, (s0.stream st).wait.waiting = true → (s0.stream st).halted = false →
          ∃ r ∈ t.dev.faults.records, r.bits.extractLsb' 0 16 = 0x5008 ∧ r.bits.extractLsb' 56 4 = BitVec.ofNat 4 st.code
            ∧ r.bits.extractLsb' 384 32 = (s0.stream st).wait.word.setWidth 32))
    ∧ (∀ core s0, s.focusCore core = some s0 → c.stallNow = 0 ∨ s0.atBoundary = false → exec (.stall core) s = .next s0)

/-- R23, R342 to R346, R348, R350 to R354, R357, R358, R362, R361, R391, R493, R494, R497, R501: samples, trims and readings take
their places, a sample as the controller's bounds on the average let it be, or while FLOOR is 1 as the least power that the grade
allows (R496); a die that has read 110 degrees for 1 ms goes out of service, and comes back after 1 s of cool; a cluster above 110 A
is gated; pins that hold for three samples act; a ready chiplet is gated, and ungated for admission; a late response is reported
once; a curve is taken in, checked in turn, becomes current at its start and lapses at its end; a PTP offset is held, and steps the
timer only forward and only before a launch. How a sample is held to its bounds, and the average of the first 10 ms, are the model's
(log 17). -/
def Obligations.PowerEvents : Prop :=
  ∀ (s : State),
    let p := s.dev.power
    let quiet (t : State) : Prop := t.vc = s.vc ∧ t.others = s.others ∧ t.mem = s.mem
    (∀ watts,
      let old := p.samples.take 999
      let n := old.length + 1
      let b := averageBounds s
      let x := if p.floor then Config.leastPower s.steps else watts
      let w := min (max x (b.1 * n - old.sum)) (b.2 * n - old.sum)
      let l := (w :: p.samples).take 1000
      Gives (exec (.powerSample watts) s) fun t => quiet t
        ∧ t.dev = { s.dev with power := { p with
            samples := l, avg := mean l, avg1ms := mean (l.take 100), done := t.dev.power.done, doneAt := t.dev.power.doneAt
            etotal := p.etotal + BitVec.ofNat 64 ((p.eRest + 10 * w) / 1000), eRest := (p.eRest + 10 * w) % 1000 } }
        ∧ (old.sum ≤ b.2 * n → t.dev.power.avg ≤ b.2 ∧ (b.1 ≤ b.2 → b.1 ≤ t.dev.power.avg)))
    ∧ (∀ (col : Fin 64) mv, let r := classRange (s.chip (col.val / 8)).step.toNat
      exec (.voltageTrim col.val mv) s = .next (if r.1 ≤ mv ∧ mv ≤ r.2 ∧ mv % 5 = 0 ∧ (s.chip (col.val / 8)).gated = false then
        { s with dev := { s.dev with power := { p with columns := p.columns.set col.val mv } } } else s))
    ∧ (∀ i temp, i < 8 → Gives (exec (.thermalReading i temp) s) fun t => quiet t ∧ (∀ j < 8, j ≠ i → t.chip j = s.chip j)
        ∧ t.chip i = { s.chip i with
            temp := temp
            hotSince := if 110 ≤ temp then some ((s.chip i).hotSince.getD s.dev.time) else none
            coolSince := if temp < 85 then some ((s.chip i).coolSince.getD s.dev.time) else none })
    ∧ (∀ (i : Fin 5) temp, exec (.thermalReading (8 + i.val) temp) s = .next { s with dev := { s.dev with power := { p with
        dieHot := p.dieHot.set i.val (if 110 ≤ temp then some ((p.dieHot.get i).getD s.dev.time) else none), dieTemp := p.dieTemp.set i.val temp } } })
    ∧ (∀ i since', i < 8 → (s.chip i).hotSince = some since' → since' + 1000000 ≤ s.dev.time →
      Gives (exec (.thermalEmergency i) s) fun t => (t.chip i).offline = true)
    ∧ (∀ i, i < 8 → (s.chip i).hotSince = none → exec (.thermalEmergency i) s = .next s)
    ∧ (∀ i since', i < 8 → (s.chip i).offline = true → (s.chip i).fatal = false → s.dev.time = s.dev.sched.tick * 100000 →
        (s.chip i).coolSince = some since' → since' + 1000000000 ≤ s.dev.time → s.dev.sched.deadQuarters.toList.getD (i / 2) false = false →
      Gives (exec (.chipletOnline i) s) fun t => quiet t ∧ t.chip i = { s.chip i with offline := false } ∧ ∀ j < 8, j ≠ i → t.chip j = s.chip j)
    ∧ (∀ i, (s.chip i).coolSince = none → exec (.chipletOnline i) s = .next s)
    ∧ (∀ (i : Fin 12) temp, temp < 110 → Gives (exec (.hbmTemperatureReading i.val temp) s) fun t => quiet t
        ∧ t.dev.power.hbmTemp = p.hbmTemp.set i.val temp ∧ t.dev.power.hbmHot = p.hbmHot.set i.val none
        ∧ let lv := if 95 ≤ temp then 2 else if 85 ≤ temp then 1 else 0
          t.dev.power.hbmLevel = (if p.hbmLevel.get i < lv then p.hbmLevel.set i.val lv else p.hbmLevel)
          ∧ (p.hbmLevel.get i < lv → ∃ r : Record, t.dev.faults.records = s.dev.faults.records ++ [r] ∧ r.bits.extractLsb' 0 16 = 0x6005)
          ∧ (lv ≤ p.hbmLevel.get i → t.dev.faults = s.dev.faults))
    ∧ (∀ (cl : Fin 32) amps, Gives (exec (.currentMeasurement cl.val amps) s) fun t => quiet t
        ∧ t.dev.power = { p with clusterGated := p.clusterGated.set cl.val (decide (11000 < amps ∨ (amps = 11000 ∧ p.clusterGated.get cl = true))) }
        ∧ (amps ≤ 11000 → t.dev.faults = s.dev.faults))
    ∧ (∀ pins, Gives (exec (.curtPins pins) s) fun t =>
        t.dev.power.pinSamples = (pins :: p.pinSamples).take 3
        ∧ t.dev.power.pins = (if (pins :: p.pinSamples).take 3 = [pins, pins, pins] then pins else p.pins)
        ∧ t.dev.power.grade = (gradeOf t.dev.power).1)
    ∧ (∀ i, i < 8 → gateReady s i = true → (∀ j < 8, i < j → gateReady s j = false) →
      Gives (exec (.chipletGate i) s) fun t => quiet t ∧ t.chip i = { s.chip i with gated := true }
        ∧ t.dev.power.columns = downColumns p.columns i ∧ ∀ j < 8, j ≠ i → t.chip j = s.chip j)
    ∧ (∀ i, gateReady s i = false → exec (.chipletGate i) s = .next s)
    ∧ (∀ i, i < 8 → (s.chip i).gated = true → chipWanted s i = true →
      Gives (exec (.chipletUngate i) s) fun t => quiet t ∧ t.chip i = { s.chip i with gated := false }
        ∧ t.dev.power.selfRefresh.toList.getD (i / 2) true = false
        ∧ t.dev.power.columns = classColumns p.columns i (s.chip i).step.toNat ∧ t.dev.sched.due = true ∧ ∀ j < 8, j ≠ i → t.chip j = s.chip j)
    ∧ (∀ i, (s.chip i).gated = false → exec (.chipletUngate i) s = .next s)
    ∧ (p.grade ≠ 0 → p.done = true → p.late = false → p.trigger + responseBound s < p.doneAt →
      Gives (exec .curtLate s) fun t => quiet t ∧ t.dev.power = { p with late := true }
        ∧ ∃ r : Record, t.dev.faults.records = s.dev.faults.records ++ [r] ∧ r.bits.extractLsb' 0 16 = 0x6004 ∧ r.notice = true)
    ∧ (p.grade = 0 ∨ p.done = false ∨ p.late = true ∨ p.doneAt ≤ p.trigger + responseBound s → exec .curtLate s = .next s)
    ∧ (∀ b, p.checking = none → s.dev.host.cmbBusy = false →
      exec (.curveMessage b) s = .next { s with dev := { s.dev with power := { p with checking := some (b, false) } } })
    ∧ (∀ b, p.checking.isSome = true ∨ s.dev.host.cmbBusy = true → ∃ event,
      exec (.curveMessage b) s = .next { s with dev := { s.dev with host := { s.dev.host with sideband := s.dev.host.sideband ++ [event, [0x0A, 0x00]] } } })
    ∧ (∀ v : Word, exec (.cmblen v) s = .next (if s.dev.host.cmbBusy then s else
        { s with dev := { s.dev with host := { s.dev.host with cmblen := v.setWidth 16, cmbBusy := true } } }))
    ∧ (∀ b x, p.checking = some (b, x) → Gives (exec .curveCheck s) fun t => quiet t ∧ t.dev.power.checking = none
        ∧ t.dev.host.cmbBusy = s.dev.host.cmbBusy
        ∧ (∃ l, t.dev.host.sideband = s.dev.host.sideband ++ l ++ [bytesLE 2 (curveResult s b)])
        ∧ let c := parseCurve b
          (curveResult s b ≠ 0 → t.dev.power = { p with checking := none })
          ∧ (curveResult s b = 0 → t.dev.power.curvseq = c.seq
            ∧ (c.vstart ≤ s.dev.time → t.dev.power.current = some c)
            ∧ (s.dev.time < c.vstart → t.dev.power.current = p.current ∧ t.dev.power.pending = some c)))
    ∧ (p.checking = none → s.dev.host.cmbBusy = true → Gives (exec .curveCheck s) fun t => quiet t ∧ t.dev.host.cmbBusy = false
        ∧ ∀ b, hostCurve s s.dev.host.cmbaddr.toNat s.dev.host.cmblen.toNat = some b → t.dev.host.cmbResult = BitVec.ofNat 16 (curveResult s b))
    ∧ (∀ c, p.pending = some c → exec .curveStart s = .next (if c.vstart ≤ s.dev.time then
        { s with dev := { s.dev with power := { p with current := some c, pending := none } } } else s))
    ∧ (∀ c, p.current = some c → exec .curveLapse s = .next (if c.vend ≤ s.dev.time then
        { s with dev := { s.dev with power := { p with current := none } } } else s))
    ∧ (p.pending = none → exec .curveStart s = .next s) ∧ (p.current = none → exec .curveLapse s = .next s)
    ∧ (∀ off lock, s.dev.sched.launched = true ∨ off.msb = false →
      exec (.ptpMessage off lock) s = .next { s with dev := { s.dev with power := { p with offset := off, lock := lock } } })
    ∧ ∀ off lock, s.dev.sched.launched = false → off.msb = true →
      let now := max s.dev.time (min (s.dev.time + (-off).toNat) (2 ^ 64 - 1))
      exec (.ptpMessage off lock) s = .next { s with dev := { s.dev with
        power := { p with offset := off, lock := lock }, time := now
        sched := { s.dev.sched with tick := max s.dev.sched.tick (now / 100000) } } }

/-! ### Events of faults, errors and registers -/

/-- R123, R413, R418, R420, R421, R423 to R425, R472, R477 to R480, R505: a record delivered, or dropped with a count; RESUME,
CUTBACK and ABORT of a domain that has settled, refused for a final or dropped record; a locked line retried, and lost after 100 ms;
a scrub; an injection; a check value that matches but where it has been damaged; the reads that clear. What an injection of two bits
flips, and how a line that cannot be kept or an image that cannot be used is reported, are the model's (logs 34, 35). -/
def Obligations.FaultEvents : Prop :=
  ∀ (s : State),
    let f := s.dev.faults
    let ended (t : State) (d : BitVec 12) (act result : BitVec 2) : Prop := t.dev.faults.busy = false ∧ t.dev.faults.action = none
      ∧ t.dev.faults.result = result ∧ t.dev.faults.last = act ∧ t.dev.faults.fdom = d
    let calm (d : BitVec 12) : Prop := (∀ q < 1024, (s.queue q).blocked = false)
      ∧ ∀ n ∈ s.dev.sched.nodes, nodeFdom s n = d → n.phase = .running
    let whole : Prop := ∀ n, s.node? s.vc.id.node = some n → n.gang = true →
      ∀ v ∈ s.others, v.ofNode s.vc.id.node = true → v.live = true → v.resident = true
    (∀ r rs a who pa ipa k pr, f.records = r :: rs → fqAt s r.fdom = some a → s.mem.wf = true →
        let x := s.mem.load a 64
        fqLive x = true → (fqTail x - fqHead x).toNat < 2 ^ fqLog2n x → fqWho s x = some who →
        pieces s who accWrite (fqSlot x (fqTail x).toNat) 64 = .ok [(.home pa ipa k pr, 64)] → pa + 64 ≤ a ∨ a + 64 ≤ pa →
      Gives (exec (.faultRecordDelivery 0) s) fun t => t.dev.faults.records = rs
        ∧ t.mem.load pa 64 = (r.bits ||| if (fqTail x).getLsbD (fqLog2n x) then (1 : Rec64) <<< 63 else 0).toNat
        ∧ t.mem.load (a + 32) 4 = (fqTail x + 1).toNat
        ∧ (∀ b, (b < pa ∨ pa + 64 ≤ b) → (b < a + 32 ∨ a + 36 ≤ b) → t.mem.read b = s.mem.read b) ∧ t.vc = s.vc ∧ t.others = s.others)
    ∧ (∀ r rs a, f.records = r :: rs → fqAt s r.fdom = some a → s.mem.wf = true → fqLive (s.mem.load a 64) = false →
      Gives (exec (.faultRecordDelivery 0) s) fun t => t.dev.faults.records = rs
        ∧ t.mem.load (a + 36) 4 = (fqDrop (s.mem.load a 64) + 1) % 2 ^ 32
        ∧ (∀ b, b < a + 36 ∨ a + 40 ≤ b → t.mem.read b = s.mem.read b) ∧ t.vc = s.vc
        ∧ (r.notice = false → ∀ x ∈ t.dev.faults.stops, x.fdom = r.fdom → x.dropped = true))
    ∧ (∀ (d : BitVec 12) (act : BitVec 2), actionDue s d.toNat act = true → s.stop? d = none →
      let i : Instr := if act = 1 then .resume d.toNat else if act = 2 then .cutback d.toNat else .abort d.toNat
      act ≠ 0 → Gives (exec i s) fun t => ended t d act 2 ∧ t.vc = s.vc ∧ t.mem = s.mem)
    ∧ (∀ (d : BitVec 12) x, actionDue s d.toNat 1 = true → s.stop? d = some x → x.final = true ∨ x.dropped = true →
      Gives (exec (.resume d.toNat) s) fun t => ended t d 1 1 ∧ t.vc = s.vc ∧ t.mem = s.mem ∧ t.dev.faults.stops = f.stops)
    ∧ (∀ x, let d := s.vc.id.fdom
        s.stop? d = some x → s.vc.resident = true → s.vc.stopped = true → (∀ v ∈ s.others, v.live = true → v.id.fdom ≠ d) → calm d → whole →
      (x.final = false → x.dropped = false → actionDue s d.toNat 1 = true → Gives (exec (.resume d.toNat) s) fun t =>
        ended t d 1 0 ∧ t.isStopped d = false ∧ t.vc = { s.vc with
          stopped := false, ended := s.vc.ended && !s.vc.id.gang, regs := { s.vc.regs with yieldack := false }, st := { s.vc.st with ops := s.vc.st.ops.map fun o => { o with stopped := false } } } ∧ t.mem = s.mem)
      ∧ (quarantined s s.vc = false → actionDue s d.toNat 2 = true → Gives (exec (.cutback d.toNat) s) fun t =>
        ended t d 2 0 ∧ t.isStopped d = false ∧ t.vc.stopped = false ∧ t.vc.res = s.vc.res ∧ t.vc.regs.s = s.vc.snap.regs.s
        ∧ t.vc.regs.k = s.vc.snap.regs.k ∧ t.vc.sS.pc = s.vc.snap.sS.pc ∧ t.vc.sV.pc = s.vc.snap.sV.pc ∧ t.vc.sM.pc = s.vc.snap.sM.pc
        ∧ t.vc.sC.pc = s.vc.snap.sC.pc ∧ t.vc.sS.fflags = s.vc.snap.sS.fflags ||| s.vc.sS.fflags ∧ t.vc.st.ops = [] ∧ t.vc.ni = false
        ∧ t.vc.st.bindings = s.vc.st.bindings ∧ t.mem = s.mem)
      ∧ (actionDue s d.toNat 3 = true → Gives (exec (.abort d.toNat) s) fun t =>
        ended t d 3 0 ∧ t.isStopped d = false ∧ (∀ n ∈ t.dev.sched.nodes, n.key ≠ s.vc.id.node)))
    ∧ (∀ core line s0 l, s.focusCore core = some s0 → s0.vc.st.cache[line]? = some l → l.lockedAt.isSome = true → NoAlias s0 → OneLine s0 →
        l.dirty ≠ 0 → l.block * 256 / 2 ^ 47 = s0.devId → s0.mem.wf = true → s0.vc.cutbackDue = false →
        (s0.vc.id.gang = true → s0.vc.ended = false) → s0.vc.st.marks.flips = [] →
      Gives (exec (.writebackRetry core line) s) fun t => HomeKept s0 t (fun _ => False) ∧ t.vc.regs = s0.vc.regs
        ∧ t.vc.st.cache[line]? = some { l with dirty := 0, lockedAt := none }
        ∧ ∀ i < 256, l.dirty.getLsbD i = true → ¬ DeviceByte s0 (l.block * 256 % 2 ^ 47 + i) → t.mem.read (l.block * 256 % 2 ^ 47 + i) = byteOf l.data i)
    ∧ (∀ core line s0 l since', s.focusCore core = some s0 → s0.vc.st.cache[line]? = some l → l.lockedAt = some since' →
        (s0.dev.time < since' + 100000000 → exec (.writebackLost core line) s = .next s0)
        ∧ (since' + 100000000 ≤ s0.dev.time → s0.vc.sS.wait.waiting = false → Gives (exec (.writebackLost core line) s) fun t =>
          t.vc.st.cache = s0.vc.st.cache.filter (fun x => x.block != l.block) ∧ t.mem = s0.mem ∧ t.isStopped s0.vc.id.fdom = true
          ∧ ∃ r : Record, t.dev.faults.records = s0.dev.faults.records ++ [r] ∧ r.bits.extractLsb' 0 16 = 0x4004
            ∧ (copyWaitsFor s0 l = none → r.bits.extractLsb' 56 4 = 4)
            ∧ (∀ o n, copyWaitsFor s0 l = some (o, n) → r.bits.extractLsb' 56 4 = 3 ∧ r.bits.getLsbD 54 = true
              ∧ r.bits.extractLsb' 128 64 = o.pc ∧ r.bits.extractLsb' 384 32 = BitVec.ofNat 32 n)))
    ∧ (Gives (exec .patrolScrub s) fun t => t.dev.errors.flips = [] ∧ (∀ b, s.dev.errors.hbmUe b = true → b ∈ t.dev.errors.poison) ∧ (∀ b ∈ s.dev.errors.poison, b ∈ t.dev.errors.poison)
        ∧ t.vc = s.vc ∧ t.mem = s.mem)
    ∧ (∀ v : Word, v.getLsbD 63 = false → exec (.injctl v) s = .next { s with dev := { s.dev with faults := { f with
        injctl := v &&& 0xFFFFFFFF00000000 } } })
    ∧ (∀ v : Word, v.getLsbD 63 = true → f.injaddr.toNat / 2 ^ 47 = s.devId →
        let b := f.injaddr.toNat % 2 ^ 47 / 256
        (nbits v.toNat 60 3 = 0 → Gives (exec (.injctl v) s) fun t => t.dev.faults.injctl = v &&& 0x7FFFFFFF00000000
          ∧ (s.dev.errors.flips.block b = [] →
            b * 2048 + nbits v.toNat 48 11 ∈ t.dev.errors.flips ∧ t.dev.errors.hbmUe b = v.getLsbD 59)
          ∧ (∀ x, x / 2048 ≠ b → (x ∈ t.dev.errors.flips ↔ x ∈ s.dev.errors.flips)) ∧ t.mem = s.mem ∧ t.vc = s.vc)
        ∧ (nbits v.toNat 60 3 = 1 → s.inL2 b = true → Gives (exec (.injctl v) s) fun t => t.dev.faults.injctl = v &&& 0x7FFFFFFF00000000
          ∧ (s.dev.errors.l2Flips.block b = [] →
            b * 2048 + nbits v.toNat 48 11 ∈ t.dev.errors.l2Flips ∧ (t.dev.errors.l2Flips.block b).bad 1 l2Word = v.getLsbD 59)
          ∧ t.dev.l2 = s.dev.l2 ∧ t.mem = s.mem ∧ t.vc = s.vc)
        ∧ (nbits v.toNat 60 3 = 5 → Gives (exec (.injctl v) s) fun t => t.dev.faults.injctl = v &&& 0x7FFFFFFF00000000
          ∧ t.checkMask b = s.checkMask b ^^^ ((1 : BitVec 32) <<< (nbits v.toNat 48 11 % 32)) ∧ t.mem = s.mem ∧ t.vc = s.vc))
    ∧ (∀ b, s.storedCheck b = crc32c (s.mem.bytes (b * 256) 256) ↔ s.checkMask b = 0)
    ∧ (∀ n, exec (.mecntRead n) s = .next { s with dev := { s.dev with faults := { f with ue := 0, ce := 0 } } })
    ∧ (∀ n, f.melogAt ≠ s.dev.time →
      exec (.melogRead n) s = .next { s with dev := { s.dev with faults := { f with melog := f.melog &&& 0xFF } } })
    ∧ ∀ n : Fin 18, exec (.lerrRead n.val) s = .next { s with dev := { s.dev with links := { s.dev.links with
        ports := s.dev.links.ports.set n.val { s.dev.links.ports.get n with retry := 0, downs := 0 } } } }

/-- R5, R8, R323, R386 to R388, R391 to R393, R398, R418, R491, R502 to R506: register writes by their access codes, from the host
port and as side-band messages; a new layout asked for and applied; host reads and writes of memory; requests before the port is up;
ports, links and flits. -/
def Obligations.HostEvents : Prop :=
  ∀ (s : State),
    let h := s.dev.host
    let write (off : Nat) (v : Word) (t : State) : Prop := exec (.registerWrite 0 off 8 v) s = .next t
    (∀ fn off size v, size = 0 ∨ 8 < size + off % 8 → exec (.registerWrite fn off size v) s = .next s)
    ∧ (∀ n off size v, n ≠ 0 → (∀ q, devReg (off / 8 * 8) ≠ .notify q) → exec (.registerWrite n off size v) s = .next s)
    ∧ (∀ v : Word,
      write 0x4000000 v { s with dev := { s.dev with sched := { s.dev.sched with qtbase := v &&& 0x00FFFFFFFFFF0000 } } }
      ∧ write 0x4000008 v { s with dev := { s.dev with sched := { s.dev.sched with age := v.extractLsb' 8 8, ywin := v.extractLsb' 0 8 } } }
      ∧ write 0x4000010 v { s with dev := { s.dev with sched := { s.dev.sched with stallTicks := v.extractLsb' 0 8 } } }
      ∧ write 0x8000000 v { s with dev := { s.dev with host := { h with cmbaddr := v &&& 0x00FFFFFFFFFFFF00 } } }
      ∧ write 0xA000000 v { s with dev := { s.dev with faults := { s.dev.faults with fqtbase := v &&& 0x00FFFFFFFFFF0000 } } }
      ∧ write 0xA000010 v { s with dev := { s.dev with faults := { s.dev.faults with ovr := s.dev.faults.ovr && !v.getLsbD 30 } } }
      ∧ write 0xA000018 v { s with dev := { s.dev with faults := { s.dev.faults with fhold := v.extractLsb' 0 8 } } }
      ∧ write 0xA000038 v { s with dev := { s.dev with faults := { s.dev.faults with injaddr := v } } }
      ∧ write 0x7000000 v s ∧ write 0x5000000 v s)
    ∧ (∀ v : Word, exec (.partctl v) s = .next (if 5 ≤ (v.extractLsb' 0 3).toNat then s else
        { s with dev := { s.dev with host := { h with layout := v.extractLsb' 0 3 } } }))
    ∧ (h.layout = h.applied → exec .layoutApply s = .next s)
    ∧ (s.atBoundary = false → exec .layoutApply s = .next s)
    ∧ (h.layout ≠ h.applied → s.atBoundary = true → (∀ n ∈ s.dev.sched.nodes, holdsLayout s h.layout.toNat n = false) → Gives (exec .layoutApply s) fun t =>
        t.dev.host = { h with applied := h.layout } ∧ t.vc = s.vc ∧ t.mem = s.mem
        ∧ (∀ p < (layoutParts h.layout.toNat).length, let r := getRegion t (.part p)
          r.bits = (s.dev.bedrock.record.partRcb.getD h.layout.toNat []).getD p 0
          ∧ ∀ i, s.partitions.findIdx? (· == (layoutParts h.layout.toNat).getD p []) = some i →
            r = { getRegion s (.part i) with bits := r.bits }))
    ∧ (∀ fn bar a n, h.portUp = false → exec (.memoryRead fn bar a n) s = .next s)
    ∧ (∀ fn bar a bs, h.portUp = false → exec (.memoryWrite fn bar a bs) s = .next s)
    ∧ (∀ fn bar a n o, h.portUp = true → bar ≠ 0 → 0 < n → n ≤ 2 ^ 16 - a % 2 ^ 16 → hostPlace s fn a false = some o → macFaults s false o n a = none →
        homePiecesFault s 0 [(.home o 0 0 0, n)] = none →
      Gives (exec (.memoryRead fn bar a n) s) fun t => t.dev.host = { h with sent := h.sent ++ [0 :: s.mem.bytes o n] }
        ∧ t.mem = s.mem ∧ t.vc = s.vc ∧ ∀ b ∈ blocksOf o n, t.dev.errors.flips.block b = [] ∧ t.dev.errors.l2Flips.block b = [])
    ∧ (∀ fn bar a n, h.portUp = true → bar ≠ 0 → 0 < n → n ≤ 2 ^ 16 - a % 2 ^ 16 → hostPlace s fn a false = none →
      exec (.memoryRead fn bar a n) s = .next { s with dev := { s.dev with host := { h with aer := h.aer + 1, sent := h.sent ++ [[1]] } } })
    ∧ (∀ fn bar a bs o, h.portUp = true → bar % 256 ≠ 0 → bs ≠ [] → bs.length ≤ 2 ^ 16 - a % 2 ^ 16 → hostPlace s fn a true = some o →
        s.mem.wf = true →
      Gives (exec (.memoryWrite fn bar a bs) s) fun t =>
        (∀ i, (h : i < bs.length) → ¬ DeviceByte s (o + i) → t.mem.read (o + i) = bs[i])
        ∧ (∀ x, x < o ∨ o + bs.length ≤ x → t.mem.read x = s.mem.read x) ∧ t.vc = s.vc
        ∧ (256 ≤ bar → ∀ b ∈ blocksOf o bs.length, b ∈ t.dev.errors.poison))
    ∧ (∀ fn wr off v, h.phase.toNat ≤ 3 → exec (.configurationRequest fn wr off v) s =
        .next { s with dev := { s.dev with host := { h with sent := h.sent ++ [[3]] } } })
    ∧ (∀ fn off v, 3 < h.phase.toNat → h.portUp = true → Gives (exec (.configurationRequest fn true off v) s) fun t =>
        t.dev.host = { h with config := (h.config.filter fun x => !(x.1 == fn && x.2.1 == off)) ++ [(fn, off, v)], sent := h.sent ++ [[0]] })
    ∧ (∀ b, bytesAt b 1 8 % 8 = 0 → bytesAt b 0 1 = 1 → Gives (exec (.mctpRegisterAccess b) s) fun t =>
        ∃ u, (u = devWrite s .basecamp (bytesAt b 1 8) 8 (bytesAt b 9 8))
          ∧ t = { u with dev := { u.dev with host := { u.dev.host with sideband := u.dev.host.sideband ++ [[]] } } })
    ∧ (∀ b, bytesAt b 1 8 % 8 = 0 → bytesAt b 0 1 ≠ 1 → Gives (exec (.mctpRegisterAccess b) s) fun t =>
        ∃ r, (r = devRead s .basecamp (bytesAt b 1 8) 8)
          ∧ t = { r.2 with dev := { r.2.dev with host := { r.2.dev.host with sideband := r.2.dev.host.sideband ++ [bytesLE 8 r.1] } } })
    ∧ (∀ b, bytesAt b 1 8 % 8 ≠ 0 → exec (.mctpRegisterAccess b) s = .next s)
    ∧ (∀ down, h.portUp = !down → exec (.hostportDown down) s = .next s)
    ∧ (∀ down, h.portUp = down → Gives (exec (.hostportDown down) s) fun t => t.dev.host.portUp = !down ∧ t.vc = s.vc ∧ t.mem = s.mem
        ∧ (down = false → t.dev.host.msixSent = h.msixSent ++ h.msixPending ∧ t.dev.host.msixPending = [])
        ∧ ∃ r : Record, t.dev.faults.records = s.dev.faults.records ++ [r] ∧ r.bits.extractLsb' 0 16 = 0x7001 ∧ r.notice = true)
    ∧ (∀ n : Fin 18, (s.dev.links.ports.get n).lanes = 0 → exec (.linkDown n.val false) s = .next s)
    ∧ (∀ (n : Fin 18) down, down = true ∨ (s.dev.links.ports.get n).lanes ≠ 0 → Gives (exec (.linkDown n.val down) s) fun t =>
        (t.dev.links.ports.get n).up = !down ∧ (t.dev.links.ports.get n).retraining = false
        ∧ (∀ m : Fin 18, m ≠ n → t.dev.links.ports.get m = s.dev.links.ports.get m) ∧ t.vc = s.vc ∧ t.mem = s.mem
        ∧ ((s.dev.links.ports.get n).up = down →
          ∃ r : Record, t.dev.faults.records = s.dev.faults.records ++ [r] ∧ r.bits.extractLsb' 0 16 = 0x7002 ∧ r.notice = true))
    ∧ (∀ n : Fin 18, Gives (exec (.linkRetraining n.val) s) fun t => t.vc = s.vc ∧ t.mem = s.mem
        ∧ ((s.dev.links.ports.get n).up = true → (t.dev.links.ports.get n).retraining = true)
        ∧ (t.dev.links.ports.get n).up = (s.dev.links.ports.get n).up
        ∧ (s.dev.links.ports.get n).retry.toNat ≤ (t.dev.links.ports.get n).retry.toNat)
    ∧ (∀ (n : Fin 18) b, ((s.dev.links.ports.get n).up = false ∨ (s.dev.links.ports.get n).retraining = true
        ∨ bytesAt b 0 4 ≤ (s.dev.links.ports.get n).lastFlit) → exec (.spanFlit n.val b) s = .next s)
    ∧ (∀ (n : Fin 18) b, (s.dev.links.ports.get n).up = true → (s.dev.links.ports.get n).retraining = false →
        (s.dev.links.ports.get n).lastFlit < bytesAt b 0 4 → Gives (exec (.spanFlit n.val b) s) fun t =>
          (t.dev.links.ports.get n).lastFlit = bytesAt b 0 4 ∧ (bytesAt b 4 1 ≠ 2 → t.vc = s.vc)
          ∧ (bytesAt b 4 1 ≠ 1 → t.mem = s.mem))
    ∧ (∀ i a t, s.dev.links.outstanding[i]? = some a → s.focusOn a.node a.vcid = some t → t.vc.stopped = false → a.st ≠ .c →
      Gives (exec (.remoteTimeout i) s) fun u => u.dev.links.outstanding = s.dev.links.outstanding.eraseIdx i
        ∧ u.isStopped t.vc.id.fdom = true ∧ u.mem = s.mem ∧ u.vc.st = t.vc.st
        ∧ ∃ r : Record, u.dev.faults.records = s.dev.faults.records ++ [r] ∧ r.bits.extractLsb' 0 16 = 0x7004
          ∧ r.bits.extractLsb' 256 64 = a.va ∧ r.bits.getLsbD 55 = a.isRead)
    ∧ (∀ b, ∃ m, exec (.pldmPlatformMonitoring b) s = .next { s with dev := { s.dev with host := { h with sideband := h.sideband ++ [m] } } })
    ∧ ∀ b, ∃ m, exec (.pldmFirmwareUpdate b) s = .next { s with dev := { s.dev with
        bedrock := { s.dev.bedrock with firmware := s.dev.bedrock.firmware ++ [b] }
        host := { h with sideband := h.sideband ++ [m] } } }

/-! ### Events of Bedrock -/

/-- R364 to R368, R370, R371, R373, R470, R492, R513, R514: worlds, compartments, leaves and contexts are made and removed; a world
is sealed, destroyed and freed. A request with a reserved bit in its header is refused, and without a request nothing happens. The
layout of tables and of what is measured is the model's (logs 11, 15, 33). -/
def Obligations.WorldEvents : Prop :=
  ∀ (s : State) (pa b : Nat),
    let w := rqWorld b
    let c := rqComp b
    let wd := s.world w
    let bk := s.dev.bedrock
    let kept (u : State) : Prop := u.vc = s.vc ∧ u.others = s.others ∧ u.mem = s.mem
    let here : Prop := w < 16 ∧ wd.phase ≠ .free
    let mappable : Prop := w < 16 ∧ (wd.phase = .building ∨ wd.phase = .running)
    let hasComp : Prop := c < 8 ∧ (wd.comp c).created = true
    (∀ cmd i, (cmd, i) ∈ ([(1, .wcreate), (2, .ccreate), (3, .s2map), (4, .s2unmap), (5, .ctxreg), (6, .wseal), (7, .wdestroy), (8, .pageEvict),
        (9, .pageReturn), (0x0A, .secmsg), (0x0B, .sleep), (0x0C, .record), (0x0D, .ckpt), (0x0E, .crestore), (0x0F, .cdestroy),
        (0x10, .hrelease), (0x11, .hgrant)] : List (Nat × Instr)) →
      (bk.request = none → exec i s = .next s)
      ∧ (bk.request = some (pa, b) → rqCmd b ≠ cmd → exec i s = .next s)
      ∧ (bk.request = some (pa, b) → pa % 256 = 0 → rqCmd b = cmd → nbits b 32 32 ≠ 0 → Refuses s pa 10 (exec i s)))
    ∧ (Asked s 1 pa b →
      (16 ≤ w → Refuses s pa 2 (exec .wcreate s)) ∧ (here → Refuses s pa 1 (exec .wcreate s))
      ∧ (w < 16 → wd.phase = .free → rqOp b 2 < 4 → Obeys pa 0 0 (exec .wcreate s) fun u => kept u
        ∧ (u.world w).phase = .building ∧ (u.world w).isOpen = (rqOp b 0).testBit 0 ∧ (u.world w).quarter = rqOp b 2 ∧ (u.world w).rcb = rqOp b 1
        ∧ (u.world w).wm = 0 ∧ (∀ i < 8, ((u.world w).comp i).created = decide (i = 0)) ∧ (∀ v < 16, v ≠ w → u.world v = s.world v)
        ∧ u.dev.bedrock.leaves = bk.leaves ∧ u.dev.bedrock.frames = bk.frames))
    ∧ (Asked s 2 pa b → mappable →
      (8 ≤ c → Refuses s pa 3 (exec .ccreate s)) ∧ (hasComp → Refuses s pa 1 (exec .ccreate s))
      ∧ (c < 8 → (wd.comp c).created = false → Obeys pa 0 0 (exec .ccreate s) fun u => kept u ∧ ((u.world w).comp c).created = true
        ∧ ((u.world w).comp c).keys = (drawKeys s).1 ∧ (u.world w).phase = wd.phase ∧ ∀ i < 8, i ≠ c → (u.world w).comp i = wd.comp i))
    ∧ (Asked s 3 pa b → mappable → hasComp →
      let n := leafBytes (rqOp b 2 % 4)
      let o := rqOp b 1 % 2 ^ 47
      let prot := BitVec.ofNat 2 (nbits (rqOp b 2) 6 2)
      let l : Leaf := ⟨some w, rqOp b 0, rqOp b 2 % 4, rqOp b 1, (rqOp b 2).testBit 2, (rqOp b 2).testBit 3, (rqOp b 2).testBit 4, c, prot,
        (rqOp b 2).testBit 5⟩
      let fine : Prop := rqOp b 2 % 4 ≠ 3 ∧ rqOp b 2 / 256 = 0 ∧ prot ≠ 3 ∧ rqOp b 0 % n = 0 ∧ rqOp b 1 % n = 0
        ∧ rqOp b 0 < 2 ^ 56 ∧ rqOp b 1 < 2 ^ 56
      let clear : Prop := ∀ x ∈ bk.leaves, x.world = some w → x.ipa + leafBytes x.size ≤ rqOp b 0 ∨ rqOp b 0 + n ≤ x.ipa
      (fine → l.x = true → wd.phase = .running → Refuses s pa 6 (exec .s2map s))
      ∧ (fine → (l.x = false ∨ wd.phase = .building) → ¬ clear → Refuses s pa 14 (exec .s2map s))
      ∧ (fine → (l.x = false ∨ wd.phase = .building) → clear → rqOp b 1 / 2 ^ 47 = s.devId → o < hbmSize → s.inCarve o = false →
          s.inCarve (o + n - 1) = false → (∀ i < n / 2 ^ 16, s.frame (o / 2 ^ 16 + i) = .free) → (l.shared = true → prot = 0) → prot ≠ 2 →
          (∀ y ∈ bk.poisoned, y.1 ≠ w) →
          let wm := if l.x then measure wd.wm l.ipa (rqOp b 2 % 256) c (s.mem.bytes o n) else wd.wm
          let v := setFrames (setWorld s w { wd with wm := wm }) (o / 2 ^ 16) (n / 2 ^ 16) (.world w c prot l.shared)
          (mapLeaf v w l = none → Refuses s pa 7 (exec .s2map s))
          ∧ ∀ x, mapLeaf v w l = some x → Obeys pa 0 0 (exec .s2map s) fun u => u.mem = x.mem ∧ u.vc = s.vc ∧ u.others = s.others
            ∧ u.dev.bedrock.leaves = bk.leaves ++ [l] ∧ (u.world w).wm = wm
            ∧ (∀ i < n / 2 ^ 16, u.frame (o / 2 ^ 16 + i) = .world w c prot l.shared)
            ∧ (∀ f, (f < o / 2 ^ 16 ∨ o / 2 ^ 16 + n / 2 ^ 16 ≤ f) → u.frame f = s.frame f)))
    ∧ (Asked s 4 pa b → mappable → hasComp →
      (leafAt s w (rqOp b 0) (rqOp b 2 % 4) = none → Refuses s pa 13 (exec .s2unmap s))
      ∧ (∀ l, leafAt s w (rqOp b 0) (rqOp b 2 % 4) = some l → Obeys pa 0 0 (exec .s2unmap s) fun u =>
          u.dev.bedrock.leaves = bk.leaves.filter (· != l) ∧ u.vc = s.vc
          ∧ ∀ f0, leafFrames s l = some f0 → (∀ x ∈ bk.leaves, x ≠ l → x.world ≠ some w) → ∀ i < leafBytes l.size / 2 ^ 16,
            u.frame (f0 + i) = .free ∧ ∀ a, (f0 + i) * 2 ^ 16 ≤ a → a < (f0 + i + 1) * 2 ^ 16 → u.mem.read a = 0))
    ∧ (Asked s 5 pa b → hasComp → w < 16 →
      (wd.phase = .running → Refuses s pa 1 (exec .ctxreg s))
      ∧ (wd.phase = .building → s.ctxOf w (BitVec.ofNat 16 (rqOp b 0)) = none → Obeys pa 0 0 (exec .ctxreg s) fun u => kept u
        ∧ u.dev.bedrock.ctxs = bk.ctxs ++ [⟨BitVec.ofNat 16 (rqOp b 0), w, c, BitVec.ofNat 64 (rqOp b 1)⟩]))
    ∧ (Asked s 6 pa b → w < 16 →
      (wd.phase = .running → Refuses s pa 1 (exec .wseal s))
      ∧ (wd.phase = .building → Obeys pa 0 0 (exec .wseal s) fun u => kept u ∧ u.world w = { wd with phase := .running }
        ∧ ∀ v < 16, v ≠ w → u.world v = s.world v))
    ∧ (Asked s 7 pa b → mappable → Obeys pa 0 0 (exec .wdestroy s) fun u => (u.world w).phase = .destroying
        ∧ (∀ n ∈ u.dev.sched.nodes, n.world ≠ w) ∧ (∀ v < 16, v ≠ w → { u.world v with comps := (s.world v).comps } = s.world v))
    ∧ (∀ v < 16, (s.world v).phase = .destroying → Gives (exec (.worldFreed v) s) fun t => t.world v = worldOff
        ∧ (∀ l ∈ t.dev.bedrock.leaves, l.world ≠ some v) ∧ (∀ x ∈ t.dev.bedrock.ctxs, x.world ≠ v) ∧ t.vc = s.vc
        ∧ ∀ f p k sh, (f, Frame.world v k p sh) ∉ t.dev.bedrock.frames)
    ∧ (∀ v, (s.world v).phase ≠ .destroying → exec (.worldFreed v) s = .next s)
    ∧ (Asked s 0x0F pa b → mappable → hasComp → Obeys pa 0 0 (exec .cdestroy s) fun u => (u.world w).comp c = compOff
        ∧ (∀ l ∈ u.dev.bedrock.leaves, l.world = some w → l.keyid ≠ c) ∧ (∀ x ∈ u.dev.bedrock.ctxs, x.world = w → x.comp ≠ c))
    ∧ Gives (exec .rekey s) fun t => kept t ∧ t.dev.bedrock.leaves = bk.leaves ∧ t.dev.bedrock.frames = bk.frames
        ∧ (∀ v < 16, (t.world v).phase = (s.world v).phase ∧ (t.world v).wm = (s.world v).wm)
        ∧ ((∀ x ∈ bk.counters, x.count < Config.rekeyAt) → t = s)

/-- R366, R376, R466 to R468, R470, R512, R514: pages and compartments leave and return, and frames pass between the host and the
free list. The bytes of trailers and checkpoints are the model's (log 11). -/
def Obligations.PageEvents : Prop :=
  ∀ (s : State) (pa b : Nat),
    let w := rqWorld b
    let c := rqComp b
    let wd := s.world w
    let bk := s.dev.bedrock
    let kept (u : State) : Prop := u.vc = s.vc ∧ u.others = s.others ∧ u.mem = s.mem
    let mappable : Prop := w < 16 ∧ (wd.phase = .building ∨ wd.phase = .running)
    let hasComp : Prop := c < 8 ∧ (wd.comp c).created = true
    (Asked s 8 pa b → mappable → hasComp →
      (wd.isOpen = true → Refuses s pa 1 (exec .pageEvict s))
      ∧ (∀ l o, wd.isOpen = false → leafAt s w (rqOp b 0) 0 = some l → hostRange s (rqOp b 1) evictLen = some o → l.keyid = c →
          (leafFrames s l).isSome = true → Obeys pa ((wd.comp c).evictions + 1) 0 (exec .pageEvict s) fun u =>
            u.dev.bedrock.leaves = bk.leaves.filter (· != l) ∧ ((u.world w).comp c).evictions = (wd.comp c).evictions + 1
            ∧ u.dev.bedrock.evicted = (bk.evicted.filter fun e => ¬ (e.world = w ∧ e.comp = c ∧ e.ipa = rqOp b 0))
              ++ [⟨w, c, rqOp b 0, (wd.comp c).evictions + 1, l⟩] ∧ u.vc = s.vc
            ∧ ∀ f0, leafFrames s l = some f0 → (∀ x ∈ bk.leaves, x ≠ l → x.world ≠ some w) → l.world = some w → u.frame f0 = .free
              ∧ ∀ a, f0 * 2 ^ 16 ≤ a → a < (f0 + 1) * 2 ^ 16 → u.mem.read a = 0))
    ∧ (Asked s 9 pa b → mappable → hasComp → ∀ buf, hostRange s (rqOp b 2) evictLen = some buf → rqOp b 1 % 2 ^ 16 = 0 →
        rqOp b 1 / 2 ^ 47 = s.devId → rqOp b 1 % 2 ^ 47 < hbmSize → s.inCarve (rqOp b 1 % 2 ^ 47) = false →
        s.frame (rqOp b 1 % 2 ^ 47 / 2 ^ 16) = .free →
      let mine (e : Evicted) : Bool := e.world == w && e.comp == c && e.ipa == rqOp b 0
      let o := rqOp b 1 % 2 ^ 47
      let opened := openEvicted (wd.comp c).keys.park w c (rqOp b 0) (s.mem.bytes buf evictLen)
      let rest := bk.evicted.filter fun e => !mine e
      let fails (code : Nat) : Prop := Gives (exec .pageReturn s) fun t => ∃ u, kept u ∧ Answered pa code 0 0 u t
        ∧ (w, c, rqOp b 0 / 2 ^ 16) ∈ u.dev.bedrock.poisoned ∧ u.dev.bedrock.evicted = rest ∧ u.dev.bedrock.leaves = bk.leaves
      let clear : Prop := ∀ l ∈ bk.leaves, l.world = some w → l.ipa + leafBytes l.size ≤ rqOp b 0 ∨ rqOp b 0 + 2 ^ 16 ≤ l.ipa
      (¬ clear → Refuses s pa 14 (exec .pageReturn s))
      ∧ (clear → opened = none → fails 8)
      ∧ (∀ v page, clear → opened = some (v, page) → (∀ e, bk.evicted.find? mine = some e → e.version ≠ v) → fails 9)
      ∧ (∀ page e, clear → opened = some (e.version, page) → bk.evicted.find? mine = some e → e.leaf.prot ≠ 2 →
        let mapped := mapLeaf (setFrames (putFrame s o page) (o / 2 ^ 16) 1 (.world w c e.leaf.prot e.leaf.shared)) w { e.leaf with pa := rqOp b 1 }
        (mapped = none → Refuses s pa 7 (exec .pageReturn s))
        ∧ ∀ x, mapped = some x → Obeys pa 0 0 (exec .pageReturn s) fun u => u.mem = x.mem
          ∧ u.dev.bedrock.leaves = bk.leaves ++ [{ e.leaf with pa := rqOp b 1 }] ∧ u.dev.bedrock.evicted = rest ∧ u.vc = s.vc
          ∧ u.frame (o / 2 ^ 16) = .world w c e.leaf.prot e.leaf.shared))
    ∧ (Asked s 0x0D pa b → w < 16 → wd.phase = .running → hasComp →
      ((wd.comp c).quarantined = true → Refuses s pa 1 (exec .ckpt s))
      ∧ ((wd.comp c).quarantined = false →
        let x := ckptBytes (wd.comp c).keys.park (wd.comp c).epoch ((compLeaves s w c).flatMap (ckptFrame s))
        (hostRange s (rqOp b 0) (rqOp b 1) = none → Refuses s pa 4 (exec .ckpt s))
        ∧ ∀ o, hostRange s (rqOp b 0) (rqOp b 1) = some o →
          (rqOp b 1 < x.length → Refuses s pa 7 (exec .ckpt s))
          ∧ (x.length ≤ rqOp b 1 → s.mem.wf = true → Obeys pa x.length (wd.comp c).epoch (exec .ckpt s) fun u =>
            u.mem.bytes o x.length = x ∧ u.vc = s.vc ∧ ∀ a, (a < o ∨ o + x.length ≤ a) → u.mem.read a = s.mem.read a)))
    ∧ (Asked s 0x0E pa b → w < 16 → wd.phase = .running → hasComp →
      ((wd.comp c).quarantined = false → Refuses s pa 1 (exec .crestore s))
      ∧ ∀ o, (wd.comp c).quarantined = true → hostRange s (rqOp b 0) (rqOp b 1) = some o →
        let opened := openCkpt (wd.comp c).keys.park (s.mem.bytes o (rqOp b 1))
        (opened = none → Refuses s pa 8 (exec .crestore s))
        ∧ ∀ epoch bytes, opened = some (epoch, bytes) →
          (epoch ≠ (wd.comp c).epoch → Refuses s pa 9 (exec .crestore s))
          ∧ (epoch = (wd.comp c).epoch →
            let put := (ckptLeaves w c (bytes.length / ckptFrameLen + 1) bytes).foldl (fun t f => t.bind fun u => restoreFrame u w f) (some s)
            (put = none → Refuses s pa 7 (exec .crestore s))
            ∧ ∀ x, put = some x → Obeys pa ((wd.comp c).epoch + 1) 0 (exec .crestore s) fun u => u.mem = x.mem ∧ u.vc = s.vc
              ∧ (u.world w).comp c = { wd.comp c with quarantined := false, restored := true, epoch := (wd.comp c).epoch + 1 }
              ∧ ∀ y ∈ u.dev.bedrock.poisoned, y.1 = w → y.2.1 ≠ c))
    ∧ (∀ f n, frameRange s b = .ok (f, n) →
      (Asked s 0x10 pa b → allFrames s f n .host = false → Refuses s pa 4 (exec .hrelease s))
      ∧ (Asked s 0x10 pa b → allFrames s f n .host = true → Obeys pa 0 0 (exec .hrelease s) fun u => (∀ i < n, u.frame (f + i) = .free)
        ∧ (∀ a, u.mem.read a = if f * 2 ^ 16 ≤ a ∧ a < (f + n) * 2 ^ 16 then 0 else s.mem.read a) ∧ u.vc = s.vc)
      ∧ (Asked s 0x11 pa b → allFrames s f n .free = false → Refuses s pa 4 (exec .hgrant s))
      ∧ (Asked s 0x11 pa b → allFrames s f n .free = true → Obeys pa 0 0 (exec .hgrant s) fun u => (∀ i < n, u.frame (f + i) = .host) ∧ kept u))
    ∧ (∀ st, frameRange s b = .error st → (Asked s 0x10 pa b → Refuses s pa st (exec .hrelease s)) ∧ (Asked s 0x11 pa b → Refuses s pa st (exec .hgrant s)))

/-- R7, R361, R364, R370, R377, R379, R380, R382 to R385, R397, R398, R483, R484, R498: SPDM requests in their stages, in a secured
session under its AEAD; an owner's claim, keys and gates; a message through the mailbox; a record offered; deep sleep, lost
retention and waking; bring-up, phase by phase; a die lost; module reset. The coding of messages is the model's (log 11). -/
def Obligations.OwnerEvents : Prop :=
  ∀ (s : State),
    let bk := s.dev.bedrock
    let h := s.dev.host
    let replies (t : State) : Prop := (∃ m, t.dev.host = { h with sideband := h.sideband ++ [m] }) ∧ t.vc = s.vc ∧ t.others = s.others ∧ t.mem = s.mem
    let only (t : State) : Prop := t.dev.bedrock = { bk with sessions := t.dev.bedrock.sessions }
    let counted (id : Nat) (t : State) : Prop := (∀ j, j ≠ id → t.session j = s.session j)
      ∧ ((s.session id).secured = true → t.session id = { s.session id with count := (s.session id).count + 1 })
      ∧ ((s.session id).secured = false → t.session id = s.session id)
    (∀ id m code i, (code, i) ∈ ([(spdmVersion, .getVersion id m), (spdmCapabilities, .getCapabilities id m), (spdmAlgorithms, .negotiateAlgorithms id m),
        (spdmDigests, .getDigests id m), (spdmCertificate, .getCertificate id m), (spdmChallenge, .challenge id m),
        (spdmMeasurements, .getMeasurements id m), (spdmKeyExchange, .keyExchange id m), (spdmFinish, .finish id m),
        (spdmEnd, .endSession id m)] : List (Nat × Instr)) →
      let x := s.session id
      (x.take m = none → Gives (exec i s) fun t => replies t ∧ t.dev.bedrock = bk)
      ∧ ((x.take m).isSome = true → Gives (exec i s) fun t => replies t ∧ only t
        ∧ (t.session id).stage = (spdmStage code x.stage).getD x.stage ∧ (∀ j, j ≠ id → t.session j = s.session j)
        ∧ (x.secured = true → (t.session id).secured = true →
          (t.session id).count = x.count + 1 ∧ (t.session id).key = x.key ∧ (t.session id).keys = x.keys)))
    ∧ (∀ id m, (s.session id).take m = none → ∀ i ∈ ([.claim id m, .keyImport id m, .gateOpen id m, .gateClose id m] : List Instr),
      Gives (exec i s) fun t => replies t ∧ t.dev.bedrock = bk)
    ∧ (∀ id m b, (s.session id).take m = some b → let w := bytesAt b 0 1
      let c := bytesAt b 1 1
      let open' : Prop := (s.session id).secured = true ∧ w < 16 ∧ c < 8 ∧ (s.world w).phase = .building ∧ ((s.world w).comp c).created = true
        ∧ ((s.world w).comp c).claim = none
      (open' → Gives (exec (.claim id m) s) fun t => replies t ∧ counted id t ∧ ((t.world w).comp c).claim = some (s.session id).key
        ∧ (t.world w).wm = shake512 (bytesLE 64 (s.world w).wm.toNat ++ shake256 (s.session id).key 64)
        ∧ (∀ v < 16, v ≠ w → t.world v = s.world v) ∧ ∀ i < 8, i ≠ c → (t.world w).comp i = (s.world w).comp i)
      ∧ (¬ open' → Gives (exec (.claim id m) s) fun t => replies t ∧ counted id t ∧ only t))
    ∧ (∀ id m b, (s.session id).take m = some b → (∀ w c, (s.session id).owns s w c = false) →
      (Gives (exec (.keyImport id m) s) fun t => replies t ∧ counted id t ∧ only t)
      ∧ (Gives (exec (.gateOpen id m) s) fun t => replies t ∧ counted id t ∧ only t)
      ∧ (Gives (exec (.gateClose id m) s) fun t => counted id t ∧ only t ∧ t.dev.host = h ∧ t.vc = s.vc ∧ t.mem = s.mem))
    ∧ (∀ id m b, (s.session id).take m = some b → let w := bytesAt b 0 1
      let mine (c : Nat) : Bool := (s.session id).owns s w c
      (∀ c, c = bytesAt b 1 1 → mine c = true → (s.world w).phase = .building → Gives (exec (.keyImport id m) s) fun t => replies t
        ∧ (t.world w).comp c = { (s.world w).comp c with keys := keysOf (fitBytes 160 (b.drop 2)), imported := true })
      ∧ ((s.world w).phase = .running → let g := gateOf w (b.drop 1) (.asked (mine (bytesAt b 2 1))) id
        gateOk g = true → (mine g.srcc = true ∨ mine g.dstc = true) →
        ((bk.gates.find? fun x => x.world == w && x.no == g.no) = none → Gives (exec (.gateOpen id m) s) fun t =>
          replies t ∧ t.dev.bedrock.gates = bk.gates ++ [g])
        ∧ ∀ x bySrc, (bk.gates.find? fun x => x.world == w && x.no == g.no) = some x → x.phase = .asked bySrc → sameGate g x = true →
          mine (if bySrc then g.dstc else g.srcc) = true → Gives (exec (.gateOpen id m) s) fun t =>
            replies t ∧ { g with phase := .isOpen } ∈ t.dev.bedrock.gates)
      ∧ ((s.world w).phase = .running → Gives (exec (.gateClose id m) s) fun t => t.vc = s.vc ∧ t.mem = s.mem
          ∧ ∀ x ∈ t.dev.bedrock.gates, x.world = w → x.no = bytesAt b 1 1 → mine x.srcc = true ∨ mine x.dstc = true → ∃ l, x.phase = .closing l))
    ∧ (∀ i g l, bk.gates[i]? = some g → g.phase = .closing l →
      ((∃ x ∈ l, x ∈ worldCopies s g.world) → exec (.gateCloseAnswer i) s = .next s)
      ∧ ((∀ x ∈ l, x ∉ worldCopies s g.world) → Gives (exec (.gateCloseAnswer i) s) fun t => replies t ∧ t.dev.bedrock.gates = bk.gates.eraseIdx i))
    ∧ (∀ pa b, Asked s 0x0A pa b →
      (hostRange s (rqOp b 0) (rqOp b 1) = none → Refuses s pa 4 (exec .secmsg s))
      ∧ ∀ o, hostRange s (rqOp b 0) (rqOp b 1) = some o →
        let msg := s.mem.bytes o (rqOp b 1)
        (∀ u, closeHeld s msg = some u → exec .secmsg s = .next u ∧ u.vc = s.vc ∧ u.mem = s.mem)
        ∧ ∀ r u, closeHeld s msg = none → hostMessage s msg = (r, u) →
          u.vc = s.vc ∧ u.mem = s.mem ∧ (hostOpened s msg = none → u = s)
          ∧ (rqOp b 1 < r.length → Refuses s pa 7 (exec .secmsg s))
          ∧ (r.length ≤ rqOp b 1 → Obeys pa r.length 0 (exec .secmsg s) (· = homeWrite (dropClosed u ((hostOpened s msg).getD [])) o r)))
    ∧ (∀ pa b, Asked s 0x0C pa b → ∀ o, hostRange s (rqOp b 0) (rqOp b 1) = some o →
      let bytes := s.mem.bytes o (rqOp b 1)
      (Config.recordValid bk.record.ownerKey bytes = none → Refuses s pa 8 (exec .record s))
      ∧ ∀ seq, Config.recordValid bk.record.ownerKey bytes = some seq →
        (seq < bk.record.rollback → Refuses s pa 9 (exec .record s))
        ∧ (bk.record.rollback ≤ seq → Obeys pa seq 0 (exec .record s) fun u => (seq, bytes) ∈ u.dev.bedrock.record.copies
          ∧ u.dev.bedrock.record.copies.length = 2 ∧ u.mem = s.mem ∧ u.vc = s.vc))
    ∧ (∀ pa b, Asked s 0x0B pa b →
      let quiet : Prop := (∀ c < 8, (s.chip c).gated = true) ∧ ∀ n ∈ s.dev.sched.nodes, n.phase ≠ .running
      (¬ quiet → Refuses s pa 11 (exec .sleep s))
      ∧ (quiet → Obeys pa 0 0 (exec .sleep s) fun u =>
        u.dev.bedrock = { bk with sleep := .asleep, retention := keyWrap bk.secrets.wrapping (retained s) } ∧ u.dev.host = { h with portUp := false }
        ∧ u.dev.power.selfRefresh = .replicate 4 true ∧ u.vc = s.vc ∧ u.mem = s.mem))
    ∧ exec .retentionPowerLoss s = .next (if bk.sleep = .asleep then { s with dev := { s.dev with bedrock := { bk with sleep := .lost } } } else s)
    ∧ (bk.sleep = .awake ∨ bk.sleep = .dark ∨ (bk.sleep = .lost ∧ h.ready = false) → exec .wake s = .next s)
    ∧ (let boot := bootSecrets bk.record
      let held : Prop := keyUnwrap boot.wrapping bk.retention = some (retained s) ∧ ∀ i < 12, Config.stackKept s.steps i = true
      (bk.sleep = .asleep → held → Gives (exec .wake s) fun t =>
        t.dev.bedrock = { bk with secrets := boot, sleep := .awake, retention := [] } ∧ t.dev.host.portUp = true
        ∧ t.dev.power.selfRefresh = .replicate 4 false ∧ t.vc = s.vc ∧ t.others = s.others ∧ t.mem = s.mem)
      ∧ ((bk.sleep = .asleep ∧ ¬ held) ∨ (bk.sleep = .lost ∧ h.ready = true) → Gives (exec .wake s) fun t =>
        (∀ v < 16, (t.world v).phase = .free) ∧ t.dev.bedrock.sleep = .awake ∧ t.dev.bedrock.wlost = true ∧ t.dev.bedrock.status = 12
        ∧ t.dev.bedrock.seq = bk.seq + 1 ∧ t.dev.bedrock.ctxs = [] ∧ t.dev.bedrock.sessions = [] ∧ t.dev.host.portUp = true))
    ∧ (h.ready = true → exec .powerGood s = .next s)
    ∧ (h.ready = false → h.phase ≠ 0 → Gives (exec .powerGood s) fun t =>
        (h.phase.toNat < 5 → t.dev.host.phase = h.phase + 1 ∧ t.dev.host.ready = false ∧ t.vc = s.vc ∧ t.mem = s.mem)
        ∧ (h.phase = 1 → s.dev.time ≤ t.dev.time) ∧ (h.phase ≠ 1 → t.dev.time = s.dev.time)
        ∧ (h.phase = 2 → t.dev.bedrock.frameDefault = .host ∧ t.dev.bedrock.frames = [] ∧ t.dev.host.carve = bk.record.carve)
        ∧ (h.phase = 3 → t.dev.host.portUp = true) ∧ (h.phase = 4 → t.dev.host.devnum = Config.devnum)
        ∧ (5 ≤ h.phase.toNat → t.dev.host.ready = true))
    ∧ (h.ready = false → h.phase = 0 → imageRuns s (selectRecord bk.record) 0 = false ∨ imageRuns s (selectRecord bk.record) 1 = false →
      exec .powerGood s = .next s)
    ∧ (h.ready = false → h.phase = 0 → bk.firmware = [] → (∀ k < 2, (selectRecord bk.record).versions.getD k 0 = 0) →
      Gives (exec .powerGood s) fun t => t.dev.host.phase = 1
        ∧ t.dev.bedrock.measurements.map (·.1) = [1, 2, 3, 4]
        ∧ (2, digest (Config.image 0 []).1) ∈ t.dev.bedrock.measurements ∧ (3, digest (Config.image 1 []).1) ∈ t.dev.bedrock.measurements
        ∧ t.dev.host.cpres = t.dev.bedrock.record.harvest
        ∧ t.dev.host.idtag = BitVec.ofNat 64 (natLE (shake256 t.dev.bedrock.secrets.identity 8)) ∧ t.vc = s.vc ∧ t.mem = s.mem)
    ∧ (Gives (exec .moduleReset s) fun t => t.vc = vcoreAbsent ∧ t.others = [] ∧ t.mem = [] ∧ t.dev.time = s.dev.time
        ∧ t.dev.sched = { schedReset with tick := s.dev.sched.tick } ∧ t.dev.power = powerReset
        ∧ t.dev.host = hostReset ∧ t.dev.links = linksReset ∧ t.dev.faults = faultsReset
        ∧ t.dev.bedrock.record.copies = bk.record.copies ∧ t.dev.bedrock.record.harvest = bk.record.harvest ∧ t.dev.bedrock.firmware = bk.firmware ∧ t.dev.bedrock.worlds = .replicate 16 worldOff)
    ∧ (∀ i, i < 8 → Gives (exec (.dieFatalError i) s) fun t => (t.chip i).offline = true ∧ (t.chip i).fatal = true)
    ∧ (Gives (exec (.dieFatalError 12) s) fun t => t.dev.sched.nodes = [] ∧ t.vc = vcoreAbsent ∧ t.others = [] ∧ t.dev.host.portUp = false
        ∧ t.dev.power.selfRefresh = .replicate 4 true ∧ t.dormant = true)
    ∧ ∀ i, 12 < i → exec (.dieFatalError i) s = .next s

/-- R7, R323, R491, R350, R363, R364, R369, R390, R391, R395, R418, R477, R478: the values that the Reset columns give the
registers, read by the physical function; every world FREE; memory and SCRATCH in canonical form. -/
def Obligations.ResetState : Prop :=
  (∀ off v, (off, v) ∈ ([(0x4000000, 0), (0x4000008, 0x2004), (0x4000010, 0),
      (0x5000000, 0x1900000000), (0x5000008, 0x80), (0x5000010, 0x21), (0x5000018, 0x0A0A0A0A0A0A0A0A), (0x5000020, 0), (0x5000028, 0),
      (0x5000030, 0), (0x6000008, 0), (0x7000010, 0), (0x8000010, 0), (0xA000000, 0), (0xA000010, 0), (0xA000018, 16), (0xA000020, 0),
      (0xA000028, 0), (0xA000030, 0), (0xA000038, 0)] : List (Nat × Nat)) →
    (devRead State.reset .pf off 8).1 = v ∧ (devRead State.reset .pf off 8).2 = State.reset)
  ∧ (∀ n, 1 ≤ n → n ≤ 63 → (devRead State.reset .pf (0x8000100 + 8 * n) 8).1 = 0)
  ∧ (∀ n, n < 18 → (devRead State.reset .pf (0x9000000 + 8 * n) 8).1 = 0)
  ∧ (∀ i, i < 64 → (devRead State.reset .pf (0xA001000 + 8 * i) 8).1 = 0)
  ∧ (∀ w < 16, (State.reset.world w).phase = .free)
  ∧ Intact State.reset

/-- R34, R60, R140, R332, R432: a step runs the word of the stream whose turn it is, decoded; an event of the part is a step of its
own (log 2). What the model adds around the meaning: an event that comes before the phase of bring-up that brings it changes
nothing; after it the next turn, the count of steps, and time, which never runs back. And where a stream stands at a word of
executable home memory, no copy of it in the instruction cache, that word is the four, eight or sixteen bytes at its program
counter. Under a fair schedule, the turns by which R60's parties move on come again and again in every run. In deep sleep the device
takes the wake request, the loss of retention and module reset alone. -/
def Obligations.StepRunsDecodedWord : Prop :=
  ∀ (s : State),
    (∀ core st s1 x i, s.dormant = false → s.turn = .stream core st → turnWord s core st = .word s1 x → decode x = .ok i → step s = settle s.steps (exec i s1))
    ∧ (∀ i, s.dormant = false → s.turn = .event i → encode i = none →
      step s = settle s.steps (if heard s i then exec i s else .next s))
    ∧ (s.dormant = true → (∀ core st, s.turn = .stream core st → step s = settle s.steps (.next s))
      ∧ ∀ i, s.turn = .event i → i ≠ .tickBoundary →
        step s = settle s.steps (if i = .wake ∨ i = .retentionPowerLoss ∨ i = .moduleReset then exec i s else .next s))
    ∧ (∀ n, Gives (settle n (.next s)) fun u =>
      u = { endReading s with turn := Config.schedule n, steps := n + 1, dev := { s.dev with time := u.dev.time } }
      ∧ s.dev.time ≤ u.dev.time)
    ∧ (∀ core st s1 pa ipa k pr, s.focusCore core = some s1 →
      s1.dev.power.clusterGated.toList.getD (core / 8) false = false → s1.vc.stopped = false →
      (s1.vc.id.gang && (s1.vc.ended || gangApart s1)) = false → isDelivered s1 st = false → (s1.stream st).halted = false →
      (s1.stream st).point = none → (s1.stream st).loop = none → (st = .s → (s1.stream st).pc.extractLsb' 0 2 = 0) →
      placeOf s1 s1.who accFetch (s1.stream st).pc st.bytes none = .ok (.home pa ipa k pr) →
      heldBlock s1 st (blockOf s1.devId pa) = none → macFaults s1 false pa st.bytes ipa = none → homeDataFault s1 pa (s1.stream st).pc 0 = none →
      turnWord s core st = .word (noteStart (afterFetch s1 st (s1.stream st).pc st.bytes)) (codeOf st (s1.mem.load pa st.bytes)))
    ∧ (FairSchedule → ∀ run : Nat → State, (∀ n, step (run n) = .next (run (n + 1))) →
      ∀ x : Turn, x.promised = true → ∀ n, ∃ m, n ≤ m ∧ (run m).turn = x)

/-- R408, R430, R432, R433: ILLEGAL_OP is what a word raises whose OP, or whose FN under the OPs that FN selects in, its map does
not list, and no other word; the words of R433's table; an illegal word faults before any effect, an engine word once its WAIT is
satisfied, with its code's status, ADDR zero and INFO, or with RESERVED_CODE where it also meets a lower reserved code in the state
(an FCTL mode, an entry size, a kind); a load of a latch bank leaves its bank empty (R409); one whose WAIT is not satisfied stays,
waiting. -/
def Obligations.IllegalWords : Prop :=
  (∀ x, (decode x = .illegal ⟨.illegalOp, 0⟩ ↔ ¬ Assigned x))
  ∧ (∀ x e, decode x = .illegal e → 0x1001 ≤ e.code.status ∧ e.code.status ≤ 0x1006)
  ∧ (∀ c x, (c, x) ∈ ([(0x1001, .s 0x000000FF), (0x1002, .s 0x405187E2), (0x1004, .s 0x42800000), (0x1003, .s 0x88003000),
      (0x1001, .v 0x8F00000000000000), (0x1002, .v 0x0180030390000000)] : List (BitVec 16 × Code)) →
    ∃ e, decode x = .illegal e ∧ e.code.status = c)
  ∧ ∀ (s : State) x e, decode x = .illegal e →
    let lower : Prop := stateReserved s x = true ∧ 0x1002 < e.code.status.toNat
    let s0 := if loadsLatch x then setLatch s s.vc.st.nextBank .empty else s
    (Waited s (codeClauses x) → ¬ lower → Gives (runWord s x) fun t => FaultsAt s0 t (codeStream x) e.code.status 0 e.info)
    ∧ (Waited s (codeClauses x) → lower → Gives (runWord s x) fun t => FaultsAt s0 t (codeStream x) 0x1002 0 0)
    ∧ (waitMet s (codeStream x) (codeClauses x) = false →
      runWord s x = .next (s.setWait (codeStream x) 0 (codeClauses x).wi ((codeClauses x).wn.setWidth 16)))

/-- R171 to R190: words written out from their layouts, and the instructions that they stand for. -/
def Obligations.DecodedWords : Prop :=
  decode (.s 0x04500010) = .ok (.addi 5 0 16)
  ∧ decode (.s 0x81FFFFFF) = .ok (.pbt 3 0x7FFFFF)
  ∧ decode (.s 0x01214658) = .ok (.cmp 2 2 5 6)
  ∧ decode (.s 0x89A40000) = .ok (.br 3 2 1)
  ∧ decode (.s 0x00000000) = .ok (.add 0 0 0)
  ∧ decode (.s 0x60519010) = .ok (.ld 5 6 2 16)
  ∧ decode (.s 0x4051872A) = .ok (.fmul 5 6 7 1 1)
  ∧ decode (.s 0xA4400001) = .ok (.semadd 4 0 1)
  ∧ decode (.s 0xC8000006) = .ok .ifence
  ∧ decode (.v 0x308001A400000000) = .ok (.vld ⟨false, 8, 0, 1, 82, 0, 0, ⟨0, 0, 0, 0⟩⟩)
  ∧ decode (.v 0x0280030208000000) = .ok (.vsub ⟨false, 8, 0, 3, 1, 2, 0, ⟨0, 0, 0, 0⟩⟩)
  ∧ decode (.v 0x7300000000000000) = .ok (.haltE ⟨.v, ⟨false, 0, 0, 0, 0, 0, 0, ⟨0, 0, 0, 0⟩⟩⟩)
  ∧ decode (.m 0) = .ok (.nop .m ⟨0, 0, 0, 0⟩)
  ∧ decode (.c 0) = .ok (.nop .c ⟨0, 0, 0, 0⟩)

/-- R170 to R190: for every instruction of the four streams, with every operand at every value that its encoding admits, decoding the
encoded word gives the instruction back; and a word that decodes is the encoding of what it decodes to, which is well formed. -/
def Obligations.DecodeEncode : Prop :=
  (∀ i x, encode i = some x → WellFormed i → decode x = .ok i)
  ∧ ∀ i x, decode x = .ok i → encode i = some x ∧ WellFormed i

/-- Home memory and SCRATCH keep their canonical form over every step, from every state that has it, whatever agent moves. -/
def Obligations.InvariantKept : Prop :=
  ∀ (s : State), Intact s → Gives (step s) Intact
end

