-- ==== Sys2Proof/Laws/Crypto.lean ====
section
/-! SUPPORT. Counter mode undoes itself, so what AES-256-GCM has sealed opens (R376, R467); numbers survive their bytes; and a sealed
page opens for the page that its trailer names and for no other. -/

namespace Sys2Proof.Machine

namespace CryptoLaws

theorem length_bytesLE (n v : Nat) : (bytesLE n v).length = n := by
  induction n generalizing v with
  | zero => rfl
  | succ n ih => simp [bytesLE, ih]

theorem natLE_bytesLE (n v : Nat) (h : v < 256 ^ n) : natLE (bytesLE n v) = v := by
  induction n generalizing v with
  | zero => simp at h; simp [bytesLE, natLE, h]
  | succ n ih =>
    have hv : v / 256 < 256 ^ n := Nat.div_lt_of_lt_mul (by rwa [pow_succ, Nat.mul_comm] at h)
    simp only [bytesLE, natLE, ih _ hv, BitVec.toNat_ofNat]
    omega

theorem length_fitBytes (n : Nat) (l : List Byte) : (fitBytes n l).length = n := by simp [fitBytes]

theorem fitBytes_self {n : Nat} {l : List Byte} (h : l.length = n) : fitBytes n l = l := by
  subst h; simp [fitBytes]

/-! ### Counter mode -/

theorem length_xorBytes (a b : List Byte) : (xorBytes a b).length = min a.length b.length := List.length_zipWith ..

/-- Exclusive or with the same bytes twice. -/
theorem xor_twice : ∀ {a k : List Byte}, a.length ≤ k.length → xorBytes (xorBytes a k) k = a
  | [], _, _ => rfl
  | a :: l, [], h => by simp at h
  | a :: l, x :: k, h => by
    have g : xorBytes (xorBytes l k) k = l := xor_twice (by simpa using h)
    show ((a ^^^ x) ^^^ x) :: xorBytes (xorBytes l k) k = a :: l
    rw [g, BitVec.xor_assoc, BitVec.xor_self, BitVec.xor_zero]

/-- Blocks of 16 bytes, each under its own 16 key bytes. -/
def stream (k : Nat → List Byte) (f n : Nat) (l : List Byte) : List Byte :=
  ((chunks 16 f l).zipIdx n).flatMap fun b => xorBytes b.1 (k b.2)

theorem stream_nil (k : Nat → List Byte) (f n : Nat) : stream k f n [] = [] := by cases f <;> rfl

theorem stream_cons (k : Nat → List Byte) (f n : Nat) {l : List Byte} (h : l ≠ []) :
    stream k (f + 1) n l = xorBytes (l.take 16) (k n) ++ stream k f (n + 1) (l.drop 16) := by
  cases l with
  | nil => exact absurd rfl h
  | cons a l => simp [stream, chunks, List.zipIdx_cons]

variable {k : Nat → List Byte} (hk : ∀ n, (k n).length = 16)
include hk

theorem length_stream (f n : Nat) (l : List Byte) (h : l.length < 16 * f) : (stream k f n l).length = l.length := by
  induction f generalizing n l with
  | zero => omega
  | succ f ih =>
    by_cases e : l = []
    · subst e; rw [stream_nil]
    · rw [stream_cons k f n e, List.length_append, length_xorBytes, hk]
      by_cases g : l.length < 16
      · rw [List.drop_of_length_le (by omega), stream_nil]; simp; omega
      · rw [ih _ _ (by simp; omega)]; simp; omega

theorem stream_twice (f n : Nat) (l : List Byte) (h : l.length < 16 * f) : stream k f n (stream k f n l) = l := by
  induction f generalizing n l with
  | zero => omega
  | succ f ih =>
    by_cases e : l = []
    · subst e; rw [stream_nil, stream_nil]
    · rw [stream_cons k f n e]
      by_cases g : l.length ≤ 16
      · rw [List.drop_of_length_le g, stream_nil, List.append_nil, List.take_of_length_le g]
        have m : (xorBytes l (k n)).length = l.length := by rw [length_xorBytes, hk]; omega
        have e' : xorBytes l (k n) ≠ [] := fun c => e (by
          have := congrArg List.length c; rw [m] at this; exact List.eq_nil_of_length_eq_zero this)
        rw [stream_cons k f n e', List.take_of_length_le (by omega), List.drop_of_length_le (by omega), stream_nil,
          List.append_nil, xor_twice (by rw [hk]; exact g)]
      · have m : (xorBytes (l.take 16) (k n)).length = 16 := by rw [length_xorBytes, hk]; simp; omega
        have e' : xorBytes (l.take 16) (k n) ++ stream k f (n + 1) (l.drop 16) ≠ [] := fun c => by
          have := congrArg List.length c; rw [List.length_append, m] at this; simp at this
        rw [stream_cons k f n e', List.take_left' m, List.drop_left' m, xor_twice (by simp [hk]), ih _ _ (by simp; omega),
          List.take_append_drop]

omit hk

/-- A block under 15 round keys whose last has 16 bytes. -/
theorem length_aesRounds {ks : List (List Nat)} (h : (ks.getD 14 []).length = 16) (b : List Byte) : (aesRounds ks b).length = 16 := by
  unfold aesRounds
  rw [List.length_map, List.length_zipWith, h]
  simp [aesSubShift]

theorem gcmCtr_eq (ks : List (List Nat)) (iv : List Byte) (c : Nat) (l : List Byte) :
    gcmCtr ks iv c l = stream (fun i => aesRounds ks (iv ++ bytesBE 4 ((c + i) % 2 ^ 32))) (l.length / 16 + 1) 0 l := rfl

theorem length_gcmCtr {ks : List (List Nat)} (h : (ks.getD 14 []).length = 16) (iv : List Byte) (c : Nat) (l : List Byte) :
    (gcmCtr ks iv c l).length = l.length := by
  rw [gcmCtr_eq, length_stream (fun _ => length_aesRounds h _) _ _ _ (by omega)]

theorem gcmCtr_twice {ks : List (List Nat)} (h : (ks.getD 14 []).length = 16) (iv : List Byte) (c : Nat) (l : List Byte) :
    gcmCtr ks iv c (gcmCtr ks iv c l) = l := by
  rw [gcmCtr_eq ks iv c (gcmCtr ks iv c l), length_gcmCtr h, gcmCtr_eq ks iv c l,
    stream_twice (fun _ => length_aesRounds h _) _ _ _ (by omega)]

theorem length_gcmTag {ks : List (List Nat)} (h : (ks.getD 14 []).length = 16) (iv l : List Byte) : (gcmTag ks iv l).length = 16 := by
  rw [gcmTag, length_xorBytes, length_aesRounds h]; simp [ghash, bytesBE, length_bytesLE]

theorem gcmSeal_eq (key : List Byte) (nonce : Nat) (l : List Byte) : gcmSeal key nonce l =
    (gcmCtr (aesKeys key) (bytesBE 12 nonce) 2 l,
      gcmTag (aesKeys key) (bytesBE 12 nonce) (gcmCtr (aesKeys key) (bytesBE 12 nonce) 2 l)) := by
  unfold gcmSeal
  rfl

/-- What is sealed opens. -/
theorem gcmOpen_seal {key : List Byte} (h : ((aesKeys key).getD 14 []).length = 16) (nonce : Nat) (l : List Byte) :
    gcmOpen key nonce (gcmSeal key nonce l).1 (gcmSeal key nonce l).2 = some l := by
  simp only [gcmOpen, gcmSeal, if_true, gcmCtr_twice h]

/-! ### Evicted pages -/

theorem trailer_at (w c ipa v : Nat) (tag : List Byte) (ht : tag.length = 16) :
    ∃ rest, evictTrailer w c ipa v tag = (bytesLE 1 w ++ bytesLE 7 c) ++ (bytesLE 8 ipa ++ (bytesLE 8 v ++ (tag ++ rest))) := by
  refine ⟨List.replicate 216 0, ?_⟩
  unfold evictTrailer
  rw [fitBytes_self ht, fitBytes, List.take_append]
  simp only [List.length_append, length_bytesLE, ht]
  rw [List.take_of_length_le (by simp [length_bytesLE, ht])]
  simp only [List.append_assoc, List.take_replicate]
  rfl

theorem trailer_ipa (w c ipa v : Nat) (tag : List Byte) (h : ipa < 2 ^ 64) : bytesAt (evictTrailer w c ipa v tag) 8 8 = ipa := by
  have e : evictTrailer w c ipa v tag = evictTrailer w c ipa v (fitBytes 16 tag) := by
    unfold evictTrailer; rw [fitBytes_self (length_fitBytes 16 tag)]
  obtain ⟨r, g⟩ := trailer_at w c ipa v (fitBytes 16 tag) (length_fitBytes _ _)
  rw [e, g, bytesAt, List.drop_left' (by simp [length_bytesLE]), List.take_left' (length_bytesLE 8 ipa), natLE_bytesLE _ _ h]

theorem drop_sealed {n : Nat} {x b : List Byte} (t : List Byte) (h : x.length = n) (e : b = fitBytes n x ++ t) : b.drop n = t := by
  rw [e, fitBytes_self h, List.drop_left' h]

theorem take_sealed {n : Nat} {x b : List Byte} (t : List Byte) (h : x.length = n) (e : b = fitBytes n x ++ t) : b.take n = x := by
  rw [e, fitBytes_self h, List.take_left' h]

/-- A page that Bedrock has evicted opens as it was, with its version. -/
theorem openEvicted_evict {key : List Byte} (h : ((aesKeys key).getD 14 []).length = 16) (w c ipa v : Nat) (page : List Byte)
    (hp : page.length = 2 ^ 16) (hv : v < 2 ^ 64) : openEvicted key w c ipa (evictBuffer key w c ipa v page) = some (v, page) := by
  have hl : (gcmSeal key v page).1.length = 2 ^ 16 := by
    rw [gcmSeal_eq, length_gcmCtr h, hp]
  have ht : (gcmSeal key v page).2.length = 16 := by
    rw [gcmSeal_eq, length_gcmTag h]
  obtain ⟨r, g⟩ := trailer_at w c ipa v (gcmSeal key v page).2 ht
  have hd : (evictBuffer key w c ipa v page).drop (2 ^ 16) = evictTrailer w c ipa v (gcmSeal key v page).2 :=
    drop_sealed _ hl rfl
  have htk : (evictBuffer key w c ipa v page).take (2 ^ 16) = (gcmSeal key v page).1 :=
    take_sealed _ hl rfl
  have hver : bytesAt (evictTrailer w c ipa v (gcmSeal key v page).2) 16 8 = v := by
    rw [g, bytesAt, ← List.append_assoc, List.drop_left' (by simp [length_bytesLE]), List.take_left' (length_bytesLE 8 v),
      natLE_bytesLE _ _ hv]
  have htag : ((evictTrailer w c ipa v (gcmSeal key v page).2).drop 24).take 16 = (gcmSeal key v page).2 := by
    rw [g, ← List.append_assoc, ← List.append_assoc, List.drop_left' (by simp [length_bytesLE]), List.take_left' ht]
  unfold openEvicted
  simp only [hd, htk, hver, htag, if_true, gcmOpen_seal h, Option.map_some]

/-- A buffer opens only for the address that its trailer names. -/
theorem openEvicted_other {key : List Byte} {w c ipa : Nat} {buf : List Byte} (h : ipa < 2 ^ 64)
    (hb : bytesAt (buf.drop (2 ^ 16)) 8 8 ≠ ipa) : openEvicted key w c ipa buf = none := by
  unfold openEvicted
  dsimp only
  split
  · next e => rw [e, trailer_ipa _ _ _ _ _ h] at hb; exact absurd rfl hb
  · rfl

/-! ### Checkpoints -/

theorem length_keccakF (a : List (BitVec 64)) (h : a.length = 25) : (keccakF a).length = 25 := by
  unfold keccakF
  generalize keccakRc = l
  induction l generalizing a with
  | nil => exact h
  | cons r l ih => exact ih _ (by simp [keccakRound])

theorem length_absorb (l : List (List Byte)) (a : List (BitVec 64)) (h : a.length = 25) : (l.foldl keccakAbsorb a).length = 25 := by
  induction l generalizing a with
  | nil => exact h
  | cons b l ih => exact ih _ (length_keccakF _ (by simp))

theorem length_lanes (l : List (BitVec 64)) : (l.flatMap fun v => bytesLE 8 v.toNat).length = 8 * l.length := by
  induction l with
  | nil => rfl
  | cons a l ih => rw [List.flatMap_cons, List.length_append, length_bytesLE, ih, List.length_cons]; omega

/-- A sponge gives as many bytes as it is asked for, up to its rate. -/
theorem length_sponge (dom : Nat) (msg : List Byte) {n : Nat} (h : n ≤ 136) : (sponge dom msg n).length = n := by
  unfold sponge keccakSqueeze
  rw [if_pos h, List.length_take, length_lanes, List.length_take, length_absorb _ _ List.length_replicate]
  omega

theorem length_kmac256 (key msg : List Byte) : (kmac256 key msg 32).length = 32 := length_sponge _ _ (by decide)

/-- Bytes of a checkpoint beyond its frames. -/
theorem length_ckptBytes {key : List Byte} (h : ((aesKeys key).getD 14 []).length = 16) (epoch : Nat) (l : List Byte) :
    (ckptBytes key epoch l).length = l.length + ckptTail := by
  unfold ckptBytes ckptTail
  rw [gcmSeal_eq]
  simp only [List.length_append, length_gcmCtr h, length_gcmTag h, length_bytesLE, length_kmac256]

/-- A checkpoint that Bedrock has written opens as it was, with its epoch. -/
theorem openCkpt_ckpt {key : List Byte} (h : ((aesKeys key).getD 14 []).length = 16) {epoch : Nat} (he : epoch < 2 ^ 64) (l : List Byte) :
    openCkpt key (ckptBytes key epoch l) = some (epoch, l) := by
  have hl := length_ckptBytes h epoch l
  have hc : (gcmSeal key epoch l).1.length = l.length := by rw [gcmSeal_eq, length_gcmCtr h]
  have ht : (gcmSeal key epoch l).2.length = 16 := by rw [gcmSeal_eq, length_gcmTag h]
  have hb : ((gcmSeal key epoch l).1 ++ (gcmSeal key epoch l).2).length = l.length + 16 := by rw [List.length_append, hc, ht]
  have hbody : ((gcmSeal key epoch l).1 ++ (gcmSeal key epoch l).2 ++ bytesLE 8 epoch).length = l.length + 24 := by
    rw [List.length_append, hb, length_bytesLE]
  have e : ckptBytes key epoch l = ((gcmSeal key epoch l).1 ++ (gcmSeal key epoch l).2 ++ bytesLE 8 epoch)
      ++ kmac256 key ((gcmSeal key epoch l).1 ++ (gcmSeal key epoch l).2 ++ bytesLE 8 epoch) 32 := by unfold ckptBytes; rfl
  have hn : (ckptBytes key epoch l).length - ckptTail = l.length := by omega
  unfold openCkpt
  rw [hn]
  have h1 : (ckptBytes key epoch l).drop (l.length + 24) = kmac256 key ((ckptBytes key epoch l).take (l.length + 24)) 32 := by
    rw [e, List.drop_left' hbody, List.take_left' hbody]
  have h2 : bytesAt (ckptBytes key epoch l) (l.length + 16) 8 = epoch := by
    unfold bytesAt
    rw [e, List.append_assoc, List.drop_left' hb, List.take_left' (length_bytesLE 8 epoch), natLE_bytesLE _ _ he]
  have h3 : (ckptBytes key epoch l).take l.length = (gcmSeal key epoch l).1 := by
    rw [e, List.append_assoc, List.append_assoc, List.take_left' hc]
  have h4 : ((ckptBytes key epoch l).drop l.length).take 16 = (gcmSeal key epoch l).2 := by
    rw [e, List.append_assoc, List.append_assoc, List.drop_left' hc, List.take_left' ht]
  rw [if_pos ⟨by omega, h1⟩, h2, h3, h4, gcmOpen_seal h]
  rfl

end CryptoLaws

end Sys2Proof.Machine
end

