-- ==== Sys2Proof/Laws/State.lean ====
section
/-! SUPPORT. What each update of the state leaves and gives, one lemma for each field and update, true by unfolding. -/

namespace Sys2Proof.Machine

variable (s : State) (r : Regs) (x : Store) (d : Device) (st : StreamId) (y : Stream)

@[simp] theorem State.setRegs_regs : (s.setRegs r).vc.regs = r := rfl
@[simp] theorem State.setRegs_st : (s.setRegs r).vc.st = s.vc.st := rfl
@[simp] theorem State.setRegs_sS : (s.setRegs r).vc.sS = s.vc.sS := rfl
@[simp] theorem State.setRegs_sV : (s.setRegs r).vc.sV = s.vc.sV := rfl
@[simp] theorem State.setRegs_sM : (s.setRegs r).vc.sM = s.vc.sM := rfl
@[simp] theorem State.setRegs_sC : (s.setRegs r).vc.sC = s.vc.sC := rfl
@[simp] theorem State.setRegs_id : (s.setRegs r).vc.id = s.vc.id := rfl
@[simp] theorem State.setRegs_res : (s.setRegs r).vc.res = s.vc.res := rfl
@[simp] theorem State.setRegs_delay : (s.setRegs r).vc.delay = s.vc.delay := rfl
@[simp] theorem State.setRegs_ni : (s.setRegs r).vc.ni = s.vc.ni := rfl
@[simp] theorem State.setRegs_mem : (s.setRegs r).mem = s.mem := rfl
@[simp] theorem State.setRegs_dev : (s.setRegs r).dev = s.dev := rfl
@[simp] theorem State.setRegs_others : (s.setRegs r).others = s.others := rfl
@[simp] theorem State.setRegs_turn : (s.setRegs r).turn = s.turn := rfl
@[simp] theorem State.setRegs_steps : (s.setRegs r).steps = s.steps := rfl

@[simp] theorem State.setStore_st : (s.setStore x).vc.st = x := rfl
@[simp] theorem State.setStore_regs : (s.setStore x).vc.regs = s.vc.regs := rfl
@[simp] theorem State.setStore_sS : (s.setStore x).vc.sS = s.vc.sS := rfl
@[simp] theorem State.setStore_sV : (s.setStore x).vc.sV = s.vc.sV := rfl
@[simp] theorem State.setStore_sM : (s.setStore x).vc.sM = s.vc.sM := rfl
@[simp] theorem State.setStore_sC : (s.setStore x).vc.sC = s.vc.sC := rfl
@[simp] theorem State.setStore_id : (s.setStore x).vc.id = s.vc.id := rfl
@[simp] theorem State.setStore_res : (s.setStore x).vc.res = s.vc.res := rfl
@[simp] theorem State.setStore_delay : (s.setStore x).vc.delay = s.vc.delay := rfl
@[simp] theorem State.setStore_mem : (s.setStore x).mem = s.mem := rfl
@[simp] theorem State.setStore_dev : (s.setStore x).dev = s.dev := rfl
@[simp] theorem State.setStore_others : (s.setStore x).others = s.others := rfl
@[simp] theorem State.setStore_turn : (s.setStore x).turn = s.turn := rfl
@[simp] theorem State.setStore_steps : (s.setStore x).steps = s.steps := rfl

@[simp] theorem State.setDev_dev : (s.setDev d).dev = d := rfl
@[simp] theorem State.setDev_vc : (s.setDev d).vc = s.vc := rfl
@[simp] theorem State.setDev_mem : (s.setDev d).mem = s.mem := rfl
@[simp] theorem State.setDev_others : (s.setDev d).others = s.others := rfl
@[simp] theorem State.setDev_turn : (s.setDev d).turn = s.turn := rfl
@[simp] theorem State.setDev_steps : (s.setDev d).steps = s.steps := rfl

@[simp] theorem State.setStream_same : (s.setStream st y).stream st = y := by cases st <;> rfl
theorem State.setStream_other {a b : StreamId} (h : a ≠ b) : (s.setStream a y).stream b = s.stream b := by
  cases a <;> cases b <;> first | rfl | exact absurd rfl h
@[simp] theorem State.setStream_regs : (s.setStream st y).vc.regs = s.vc.regs := by cases st <;> rfl
@[simp] theorem State.setStream_st : (s.setStream st y).vc.st = s.vc.st := by cases st <;> rfl
@[simp] theorem State.setStream_id : (s.setStream st y).vc.id = s.vc.id := by cases st <;> rfl
@[simp] theorem State.setStream_res : (s.setStream st y).vc.res = s.vc.res := by cases st <;> rfl
@[simp] theorem State.setStream_delay : (s.setStream st y).vc.delay = s.vc.delay := by cases st <;> rfl
@[simp] theorem State.setStream_ni : (s.setStream st y).vc.ni = s.vc.ni := by cases st <;> rfl
@[simp] theorem State.setStream_mem : (s.setStream st y).mem = s.mem := rfl
@[simp] theorem State.setStream_dev : (s.setStream st y).dev = s.dev := rfl
@[simp] theorem State.setStream_others : (s.setStream st y).others = s.others := rfl
@[simp] theorem State.setStream_turn : (s.setStream st y).turn = s.turn := rfl
@[simp] theorem State.setStream_steps : (s.setStream st y).steps = s.steps := rfl

@[simp] theorem State.setNi_mem : s.setNi.mem = s.mem := rfl
@[simp] theorem State.setNi_dev : s.setNi.dev = s.dev := rfl
@[simp] theorem State.setNi_regs : s.setNi.vc.regs = s.vc.regs := rfl
@[simp] theorem State.setNi_st : s.setNi.vc.st = s.vc.st := rfl
@[simp] theorem State.setNi_ni : s.setNi.vc.ni = true := rfl

variable (mk : Marks)

@[simp] theorem State.setMarks_st : (s.setMarks mk).vc.st = { s.vc.st with marks := mk } := rfl
@[simp] theorem State.setMarks_regs : (s.setMarks mk).vc.regs = s.vc.regs := rfl
@[simp] theorem State.setMarks_stream : (s.setMarks mk).stream st = s.stream st := by cases st <;> rfl
@[simp] theorem State.setMarks_mem : (s.setMarks mk).mem = s.mem := rfl
@[simp] theorem State.setMarks_dev : (s.setMarks mk).dev = s.dev := rfl
@[simp] theorem State.setMarks_others : (s.setMarks mk).others = s.others := rfl

@[simp] theorem State.selectDue_due : s.selectDue.dev.sched.due = true := rfl
@[simp] theorem State.selectDue_vc : s.selectDue.vc = s.vc := rfl
@[simp] theorem State.selectDue_mem : s.selectDue.mem = s.mem := rfl
@[simp] theorem State.selectDue_others : s.selectDue.others = s.others := rfl
@[simp] theorem State.selectDue_faults : s.selectDue.dev.faults = s.dev.faults := rfl
@[simp] theorem State.selectDue_nodes : s.selectDue.dev.sched.nodes = s.dev.sched.nodes := rfl

/-- The first instruction of a node moves that node's START alone. -/
theorem noteStart_eq : noteStart s = { s with dev := { s.dev with sched := { s.dev.sched with nodes := (noteStart s).dev.sched.nodes } } } := by
  unfold noteStart; split
  · split <;> rfl
  · rfl

@[simp] theorem noteStart_vc : (noteStart s).vc = s.vc := by rw [noteStart_eq]
@[simp] theorem noteStart_mem : (noteStart s).mem = s.mem := by rw [noteStart_eq]
@[simp] theorem noteStart_others : (noteStart s).others = s.others := by rw [noteStart_eq]

/-! ### Registers -/

theorem State.getS_zero : s.getS 0 = 0 := rfl

theorem get_set_fin {α : Type} {n : Nat} (v : Vector α n) (i j : Fin n) (a : α) :
    (v.set i.val a i.isLt).get j = if j = i then a else v.get j := by
  have e : (i.val = j.val) ↔ (j = i) := ⟨fun h => Fin.ext h.symm, fun h => by rw [h]⟩
  have h : (v.set i.val a i.isLt).get j = (v.set i.val a i.isLt)[j.val] := rfl
  rw [h, Vector.getElem_set]
  simp only [e]
  rfl

theorem toFin_eq_iff {w : Nat} (a b : BitVec w) : a.toFin = b.toFin ↔ a = b :=
  ⟨fun h => BitVec.eq_of_toFin_eq h, fun h => by rw [h]⟩

/-- The same for a file of 2^w registers that a w-bit field indexes. -/
theorem get_set_bv {α : Type} {w : Nat} (v : Vector α (2 ^ w)) (i j : BitVec w) (a : α) :
    (v.set i.toFin.val a i.toFin.isLt).get j.toFin = if j = i then a else v.get j.toFin := by
  rw [get_set_fin]
  simp only [toFin_eq_iff]

theorem State.getS_setS (i j : BitVec 6) (v : Word) : (s.setS i v).getS j = if j = i ∧ i ≠ 0 then v else s.getS j := by
  have e := get_set_bv (w := 6) s.vc.regs.s i j v
  by_cases hi : i = 0
  · simp [State.setS, hi]
  · by_cases hj : j = 0
    · have hji : ¬(j = i) := fun h => hi (h ▸ hj)
      simp [State.getS, hj]
      intro h; exact absurd h.symm hi
    · have : (s.setS i v).vc.regs.s.get j.toFin = if j = i then v else s.vc.regs.s.get j.toFin := by
        simp only [State.setS, hi, if_false]; exact e
      have hj' : ¬(j = 0#6) := hj
      have hi' : ¬(i = 0#6) := hi
      simp [State.getS, hj', hi', this]

@[simp] theorem State.setS_mem (i : BitVec 6) (v : Word) : (s.setS i v).mem = s.mem := by unfold State.setS; split <;> rfl
@[simp] theorem State.setS_dev (i : BitVec 6) (v : Word) : (s.setS i v).dev = s.dev := by unfold State.setS; split <;> rfl
@[simp] theorem State.setS_st (i : BitVec 6) (v : Word) : (s.setS i v).vc.st = s.vc.st := by unfold State.setS; split <;> rfl
@[simp] theorem State.setS_sS (i : BitVec 6) (v : Word) : (s.setS i v).vc.sS = s.vc.sS := by unfold State.setS; split <;> rfl
@[simp] theorem State.setS_delay (i : BitVec 6) (v : Word) : (s.setS i v).vc.delay = s.vc.delay := by
  unfold State.setS; split <;> rfl

theorem State.getC_setC (i j : BitVec 3) (v : Bool) : (s.setC i v).getC j = if j = i then v else s.getC j :=
  get_set_bv (w := 3) s.vc.regs.c i j v

theorem State.getB_setB (i j : BitVec 3) (v : Word) : (s.setB i v).getB j = if j = i then v else s.getB j :=
  get_set_bv (w := 3) s.vc.regs.b i j v

theorem State.getK_setK (i j : BitVec 4) (v : Word) : (s.setK i v).getK j = if j = i then v else s.getK j :=
  get_set_bv (w := 4) s.vc.regs.k i j v

theorem State.getM_setM (i j : BitVec 6) (v : BitVec 16) : (s.setM i v).getM j = if j = i then v else s.getM j :=
  get_set_bv (w := 6) s.vc.regs.m i j v

theorem State.getF_setF (i j : BitVec 6) (v : FReg) (hi : i.toNat < 32) (hj : j.toNat < 32) :
    (s.setF i v).getF j = if j = i then v else s.getF j := by
  have h := get_set_bv (w := 5) s.vc.regs.f (i.setWidth 5) (j.setWidth 5) v
  have e : (j.setWidth 5 = i.setWidth 5) ↔ j = i := by
    constructor
    · intro h; apply BitVec.eq_of_toNat_eq
      have := congrArg BitVec.toNat h
      simp [BitVec.toNat_setWidth] at this
      omega
    · intro h; rw [h]
  simp only [e] at h
  exact h

end Sys2Proof.Machine
end

