-- ==== Sys2Proof/Laws/Scalar.lean ====
section
/-! SUPPORT. What the shared operations of the S stream do: retiring a word, and a word that writes one register. -/

namespace Sys2Proof.Machine

/-- A retired word moves the S stream to pcAfter, counts it, clears the wait report, and touches nothing but the stream and the
pending transfer. -/
theorem sRetire_eq (s : State) : sRetire s = { s with vc := { s.vc with
    sS := { s.vc.sS with pc := pcAfter s, cmdix := s.vc.sS.cmdix + 1, wait := waitNone }, delay := (sRetire s).vc.delay } } := by
  unfold sRetire pcAfter Vcore.inSlot
  cases s.vc.delay with
  | none => rfl
  | some x =>
    by_cases h : s.vc.sS.pc = x.pc + 4
    · by_cases ht : x.taken = true <;> simp only [h, ht, beq_self_eq_true, and_self, if_true] <;> rfl
    · simp only [beq_false_of_ne h, h, false_and, if_false]

theorem sRetire_sS (s : State) : (sRetire s).vc.sS =
    { s.vc.sS with pc := pcAfter s, cmdix := s.vc.sS.cmdix + 1, wait := waitNone } := by
  rw [sRetire_eq]

@[simp] theorem sRetire_regs (s : State) : (sRetire s).vc.regs = s.vc.regs := by rw [sRetire_eq]
@[simp] theorem sRetire_st (s : State) : (sRetire s).vc.st = s.vc.st := by rw [sRetire_eq]
@[simp] theorem sRetire_mem (s : State) : (sRetire s).mem = s.mem := by rw [sRetire_eq]
@[simp] theorem sRetire_dev (s : State) : (sRetire s).dev = s.dev := by rw [sRetire_eq]
@[simp] theorem sRetire_others (s : State) : (sRetire s).others = s.others := by rw [sRetire_eq]
@[simp] theorem sRetire_id (s : State) : (sRetire s).vc.id = s.vc.id := by rw [sRetire_eq]
@[simp] theorem sRetire_res (s : State) : (sRetire s).vc.res = s.vc.res := by rw [sRetire_eq]
@[simp] theorem sRetire_getS (s : State) (i : BitVec 6) : (sRetire s).getS i = s.getS i := by
  simp [State.getS]

/-- pcAfter looks at the stream and the pending transfer only. -/
theorem pcAfter_congr {s t : State} (h : t.vc.delay = s.vc.delay) (g : t.vc.sS.pc = s.vc.sS.pc) : pcAfter t = pcAfter s := by
  unfold pcAfter; rw [h, g]

/-- A state that differs from s in its registers only, retired. -/
theorem onlyRegs_retire (s : State) (r : Regs) : OnlyRegs s (sRetire (s.setRegs r)) := by
  constructor
  · rw [sRetire_eq]; rfl
  · rw [sRetire_sS]; simp [pcAfter_congr (s := s) (t := s.setRegs r) rfl rfl]

theorem setS_eq_setRegs (s : State) (d : BitVec 6) (v : Word) :
    ∃ r, s.setS d v = s.setRegs { s.vc.regs with s := r } := by
  unfold State.setS
  split
  · exact ⟨s.vc.regs.s, rfl⟩
  · exact ⟨_, rfl⟩

/-- A word that writes one s register. -/
theorem writesS_retire (s : State) (d : BitVec 6) (v : Word) : WritesS s (sRetire (s.setS d v)) d v := by
  obtain ⟨r, h⟩ := setS_eq_setRegs s d v
  refine { toOnlyRegs := ?_, value := ?_, files := ?_, flags := ?_ }
  · rw [h]; exact onlyRegs_retire s _
  · intro x; rw [sRetire_getS, State.getS_setS]
  · rw [sRetire_regs, h]; simp
  · rw [SameFlags, sRetire_sS]; simp

theorem sWrite_gives (s : State) (d : BitVec 6) (v : Word) : Gives (sWrite s d v) (WritesS s · d v) :=
  ⟨_, rfl, writesS_retire s d v⟩

theorem writesC_retire (s : State) (c : BitVec 3) (v : Bool) :
    WritesC s (sRetire (s.setC c v)) c v ∧ SameFlags s (sRetire (s.setC c v)) := by
  refine ⟨{ toOnlyRegs := onlyRegs_retire s _, value := ?_, files := ?_ }, ?_⟩
  · intro x; rw [← State.getC_setC]; simp [State.getC]
  · simp [State.setC]
  · rw [SameFlags, sRetire_sS]; simp [State.setC]

theorem writesB_retire (s : State) (b : BitVec 3) (v : Word) : WritesB s (sRetire (s.setB b v)) b v := by
  refine { toOnlyRegs := onlyRegs_retire s _, value := ?_, files := ?_, flags := ?_ }
  · intro x; rw [← State.getB_setB]; simp [State.getB]
  · simp [State.setB]
  · rw [SameFlags, sRetire_sS]; simp [State.setB]

@[simp] theorem State.withLowered_mem (s : State) (l : List Lowered) : (s.withLowered l).mem = s.mem := rfl
@[simp] theorem State.withLowered_dev (s : State) (l : List Lowered) : (s.withLowered l).dev = s.dev := rfl
@[simp] theorem State.withLowered_others (s : State) (l : List Lowered) : (s.withLowered l).others = s.others := rfl
@[simp] theorem State.withLowered_regs (s : State) (l : List Lowered) : (s.withLowered l).vc.regs = s.vc.regs := rfl
@[simp] theorem State.withLowered_st (s : State) (l : List Lowered) : (s.withLowered l).vc.st = { s.vc.st with lowered := l } := rfl
@[simp] theorem State.withLowered_stream (s : State) (l : List Lowered) (a : StreamId) : (s.withLowered l).stream a = s.stream a := by cases a <;> rfl

theorem writesM_retire (s : State) (m : BitVec 6) (v : BitVec 16) (l : List Lowered) :
    WritesM s (sRetire ((s.withLowered l).setM m v)) m v := by
  have hl : (sRetire ((s.withLowered l).setM m v)).vc.st.lowered = l := by rw [sRetire_eq]; rfl
  refine { toOnlyRegs := ?_, value := ?_, files := ?_, flags := ?_ }
  · rw [hl]; exact onlyRegs_retire (s.withLowered l) _
  · intro x; rw [show s.getM x = (s.withLowered l).getM x from rfl, ← State.getM_setM]; simp [State.getM]
  · simp [State.setM]
  · rw [SameFlags, sRetire_sS]; simp [State.setM]; exact ⟨rfl, rfl⟩

/-- Every write of a semaphore by the S stream is one of these (R193, R225). -/
theorem loweredTo_eq (s : State) (m : BitVec 6) (v : BitVec 16) : ∃ l, loweredTo s m v = (s.withLowered l).setM m v := by
  unfold loweredTo noteLowered
  split
  · exact ⟨(s.vc.st.lowered.filter fun g => g.time == s.dev.time) ++ [⟨.s, m, s.getM m, s.dev.time⟩], rfl⟩
  · exact ⟨s.vc.st.lowered, rfl⟩

theorem writesM_loweredTo (s : State) (m : BitVec 6) (v : BitVec 16) : WritesM s (sRetire (loweredTo s m v)) m v := by
  obtain ⟨l, h⟩ := loweredTo_eq s m v
  rw [h]; exact writesM_retire s m v l

theorem writesF_retire (s : State) (d : BitVec 6) (v : FReg) (hd : d.toNat < 32) : WritesF s (sRetire (s.setF d v)) d v := by
  refine { toOnlyRegs := onlyRegs_retire s _, value := ?_, files := ?_ }
  · intro x hx; rw [← State.getF_setF s d x v hd hx]; simp [State.getF]
  · simp [State.setF]

theorem writesNothing_retire (s : State) : WritesNothing s (sRetire s) := by
  refine { toOnlyRegs := onlyRegs_retire s s.vc.regs, files := ?_, flags := ?_ }
  · simp
  · rw [SameFlags, sRetire_sS]; simp

end Sys2Proof.Machine
end

