-- ==== Sys2Proof/Laws/Fault.lean ====
section
/-! SUPPORT. What taking a fault does (R409, R413, R415), said once: the record joins the queue, the stream stands at the address
where it resumes, its fault domain is stopped, and nothing else of the vcore, the memory or the device changes. -/

namespace Sys2Proof.Machine

/-- Whether stopping domain d stops a vcore. -/
def Vcore.stopsIn (v : Vcore) (d : BitVec 12) : Bool := v.res != .absent && v.res != .complete && v.id.fdom == d

/-- A vcore of a domain that stops at time t: its streams may be late (R413). -/
def Vcore.stopped' (v : Vcore) (t : Nat) : Vcore :=
  { v with
    stopped := true
    late := if v.stopped then v.late else [.s, .v, .m, .c]
    stoppedAt := if v.stopped then v.stoppedAt else t
    cutbackDue := false
    regs := { v.regs with ystat := false } }

theorem stopDomain_vc (s : State) (d : BitVec 12) :
    (stopDomain s d).vc = if s.vc.stopsIn d then s.vc.stopped' s.dev.time else s.vc := rfl

@[simp] theorem stopDomain_mem (s : State) (d : BitVec 12) : (stopDomain s d).mem = s.mem := rfl
@[simp] theorem stopDomain_st (s : State) (d : BitVec 12) : (stopDomain s d).vc.st = s.vc.st := by
  rw [stopDomain_vc]; split <;> rfl
@[simp] theorem stopDomain_sS (s : State) (d : BitVec 12) : (stopDomain s d).vc.sS = s.vc.sS := by
  rw [stopDomain_vc]; split <;> rfl
@[simp] theorem stopDomain_sV (s : State) (d : BitVec 12) : (stopDomain s d).vc.sV = s.vc.sV := by
  rw [stopDomain_vc]; split <;> rfl
@[simp] theorem stopDomain_sM (s : State) (d : BitVec 12) : (stopDomain s d).vc.sM = s.vc.sM := by
  rw [stopDomain_vc]; split <;> rfl
@[simp] theorem stopDomain_sC (s : State) (d : BitVec 12) : (stopDomain s d).vc.sC = s.vc.sC := by
  rw [stopDomain_vc]; split <;> rfl
@[simp] theorem stopDomain_stream (s : State) (d : BitVec 12) (st : StreamId) : (stopDomain s d).stream st = s.stream st := by
  cases st <;> simp [State.stream]
@[simp] theorem stopDomain_id (s : State) (d : BitVec 12) : (stopDomain s d).vc.id = s.vc.id := by
  rw [stopDomain_vc]; split <;> rfl
@[simp] theorem stopDomain_res (s : State) (d : BitVec 12) : (stopDomain s d).vc.res = s.vc.res := by
  rw [stopDomain_vc]; split <;> rfl
@[simp] theorem stopDomain_delay (s : State) (d : BitVec 12) : (stopDomain s d).vc.delay = s.vc.delay := by
  rw [stopDomain_vc]; split <;> rfl
@[simp] theorem stopDomain_records (s : State) (d : BitVec 12) :
    (stopDomain s d).dev.faults.records = s.dev.faults.records := rfl

theorem stopDomain_regs (s : State) (d : BitVec 12) :
    (stopDomain s d).vc.regs = { s.vc.regs with ystat := (stopDomain s d).vc.regs.ystat } := by
  rw [stopDomain_vc]; split <;> rfl

/-- The domain is among the stops. -/
theorem addStop_any (l : List Stop) (d : BitVec 12) : (addStop l d).any (fun x => x.fdom == d) = true := by
  unfold addStop
  split
  · assumption
  · simp

theorem stopDomain_stops (s : State) (d : BitVec 12) :
    (stopDomain s d).dev.faults.stops.any (fun x => x.fdom == d) = true := addStop_any _ _

@[simp] theorem addRecord_vc (s : State) (r : Record) : (addRecord s r).vc = s.vc := rfl
@[simp] theorem addRecord_mem (s : State) (r : Record) : (addRecord s r).mem = s.mem := rfl
@[simp] theorem addRecord_records (s : State) (r : Record) :
    (addRecord s r).dev.faults.records = s.dev.faults.records ++ [r] := rfl

@[simp] theorem stopStream_mem (s : State) (st : StreamId) : (stopStream s st).mem = s.mem := rfl
@[simp] theorem stopStream_dev (s : State) (st : StreamId) : (stopStream s st).dev = s.dev := rfl
@[simp] theorem stopStream_others (s : State) (st : StreamId) : (stopStream s st).others = s.others := rfl
@[simp] theorem stopStream_st (s : State) (st : StreamId) : (stopStream s st).vc.st = s.vc.st := rfl
@[simp] theorem stopStream_regs (s : State) (st : StreamId) : (stopStream s st).vc.regs = s.vc.regs := rfl
@[simp] theorem stopStream_id (s : State) (st : StreamId) : (stopStream s st).vc.id = s.vc.id := rfl
@[simp] theorem stopStream_delay (s : State) (st : StreamId) : (stopStream s st).vc.delay = s.vc.delay := rfl
@[simp] theorem stopStream_stream (s : State) (st a : StreamId) : (stopStream s st).stream a = s.stream a := by cases a <;> rfl

variable (s : State) (st : StreamId) (p : StopPoint) (f : FaultInfo)

@[simp] theorem takeFault_mem : (takeFault s st p f).mem = s.mem := rfl
@[simp] theorem takeFault_st : (takeFault s st p f).vc.st = s.vc.st := by simp [takeFault]
@[simp] theorem takeFault_id : (takeFault s st p f).vc.id = s.vc.id := by simp [takeFault]
@[simp] theorem takeFault_delay : (takeFault s st p f).vc.delay = s.vc.delay := by simp [takeFault]
@[simp] theorem takeFault_records :
    (takeFault s st p f).dev.faults.records = s.dev.faults.records ++ [vcoreRecord s st p f] := rfl
theorem takeFault_stops :
    (takeFault s st p f).dev.faults.stops.any (fun x => x.fdom == s.vc.id.fdom) = true := stopDomain_stops _ _
theorem takeFault_stream : (takeFault s st p f).stream st = { s.stream st with pc := p.npc, wait := waitNone } := by
  have h (t : State) (r : Record) (a : StreamId) : (addRecord t r).stream a = t.stream a := by cases a <;> rfl
  simp [takeFault, h]
theorem takeFault_other {a : StreamId} (h : st ≠ a) : (takeFault s st p f).stream a = s.stream a := by
  have g (t : State) (r : Record) : (addRecord t r).stream a = t.stream a := by cases a <;> rfl
  simp [takeFault, g, State.setStream_other s _ h]
theorem takeFault_regs :
    (takeFault s st p f).vc.regs = { s.vc.regs with ystat := (takeFault s st p f).vc.regs.ystat } := by
  unfold takeFault
  rw [stopStream_regs, stopDomain_regs]
  simp

/-- The status of a record is that of its fault (R416). -/
theorem vcoreRecord_status : (vcoreRecord s st p f).bits.extractLsb' 0 16 = f.status := by
  unfold vcoreRecord mkRecord mkHdr
  apply BitVec.eq_of_getLsbD_eq
  intro i hi
  have h64 : i < 64 := by omega
  have e : ∀ (b : Bool) (k : Nat), 16 ≤ k → (bit64 b k).getLsbD i = false := by
    intro b k hk; unfold bit64; cases b
    · simp
    · simp; omega
  simp only [BitVec.getLsbD_extractLsb', hi, Nat.zero_add, decide_true, Bool.true_and, BitVec.getLsbD_append, h64, if_true,
    BitVec.getLsbD_or, BitVec.getLsbD_shiftLeft, e _ 55 (by omega), e _ 54 (by omega), e _ 53 (by omega), e _ 52 (by omega),
    e _ 51 (by omega), e _ 49 (by omega), zx, BitVec.getLsbD_setWidth]
  have h1 : i < 56 := by omega
  have h2 : i < 32 := by omega
  have h3 : i < 23 := by omega
  simp [h1, h2, h3]

/-- With no error in store, no data check fails (R471 to R473). -/
theorem homeDataFault_none {s : State} (h : s.dev.errors = errorsReset)
    (pa : Nat) (va : Word) (src : BitVec 32) : homeDataFault s pa va src = none := by
  have e : s.blockUe (pa / 256) = false := by unfold State.blockUe; rw [h]; split <;> rfl
  simp [homeDataFault, State.checkMask, e, h, errorsReset]

theorem homePiecesFault_none {s : State} (h : s.dev.errors = errorsReset)
    (va : Word) (ps : List Piece) (l : ∀ p ∈ ps, ∀ d pa k pr, p.1 ≠ .remote d pa k pr) : homePiecesFault s va ps = none := by
  refine congrArg firstFault (List.flatMap_eq_nil_iff.mpr ?_)
  rintro ⟨p, n⟩ hp
  cases p <;> first | exact absurd rfl (l _ hp _ _ _ _) | simp [homeDataFault_none h]

/-- An access of n bytes within one 64 KiB page below the local window is one piece, or fails as that piece does (R454). -/
theorem pieces_one {s : State} {who : Who} {acc : Acc} {va : Word} {n : Nat} (hn : 0 < n) (hp : va.toNat % 2 ^ 16 + n ≤ 2 ^ 16)
    (hw : va.toNat < windowBase) :
    (∀ p, placeOf s who acc va n none = .ok p → pieces s who acc va n = .ok [(p, n)])
    ∧ (∀ f, placeOf s who acc va n none = .error f → pieces s who acc va n = .error f) := by
  have hm : min n (min (pageLeft va) n) = n := by unfold pageLeft; omega
  have hr : ∀ v, piecesOf s who acc none (n / 2 ^ 16 + 2) va v 0 = .ok [] := fun v => by unfold piecesOf; simp
  have hs : (acc.scalar && va == va && n == n) = acc.scalar := by simp
  unfold pieces piecesOf
  simp only [show n ≠ 0 by omega, if_false, show ¬ windowBase ≤ va.toNat by omega, hm, hs, Nat.sub_self, hr]
  refine ⟨fun p h => by rw [h], fun f h => ?_⟩
  rw [h]
  by_cases e : f.addr = va
  · simp only [if_pos e]; rw [← e]
  · simp only [if_neg e]

end Sys2Proof.Machine
end

