-- ==== Sys2Proof/Laws/Memory.lean ====
section
/-! SUPPORT. Memory in canonical form: every operation keeps the form; a read after a write of the same byte gives the value
written, and a write leaves every other byte alone. -/

namespace Sys2Proof.Machine

namespace MemoryLaws

theorem wfFrom_mono {b c : Nat} {m : Memory} (h : b ≤ c) (w : Memory.wfFrom c m = true) : Memory.wfFrom b m = true := by
  cases m with
  | nil => rfl
  | cons p t =>
    simp only [Memory.wfFrom, Bool.and_eq_true, decide_eq_true_eq] at w ⊢
    exact ⟨⟨by omega, w.1.2⟩, w.2⟩

theorem wfFrom_write {m : Memory} {b a : Nat} {v : Byte} (h : b ≤ a) (w : Memory.wfFrom b m = true) :
    Memory.wfFrom b (m.write a v) = true := by
  induction m generalizing b with
  | nil =>
    unfold Memory.write
    split
    · rfl
    · next hv => simpa [Memory.wfFrom, h] using hv
  | cons p t ih =>
    obtain ⟨x, u⟩ := p
    simp only [Memory.wfFrom, Bool.and_eq_true, decide_eq_true_eq] at w
    obtain ⟨⟨hx, hu⟩, ht⟩ := w
    unfold Memory.write
    split
    · next hlt =>
      split
      · simp only [Memory.wfFrom, Bool.and_eq_true, decide_eq_true_eq]
        exact ⟨⟨hx, hu⟩, ht⟩
      · next hv =>
        simp only [Memory.wfFrom, Bool.and_eq_true, decide_eq_true_eq]
        exact ⟨⟨h, hv⟩, ⟨by omega, hu⟩, ht⟩
    · split
      · next heq =>
        subst heq
        split
        · exact wfFrom_mono (by omega) ht
        · next hv =>
          simp only [Memory.wfFrom, Bool.and_eq_true, decide_eq_true_eq]
          exact ⟨⟨h, hv⟩, ht⟩
      · next hlt hne =>
        simp only [Memory.wfFrom, Bool.and_eq_true, decide_eq_true_eq]
        exact ⟨⟨hx, hu⟩, ih (by omega) ht⟩

theorem wf_write {m : Memory} (a : Nat) (v : Byte) (w : m.wf = true) : (m.write a v).wf = true :=
  wfFrom_write (Nat.zero_le a) w

theorem wf_store {m : Memory} (a n v : Nat) (w : m.wf = true) : (m.store a n v).wf = true := by
  induction n generalizing m a v with
  | zero => exact w
  | succ n ih => exact ih (a + 1) (v / 256) (wf_write a _ w)

theorem wf_putBytes {m : Memory} (a : Nat) (bs : List Byte) (w : m.wf = true) : (m.putBytes a bs).wf = true := by
  induction bs generalizing m a with
  | nil => exact w
  | cons b bs ih => exact ih (a + 1) (wf_write a b w)

/-- Cells written one after the other, each where a function of it says. -/
theorem wf_foldl {α : Type} {m : Memory} (l : List α) (f : α → Nat) (g : α → Byte) (w : m.wf = true) :
    (l.foldl (fun (m : Memory) c => m.write (f c) (g c)) m).wf = true := by
  induction l generalizing m with
  | nil => exact w
  | cons c l ih => exact ih (wf_write (f c) (g c) w)

theorem wfFrom_filter {m : Memory} {b : Nat} (p : Host.Cell → Bool) (w : Memory.wfFrom b m = true) :
    Memory.wfFrom b (m.filter p) = true := by
  induction m generalizing b with
  | nil => rfl
  | cons c t ih =>
    obtain ⟨x, u⟩ := c
    simp only [Memory.wfFrom, Bool.and_eq_true, decide_eq_true_eq] at w
    obtain ⟨⟨hx, hu⟩, ht⟩ := w
    rw [List.filter_cons]
    split
    · simp only [Memory.wfFrom, Bool.and_eq_true, decide_eq_true_eq]
      exact ⟨⟨hx, hu⟩, ih ht⟩
    · exact ih (wfFrom_mono (by omega) ht)

theorem wf_filter {m : Memory} (p : Host.Cell → Bool) (w : m.wf = true) : (Memory.wf (m.filter p)) = true :=
  wfFrom_filter p w

theorem wf_clear {m : Memory} (a n : Nat) (w : m.wf = true) : (m.clear a n).wf = true := wf_filter _ w

/-! ### Reading -/

theorem read_below {m : Memory} {b a : Nat} (h : a < b) (w : Memory.wfFrom b m = true) : m.read a = 0 := by
  induction m generalizing b with
  | nil => rfl
  | cons p t ih =>
    obtain ⟨x, u⟩ := p
    simp only [Memory.wfFrom, Bool.and_eq_true, decide_eq_true_eq] at w
    obtain ⟨⟨hx, hu⟩, ht⟩ := w
    unfold Memory.read
    rw [if_neg (by omega)]
    exact ih (by omega) ht

theorem read_write_from {m : Memory} {b a c : Nat} {v : Byte} (w : Memory.wfFrom b m = true) :
    (m.write a v).read c = if c = a then v else m.read c := by
  induction m generalizing b with
  | nil =>
    unfold Memory.write
    by_cases hv : v = 0
    · simp [hv, Memory.read]
    · rw [if_neg hv]
      simp only [Memory.read, eq_comm]
  | cons p t ih =>
    obtain ⟨x, u⟩ := p
    simp only [Memory.wfFrom, Bool.and_eq_true, decide_eq_true_eq] at w
    obtain ⟨⟨hx, hu⟩, ht⟩ := w
    unfold Memory.write
    by_cases h1 : a < x
    · rw [if_pos h1]
      by_cases hv : v = 0
      · rw [if_pos hv]
        by_cases hc : c = a
        · subst hc
          have : x ≠ c := by omega
          simp [Memory.read, this, hv, read_below (show c < x + 1 by omega) ht]
        · simp [hc]
      · rw [if_neg hv]
        by_cases hc : c = a
        · simp [Memory.read, hc]
        · have : a ≠ c := fun e => hc e.symm
          simp [Memory.read, hc, this]
    · rw [if_neg h1]
      by_cases h2 : a = x
      · subst h2
        rw [if_pos rfl]
        by_cases hv : v = 0
        · rw [if_pos hv]
          by_cases hc : c = a
          · subst hc; rw [if_pos rfl, hv]; exact read_below (by omega) ht
          · have : a ≠ c := fun e => hc e.symm
            simp [Memory.read, hc, this]
        · rw [if_neg hv]
          by_cases hc : c = a
          · simp [Memory.read, hc]
          · have : a ≠ c := fun e => hc e.symm
            simp [Memory.read, hc, this]
      · rw [if_neg h2]
        unfold Memory.read
        by_cases hx2 : x = c
        · have : c ≠ a := by omega
          simp [hx2, this]
        · rw [if_neg hx2, if_neg hx2]; exact ih ht

theorem read_write_same {m : Memory} (a : Nat) (v : Byte) (w : m.wf = true) : (m.write a v).read a = v := by
  rw [read_write_from w, if_pos rfl]

theorem read_write_other {m : Memory} {a c : Nat} (v : Byte) (h : c ≠ a) (w : m.wf = true) :
    (m.write a v).read c = m.read c := by
  rw [read_write_from w, if_neg h]

theorem read_store_other {m : Memory} {a c n v : Nat} (h : c < a ∨ a + n ≤ c) (w : m.wf = true) :
    (m.store a n v).read c = m.read c := by
  induction n generalizing m a v with
  | zero => rfl
  | succ n ih =>
    have e := ih (m := m.write a (BitVec.ofNat 8 (v % 256))) (a := a + 1) (v := v / 256) (by omega) (wf_write a _ w)
    exact e.trans (read_write_other _ (by omega) w)

theorem read_putBytes_other {m : Memory} {a c : Nat} {bs : List Byte} (h : c < a ∨ a + bs.length ≤ c) (w : m.wf = true) :
    (m.putBytes a bs).read c = m.read c := by
  induction bs generalizing m a with
  | nil => rfl
  | cons b bs ih =>
    have e := ih (m := m.write a b) (a := a + 1) (by simp only [List.length_cons] at h; omega) (wf_write a b w)
    exact e.trans (read_write_other _ (by simp only [List.length_cons] at h; omega) w)

theorem read_putBytes {m : Memory} {a i : Nat} {bs : List Byte} (h : i < bs.length) (w : m.wf = true) :
    (m.putBytes a bs).read (a + i) = bs[i] := by
  induction bs generalizing m a i with
  | nil => simp at h
  | cons b bs ih =>
    unfold Memory.putBytes
    cases i with
    | zero =>
      rw [read_putBytes_other (by omega) (wf_write a b w)]
      exact read_write_same a b w
    | succ i =>
      have e := ih (m := m.write a b) (a := a + 1) (i := i) (by simpa using h) (wf_write a b w)
      rw [show a + (i + 1) = a + 1 + i by omega, e]
      rfl

theorem read_clear {m : Memory} {b a n c : Nat} (w : Memory.wfFrom b m = true) :
    (m.clear a n).read c = if a ≤ c ∧ c < a + n then 0 else m.read c := by
  induction m generalizing b with
  | nil => simp [Memory.clear, Memory.read]
  | cons p t ih =>
    obtain ⟨x, u⟩ := p
    simp only [Memory.wfFrom, Bool.and_eq_true, decide_eq_true_eq] at w
    obtain ⟨⟨hx, hu⟩, ht⟩ := w
    have e := ih ht
    unfold Memory.clear at e ⊢
    rw [List.filter_cons]
    by_cases hk : (x < a || a + n ≤ x) = true
    · rw [if_pos hk]
      simp only [Memory.read]
      by_cases hc : x = c
      · subst hc
        simp only [Bool.or_eq_true, decide_eq_true_eq] at hk
        rw [if_pos rfl, if_neg (by omega), if_pos rfl]
      · rw [if_neg hc, e, if_neg hc]
    · rw [if_neg hk, e]
      simp only [Memory.read]
      by_cases hc : x = c
      · subst hc
        simp only [Bool.or_eq_true, decide_eq_true_eq, not_or] at hk
        rw [if_pos (by omega), if_pos (by omega)]
      · rw [if_neg hc]

/-- What a store leaves is what a load of the same bytes reads. -/
theorem load_store {m : Memory} (a n v : Nat) (w : m.wf = true) : (m.store a n v).load a n = v % 256 ^ n := by
  induction n generalizing m a v with
  | zero => simp [Memory.load, Nat.mod_one]
  | succ n ih =>
    have e := ih (m := m.write a (BitVec.ofNat 8 (v % 256))) (a + 1) (v / 256) (wf_write a _ w)
    have r := read_store_other (m := m.write a (BitVec.ofNat 8 (v % 256))) (a := a + 1) (c := a) (n := n) (v := v / 256)
      (by omega) (wf_write a _ w)
    unfold Memory.store Memory.load
    rw [e, r, read_write_same a _ w, Nat.pow_succ', Nat.mod_mul]
    simp

theorem bytes_eq_map (m : Memory) (a n : Nat) : m.bytes a n = (List.range n).map fun i => m.read (a + i) := by
  induction n generalizing a with
  | zero => rfl
  | succ n ih => simp [Memory.bytes, List.range_succ_eq_map, ih, Nat.add_assoc, Nat.add_comm 1]

/-- A list of bytes written is read back. -/
theorem bytes_putBytes {m : Memory} (a : Nat) (bs : List Byte) (w : m.wf = true) : (m.putBytes a bs).bytes a bs.length = bs := by
  rw [bytes_eq_map]
  apply List.ext_getElem
  · simp
  · intro i _ h
    simp [read_putBytes h w]

end MemoryLaws

end Sys2Proof.Machine
end

