-- ==== Sys2Proof/Laws/Home.lean ====
section
/-! SUPPORT. What a write at the home does: the plaintext takes the bytes, the device's records of L2, errors and counters follow, and
nothing else of the machine moves. -/

namespace Sys2Proof.Machine

/-- t is s with another device: what an operation leaves that moves the device alone. -/
def DevOnly (s t : State) : Prop := t = s.setDev t.dev

namespace HomeLaws

theorem refl (s : State) : DevOnly s s := rfl

theorem trans {s t u : State} (h : DevOnly s t) (k : DevOnly t u) : DevOnly s u := by
  unfold DevOnly at *; rw [k, h]; rfl

theorem foldl {α : Type} (l : List α) {f : State → α → State} (hf : ∀ s a, DevOnly s (f s a)) (s : State) :
    DevOnly s (l.foldl f s) := by
  induction l generalizing s with
  | nil => rfl
  | cons a l ih => exact trans (hf s a) (ih (f s a))

theorem logEvent (s : State) (src kind pa : Nat) : DevOnly s (logEvent s src kind pa) := by
  unfold Machine.logEvent; split <;> rfl

theorem countCes (s : State) (n : Nat) : DevOnly s (countCes s n) := by
  induction n generalizing s with
  | zero => rfl
  | succ n ih => exact trans (t := countCe s) rfl (ih _)

theorem correctHome (s : State) (b : Nat) : DevOnly s (correctHome s b) := by
  unfold Machine.correctHome
  dsimp only
  split
  · rfl
  · split <;> split
    · rfl
    · exact trans (t := setErrors s _) rfl (countCes _ _)
    · rfl
    · exact trans (t := setErrors s _) rfl (countCes _ _)

theorem mergeCheck (s : State) (b : Nat) : DevOnly s (mergeCheck s b) := by
  have bad (k : Nat) : DevOnly s (addPoison (Machine.logEvent (countUe s) (s.blockSrc b) k (s.blockPa b)) b) :=
    trans (logEvent (countUe s) _ _ _) rfl
  unfold Machine.mergeCheck
  split
  · exact bad 1
  · split
    · exact bad 0
    · exact correctHome s b

theorem setBedrock (s : State) (b : Bedrock) : DevOnly s (setBedrock s b) := rfl

theorem countLine (s : State) (w c line : Nat) (p : List Byte) : DevOnly s (countLine s w c line p) := setBedrock s _

theorem rebuildTree (s : State) (w c : Nat) : DevOnly s (rebuildTree s w c) := by
  unfold Machine.rebuildTree
  exact trans (setBedrock s _) (foldl _ (fun t l => countLine t w c l _) _)

theorem rekeyComp (s : State) (w c : Nat) : DevOnly s (rekeyComp s w c) :=
  trans (setBedrock s _) (trans (setBedrock _ _) (rebuildTree _ w c))

theorem countBlock (s : State) (b : Nat) (p : List Byte) : DevOnly s (countBlock s b p) := by
  unfold Machine.countBlock
  split
  · rfl
  · refine trans ?_ (foldl _ (fun t i => countLine t _ _ _ _) _)
    split
    · exact rekeyComp s _ _
    · rfl

theorem hbmStore (s : State) (b : Nat) (p : List Byte) : DevOnly s (hbmStore s b p) := trans (countBlock s b p) rfl

theorem l2Write (s : State) (alloc : Bool) (new : Memory) (b : Nat) : DevOnly s (l2Write s alloc new b) := by
  unfold Machine.l2Write
  dsimp only
  split
  · rfl
  · split
    · split
      · rfl
      · exact hbmStore s b _
    · exact hbmStore s b _

theorem blockWrite (alloc : Bool) (new : Memory) (pa n : Nat) (s : State) (b : Nat) : DevOnly s (blockWrite alloc new pa n s b) := by
  unfold Machine.blockWrite
  split
  · exact l2Write (freshBlock s b) alloc new b
  · split
    · rfl
    · exact trans (mergeCheck s b) (l2Write _ alloc new b)

/-- A write at the home (R124, R127): the bytes, and the device's records of the blocks. -/
theorem homeWriteWith_eq (alloc : Bool) (s : State) (pa : Nat) (bs : List Byte) :
    homeWriteWith alloc s pa bs = { s with dev := (homeWriteWith alloc s pa bs).dev, mem := s.mem.putBytes pa bs } := by
  have h := foldl (blocksOf pa bs.length) (blockWrite alloc (s.mem.putBytes pa bs) pa bs.length) s
  unfold homeWriteWith
  dsimp only
  rw [h]; rfl

end HomeLaws

@[simp] theorem homeWriteWith_mem (alloc : Bool) (s : State) (pa : Nat) (bs : List Byte) :
    (homeWriteWith alloc s pa bs).mem = s.mem.putBytes pa bs := rfl

@[simp] theorem homeWriteWith_vc (alloc : Bool) (s : State) (pa : Nat) (bs : List Byte) : (homeWriteWith alloc s pa bs).vc = s.vc := by
  rw [HomeLaws.homeWriteWith_eq]

@[simp] theorem homeWriteWith_others (alloc : Bool) (s : State) (pa : Nat) (bs : List Byte) :
    (homeWriteWith alloc s pa bs).others = s.others := by
  rw [HomeLaws.homeWriteWith_eq]

@[simp] theorem softBytes_length (s : State) (pa : Nat) (bs : List Byte) : (softBytes s pa bs).length = bs.length := by
  simp [softBytes]

/-- A write by software (R5): every byte outside it stays, and so does a byte that the device alone writes; the others take theirs. -/
theorem softWriteWith_read {s : State} (w : s.mem.wf = true) (alloc : Bool) (pa : Nat) (bs : List Byte) (a : Nat) :
    (softWriteWith alloc s pa bs).mem.read a =
      if h : pa ≤ a ∧ a - pa < bs.length then (if s.deviceOnly a then s.mem.read a else bs[a - pa]'h.2) else s.mem.read a := by
  unfold softWriteWith
  rw [homeWriteWith_mem]
  split
  · next h =>
    have e := MemoryLaws.read_putBytes (a := pa) (i := a - pa) (bs := softBytes s pa bs) (by simpa using h.2) w
    rw [show pa + (a - pa) = a by omega] at e
    rw [e]
    simp [softBytes, show pa + (a - pa) = a by omega]
  · next h => exact MemoryLaws.read_putBytes_other (by simp only [softBytes_length]; omega) w

theorem softWriteWith_wf {s : State} (w : s.mem.wf = true) (alloc : Bool) (pa : Nat) (bs : List Byte) :
    (softWriteWith alloc s pa bs).mem.wf = true := MemoryLaws.wf_putBytes pa _ w

@[simp] theorem softWrite_vc (s : State) (pa : Nat) (bs : List Byte) : (softWrite s pa bs).vc = s.vc := homeWriteWith_vc ..
@[simp] theorem softWrite_others (s : State) (pa : Nat) (bs : List Byte) : (softWrite s pa bs).others = s.others :=
  homeWriteWith_others ..

/-- The stored check value of a block is that of its bytes exactly where no damage is held for it (R123, R124). -/
theorem storedCheck_eq (s : State) (b : Nat) : s.storedCheck b = crc32c (s.mem.bytes (b * 256) 256) ↔ s.checkMask b = 0 := by
  unfold State.storedCheck
  constructor
  · intro h
    have := congrArg (crc32c (s.mem.bytes (b * 256) 256) ^^^ ·) h
    simpa [← BitVec.xor_assoc] using this
  · intro h; simp [h]

/-- The home slice of an HBM offset owns its channel (R20, R113). -/
theorem hbmPlace_slice {off : Nat} (h : off < hbmSize) :
    sliceOwns (hbmPlace off).slice (hbmPlace off).stack (hbmPlace off).channel = true ∧ (hbmPlace off).stack < 12
      ∧ (hbmPlace off).channel < 32 ∧ (hbmPlace off).slice < 48 := by
  simp only [hbmPlace, sliceOwns, quarterOf, hbmSize, quarterSize, Bool.and_eq_true, beq_iff_eq] at h ⊢
  have hc : off % 154618822656 / 256 % 96 < 96 := Nat.mod_lt _ (by omega)
  refine ⟨⟨?_, ?_⟩, ?_, ?_, ?_⟩ <;> omega

end Sys2Proof.Machine
end

