-- ==== Sys2Proof/Laws/Issue.lean ====
section
/-! SUPPORT. What issuing an engine word does (R191, R192, R429), said once: a word whose WAIT and checks pass ends as WordEnds
says; one whose WAIT fails stays; one whose checks fail faults. -/

namespace Sys2Proof.Machine

variable (st : StreamId) (cl : Clauses) (s : State)

theorem waitOk_iff : waitOk s cl = true ↔ Waited s cl := by simp [waitOk, Waited]

/-- A WAIT clause that is satisfied lets the word of any stream issue. -/
theorem waitMet_of_waited (h : Waited s cl) : waitMet s st cl = true := by unfold waitMet; rw [(waitOk_iff cl s).mpr h]; rfl

theorem State.withLowered_same : s.withLowered s.vc.st.lowered = s := rfl

/-- Everything of s1 but what the end of a word of stream st may change: WordEnds without its last field. -/
structure Ends (s1 t : State) (n : BitVec 32) : Prop where
  memory : t.mem = s1.mem
  storage : t.vc.st = { s1.vc.st with follow := t.vc.st.follow, loopEnds := t.vc.st.loopEnds, lowered := t.vc.st.lowered }
  regs : t.vc.regs = { s1.vc.regs with m := t.vc.regs.m, rb := t.vc.regs.rb, pb := t.vc.regs.pb, ystat := t.vc.regs.ystat }
  streams : ∀ a, a ≠ st → t.stream a = s1.stream a
  own : t.stream st = { s1.stream st with
    pc := (t.stream st).pc, cmdix := (s1.stream st).cmdix + n,
    wait := (t.stream st).wait, loop := (t.stream st).loop, part := (t.stream st).part }

theorem Ends.refl (s : State) : Ends st s s 0 := by
  constructor <;> simp

theorem Ends.trans {a b c : State} {n k : BitVec 32} (h : Ends st a b n) (g : Ends st b c k) : Ends st a c (n + k) := by
  constructor
  · rw [g.memory, h.memory]
  · rw [g.storage, h.storage]
  · rw [g.regs, h.regs]
  · intro x hx; rw [g.streams x hx, h.streams x hx]
  · rw [g.own, h.own]; simp [BitVec.add_assoc]

theorem Ends.setM (i : BitVec 6) (v : BitVec 16) : Ends st s (s.setM i v) 0 := by
  constructor
  · rfl
  · rfl
  · rfl
  · intro a _; cases a <;> rfl
  · cases st <;> simp [State.setM, State.stream]

theorem Ends.takeFault (p : StopPoint) (f : FaultInfo) : Ends st s (takeFault s st p f) 0 := by
  constructor
  · rfl
  · rw [takeFault_st]
  · rw [takeFault_regs]
  · intro a h; exact takeFault_other s st p f (Ne.symm h)
  · rw [takeFault_stream]; simp

theorem Ends.takeAt : Ends st s (takeAt s cl) 0 := by
  unfold Machine.takeAt; split
  · exact Ends.setM st s _ _
  · exact Ends.refl st s

theorem Ends.noteLowered (a : StreamId) (m : BitVec 6) (old : BitVec 16) : Ends st s (noteLowered s a m old) 0 := by
  constructor
  · rfl
  · rfl
  · rfl
  · intro b _; cases b <;> rfl
  · cases st <;> simp [Machine.noteLowered, State.setStore, State.stream]

theorem Ends.applySet (p : StopPoint) : Ends st s (applySet s st p cl) 0 := by
  unfold Machine.applySet
  dsimp only
  split
  · split
    · exact Ends.setM st s _ _
    · exact Ends.takeFault st s _ _
  · split
    · refine Ends.trans st (b := _) (n := 0) (k := 0) ?_ (Ends.noteLowered st _ st cl.si _)
      split
      · exact Ends.setM st s _ _
      · exact Ends.takeFault st s _ _
    · exact Ends.refl st s

theorem Ends.setFitting : Ends st s (setFitting s st cl) 0 := by
  unfold Machine.setFitting
  dsimp only
  split
  · split
    · exact Ends.setM st s _ _
    · exact Ends.refl st s
  · split
    · refine Ends.trans st (b := _) (n := 0) (k := 0) ?_ (Ends.noteLowered st _ st cl.si _)
      split
      · exact Ends.setM st s _ _
      · exact Ends.refl st s
    · exact Ends.refl st s

theorem Ends.setStream (y : Stream) (n : BitVec 32) (h : y = { s.stream st with
    pc := y.pc, cmdix := (s.stream st).cmdix + n, wait := y.wait, loop := y.loop, part := y.part }) :
    Ends st s (s.setStream st y) n := by
  constructor
  · rfl
  · simp
  · simp
  · intro a ha; exact State.setStream_other s y (Ne.symm ha)
  · rw [State.setStream_same]; exact h

theorem Ends.endLoop (l : LoopState) : Ends st s (endLoop s st l) 0 := by
  unfold Machine.endLoop
  dsimp only
  split
  · exact Ends.applySet st l.cl s _
  · constructor
    · rfl
    · rfl
    · rfl
    · intro a _; cases a <;> rfl
    · cases st <;> simp [State.setStore, State.stream]

theorem Ends.afterLast (s0 : State) : Ends st s (afterLast s0 st s) 0 := by
  unfold Machine.afterLast
  split
  · exact Ends.endLoop st s _
  · exact Ends.refl st s

theorem Ends.rotate : Ends st s (rotate s) 0 := by
  constructor
  · rfl
  · rfl
  · rfl
  · intro a _; cases a <;> rfl
  · cases st <;> simp [Machine.rotate, State.setRegs, State.stream]

theorem rotate_stream : (rotate s).stream st = s.stream st := by cases st <;> rfl

theorem Ends.advance : Ends st s (advance s st) 1 := by
  unfold Machine.advance
  dsimp only
  split
  · have h : Ends st s (s.setStore { s.vc.st with follow := s.vc.st.follow.tail }) 0 := by
      constructor
      · rfl
      · rfl
      · rfl
      · intro a _; cases a <;> rfl
      · cases st <;> simp [State.setStore, State.stream]
    have e : (s.setStore { s.vc.st with follow := s.vc.st.follow.tail }).stream st = s.stream st := by cases st <;> rfl
    have g := Ends.setStream st (s.setStore { s.vc.st with follow := s.vc.st.follow.tail })
      { s.stream st with
        cmdix := (s.stream st).cmdix + 1, wait := if (s.stream st).point.isSome then (s.stream st).wait else waitNone } 1
      (by rw [e])
    exact (BitVec.zero_add (1 : BitVec 32)) ▸ h.trans st g
  · split
    · exact Ends.setStream st s _ 1 rfl
    · split
      · exact Ends.setStream st s _ 1 rfl
      · have hr : Ends st s (if st = .v then Machine.rotate s else s) 0 := by
          split
          · exact Ends.rotate st s
          · exact Ends.refl st s
        have er : (if st = .v then Machine.rotate s else s).stream st = s.stream st := by
          split
          · exact rotate_stream st s
          · rfl
        split
        · rename_i l _ _ _
          have g := Ends.setStream st (if st = .v then Machine.rotate s else s)
            { s.stream st with
              cmdix := (s.stream st).cmdix + 1, wait := waitNone, part := none, pc := l.start,
              loop := some { l with idx := 0, t := l.t + 1 } } 1
            (by rw [er])
          exact (BitVec.zero_add (1 : BitVec 32)) ▸ hr.trans st g
        · have g := Ends.setStream st (if st = .v then Machine.rotate s else s)
            { s.stream st with
              cmdix := (s.stream st).cmdix + 1, wait := waitNone, part := none, pc := (s.stream st).pc + st.size, loop := none } 1
            (by rw [er])
          exact (BitVec.zero_add (1 : BitVec 32)) ▸ hr.trans st g

/-- Outside loops the end of a word is a step to the next address. -/
theorem advance_plain (h : Plain s st) : advance s st = s.setStream st ((s.stream st).next st) := by
  unfold advance Stream.next
  simp only [h.1, h.2, Bool.false_eq_true, if_false]

/-- Outside loops no loop ends with a word. -/
theorem afterLast_plain {s0 : State} (h : (s0.stream st).loop = none) : afterLast s0 st s = s := by
  have e : lastOf s0 st = none := by unfold lastOf; rw [h]; split <;> rfl
  unfold afterLast; rw [e]

theorem takeAt_stream (a : StreamId) : (takeAt s cl).stream a = s.stream a := by
  unfold takeAt; split
  · cases a <;> rfl
  · rfl

theorem takeAt_plain (h : Plain s st) : Plain (takeAt s cl) st := by
  refine ⟨by rw [takeAt_stream]; exact h.1, ?_⟩
  have e : (takeAt s cl).vc.st = s.vc.st := by unfold takeAt; split <;> rfl
  unfold isDelivered at *
  rw [e]; exact h.2

/-- The take changes semaphores only. -/
theorem takeAt_eq : takeAt s cl = { s with vc := { s.vc with regs := { s.vc.regs with m := (takeAt s cl).vc.regs.m } } } := by
  unfold takeAt; split <;> rfl

theorem takeAt_getM (i : BitVec 6) : (takeAt s cl).getM i = semIssued s cl i := by
  unfold takeAt semIssued
  by_cases h : cl.so = 3
  · simp only [h, if_true, true_and, State.getM_setM]
    by_cases g : i = cl.wi <;> simp [g]
  · rw [if_neg h, if_neg (fun e => h e.1)]

theorem semAdd_one (x : BitVec 16) (h : x ≠ 0xFFFF) : semAdd x 1 = some (x + 1) := by
  have hx : x.toNat < 65535 := by
    have := x.isLt
    have g : x.toNat ≠ 65535 := fun e => h (BitVec.eq_of_toNat_eq (by simpa using e))
    omega
  unfold semAdd
  have : (0 : Int) ≤ x.toNat + 1 ∧ ((x.toNat : Int) + 1 ≤ 0xFFFF) := by omega
  simp only [this, and_self, if_true, Option.some.injEq]
  apply BitVec.eq_of_toNat_eq
  rw [BitVec.toNat_add, BitVec.toNat_ofInt]
  simp
  omega

theorem semAdd_neg (x : BitVec 16) (h : x ≠ 0) : semAdd x (-1) = some (x - 1) := by
  have hx : 0 < x.toNat := by
    have g : x.toNat ≠ 0 := fun e => h (BitVec.eq_of_toNat_eq (by simpa using e))
    omega
  have := x.isLt
  unfold semAdd
  have : (0 : Int) ≤ x.toNat + (-1) ∧ ((x.toNat : Int) + (-1) ≤ 0xFFFF) := by omega
  simp only [this, and_self, if_true, Option.some.injEq]
  apply BitVec.eq_of_toNat_eq
  rw [BitVec.toNat_sub, BitVec.toNat_ofInt]
  simp
  omega

/-- A SET in range changes its semaphore, and notes where it lowers it. -/
theorem applySet_eq (p : StopPoint) (h : SetFits s cl) : applySet s st p cl =
    { s with vc := { s.vc with regs := { s.vc.regs with m := (applySet s st p cl).vc.regs.m } } }.withLowered
      (applySet s st p cl).vc.st.lowered := by
  unfold applySet
  dsimp only
  split
  · rename_i g; rw [semAdd_one _ (h.1 g)]; rfl
  · split
    · rename_i g; rw [semAdd_neg _ (h.2 g)]; rfl
    · rfl

/-- A SET in range is the same where a report follows the word. -/
theorem setFitting_eq (p : StopPoint) (h : SetFits s cl) : setFitting s st cl = applySet s st p cl := by
  unfold setFitting applySet
  dsimp only
  split
  · rename_i g; rw [semAdd_one _ (h.1 g)]
  · split
    · rename_i g; rw [semAdd_neg _ (h.2 g)]
    · rfl

theorem applySet_getM (p : StopPoint) (h : SetFits s cl) (i : BitVec 6) : (applySet s st p cl).getM i =
    if cl.so = 1 ∧ i = cl.si then s.getM i + 1 else if cl.so = 2 ∧ i = cl.si then s.getM i - 1 else s.getM i := by
  unfold applySet
  dsimp only
  by_cases h1 : cl.so = 1
  · rw [if_pos h1, semAdd_one _ (h.1 h1)]
    dsimp only
    rw [State.getM_setM]
    by_cases g : i = cl.si
    · rw [if_pos g, if_pos ⟨h1, g⟩, g]
    · rw [if_neg g, if_neg (fun e => g e.2), if_neg (fun e => g e.2)]
  · rw [if_neg h1, if_neg (c := cl.so = 1 ∧ i = cl.si) (fun e => h1 e.1)]
    by_cases h2 : cl.so = 2
    · rw [if_pos h2, semAdd_neg _ (h.2 h2)]
      dsimp only
      rw [show ∀ (x : State) (a : StreamId) (m : BitVec 6) (o : BitVec 16), (noteLowered x a m o).getM i = x.getM i from fun _ _ _ _ => rfl,
        State.getM_setM]
      by_cases g : i = cl.si
      · rw [if_pos g, if_pos ⟨h2, g⟩, g]
      · rw [if_neg g, if_neg (fun e => g e.2)]
    · rw [if_neg h2, if_neg (c := cl.so = 2 ∧ i = cl.si) (fun e => h2 e.1)]

/-- A word that completes; `x` is what its SET leaves. -/
theorem ends_of_set {x : State} (he : Ends st (advance (takeAt s cl) st) x 0)
    (hx : SetFits (advance (takeAt s cl) st) cl → ∃ p, x = applySet (advance (takeAt s cl) st) st p cl) :
    WordEnds st cl s (afterLast (takeAt s cl) st x) (semAfter s cl) := by
  have e : Ends st s (afterLast (takeAt s cl) st x) 1 := by
    have k := (((Ends.takeAt st cl s).trans st (Ends.advance st _)).trans st he).trans st (Ends.afterLast st _ (takeAt s cl))
    have z : (0 : BitVec 32) + 1 + 0 + 0 = 1 := by decide
    exact z ▸ k
  refine ⟨e.memory, e.storage, e.regs, e.streams, e.own, ?_⟩
  intro hp hf
  rw [afterLast_plain st x (takeAt_plain st cl s hp).1]
  have ha := advance_plain st (takeAt s cl) (takeAt_plain st cl s hp)
  have hfit : SetFits (advance (takeAt s cl) st) cl := by
    have gm : ∀ i, (advance (takeAt s cl) st).getM i = (takeAt s cl).getM i := by
      intro i; rw [ha]; simp [State.getM]
    constructor
    · intro h1; rw [gm, takeAt_getM, semIssued]
      have : ¬ cl.so = 3 := by rw [h1]; decide
      simp only [this, false_and, if_false]; exact hf.1 h1
    · intro h2; rw [gm, takeAt_getM, semIssued]
      have : ¬ cl.so = 3 := by rw [h2]; decide
      simp only [this, false_and, if_false]; exact hf.2 h2
  obtain ⟨p, rfl⟩ := hx hfit
  constructor
  · rw [applySet_eq st cl _ p hfit]
    rw [ha, takeAt_stream, takeAt_eq]
    cases st <;> rfl
  · intro i
    rw [applySet_getM st cl _ p hfit i]
    have gm : (advance (takeAt s cl) st).getM i = (takeAt s cl).getM i := by rw [ha]; simp [State.getM]
    rw [gm, takeAt_getM, semIssued, semAfter]
    by_cases h : cl.so = 3 ∧ i = cl.wi
    · have h1 : ¬ (cl.so = 1 ∧ i = cl.si) := fun e => by rw [h.1] at e; exact absurd e.1 (by decide)
      have h2 : ¬ (cl.so = 2 ∧ i = cl.si) := fun e => by rw [h.1] at e; exact absurd e.1 (by decide)
      simp only [if_pos h, if_neg h1, if_neg h2]
    · simp only [if_neg h]

/-- A word that completes, its SET applied. -/
theorem done_ends (p : StopPoint) :
    WordEnds st cl s (afterLast (takeAt s cl) st (applySet (advance (takeAt s cl) st) st p cl)) (semAfter s cl) :=
  ends_of_set st cl s (Ends.applySet st cl _ p) fun _ => ⟨p, rfl⟩

/-- A word that completes and is followed by a report. -/
theorem fitting_ends :
    WordEnds st cl s (afterLast (takeAt s cl) st (setFitting (advance (takeAt s cl) st) st cl)) (semAfter s cl) :=
  ends_of_set st cl s (Ends.setFitting st cl _) fun h => ⟨default, setFitting_eq st cl _ default h⟩

/-- A word that issues an engine operation. -/
theorem issued_ends :
    WordEnds st { cl with so := 0 } s (afterLast (takeAt s cl) st (advance (takeAt s cl) st)) (semIssued s cl) := by
  have e : Ends st s (afterLast (takeAt s cl) st (advance (takeAt s cl) st)) 1 := by
    have k := ((Ends.takeAt st cl s).trans st (Ends.advance st _)).trans st (Ends.afterLast st _ (takeAt s cl))
    have z : (0 : BitVec 32) + 1 + 0 = 1 := by decide
    exact z ▸ k
  refine ⟨e.memory, e.storage, e.regs, e.streams, e.own, ?_⟩
  intro hp _
  rw [afterLast_plain st _ (takeAt_plain st cl s hp).1]
  have ha := advance_plain st (takeAt s cl) (takeAt_plain st cl s hp)
  constructor
  · rw [ha, takeAt_stream, takeAt_eq]; cases st <;> rfl
  · intro i; rw [ha, ← takeAt_getM]; simp [State.getM]

theorem issue_done (s1 : State) (checks : List FaultInfo) (hw : Waited s cl) (hc : firstFault checks = none) :
    Completes st cl s1 (issue st cl s checks (.done s1 none)) := by
  unfold issue
  rw [waitMet_of_waited st cl s hw, hc]
  exact ⟨_, rfl, done_ends st cl s1 _⟩

theorem issue_issued (s1 : State) (checks : List FaultInfo) (hw : Waited s cl) (hc : firstFault checks = none) :
    Issues st cl s1 (issue st cl s checks (.issued s1)) := by
  unfold issue
  rw [waitMet_of_waited st cl s hw, hc]
  exact ⟨_, rfl, issued_ends st cl s1⟩

/-- An issue always answers a next state. -/
theorem issue_next (checks : List FaultInfo) (eff : Eff) : ∃ t, issue st cl s checks eff = .next t := by
  unfold issue
  split
  · exact ⟨_, rfl⟩
  · split
    · exact ⟨_, rfl⟩
    · cases eff with
      | done s1 low => cases low <;> exact ⟨_, rfl⟩
      | _ => exact ⟨_, rfl⟩

end Sys2Proof.Machine
end

