-- ==== Sys2Proof/Laws/Lanes.lean ====
section
/-! SUPPORT. Fields of row images: what putAll leaves and writes, and the image that buildRow makes as LaneImage says it. -/

namespace Sys2Proof.Machine

theorem testBit_nbits (x lo w i : Nat) : (nbits x lo w).testBit i = (decide (i < w) && x.testBit (lo + i)) := by
  unfold nbits
  rw [Nat.testBit_mod_two_pow, Nat.testBit_shiftRight]

theorem nbits_ext {x y lo lo' w : Nat} (h : ∀ i < w, x.testBit (lo + i) = y.testBit (lo' + i)) : nbits x lo w = nbits y lo' w := by
  apply Nat.eq_of_testBit_eq
  intro i
  rw [testBit_nbits, testBit_nbits]
  by_cases hi : i < w
  · simp [hi, h i hi]
  · simp [hi]

theorem nbits_eq_mod {x lo w v : Nat} (h : ∀ i < w, x.testBit (lo + i) = v.testBit i) : nbits x lo w = v % 2 ^ w := by
  apply Nat.eq_of_testBit_eq
  intro i
  rw [testBit_nbits, Nat.testBit_mod_two_pow]
  by_cases hi : i < w
  · simp [hi, h i hi]
  · simp [hi]

/-- Bit i lies in a field. -/
def Put.has (p : Put) (i : Nat) : Bool := decide (p.lo ≤ i) && decide (i < p.lo + p.w)

def putOne (x : Nat) (p : Put) : Nat :=
  (x ^^^ (x &&& ((2 ^ p.w - 1) <<< p.lo))) ||| ((p.v % 2 ^ p.w) <<< p.lo)

theorem putAll_nil (x : Nat) : putAll x [] = x := rfl
theorem putAll_cons (x : Nat) (p : Put) (l : List Put) : putAll x (p :: l) = putAll (putOne x p) l := rfl
theorem putAll_append (x : Nat) (a b : List Put) : putAll x (a ++ b) = putAll (putAll x a) b := by
  unfold putAll; rw [List.foldl_append]

theorem putOne_testBit (x : Nat) (p : Put) (i : Nat) :
    (putOne x p).testBit i = if p.has i then p.v.testBit (i - p.lo) else x.testBit i := by
  unfold putOne Put.has
  rw [Nat.testBit_or, Nat.testBit_xor, Nat.testBit_and, Nat.testBit_shiftLeft, Nat.testBit_shiftLeft,
    Nat.testBit_two_pow_sub_one, Nat.testBit_mod_two_pow]
  by_cases h1 : p.lo ≤ i
  · by_cases h2 : i < p.lo + p.w
    · have h3 : i - p.lo < p.w := by omega
      simp [h1, h2, h3]
    · have h3 : ¬ (i - p.lo < p.w) := by omega
      simp [h1, h2, h3]
  · simp [h1]

/-- A bit that no field has. -/
theorem putAll_out {l : List Put} {i : Nat} (x : Nat) (h : ∀ p ∈ l, p.has i = false) : (putAll x l).testBit i = x.testBit i := by
  induction l generalizing x with
  | nil => rfl
  | cons p t ih =>
    rw [putAll_cons, ih _ (fun q hq => h q (List.mem_cons_of_mem _ hq)), putOne_testBit, h p List.mem_cons_self]
    rfl

/-- A bit that one field of several disjoint ones has. -/
theorem putAll_in {l : List Put} {i : Nat} (x : Nat) (p : Put) (hp : p ∈ l) (hi : p.has i = true)
    (h : ∀ q ∈ l, q.has i = true → q = p) : (putAll x l).testBit i = p.v.testBit (i - p.lo) := by
  induction l generalizing x with
  | nil => cases hp
  | cons q t ih =>
    rw [putAll_cons]
    by_cases hpt : p ∈ t
    · exact ih _ hpt (fun r hr => h r (List.mem_cons_of_mem _ hr))
    · have hq : q = p := by
        rcases List.mem_cons.mp hp with e | e
        · exact e.symm
        · exact absurd e hpt
      subst hq
      rw [putAll_out, putOne_testBit, hi]
      · rfl
      · intro r hr
        cases e : r.has i
        · rfl
        · exact absurd (h r (List.mem_cons_of_mem _ hr) e ▸ hr) hpt

/-- A field that no put touches. -/
theorem putAll_field_out {l : List Put} {lo w : Nat} (x : Nat) (h : ∀ p ∈ l, p.lo + p.w ≤ lo ∨ lo + w ≤ p.lo ∨ p.w = 0) :
    nbits (putAll x l) lo w = nbits x lo w := by
  apply nbits_ext
  intro i hi
  apply putAll_out
  intro p hp
  unfold Put.has
  have := h p hp
  simp; omega

/-- Bits beyond a bound that no field passes stay zero. -/
theorem putAll_lt {l : List Put} {x n : Nat} (hx : x < 2 ^ n) (h : ∀ p ∈ l, p.lo + p.w ≤ n) : putAll x l < 2 ^ n := by
  apply Nat.lt_pow_two_of_testBit
  intro i hi
  rw [putAll_out, Nat.testBit_lt_two_pow (Nat.lt_of_lt_of_le hx (Nat.pow_le_pow_right (by omega) hi))]
  intro p hp
  have := h p hp
  unfold Put.has
  simp; omega

/-- Places of a stride do not meet. -/
theorem lane_place {u w a b i : Nat} (hw : w ≤ u) (h1 : u * a ≤ i) (h2 : i < u * a + w) (h3 : u * b ≤ i) (h4 : i < u * b + w) :
    a = b := by
  have ha : i < u * (a + 1) := by rw [Nat.mul_add]; omega
  have hb : i < u * (b + 1) := by rw [Nat.mul_add]; omega
  have x : u * a < u * (b + 1) := by omega
  have y : u * b < u * (a + 1) := by omega
  have := Nat.lt_of_mul_lt_mul_left x
  have := Nat.lt_of_mul_lt_mul_left y
  omega

variable {α : Type}

/-- A list of fields of width w at places of a stride from o on, at most one for each place. -/
theorem putAll_lanes (u w o : Nat) (hw : w ≤ u) (key val : α → Nat) (l : List α) (x : Nat) (hd : (l.map key).Nodup) (j : Nat) :
    nbits (putAll x (l.map fun a => ⟨o + u * key a, w, val a⟩)) (o + u * j) w =
      match l.find? fun a => key a == j with
      | some a => val a % 2 ^ w
      | none => nbits x (o + u * j) w := by
  cases hf : l.find? fun a => key a == j with
  | none =>
    have hn := List.find?_eq_none.mp hf
    dsimp only
    apply nbits_ext
    intro i hi
    apply putAll_out
    intro p hp
    obtain ⟨a, ha, rfl⟩ := List.mem_map.mp hp
    unfold Put.has
    dsimp only
    by_contra hc
    simp only [Bool.not_eq_false, Bool.and_eq_true, decide_eq_true_eq] at hc
    have : key a = j := lane_place (u := u) (w := w) (i := u * j + i) hw (by omega) (by omega) (by omega) (by omega)
    exact hn a ha (by simp [this])
  | some a =>
    dsimp only
    have ha := List.mem_of_find?_eq_some hf
    have hk : key a = j := by have := List.find?_some hf; simpa using this
    apply nbits_eq_mod
    intro i hi
    have hm : (⟨o + u * key a, w, val a⟩ : Put) ∈ l.map fun a => (⟨o + u * key a, w, val a⟩ : Put) :=
      List.mem_map.mpr ⟨a, ha, rfl⟩
    rw [putAll_in x _ hm]
    · dsimp only; rw [hk]; congr 1; omega
    · unfold Put.has; dsimp only; rw [hk]; simp; omega
    · intro q hq hqi
      obtain ⟨b, hb, rfl⟩ := List.mem_map.mp hq
      unfold Put.has at hqi
      simp only [Bool.and_eq_true, decide_eq_true_eq] at hqi
      have e : key b = j := lane_place (u := u) (w := w) (i := u * j + i) hw (by omega) (by omega) (by omega) (by omega)
      have : b = a := by
        have hinj := List.inj_on_of_nodup_map hd
        exact hinj hb ha (by rw [e, hk])
      rw [this]

/-! ### Widths and places -/

theorem Fmt.fits (f : Fmt) : f.width * f.lanes ≤ 16384 := by cases f <;> decide
theorem Fmt.mx_fits {f : Fmt} (h : f.isMx = true) : f.width * f.lanes ≤ 8 * 2016 := by revert h; cases f <;> decide
theorem Fmt.mx_lanes {f : Fmt} (h : f.isMx = true) : f.lanes = 1024 := by revert h; cases f <;> decide

theorem lane_in {f : Fmt} {j : Nat} (h : j < f.lanes) : f.width * j + f.width ≤ f.width * f.lanes := by
  have : f.width * (j + 1) ≤ f.width * f.lanes := Nat.mul_le_mul_left _ h
  rw [Nat.mul_add] at this; omega

theorem testBit_mask_or (l : List (Nat × Nat)) (m i : Nat) :
    (l.foldl (fun m p => m ||| ((2 ^ p.2 - 1) <<< p.1)) m).testBit i =
      (m.testBit i || l.any fun p => decide (p.1 ≤ i) && decide (i < p.1 + p.2)) := by
  induction l generalizing m with
  | nil => simp
  | cons p t ih =>
    rw [List.foldl_cons, ih, Nat.testBit_or, Nat.testBit_shiftLeft, Nat.testBit_two_pow_sub_one, List.any_cons, Bool.or_assoc]
    congr 2
    by_cases h : p.1 ≤ i
    · have : (i - p.1 < p.2) ↔ (i < p.1 + p.2) := by omega
      simp [h, this]
    · simp [h]

/-- The bits of used range of a row are kept by its mask. -/
theorem used_lane {f : Fmt} {j : Nat} (h : j < f.lanes) (x : Nat) : laneBits f (x &&& usedMask f) j = laneBits f x j := by
  unfold laneBits
  apply nbits_ext
  intro i hi
  have := lane_in h
  have hb : f.width * j + i < f.lanes * f.width := by rw [Nat.mul_comm f.lanes]; omega
  rw [Nat.testBit_and]
  unfold usedMask
  dsimp only
  split
  · rw [Nat.testBit_or, Nat.testBit_two_pow_sub_one]; simp [hb]
  · rw [Nat.testBit_two_pow_sub_one]; simp [hb]

theorem used_scale {f : Fmt} (h : f.isMx = true) {b : Nat} (hb : b < 32) (x : Nat) :
    mxScale (x &&& usedMask f) b = mxScale x b := by
  unfold mxScale
  apply nbits_ext
  intro i hi
  rw [Nat.testBit_and]
  unfold usedMask
  dsimp only
  rw [if_pos h, Nat.testBit_or, Nat.testBit_shiftLeft, Nat.testBit_two_pow_sub_one, Nat.testBit_two_pow_sub_one]
  have h1 : 8 * 2016 ≤ 8 * (2016 + b) + i := by omega
  have h2 : 8 * (2016 + b) + i - 8 * 2016 < 256 := by omega
  simp [h1, h2]

theorem used_lt (f : Fmt) (x : Nat) : x &&& usedMask f < 2 ^ 16384 := by
  apply Nat.lt_pow_two_of_testBit
  intro i hi
  rw [Nat.testBit_and]
  have hz : (usedMask f).testBit i = false := by
    have := f.fits
    unfold usedMask
    dsimp only
    have h1 : ¬ (i < f.lanes * f.width) := by rw [Nat.mul_comm]; omega
    split
    · rw [Nat.testBit_or, Nat.testBit_shiftLeft, Nat.testBit_two_pow_sub_one, Nat.testBit_two_pow_sub_one]
      have h2 : ¬ (i - 8 * 2016 < 256) := by omega
      simp [h1, h2]
    · rw [Nat.testBit_two_pow_sub_one]; simp [h1]
  rw [hz, Bool.and_false]

/-- The number of assays of a format: its blocks, or its lanes. -/
def Fmt.assays (f : Fmt) : Nat := if f.isBlock then f.lanes / 32 else f.lanes

/-- The place of assay n, and its stride. -/
def Fmt.stride (f : Fmt) : Nat := if f.isBlock then 8 else match f with | .xa => 8 | .f32 => 8 | _ => 4
def Fmt.aw (f : Fmt) : Nat := if f.isBlock then 4 else match f with | .xa => 7 | .f32 => 5 | _ => 4

theorem Fmt.aw_le (f : Fmt) : f.aw ≤ f.stride := by cases f <;> decide
theorem Fmt.side_fits {f : Fmt} (h : f.isInt = false) : f.stride * f.assays ≤ 4096 := by revert h; cases f <;> decide

theorem assayPlace_block {f : Fmt} (h : f.isBlock = true) (b : Nat) : assayPlace f (32 * b) = (f.stride * b, f.aw) := by
  unfold assayPlace Fmt.stride Fmt.aw
  simp [h]

theorem assayPlace_lane {f : Fmt} (h : f.isBlock = false) (j : Nat) : assayPlace f j = (f.stride * j, f.aw) := by
  unfold assayPlace Fmt.stride Fmt.aw
  simp only [h, Bool.false_eq_true, if_false]
  cases f <;> rfl

theorem laneAssay_block {f : Fmt} (h : f.isBlock = true) (hi : f.isInt = false) (x b : Nat) :
    laneAssay f x (32 * b) = nbits x (f.stride * b) f.aw := by
  unfold laneAssay Fmt.stride Fmt.aw
  simp [h, hi]

theorem laneAssay_lane {f : Fmt} (h : f.isBlock = false) (hi : f.isInt = false) (x j : Nat) :
    laneAssay f x j = nbits x (f.stride * j) f.aw := by
  unfold laneAssay Fmt.stride Fmt.aw
  simp only [h, hi, Bool.false_eq_true, if_false]
  cases f <;> rfl

/-- Assay n of a sideband: of lane n, or of block n. -/
def sideAt (f : Fmt) (x n : Nat) : Nat := nbits x (f.stride * n) f.aw

theorem sideMask_testBit {f : Fmt} (hi : f.isInt = false) (i : Nat) : (sideMask f).testBit i =
    (List.range f.assays).any fun n => decide (f.stride * n ≤ i) && decide (i < f.stride * n + f.aw) := by
  unfold sideMask
  rw [if_neg (by simp [hi])]
  have e : ∀ (l : List Nat) (m : Nat), (l.foldl (fun m j =>
      let (lo, w) := assayPlace f (if f.isBlock then 32 * j else j)
      m ||| ((2 ^ w - 1) <<< lo)) m) = ((l.map fun n => (f.stride * n, f.aw)).foldl (fun m p => m ||| ((2 ^ p.2 - 1) <<< p.1)) m) := by
    intro l
    induction l with
    | nil => intro m; rfl
    | cons j t ih =>
      intro m
      rw [List.foldl_cons, List.map_cons, List.foldl_cons, ih]
      congr 1
      cases hb : f.isBlock
      · simp [assayPlace_lane hb]
      · simp [assayPlace_block hb]
  have hn : (if f.isBlock = true then f.lanes / 32 else f.lanes) = f.assays := rfl
  dsimp only
  rw [hn]
  refine (congrArg (fun x => Nat.testBit x i) (e _ _)).trans ?_
  rw [testBit_mask_or, List.any_map]
  simp [Function.comp_def]

theorem side_kept {f : Fmt} (hi : f.isInt = false) {n : Nat} (h : n < f.assays) (x : Nat) :
    sideAt f (x &&& sideMask f) n = sideAt f x n := by
  unfold sideAt
  apply nbits_ext
  intro i hw
  rw [Nat.testBit_and, sideMask_testBit hi]
  have : ((List.range f.assays).any fun k => decide (f.stride * k ≤ f.stride * n + i) && decide (f.stride * n + i < f.stride * k + f.aw))
      = true := by
    rw [List.any_eq_true]
    exact ⟨n, List.mem_range.mpr h, by simp; omega⟩
  rw [this, Bool.and_true]

theorem side_lt {f : Fmt} (hi : f.isInt = false) (x : Nat) : x &&& sideMask f < 2 ^ 4096 := by
  apply Nat.lt_pow_two_of_testBit
  intro i hge
  rw [Nat.testBit_and, sideMask_testBit hi]
  have : ((List.range f.assays).any fun k => decide (f.stride * k ≤ i) && decide (i < f.stride * k + f.aw)) = false := by
    rw [List.any_eq_false]
    intro k hk
    have hk := List.mem_range.mp hk
    have h1 : f.stride * (k + 1) ≤ f.stride * f.assays := Nat.mul_le_mul_left _ hk
    rw [Nat.mul_add] at h1
    have := Fmt.side_fits hi
    have := f.aw_le
    simp; omega
  rw [this, Bool.and_false]

/-! ### The image of a result -/

theorem mem_lanesIn {act n j : Nat} : j ∈ lanesIn act n ↔ j < n ∧ act.testBit j = true := by
  unfold lanesIn; simp [List.mem_filter]

theorem lanesIn_nodup (act n : Nat) : (lanesIn act n).Nodup := List.Nodup.filter _ List.nodup_range

theorem find_lanesIn (act n j : Nat) :
    (lanesIn act n).find? (fun a => a == j) = if j < n ∧ act.testBit j = true then some j else none := by
  split
  · rename_i h
    cases hf : (lanesIn act n).find? (fun a => a == j) with
    | none => exact absurd (List.find?_eq_none.mp hf j (mem_lanesIn.mpr h)) (by simp)
    | some a => have := List.find?_some hf; simp at this; rw [this]
  · rename_i h
    rw [List.find?_eq_none]
    intro a ha hc
    simp at hc
    exact h (hc ▸ mem_lanesIn.mp ha)

/-- The result is one that the lanes of a row can hold: each lane at most once. -/
structure VRes.Fits (r : VRes) : Prop where
  below : ∀ o ∈ r.outs, o.j < r.f.lanes
  once : (r.outs.map (·.j)).Nodup
  blocks : ∀ x ∈ r.scales, x.1 < 32
  onceB : (r.scales.map (·.1)).Nodup
  noScales : r.f.isMx = false → r.scales = []

/-- The fields that buildRow puts into the bits of a row. -/
def rowPuts (r : VRes) : List Put :=
  ((lanesIn r.zeroed r.f.lanes).map fun j => ⟨r.f.width * j, r.f.width, 0⟩)
  ++ (if r.f.isMx then
      ((List.range 32).filter fun b => nbits r.zeroed (32 * b) 32 == 2 ^ 32 - 1).map fun b => ⟨8 * (2016 + b), 8, 0⟩
    else [])
  ++ (r.outs.map fun o => ⟨r.f.width * o.j, r.f.width, o.x⟩) ++ r.scales.map fun x => ⟨8 * (2016 + x.1), 8, x.2⟩

def rowData (old : Row) (r : VRes) : Nat := putAll (old.data.toNat &&& usedMask r.f) (rowPuts r)

theorem buildRow_data (an : Anchor) (old : Row) (r : VRes) : (buildRow an old r).data = BitVec.ofNat 16384 (rowData old r) := rfl

theorem rowData_lt (old : Row) (r : VRes) (h : r.Fits) : rowData old r < 2 ^ 16384 := by
  unfold rowData
  apply putAll_lt (used_lt _ _)
  intro p hp
  have hf := r.f.fits
  unfold rowPuts at hp
  simp only [List.mem_append, List.mem_map] at hp
  rcases hp with ((⟨j, hj, rfl⟩ | hp) | ⟨o, ho, rfl⟩) | ⟨x, hx, rfl⟩
  · have := lane_in (mem_lanesIn.mp hj).1; dsimp only; omega
  · split at hp
    · obtain ⟨b, hb, rfl⟩ := List.mem_map.mp hp
      have := List.mem_range.mp (List.mem_filter.mp hb).1
      dsimp only; omega
    · cases hp
  · have := lane_in (h.below o ho); dsimp only; omega
  · have := h.blocks x hx; dsimp only; omega

theorem nbits_rowOf (old : Row) (an : Anchor) (r : VRes) (h : r.Fits) : (buildRow an old r).data.toNat = rowData old r := by
  rw [buildRow_data, BitVec.toNat_ofNat]; exact Nat.mod_eq_of_lt (rowData_lt old r h)

/-- Fields of scales lie beyond the lanes of an MX row. -/
theorem scale_beyond {f : Fmt} (hm : f.isMx = true) {j : Nat} (hj : j < f.lanes) (x : Nat) (l : List Put)
    (hl : ∀ p ∈ l, 8 * 2016 ≤ p.lo) : laneBits f (putAll x l) j = laneBits f x j := by
  unfold laneBits
  apply putAll_field_out
  intro p hp
  have := hl p hp
  have := Fmt.mx_fits hm
  have := lane_in hj
  omega

theorem lane_below {b : Nat} (x : Nat) (l : List Put)
    (hl : ∀ p ∈ l, p.lo + p.w ≤ 8 * 2016) : mxScale (putAll x l) b = mxScale x b := by
  unfold mxScale
  apply putAll_field_out
  intro p hp
  have := hl p hp
  omega

theorem rowData_lane (old : Row) (r : VRes) (h : r.Fits) {j : Nat} (hj : j < r.f.lanes) :
    laneBits r.f (rowData old r) j =
    match r.outs.find? (·.j == j) with
    | some o => o.x % 2 ^ r.f.width
    | none => if r.zeroed.testBit j then 0 else laneBits r.f old.data.toNat j := by
  unfold rowData rowPuts
  rw [putAll_append, putAll_append, putAll_append]
  have e1 : ∀ y, laneBits r.f (putAll y (r.scales.map fun x => ⟨8 * (2016 + x.1), 8, x.2⟩)) j = laneBits r.f y j := by
    intro y
    cases hm : r.f.isMx
    · rw [h.noScales hm]; rfl
    · apply scale_beyond hm hj
      intro p hp
      obtain ⟨x, _, rfl⟩ := List.mem_map.mp hp
      dsimp only; omega
  have e2 : ∀ y, laneBits r.f (putAll y (if r.f.isMx then
      ((List.range 32).filter fun b => nbits r.zeroed (32 * b) 32 == 2 ^ 32 - 1).map fun b => (⟨8 * (2016 + b), 8, 0⟩ : Put)
    else [])) j = laneBits r.f y j := by
    intro y
    cases hm : r.f.isMx
    · simp only [Bool.false_eq_true, if_false]; rfl
    · apply scale_beyond hm hj
      intro p hp
      rw [if_pos rfl] at hp
      obtain ⟨x, _, rfl⟩ := List.mem_map.mp hp
      dsimp only; omega
  rw [e1]
  unfold laneBits at *
  have o := putAll_lanes r.f.width r.f.width 0 (Nat.le_refl _) (fun o : LaneOut => o.j) (·.x) r.outs
  simp only [Nat.zero_add] at o
  rw [o _ h.once j]
  cases r.outs.find? fun a => a.j == j with
  | some a => rfl
  | none =>
    dsimp only
    rw [e2]
    have z := putAll_lanes r.f.width r.f.width 0 (Nat.le_refl _) (fun j : Nat => j) (fun _ => 0) (lanesIn r.zeroed r.f.lanes)
    simp only [Nat.zero_add] at z
    rw [z _ (by simpa using lanesIn_nodup _ _) j, find_lanesIn]
    by_cases hz : r.zeroed.testBit j = true
    · simp [hj, hz]
    · simp only [hj, hz, and_false, if_false, Bool.false_eq_true]
      exact used_lane hj _

theorem rowData_scale (old : Row) (r : VRes) (h : r.Fits) (hm : r.f.isMx = true) {b : Nat} (hb : b < 32) :
    mxScale (rowData old r) b =
    match r.scales.find? (·.1 == b) with
    | some x => x.2 % 256
    | none => if nbits r.zeroed (32 * b) 32 = 2 ^ 32 - 1 then 0 else mxScale old.data.toNat b := by
  unfold rowData rowPuts
  rw [putAll_append, putAll_append, putAll_append]
  have s := putAll_lanes 8 8 (8 * 2016) (Nat.le_refl _) (fun x : Nat × Nat => x.1) (·.2) r.scales
  simp only [← Nat.mul_add] at s
  unfold mxScale
  rw [s _ h.onceB b]
  cases r.scales.find? fun a => a.1 == b with
  | some a => rfl
  | none =>
    dsimp only
    have l1 := lane_below (b := b) (putAll (putAll (old.data.toNat &&& usedMask r.f)
      ((lanesIn r.zeroed r.f.lanes).map fun j => ⟨r.f.width * j, r.f.width, 0⟩)) (if r.f.isMx then
      ((List.range 32).filter fun b => nbits r.zeroed (32 * b) 32 == 2 ^ 32 - 1).map fun b => (⟨8 * (2016 + b), 8, 0⟩ : Put)
    else [])) (r.outs.map fun o => ⟨r.f.width * o.j, r.f.width, o.x⟩) (by
      intro p hp
      obtain ⟨o, ho, rfl⟩ := List.mem_map.mp hp
      have := lane_in (h.below o ho)
      have := Fmt.mx_fits hm
      dsimp only; omega)
    unfold mxScale at l1
    rw [l1, if_pos hm]
    have z := putAll_lanes 8 8 (8 * 2016) (Nat.le_refl _) (fun x : Nat => x) (fun _ => 0)
      ((List.range 32).filter fun b => nbits r.zeroed (32 * b) 32 == 2 ^ 32 - 1)
    simp only [← Nat.mul_add] at z
    rw [z _ (by simpa using List.Nodup.filter _ List.nodup_range) b]
    have k := lane_below (b := b) (old.data.toNat &&& usedMask r.f)
      ((lanesIn r.zeroed r.f.lanes).map fun j => ⟨r.f.width * j, r.f.width, 0⟩) (by
      intro p hp
      obtain ⟨o, ho, rfl⟩ := List.mem_map.mp hp
      have := lane_in (mem_lanesIn.mp ho).1
      have := Fmt.mx_fits hm
      dsimp only; omega)
    unfold mxScale at k
    have u := used_scale hm hb old.data.toNat
    unfold mxScale at u
    cases hf : ((List.range 32).filter fun b => nbits r.zeroed (32 * b) 32 == 2 ^ 32 - 1).find? fun a => a == b with
    | some a =>
      have h1 := List.find?_some hf
      simp at h1
      have h2 := (List.mem_filter.mp (List.mem_of_find?_eq_some hf)).2
      simp [h1] at h2
      simp [h2]
    | none =>
      dsimp only
      have h1 := List.find?_eq_none.mp hf b
      have h2 : ¬ (nbits r.zeroed (32 * b) 32 = 2 ^ 32 - 1) := by
        intro e
        exact h1 (List.mem_filter.mpr ⟨List.mem_range.mpr hb, by simp [e]⟩) (by simp)
      rw [if_neg h2, k, u]

/-- Every image that a result makes is as LaneImage says. -/
theorem buildRow_image (an : Anchor) (old : Row) (r : VRes) (h : r.Fits) : LaneImage an old (buildRow an old r) r := by
  have hd := nbits_rowOf old an r h
  constructor
  · intro j hj; rw [hd]; exact rowData_lane old r h hj
  · intro hi hn hb j hj
    have hs : (buildRow an old r).side.toNat = putAll (old.side.toNat &&& sideMask r.f)
        (((lanesIn r.zeroed r.f.lanes).map fun j => ⟨r.f.stride * j, r.f.aw, 0⟩)
          ++ r.outs.map fun o => ⟨r.f.stride * o.j, r.f.aw, o.asy⟩) := by
      have e : (buildRow an old r).side = BitVec.ofNat 4096 (putAll (old.side.toNat &&& sideMask r.f)
        (((lanesIn r.zeroed r.f.lanes).map fun j => ⟨r.f.stride * j, r.f.aw, 0⟩)
          ++ r.outs.map fun o => ⟨r.f.stride * o.j, r.f.aw, o.asy⟩)) := by
        unfold buildRow rowOfNat
        simp only [hi, hn, hb, Bool.or_self, Bool.false_eq_true, if_false, assayPlace_lane hb]
      rw [e, BitVec.toNat_ofNat, Nat.mod_eq_of_lt]
      apply putAll_lt (side_lt hi _)
      intro p hp
      have hf := Fmt.side_fits hi
      have ha : r.f.assays = r.f.lanes := by unfold Fmt.assays; simp [hb]
      have hw := r.f.aw_le
      have bound : ∀ j < r.f.lanes, r.f.stride * j + r.f.aw ≤ 4096 := by
        intro j hj
        have : r.f.stride * (j + 1) ≤ r.f.stride * r.f.assays := Nat.mul_le_mul_left _ (by omega)
        rw [Nat.mul_add] at this; omega
      rcases List.mem_append.mp hp with hp | hp
      · obtain ⟨k, hk, rfl⟩ := List.mem_map.mp hp
        exact bound k (mem_lanesIn.mp hk).1
      · obtain ⟨o, ho, rfl⟩ := List.mem_map.mp hp
        exact bound o.j (h.below o ho)
    rw [laneAssay_lane hb hi, laneAssay_lane hb hi, hs, putAll_append]
    have o := putAll_lanes r.f.stride r.f.aw 0 r.f.aw_le (fun o : LaneOut => o.j) (·.asy) r.outs
    simp only [Nat.zero_add] at o
    rw [o _ h.once j, assayPlace_lane hb]
    cases r.outs.find? fun a => a.j == j with
    | some a => rfl
    | none =>
      dsimp only
      have z := putAll_lanes r.f.stride r.f.aw 0 r.f.aw_le (fun j : Nat => j) (fun _ => 0) (lanesIn r.zeroed r.f.lanes)
      simp only [Nat.zero_add] at z
      rw [z _ (by simpa using lanesIn_nodup _ _) j, find_lanesIn]
      by_cases hz : r.zeroed.testBit j = true
      · simp [hj, hz]
      · simp only [hj, hz, and_false, if_false, Bool.false_eq_true]
        exact side_kept hi (by unfold Fmt.assays; simp [hb]; exact hj) _
  · intro hi hn hb b hlt
    have hs : (buildRow an old r).side.toNat = putAll (old.side.toNat &&& sideMask r.f)
        (r.blocks.map fun b => ⟨r.f.stride * b, r.f.aw,
          newBlock r.f an (rowData old r) (nbits (old.side.toNat &&& sideMask r.f) (8 * b) 4) r b⟩) := by
      have e : (buildRow an old r).side = BitVec.ofNat 4096 (putAll (old.side.toNat &&& sideMask r.f)
        (r.blocks.map fun b => ⟨r.f.stride * b, r.f.aw,
          newBlock r.f an (rowData old r) (nbits (old.side.toNat &&& sideMask r.f) (8 * b) 4) r b⟩)) := by
        unfold buildRow rowOfNat
        simp only [hi, hn, hb, Bool.or_self, Bool.false_eq_true, if_false, if_true, assayPlace_block hb]
        rfl
      rw [e, BitVec.toNat_ofNat, Nat.mod_eq_of_lt]
      apply putAll_lt (side_lt hi _)
      intro p hp
      obtain ⟨k, hk, rfl⟩ := List.mem_map.mp hp
      have hk := List.mem_range.mp (List.mem_filter.mp hk).1
      have ha : r.f.assays = r.f.lanes / 32 := by unfold Fmt.assays; simp [hb]
      have hf := Fmt.side_fits hi
      have hw := r.f.aw_le
      have : r.f.stride * (k + 1) ≤ r.f.stride * r.f.assays := Nat.mul_le_mul_left _ (by omega)
      rw [Nat.mul_add] at this; dsimp only; omega
    have h4 : r.f.aw = 4 := by unfold Fmt.aw; simp [hb]
    have h8 : r.f.stride = 8 := by unfold Fmt.stride; simp [hb]
    have hk : ∀ x, nbits (x &&& sideMask r.f) (8 * b) 4 = nbits x (8 * b) 4 := by
      intro x
      have := side_kept hi (n := b) (by unfold Fmt.assays; simp [hb]; exact hlt) x
      unfold sideAt at this
      rwa [h4, h8] at this
    rw [laneAssay_block hb hi, laneAssay_block hb hi, hs, hd]
    have z := putAll_lanes r.f.stride r.f.aw 0 r.f.aw_le (fun j : Nat => j)
      (fun b => newBlock r.f an (rowData old r) (nbits (old.side.toNat &&& sideMask r.f) (8 * b) 4) r b) r.blocks
    simp only [Nat.zero_add] at z
    rw [z _ (by simpa [VRes.blocks] using List.Nodup.filter _ List.nodup_range) b]
    cases hf : r.blocks.find? fun a => a == b with
    | some a =>
      have h1 := List.find?_some hf
      simp at h1
      have h2 := List.mem_of_find?_eq_some hf
      rw [h1] at h2
      rw [if_pos h2, h4, h8, h1]
      dsimp only
      rw [hk]
      rfl
    | none =>
      have h1 : b ∉ r.blocks := fun hm => List.find?_eq_none.mp hf b hm (by simp)
      rw [if_neg h1, h4, h8]
      exact hk _
  · intro hp
    unfold buildRow rowOfNat
    rcases hp with hp | hp <;> simp [hp]
  · intro hm b hb; rw [hd]; exact rowData_scale old r h hm hb

end Sys2Proof.Machine
end

