-- ==== Sys2Proof/Laws/Record.lean ====
section
/-! SUPPORT. The fields of a fault record (R415, R416), and a fault before a word's effect as FaultsAt. -/

namespace Sys2Proof.Machine

theorem bit_append (n : Nat) (x : BitVec n) (y : Word) (i : Nat) :
    BitVec.getLsbD (w := n + 64) (x ++ y) i = if i < 64 then y.getLsbD i else x.getLsbD (i - 64) :=
  BitVec.getLsbD_append

theorem record_bit (a b c d e f g h : Word) (i : Nat) (_hi : i < 512) : (mkRecord a b c d e f g h).getLsbD i =
    if i < 64 then a.getLsbD i else if i < 128 then b.getLsbD (i - 64) else if i < 192 then c.getLsbD (i - 128)
    else if i < 256 then d.getLsbD (i - 192) else if i < 320 then e.getLsbD (i - 256) else if i < 384 then f.getLsbD (i - 320)
    else if i < 448 then g.getLsbD (i - 384) else h.getLsbD (i - 448) := by
  refine (bit_append 448 _ a i).trans ?_
  by_cases h1 : i < 64
  · rw [if_pos h1, if_pos h1]
  rw [if_neg h1, if_neg h1]
  refine (bit_append 384 _ b _).trans ?_
  by_cases h2 : i < 128
  · rw [if_pos (by omega), if_pos h2]
  rw [if_neg (by omega), if_neg h2]
  refine (bit_append 320 _ c _).trans ?_
  by_cases h3 : i < 192
  · rw [if_pos (by omega), if_pos h3]; simp only [Nat.sub_sub, Nat.reduceAdd]
  rw [if_neg (by omega), if_neg h3]
  refine (bit_append 256 _ d _).trans ?_
  by_cases h4 : i < 256
  · rw [if_pos (by omega), if_pos h4]; simp only [Nat.sub_sub, Nat.reduceAdd]
  rw [if_neg (by omega), if_neg h4]
  refine (bit_append 192 _ e _).trans ?_
  by_cases h5 : i < 320
  · rw [if_pos (by omega), if_pos h5]; simp only [Nat.sub_sub, Nat.reduceAdd]
  rw [if_neg (by omega), if_neg h5]
  refine (bit_append 128 _ f _).trans ?_
  by_cases h6 : i < 384
  · rw [if_pos (by omega), if_pos h6]; simp only [Nat.sub_sub, Nat.reduceAdd]
  rw [if_neg (by omega), if_neg h6]
  refine (bit_append 64 h g _).trans ?_
  by_cases h7 : i < 448
  · rw [if_pos (by omega), if_pos h7]; simp only [Nat.sub_sub, Nat.reduceAdd]
  rw [if_neg (by omega), if_neg h7]; simp only [Nat.sub_sub, Nat.reduceAdd]

/-- The word at 64 × k of a record. -/
theorem record_word (a b c d e f g h : Word) (lo : Nat) (x : Word)
    (hx : ∀ i, i < 64 → (mkRecord a b c d e f g h).getLsbD (lo + i) = x.getLsbD i) :
    (mkRecord a b c d e f g h).extractLsb' lo 64 = x := by
  apply BitVec.eq_of_getLsbD_eq
  intro i hi
  rw [BitVec.getLsbD_extractLsb', hx i hi]
  simp only [hi, decide_true, Bool.true_and]

theorem record_pc (a b c d e f g h : Word) : (mkRecord a b c d e f g h).extractLsb' 128 64 = c := by
  apply record_word
  intro i hi
  rw [record_bit _ _ _ _ _ _ _ _ _ (by omega)]
  simp only [show ¬ (128 + i < 64) by omega, show ¬ (128 + i < 128) by omega,
    show 128 + i < 192 by omega, if_false, if_true, show 128 + i - 128 = i by omega]

theorem record_npc (a b c d e f g h : Word) : (mkRecord a b c d e f g h).extractLsb' 192 64 = d := by
  apply record_word
  intro i hi
  rw [record_bit _ _ _ _ _ _ _ _ _ (by omega)]
  simp only [show ¬ (192 + i < 64) by omega, show ¬ (192 + i < 128) by omega, show ¬ (192 + i < 192) by omega,
    show 192 + i < 256 by omega, if_false, if_true, show 192 + i - 192 = i by omega]

theorem record_addr (a b c d e f g h : Word) : (mkRecord a b c d e f g h).extractLsb' 256 64 = e := by
  apply record_word
  intro i hi
  rw [record_bit _ _ _ _ _ _ _ _ _ (by omega)]
  simp only [show ¬ (256 + i < 64) by omega, show ¬ (256 + i < 128) by omega, show ¬ (256 + i < 192) by omega, show ¬ (256 + i < 256) by omega,
    show 256 + i < 320 by omega, if_false, if_true, show 256 + i - 256 = i by omega]

theorem record_tgt (a b c d e f g h : Word) : (mkRecord a b c d e f g h).extractLsb' 320 64 = f := by
  apply record_word
  intro i hi
  rw [record_bit _ _ _ _ _ _ _ _ _ (by omega)]
  simp only [show ¬ (320 + i < 64) by omega, show ¬ (320 + i < 128) by omega, show ¬ (320 + i < 192) by omega, show ¬ (320 + i < 256) by omega,
    show ¬ (320 + i < 320) by omega,
    show 320 + i < 384 by omega, if_false, if_true, show 320 + i - 320 = i by omega]

/-- The low half of INFO. -/
theorem record_info (a b c d e f : Word) (ix inf : BitVec 32) (h : Word) :
    (mkRecord a b c d e f (ix ++ inf) h).extractLsb' 384 32 = inf := by
  apply BitVec.eq_of_getLsbD_eq
  intro i hi
  rw [BitVec.getLsbD_extractLsb', record_bit _ _ _ _ _ _ _ _ _ (by omega)]
  have h1 : ¬ (384 + i < 384) := by omega
  have h2 : 384 + i < 448 := by omega
  simp only [hi, decide_true, Bool.true_and, show ¬ (384 + i < 64) by omega, show ¬ (384 + i < 128) by omega,
    show ¬ (384 + i < 192) by omega, show ¬ (384 + i < 256) by omega, show ¬ (384 + i < 320) by omega, h1, h2, if_false, if_true,
    BitVec.getLsbD_append, show 384 + i - 384 = i by omega]

/-- HDR of a record. -/
theorem record_hdr (a b c d e f g h : Word) (i : Nat) (hi : i < 64) : (mkRecord a b c d e f g h).getLsbD i = a.getLsbD i := by
  rw [record_bit _ _ _ _ _ _ _ _ _ (by omega), if_pos hi]

theorem bit64_getLsbD (b : Bool) (k i : Nat) (hk : k < 64) : (bit64 b k).getLsbD i = (b && decide (i = k)) := by
  unfold bit64
  cases b
  · simp
  · by_cases hi : i < 64
    · by_cases h : i = k
      · subst h; simp [hi]
      · have h' : ¬ (i < k) → i - k ≠ 0 := by omega
        simp [hi, h]; omega
    · have h : ¬ (i = k) := by omega
      rw [BitVec.getLsbD_of_ge _ _ (by omega)]; simp [h]

/-- STREAM, RES and AFTER of HDR. -/
theorem hdr_fields (n : Nat) (_hn : n < 8) (res after ds taken ni follow : Bool) (ctx : BitVec 16) (rem : BitVec 9)
    (status : BitVec 16) :
    (mkHdr n res after ds taken ni follow ctx rem status).extractLsb' 56 4 = BitVec.ofNat 4 n
    ∧ (mkHdr n res after ds taken ni follow ctx rem status).getLsbD 55 = res
    ∧ (mkHdr n res after ds taken ni follow ctx rem status).getLsbD 54 = after := by
  have hz (i : Nat) (h : 49 ≤ i) : (zx ctx <<< 32).getLsbD i = false ∧ (zx rem <<< 23).getLsbD i = false
      ∧ (zx status).getLsbD i = false := by
    unfold zx
    refine ⟨?_, ?_, ?_⟩
    · rw [BitVec.getLsbD_shiftLeft, BitVec.getLsbD_setWidth, BitVec.getLsbD_of_ge ctx _ (by omega)]; simp
    · rw [BitVec.getLsbD_shiftLeft, BitVec.getLsbD_setWidth, BitVec.getLsbD_of_ge rem _ (by omega)]; simp
    · rw [BitVec.getLsbD_setWidth, BitVec.getLsbD_of_ge status _ (by omega)]; simp
  refine ⟨?_, ?_, ?_⟩
  · apply BitVec.eq_of_getLsbD_eq
    intro i hi
    have z := hz (56 + i) (by omega)
    rw [BitVec.getLsbD_extractLsb']
    unfold mkHdr
    simp only [BitVec.getLsbD_or, z.1, z.2.1, z.2.2, bit64_getLsbD _ 55 _ (by omega), bit64_getLsbD _ 54 _ (by omega),
      bit64_getLsbD _ 53 _ (by omega), bit64_getLsbD _ 52 _ (by omega), bit64_getLsbD _ 51 _ (by omega),
      bit64_getLsbD _ 49 _ (by omega), BitVec.getLsbD_shiftLeft, BitVec.getLsbD_ofNat]
    have e1 : ¬ (56 + i = 55) := by omega
    have e2 : ¬ (56 + i = 54) := by omega
    have e3 : ¬ (56 + i = 53) := by omega
    have e4 : ¬ (56 + i = 52) := by omega
    have e5 : ¬ (56 + i = 51) := by omega
    have e6 : ¬ (56 + i = 49) := by omega
    have e7 : ¬ (56 + i < 56) := by omega
    have e8 : 56 + i < 64 := by omega
    have e9 : i < 64 := by omega
    simp [hi, e1, e2, e3, e4, e5, e6, e8, e9]
  · have z := hz 55 (by omega)
    unfold mkHdr
    simp only [BitVec.getLsbD_or, z.1, z.2.1, z.2.2, bit64_getLsbD _ 55 _ (by omega), bit64_getLsbD _ 54 _ (by omega),
      bit64_getLsbD _ 53 _ (by omega), bit64_getLsbD _ 52 _ (by omega), bit64_getLsbD _ 51 _ (by omega),
      bit64_getLsbD _ 49 _ (by omega), BitVec.getLsbD_shiftLeft]
    simp
  · have z := hz 54 (by omega)
    unfold mkHdr
    simp only [BitVec.getLsbD_or, z.1, z.2.1, z.2.2, bit64_getLsbD _ 55 _ (by omega), bit64_getLsbD _ 54 _ (by omega),
      bit64_getLsbD _ 53 _ (by omega), bit64_getLsbD _ 52 _ (by omega), bit64_getLsbD _ 51 _ (by omega),
      bit64_getLsbD _ 49 _ (by omega), BitVec.getLsbD_shiftLeft]
    simp

/-- The bits of a vcore's record in terms of its fields. -/
theorem vcoreRecord_bits (s : State) (st : StreamId) (p : StopPoint) (f : FaultInfo) : ∃ who time, (vcoreRecord s st p f).bits =
    mkRecord (mkHdr st.code f.res p.after p.ds p.taken s.vc.ni p.follow s.vc.id.ctx f.remote f.status) who p.pc p.npc f.addr
      p.tgt (p.ix ++ f.info) time := ⟨_, _, rfl⟩

theorem code_lt (st : StreamId) : st.code < 8 := by cases st <;> decide

/-- The address at which a word that has had no effect leaves its stream. -/
theorem stopBefore_npc (s : State) (st : StreamId) : (stopBefore s st).npc = (s.stream st).pc := by
  unfold stopBefore
  dsimp only
  split <;> rfl

theorem stopBefore_after (s : State) (st : StreamId) : (stopBefore s st).after = false := by
  unfold stopBefore
  dsimp only
  split <;> rfl

/-- A fault before a word's effect. -/
theorem faultBefore_faultsAt (s : State) (st : StreamId) (f : FaultInfo) :
    FaultsAt s (faultBefore s st f) st f.status f.addr f.info := by
  constructor
  · refine ⟨vcoreRecord s st (stopBefore s st) f, rfl, vcoreRecord_status .., ?_, ?_, ?_, ?_, ?_⟩
    all_goals
      obtain ⟨who, time, h⟩ := vcoreRecord_bits s st (stopBefore s st) f
      rw [h]
    · exact record_pc ..
    · exact record_addr ..
    · exact record_info ..
    · rw [← (hdr_fields st.code (code_lt st) f.res (stopBefore s st).after (stopBefore s st).ds (stopBefore s st).taken s.vc.ni
        (stopBefore s st).follow s.vc.id.ctx f.remote f.status).1]
      apply BitVec.eq_of_getLsbD_eq
      intro i hi
      rw [BitVec.getLsbD_extractLsb', BitVec.getLsbD_extractLsb', record_hdr _ _ _ _ _ _ _ _ _ (by omega)]
    · rw [record_hdr _ _ _ _ _ _ _ _ _ (by omega), (hdr_fields st.code (code_lt st) ..).2.2, stopBefore_after]
  · exact takeFault_stops ..
  · show (takeFault ..).stream st = _
    rw [takeFault_stream, stopBefore_npc]
  · show (takeFault ..).vc.regs = _
    exact takeFault_regs ..
  · exact takeFault_st ..
  · rfl

end Sys2Proof.Machine
end

