-- ==== Sys2Proof/Laws/ScalarFp.lean ====
section
/-! SUPPORT. What a checked floating-point result does (R98 to R100, R206, R213). -/

namespace Sys2Proof.Machine

/-- The write of a result and its flags, retired. -/
def fpWritten (s : State) (d : BitVec 6) (t : Fmt) (x asy : Nat) (fl : Flags) : State :=
  sRetire ((s.setF d (fregOf t x asy)).orFlags .s fl)

theorem fpWritten_sS (s : State) (d : BitVec 6) (t : Fmt) (x asy : Nat) (fl : Flags) :
    (fpWritten s d t x asy fl).vc.sS =
      { s.vc.sS with pc := pcAfter s, cmdix := s.vc.sS.cmdix + 1, wait := waitNone, fflags := s.vc.sS.fflags ||| fl } := by
  unfold fpWritten; rw [sRetire_sS]; rfl

theorem fpWritten_regs (s : State) (d : BitVec 6) (t : Fmt) (x asy : Nat) (fl : Flags) :
    (fpWritten s d t x asy fl).vc.regs = (s.setF d (fregOf t x asy)).vc.regs := by
  unfold fpWritten; rw [sRetire_regs]; rfl

theorem fpWritten_only (s : State) (d : BitVec 6) (t : Fmt) (x asy : Nat) (fl : Flags) :
    fpWritten s d t x asy fl = { s with vc := { s.vc with
      regs := (fpWritten s d t x asy fl).vc.regs, sS := (fpWritten s d t x asy fl).vc.sS,
      delay := (fpWritten s d t x asy fl).vc.delay } } := by
  unfold fpWritten; rw [sRetire_eq]; rfl

theorem fWrite_gives (s : State) (d : BitVec 6) (t : Fmt) (x asy : Nat) (fl : Flags) (hd : d.toNat < 32) :
    Gives (fWrite s d t x asy fl true) (FpDone s · d t x asy fl) := by
  have hr : (fpWritten s d t x asy fl).vc.regs = { s.vc.regs with f := (fpWritten s d t x asy fl).vc.regs.f } := by
    rw [fpWritten_regs]; rfl
  have hv : ∀ r : BitVec 6, r.toNat < 32 →
      (fpWritten s d t x asy fl).vc.regs.f.get (r.setWidth 5).toFin = if r = d then fregOf t x asy else s.getF r := by
    intro r hr; rw [fpWritten_regs, ← State.getF_setF s d r _ hd hr]; rfl
  refine ⟨checkLow s (fpWritten s d t x asy fl) .s
    (if (true && isLow s.vc.sS.asyth (decodeF t x) asy) = true then some (0, asy) else none), rfl, ?_⟩
  simp only [Bool.true_and]
  by_cases hl : isLow s.vc.sS.asyth (decodeF t x) asy = true
  · simp only [hl, if_true, checkLow]
    have hs : (setLow (fpWritten s d t x asy fl) .s).vc.sS =
        { s.vc.sS with pc := pcAfter s, cmdix := s.vc.sS.cmdix + 1, wait := waitNone, fflags := s.vc.sS.fflags ||| fl,
                       asyte := s.vc.sS.asyte ||| 2 } := by
      simp [setLow, State.setStream, Vcore.setStream, State.stream, fpWritten_sS]
    have hb : ((setLow (fpWritten s d t x asy fl) .s).stream .s).asyte.getLsbD 0 = s.vc.sS.asyte.getLsbD 0 := by
      simp [State.stream, hs]
    rw [hb]
    have hid : (fpWritten s d t x asy fl).vc.id = s.vc.id := by rw [fpWritten_only]
    by_cases ht : s.vc.sS.asyte.getLsbD 0 = true
    · simp only [ht, if_true]
      have hst := takeFault_stream (setLow (fpWritten s d t x asy fl) .s) .s
        { stopBefore s .s with npc := ((setLow (fpWritten s d t x asy fl) .s).stream .s).pc, after := true } (assayLow 0 asy)
      have hrg := takeFault_regs (setLow (fpWritten s d t x asy fl) .s) .s
        { stopBefore s .s with npc := ((setLow (fpWritten s d t x asy fl) .s).stream .s).pc, after := true } (assayLow 0 asy)
      refine { value := ?_, flags := ?_, low := ?_, place := ?_, store := ?_, mem := ?_, plain := ?_, trap := ?_ }
      · intro r h
        exact (congrArg (fun q : Regs => q.f.get (r.setWidth 5).toFin) hrg).trans (hv r h)
      · exact (congrArg Stream.fflags hst).trans (by simp [State.stream, hs])
      · exact (congrArg Stream.asyte hst).trans (by simp [State.stream, hs, hl])
      · exact (congrArg Stream.pc hst).trans (by simp [State.stream, hs])
      · simp only [faultAfter, takeFault_st]; rw [setLow, State.setStream_st, fpWritten_only]
      · simp only [faultAfter, takeFault_mem]; rw [setLow, State.setStream_mem, fpWritten_only]
      · intro h; rw [hl, ht] at h; cases h
      · intro _
        refine ⟨?_, vcoreRecord (setLow (fpWritten s d t x asy fl) .s) .s
          { stopBefore s .s with npc := ((setLow (fpWritten s d t x asy fl) .s).stream .s).pc, after := true }
          (assayLow 0 asy), ?_, ?_, ?_⟩
        · have hq : (setLow (fpWritten s d t x asy fl) .s).vc.regs =
              { s.vc.regs with f := (fpWritten s d t x asy fl).vc.regs.f } := by
            rw [setLow, State.setStream_regs]; exact hr
          have hf := congrArg Regs.f hrg
          rw [hq] at hrg hf
          exact hrg.trans (by rw [← hf]; rfl)
        · simp only [faultAfter, takeFault_records]; rw [setLow, State.setStream_dev, fpWritten_only]
        · rw [vcoreRecord_status]; rfl
        · have h := takeFault_stops (setLow (fpWritten s d t x asy fl) .s) .s
            { stopBefore s .s with npc := ((setLow (fpWritten s d t x asy fl) .s).stream .s).pc, after := true }
            (assayLow 0 asy)
          have e : (setLow (fpWritten s d t x asy fl) .s).vc.id.fdom = s.vc.id.fdom := by
            rw [setLow, State.setStream_id, hid]
          rw [e] at h
          exact h
    · simp only [ht]
      have hrest : setLow (fpWritten s d t x asy fl) .s = { s with vc := { s.vc with
          regs := (setLow (fpWritten s d t x asy fl) .s).vc.regs, sS := (setLow (fpWritten s d t x asy fl) .s).vc.sS,
          delay := (setLow (fpWritten s d t x asy fl) .s).vc.delay } } := by
        rw [setLow, fpWritten_only]; rfl
      refine { value := ?_, flags := ?_, low := ?_, place := ?_, store := ?_, mem := ?_, plain := ?_, trap := ?_ }
      · intro r h; rw [← hv r h]; rfl
      · simp [hs]
      · simp [hs, hl]
      · simp [hs]
      · show (setLow (fpWritten s d t x asy fl) .s).vc.st = _; rw [hrest]
      · show (setLow (fpWritten s d t x asy fl) .s).mem = _; rw [hrest]
      · intro _; exact ⟨⟨hrest, by simp [hs]⟩, hr⟩
      · intro h; simp only [hl, Bool.true_and] at h; exact absurd h ht
  · have hl' : isLow s.vc.sS.asyth (decodeF t x) asy = false := by simpa using hl
    simp only [hl', Bool.false_eq_true, if_false, checkLow]
    refine { value := ?_, flags := ?_, low := ?_, place := ?_, store := ?_, mem := ?_, plain := ?_, trap := ?_ }
    · intro r h; exact hv r h
    · simp [fpWritten_sS]
    · simp [fpWritten_sS, hl']
    · simp [fpWritten_sS]
    · rw [fpWritten_only]
    · rw [fpWritten_only]
    · intro _
      refine ⟨⟨fpWritten_only .., ?_⟩, hr⟩
      rw [fpWritten_sS]
    · intro h; simp [hl'] at h

end Sys2Proof.Machine
end

