-- ==== Sys2Proof/Laws/Vector.lean ====
section
/-! SUPPORT. What a lane-parallel V word does, said once: its checks pass in a state that is VReady, its image is written as
Written says, and it ends as CheckedEnd says. -/

namespace Sys2Proof.Machine

/-! ### Checks -/

theorem firstFault_nil : firstFault [] = none := rfl

theorem flatMap_nil {α β : Type} {l : List α} {f : α → List β} (h : ∀ x ∈ l, f x = []) : l.flatMap f = [] := by
  induction l with
  | nil => rfl
  | cons a t ih =>
    rw [List.flatMap_cons, h a List.mem_cons_self, ih fun x hx => h x (List.mem_cons_of_mem _ hx)]; rfl

theorem gatedIn_nil {s : State} {power : Nat → Power} {rows : List Nat} (h : ∀ r ∈ rows, power (clusterOf r) = .powered) :
    gatedIn power rows = [] := by
  have e : rows.filter (fun r => power (clusterOf r) != .powered) = [] := by
    rw [List.filter_eq_nil_iff]
    intro r hr; rw [h r hr]; decide
  unfold gatedIn; rw [e]

theorem gatedFault_nil {s : State} {rows : List Nat} (h : ∀ r ∈ rows, (s.vc.st.cluster (clusterOf r)).power = .powered) :
    gatedFault s rows = [] := gatedIn_nil (s := s) h

theorem gatedAt_nil {s : State} {st : StreamId} {rows : List Nat} (h : ∀ r ∈ rows, issuedPower s st (clusterOf r) = .powered) :
    gatedAt s st rows = [] := gatedIn_nil (s := s) h

theorem rowUe_nil {s : State} {rows : List Nat} (h : ∀ r ∈ rows, s.vc.st.marks.rowUe r = false) : rowUeFault s rows = [] := by
  unfold rowUeFault
  rw [if_neg]
  intro e
  obtain ⟨r, hr, hc⟩ := List.any_eq_true.mp e
  rw [h r hr] at hc; cases hc

theorem popFault_nil {s : State} {h : Nat} (e : entryBad s h = false) : popFault s h = [] := by unfold popFault; rw [e]; rfl

theorem vReady_checks {s : State} {w : VWord} {srcs : List (BitVec 7 × Fmt)} {fd : Fmt} {pdst rounds : Bool}
    (h : VReady s w srcs fd pdst rounds) : vChecks s w srcs fd pdst rounds = [] := by
  unfold vChecks
  dsimp only
  rw [flatMap_nil, gatedFault_nil h.power, rowUe_nil h.intact, h.sound]
  · have e1 : ((fd == .xa && !pdst && (dstAnchor s pdst w.dst (srcs.map (·.1))).isNone)
        || (srcs.any fun x => (srcAnchor s (dstAnchor s pdst w.dst (srcs.map (·.1))) x.1 x.2).isNone)) = false := by
      rw [Bool.or_eq_false_iff]
      constructor
      · by_cases h1 : fd = .xa
        · by_cases h2 : pdst = false
          · have := h.anchorD h1 h2
            cases hx : dstAnchor s pdst w.dst (srcs.map (·.1)) with
            | none => rw [hx] at this; cases this
            | some a => simp
          · simp [Bool.eq_true_of_not_eq_false h2]
        · simp [h1]
      · rw [List.any_eq_false]
        intro x hx
        have := h.anchors x hx
        cases hy : srcAnchor s (dstAnchor s pdst w.dst (srcs.map (·.1))) x.1 x.2 with
        | none => rw [hy] at this; cases this
        | some a => simp
    rw [e1]
    cases hr : rounds
    · rfl
    · have := h.mode hr
      unfold roundFaults
      have h5 : ¬ (5 < (fctlMode s.vc.sV.fctl).toNat) := by have := this.1; unfold vMode at this; omega
      have hd : drawFault s (fctlMode s.vc.sV.fctl) s.vc.sV.fctl = [] := this.2
      simp [State.stream, h5, hd]
  · intro x hx
    have := h.bound x hx
    unfold handleFault
    simp [this.1, this.2]

theorem vReady_stall {s : State} {w : VWord} {srcs : List (BitVec 7 × Fmt)} {fd : Fmt} {pdst rounds : Bool}
    (h : VReady s w srcs fd pdst rounds) :
    vStall s (handlesOf (srcs.map (·.1))) (if !pdst && isHndCode w.dst then some (w.dst.toNat - 64) else none) = none := by
  unfold vStall
  have e : (handlesOf (srcs.map (·.1))).find? (fun x => decide ((s.vc.st.handle x).fill < (handlesOf (srcs.map (·.1))).count x))
      = none := by
    rw [List.find?_eq_none]
    intro x hx
    have := h.filled x hx
    simp; omega
  rw [e]
  dsimp only
  split
  · rename_i h' he
    split at he
    · rename_i hc
      simp at hc he
      have := h.room hc.1 hc.2
      subst he
      exact if_neg this
    · cases he
  · rfl

/-! ### The end of a checked word -/

theorem issue_checked (st : StreamId) (cl : Clauses) (s s1 : State) (checks : List FaultInfo) (low : Option (Nat × Nat))
    (hw : Waited s cl) (hc : firstFault checks = none) :
    Gives (issue st cl s checks (.done s1 low)) fun t => CheckedEnd st cl s1 t low := by
  unfold issue
  rw [waitMet_of_waited st cl s hw, hc]
  have e := done_ends st cl s1 (stopBefore s st)
  have ea : ((advance (takeAt s1 cl) st).stream st).asyte = (s1.stream st).asyte := by
    rw [((Ends.takeAt st cl s1).trans st (Ends.advance st _)).own]
  cases low with
  | none =>
    refine ⟨_, rfl, ?_, ?_⟩
    · intro _; exact e
    · intro j a h; cases h
  | some x =>
    obtain ⟨j, a⟩ := x
    refine ⟨_, rfl, ?_, ?_⟩
    · intro h; cases h
    · intro j' a' h
      cases h
      dsimp only
      rw [ea]
      by_cases hb : (s1.stream st).asyte.getLsbD 0 = true
      · refine ⟨_, fitting_ends st cl s1, fun h => absurd h (by rw [hb]; decide), fun _ => ?_⟩
        rw [if_pos hb]
        generalize setLow (afterLast (takeAt s1 cl) st (setFitting (advance (takeAt s1 cl) st) st cl)) st = t1
        constructor
        · refine ⟨_, takeFault_records .., vcoreRecord_status .., ?_, ?_, ?_⟩
          · obtain ⟨who, time, h⟩ := vcoreRecord_bits t1 st
              { stopBefore s st with npc := (t1.stream st).pc, after := true } (assayLow j a)
            rw [h]; exact record_info ..
          · obtain ⟨who, time, h⟩ := vcoreRecord_bits t1 st
              { stopBefore s st with npc := (t1.stream st).pc, after := true } (assayLow j a)
            rw [h, record_hdr _ _ _ _ _ _ _ _ _ (by omega), (hdr_fields st.code (code_lt st) ..).2.2]
          · obtain ⟨who, time, h⟩ := vcoreRecord_bits t1 st
              { stopBefore s st with npc := (t1.stream st).pc, after := true } (assayLow j a)
            rw [h]; exact record_npc ..
        · exact takeFault_stops ..
        · rw [takeFault_stream]
        · exact takeFault_regs ..
        · exact takeFault_st ..
        · rfl
      · exact ⟨_, e, fun _ => by rw [if_neg hb], fun h => absurd h hb⟩

/-! ### Writing -/

theorem vRow_lt (s : State) (j : Nat) : s.vRow j < 256 := by unfold State.vRow; dsimp only; split <;> omega

theorem putRow_row (s : State) (row : Nat) (h : row < 256) (x : Row) (r : Nat) :
    (putRow s row x).row r = if r = row then x else s.row r := by
  unfold putRow State.row
  rw [dif_pos h]
  dsimp only [State.setStore]
  by_cases hr : r < 256
  · simp only [Vector.toList, List.getD_eq_getElem?_getD, Vector.set]
    by_cases e : r = row
    · subst e; simp [hr]
    · simp [e, Ne.symm e]
  · have : r ≠ row := by omega
    rw [if_neg this]
    have h1 : (s.vc.st.rows.set row x).toList.length ≤ r := by simp; omega
    have h2 : s.vc.st.rows.toList.length ≤ r := by simp; omega
    rw [List.getD_eq_default _ _ h1, List.getD_eq_default _ _ h2]

theorem handle_setHandle (s : State) (n : Nat) (h : n < 16) (x : Handle) (k : Nat) (hk : k < 16) :
    (setHandle s n x).vc.st.handle k = if k = n then x else s.vc.st.handle k := by
  unfold setHandle Store.handle
  rw [dif_pos h]
  dsimp only [State.setStore]
  simp only [Vector.toList, List.getD_eq_getElem?_getD, Vector.set]
  by_cases e : k = n
  · subst e; simp [hk]
  · simp [e, Ne.symm e]

/-- New ECC of core-store words, and corrected errors, change marks and counts only. -/
theorem coreWritten_eq (s : State) (csa n : Nat) : coreWritten s csa n = s.setMarks (coreWritten s csa n).vc.st.marks := by
  unfold coreWritten; dsimp only; split <;> rfl

/-- A push changes one handle, the entry number, and the marks of the entry's place. -/
theorem pushEntry_eq (s : State) (n : Nat) (h : n < 16) (d : RowBits) (x : SideBits) : pushEntry s n d x =
    { s with vc := { s.vc with st := { s.vc.st with
        h := (pushEntry s n d x).vc.st.h, nextId := s.vc.st.nextId + 1, marks := (pushEntry s n d x).vc.st.marks } } } := by
  unfold pushEntry setHandle
  dsimp only
  rw [coreWritten_eq, dif_pos h]
  rfl

theorem pushEntry_handle (s : State) (n : Nat) (h : n < 16) (d : RowBits) (x : SideBits) (k : Nat) (hk : k < 16) :
    (pushEntry s n d x).vc.st.handle k =
      if k = n then
        { s.vc.st.handle n with
          entries := (s.vc.st.handle n).entries ++ [⟨s.vc.st.nextId, d, x, true⟩]
          free := (s.vc.st.handle n).free - 1 }
      else s.vc.st.handle k := by
  have e : (pushEntry s n d x).vc.st.handle k = (setHandle s n
      { s.vc.st.handle n with
        entries := (s.vc.st.handle n).entries ++ [⟨s.vc.st.nextId, d, x, true⟩]
        free := (s.vc.st.handle n).free - 1 }).vc.st.handle k := by
    unfold pushEntry; dsimp only; rw [coreWritten_eq]; unfold setHandle; simp only [dif_pos h]; rfl
  rw [e, handle_setHandle _ _ h _ _ hk]

/-- The state that vFinish leaves. -/
def vStore (w : VWord) (s : State) (row : Nat) (img : Row) (fl : Flags) : State :=
  if isHndCode w.dst then pushEntry (s.orFlags .v fl) (w.dst.toNat - 64) img.data img.side
  else writeRow (s.orFlags .v fl) .v row img

theorem vStore_written (w : VWord) (s : State) (img : Row) (fl : Flags) :
    Written s (vStore w s (s.vRow w.dst.toNat) img fl) w img fl := by
  constructor
  · intro hh
    unfold vStore
    rw [if_neg (by simp [hh])]
    unfold writeRow
    have hz : (s.orFlags .v fl).vc.st = s.vc.st := rfl
    rw [hz]
    cases hc : s.vc.st.hazard (s.vRow w.dst.toNat)
    · refine ⟨?_, ?_, ?_⟩
      · intro r
        simp only [Bool.false_eq_true, if_false]
        rw [putRow_row _ _ (vRow_lt ..)]
        by_cases e : r = s.vRow w.dst.toNat
        · simp [e, hc]
        · simp [e]; rfl
      · simp only [Bool.false_eq_true, if_false]
        unfold putRow
        rw [dif_pos (vRow_lt ..)]
        rfl
      · simp only [Bool.false_eq_true, if_false]
        have e : (putRow (s.orFlags .v fl) (s.vRow w.dst.toNat) img).vc.sV = { s.vc.sV with fflags := s.vc.sV.fflags ||| fl } := by
          unfold putRow
          rw [dif_pos (vRow_lt ..)]
          rfl
        rw [e]
        have z : s.vc.sV.fflags ||| fl ||| 0 = s.vc.sV.fflags ||| fl := BitVec.or_zero
        rw [z]
    · refine ⟨?_, ?_, ?_⟩
      · intro r
        simp only [if_true]
        by_cases e : r = s.vRow w.dst.toNat
        · rw [if_neg (by intro x; rw [x.1, hc] at x; exact absurd x.2 (by decide))]; rfl
        · rw [if_neg (by intro x; exact e x.1)]; rfl
      · rfl
      · rfl
  · intro hh
    unfold vStore
    rw [if_pos hh]
    have hn : w.dst.toNat - 64 < 16 := by
      unfold isHndCode at hh; simp at hh; omega
    refine ⟨?_, ?_, ?_⟩
    · intro n hlt
      rw [pushEntry_handle _ _ hn _ _ _ hlt]
      have hz : (s.orFlags .v fl).vc.st = s.vc.st := rfl
      rw [hz]
      by_cases e : n = w.dst.toNat - 64
      · rw [if_pos e, if_pos e, ← e]
      · rw [if_neg e, if_neg e]
    · have e := pushEntry_eq (s.orFlags .v fl) _ hn img.data img.side
      rw [e]
      rfl
    · rw [pushEntry_eq (s.orFlags .v fl) _ hn img.data img.side]
      rfl

theorem vFinish_eq (w : VWord) (s : State) (an : Anchor) (r : VRes) :
    vFinish w an r s =
      let r' : VRes := if isHndCode w.dst then { r with zeroed := 0 } else r
      let img := buildRow an (vOld s w) r'
      .done (vStore w s (s.vRow w.dst.toNat) img (r.outs.foldl (fun a o => a ||| o.fl) 0)) (lowOf s.vc.sV.asyth an img r) := by
  unfold vFinish vStore vOld State.row
  dsimp only
  split <;> rfl

/-! ### Reading sources -/

/-- What reading sources leaves alone: rows, registers, memory, and every field of the V stream but its flags. -/
structure SameRows (s t : State) : Prop where
  rows : t.vc.st.rows = s.vc.st.rows
  regs : t.vc.regs = s.vc.regs
  mem : t.mem = s.mem
  sV : t.vc.sV = { s.vc.sV with fflags := t.vc.sV.fflags }

theorem SameRows.refl (s : State) : SameRows s s := ⟨rfl, rfl, rfl, rfl⟩

theorem SameRows.trans {a b c : State} (h : SameRows a b) (g : SameRows b c) : SameRows a c :=
  ⟨g.rows.trans h.rows, g.regs.trans h.regs, g.mem.trans h.mem, by rw [g.sV, h.sV]⟩

theorem countCes_same (s : State) (n : Nat) : SameRows s (countCes s n) := by
  rw [HomeLaws.countCes s n]; exact ⟨rfl, rfl, rfl, rfl⟩

theorem corrected_same (s : State) (mk : Marks) (n : Nat) : SameRows s (countCes (s.setMarks mk) n) :=
  SameRows.trans (b := s.setMarks mk) ⟨rfl, rfl, rfl, rfl⟩ (countCes_same _ _)

theorem correctCore_same (s : State) (lo n : Nat) : SameRows s (correctCore s lo n) := by
  unfold correctCore
  dsimp only
  split
  · exact SameRows.refl s
  · exact corrected_same s _ _

theorem setHandle_same (s : State) (n : Nat) (h : Handle) : SameRows s (setHandle s n h) := by
  unfold setHandle
  split
  · exact ⟨rfl, rfl, rfl, rfl⟩
  · exact SameRows.refl s

theorem readRow_same (s : State) (row : Nat) : SameRows s (readRow s .v row).2 := by
  unfold readRow
  dsimp only
  split
  · exact ⟨rfl, rfl, rfl, rfl⟩
  · split
    · exact SameRows.refl s
    · exact corrected_same s _ _

theorem popEntry_same {s t : State} {n : Nat} {e : Entry} (h : popEntry s n = some (e, t)) : SameRows s t := by
  unfold popEntry at h
  dsimp only at h
  split at h
  · split at h
    · cases h
      exact (correctCore_same _ _ _).trans (setHandle_same _ _ _)
    · cases h
  · cases h

theorem takeSrcs_same (s : State) (l : List (BitVec 7 × Fmt × Anchor)) : SameRows s (takeSrcs s l).2 := by
  induction l generalizing s with
  | nil => exact SameRows.refl s
  | cons x t ih =>
    obtain ⟨c, f, an⟩ := x
    unfold takeSrcs
    dsimp only
    split
    · exact (readRow_same s _).trans (ih _)
    · split
      · split
        · rename_i he
          exact (popEntry_same he).trans (ih _)
        · exact ih s
      · exact ih s

theorem vOld_same {s t : State} (h : SameRows s t) (w : VWord) : vOld t w = vOld s w := by
  unfold vOld State.row State.vRow
  rw [h.rows, h.regs]

/-! ### Words -/

/-- A V word whose result is written by vFinish. -/
theorem vWord_gives {w : VWord} {s : State} {srcs : List (BitVec 7 × Fmt)} {fd : Fmt} {rounds : Bool}
    (h : VReady s w srcs fd false rounds) (res : List VSrc → Anchor → VRes) (hr : ∀ xs an, (res xs an).Fits) :
    VGives w s srcs (vWord w s srcs fd false rounds fun xs an s1 => vFinish w an (res xs an) s1) res := by
  unfold VGives vWord
  dsimp only
  have hst := vReady_stall h
  simp only [Bool.not_false, Bool.true_and] at hst
  simp only [Bool.not_false, Bool.true_and]
  rw [hst, vReady_checks h]
  dsimp only
  have hs : SameRows s (vSources s w srcs false).2 := takeSrcs_same _ _
  have ha : (vSources s w srcs false).2.vc.sV.asyth = s.vc.sV.asyth := by rw [hs.sV]
  rw [vFinish_eq]
  dsimp only
  obtain ⟨t, ht, hc⟩ := issue_checked .v w.cl s
    (vStore w (vSources s w srcs false).2 ((vSources s w srcs false).2.vRow w.dst.toNat)
      (buildRow (vAnchor s w srcs false) (vOld (vSources s w srcs false).2 w)
        (if isHndCode w.dst then { res (vSources s w srcs false).1 (vAnchor s w srcs false) with zeroed := 0 }
          else res (vSources s w srcs false).1 (vAnchor s w srcs false)))
      ((res (vSources s w srcs false).1 (vAnchor s w srcs false)).outs.foldl (fun a o => a ||| o.fl) 0))
    [] (lowOf s.vc.sV.asyth (vAnchor s w srcs false)
      (buildRow (vAnchor s w srcs false) (vOld (vSources s w srcs false).2 w)
        (if isHndCode w.dst then { res (vSources s w srcs false).1 (vAnchor s w srcs false) with zeroed := 0 }
          else res (vSources s w srcs false).1 (vAnchor s w srcs false)))
      (res (vSources s w srcs false).1 (vAnchor s w srcs false))) h.wait rfl
  refine ⟨t, ?_, _, _, ?_, vStore_written .., hc⟩
  · rw [← ha] at ht
    exact ht
  · rw [← vOld_same hs]
    apply buildRow_image
    have g := hr (vSources s w srcs false).1 (vAnchor s w srcs false)
    split
    · exact ⟨g.below, g.once, g.blocks, g.onceB, g.noScales⟩
    · exact g

theorem laneRes_fits (s : State) (w : VWord) (f : Fmt) (carried checked : Bool) (lane : Nat → Nat × Nat × Flags) :
    (laneRes s w f carried checked lane).Fits := by
  constructor
  · intro o ho
    obtain ⟨j, hj, rfl⟩ := List.mem_map.mp ho
    exact (mem_lanesIn.mp hj).1
  · unfold laneRes
    simp only [List.map_map]
    have : ((fun o : LaneOut => o.j) ∘ fun j => (⟨j, (lane j).1, (lane j).2.1, (lane j).2.2⟩ : LaneOut)) = id := rfl
    rw [this, List.map_id]
    exact lanesIn_nodup _ _
  · intro x hx; cases hx
  · exact List.nodup_nil
  · intro _; rfl

/-- A V word of the common form. -/
theorem vLanes_gives {w : VWord} {s : State} {srcs : List (BitVec 7 × Fmt)} {fd : Fmt} {rounds : Bool}
    (h : VReady s w srcs fd false rounds) (carried checked : Bool) (op : List VSrc → Anchor → Nat → Nat × Nat × Flags) :
    VGives w s srcs (vLanes w s srcs fd rounds carried checked op) (fun xs an => laneRes s w fd carried checked (op xs an)) :=
  vWord_gives h _ fun _ _ => laneRes_fits ..

/-- A result restated on the sources that the word reads. -/
theorem VGives.cong {w : VWord} {s : State} {srcs : List (BitVec 7 × Fmt)} {o : Out} {r r' : List VSrc → Anchor → VRes}
    (h : VGives w s srcs o r) (e : ∀ an, r (vSources s w srcs false).1 an = r' (vSources s w srcs false).1 an) :
    VGives w s srcs o r' := by
  unfold VGives at *
  simp only [e] at h
  exact h

theorem laneRes_cong {s : State} {w : VWord} {f : Fmt} {c k : Bool} {l l' : Nat → Nat × Nat × Flags} (e : ∀ j, l j = l' j) :
    laneRes s w f c k l = laneRes s w f c k l' := by
  rw [show l = l' from funext e]

/-- An integer lane as R69 has it. -/
theorem iLane_eq (f : Fmt) (sat : Bool) (n : Int) : iLane f sat n = intLane f sat n := by
  have hb : intMin f ≤ intMax f := by cases f <;> decide
  unfold iLane fitI intLane
  cases sat
  · simp
  · dsimp only
    by_cases h1 : n < intMin f
    · have hm : max (intMin f) (min (intMax f) n) = intMin f := by omega
      have : intMin f ≠ n := by omega
      simp [h1, hm, this]
    · by_cases h2 : intMax f < n
      · have hm : max (intMin f) (min (intMax f) n) = intMax f := by omega
        have : intMax f ≠ n := by omega
        simp [h1, h2, hm, this]
      · have hm : max (intMin f) (min (intMax f) n) = n := by omega
        simp [h1, h2, hm]

/-- Every lane of a row image is a pattern of its format. -/
theorem srcLane_img (f : Fmt) (an : Anchor) (r : Row) (l : List VSrc) (j : Nat) : (srcLane (.img f an r :: l) 0 j).x < 2 ^ f.width := by
  show nbits _ _ _ < _
  unfold nbits
  exact Nat.mod_lt _ (Nat.two_pow_pos _)

end Sys2Proof.Machine
end

