-- ==== Sys2Proof/Tests/Slice0.lean ====
section
/-! SUPPORT. Tests. Words and results come from the encodings and worked examples of spec/, or are computed by hand from its rules;
each ill-formed term breaks one check; the witnesses show a state and operands that meet the hypotheses of each statement. -/

namespace Sys2Proof.Tests

open Sys2Proof Sys2Proof.Machine

set_option Elab.async false

/-! ### Decoding: words written out in the spec, or bit by bit from the layouts -/

/-- Clauses that wait for nothing and set nothing. -/
def cl0 : Clauses := ⟨0, 0, 0, 0⟩
/-- A V word by its fields (R180). -/
def vw (ty : BitVec 4) (pred : BitVec 5) (d a b c : BitVec 7) : VWord := ⟨false, ty, pred, d, a, b, c, cl0⟩
def mw (ty slab : BitVec 4) (ix : BitVec 7) (xt : BitVec 5) (addr : BitVec 17) : MWord := ⟨ty, slab, ix, xt, addr, cl0⟩
def cw (imm : BitVec 64) (ty nst : BitVec 4) (d s : BitVec 7) (aux : BitVec 15) : CWord := ⟨imm, ty, nst, d, s, aux, cl0⟩
def ew (e : Engine) (d a b c : BitVec 7) : EngineWord := ⟨e, vw 0 0 d a b c⟩

/-- The words of R178, R179, R201 to R226 and of spec/09's routine. -/
theorem test_decode_scalar : ∀ p ∈ ([(0x04500010, .addi 5 0 16), (0x81FFFFFF, .pbt 3 0x7FFFFF), (0x01214658, .cmp 2 2 5 6),
    (0x89A40000, .br 3 2 1), (0, .add 0 0 0), (0x60519010, .ld 5 6 2 16), (0x2C50CDEF, .li 5 0xCDEF), (0x305189AB, .lih 5 1 0x89AB),
    (0x4C518B22, .fcvt 5 6 1 2 0x0B false), (0x4051872A, .fmul 5 6 7 1 1), (0x78518716, .amo 5 6 7 0 true false true true),
    (0xA4400001, .semadd 4 0 1), (0xC8000006, .ifence), (0xC8000003, .halt), (0xC01C0D80, .fence 7 3 3),
    (0x64505840, .st 5 1 3 64)] : List (BitVec 32 × Instr)), decode (.s p.1) = .ok p.2 := by decide +kernel

/-- The words of spec/10's worked routine (R180, R185). -/
theorem test_decode_vector : ∀ p ∈ ([(0x308001A400000000, .vld (vw 8 0 1 82 0 0)), (0x308002A401000000, .vld (vw 8 0 2 82 0 32)),
    (0x0280030208000000, .vsub (vw 8 0 3 1 2 0)), (0x3A80010754000000, .vasylt (vw 8 0 1 3 85 0)),
    (0x4480020200000000, .vany (vw 8 0 2 1 0 0)), (0x4601000000180000, .vbr (vw 0 2 0 0 0 3)),
    (0x318003A600000000, .vst (vw 8 0 3 83 0 0)), (0x7300000000000000, .haltE (ew .v 0 0 0 0))] : List (BitVec 64 × Instr)),
    decode (.v p.1) = .ok p.2 := by decide +kernel

/-- M words by R187: MLDB of BF16 at core-store address 0x100000; MMA on slab a3 with its index in row v9; MCHB; MANCH per-term
mode, anchor 5. -/
theorem test_decode_matrix : ∀ p ∈ ([(0x01A0000000000000 ||| (0x8000 <<< 19), .mldb (mw 0xA 0 0 0 0x8000)),
    (0x04A3000000000000 ||| (9 <<< 41) ||| (2 <<< 19), .mma (mw 0xA 3 9 0 2)), (0x0603000000000000, .mchb (mw 0 3 0 0 0)),
    (0x0903000000000000 ||| (1 <<< 28) ||| (5 <<< 19), .manch (mw 0 3 0 0 0x205))] : List (BitVec 64 × Instr)),
    decode (.m p.1) = .ok p.2 := by decide +kernel

/-- C words by R188: a CCOPY of 256 elements of FP32 from [k2] to [k1]; CFILL into [k1] with pattern 7; CLOOP. -/
theorem test_decode_copy : ∀ p ∈ ([((0x0280000000000000 ||| (81 <<< 41) ||| (82 <<< 34) ||| (255 <<< 19) : BitVec 128),
      Instr.ccopy (cw 0 8 0 81 82 255)),
    ((7 <<< 64) ||| 0x0780000000000000 ||| (81 <<< 41) ||| (15 <<< 19), .cfill (cw 7 8 0 81 0 15)),
    (0x0B00000000000000 ||| (2 <<< 41) ||| (4 <<< 19), .cloop (cw 0 0 0 2 0 4))] : List (BitVec 128 × Instr)),
    decode (.c p.1) = .ok p.2 := by decide +kernel

/-- The table of R433. -/
theorem test_decode_illegal : ∀ p ∈ ([(.s 0x000000FF, 0x1001), (.s 0x405187E2, 0x1002), (.s 0x42800000, 0x1004), (.s 0x88003000, 0x1003),
    (.v 0x8F00000000000000, 0x1001), (.v 0x0180030390000000, 0x1002)] : List (Code × BitVec 16)),
    (match decode p.1 with | .illegal e => e.code.status | .ok _ => 0) = p.2 := by decide +kernel

/-! ### Well-formedness: one term for each check, and the code it raises -/

/-- The code that a term's own fields raise, zero where none. -/
def faultOf (i : Instr) : BitVec 16 := ((firstIllegal (wordFaults i)).map fun e => e.code.status).getD 0

theorem smoke_scalar : ∀ p ∈ ([(.fadd 32 0 0 0 1, 0x1004), (.fadd 0 32 0 0 1, 0x1004), (.fadd 0 0 32 0 1, 0x1004), (.fadd 0 0 0 6 1, 0x1002),
    (.fsqrt 0 0 7 1, 0x1002), (.fmin 40 0 0 1, 0x1004), (.fmv 0 33, 0x1004), (.fclass 0 32 1, 0x1004), (.fasy 0 32 1, 0x1004),
    (.fsetasy 32 0, 0x1004), (.fcmp 7 0 0 0 1, 0x1002), (.fcvt 0 0 6 2 0x0B false, 0x1002), (.fcvt 0 0 0 0x18 0x0B false, 0x1005),
    (.fcvt 0 0 0 2 0x1F false, 0x1005), (.fcvt 0 40 0 2 0x0B false, 0x1004), (.ld 0 0 7 0, 0x1002), (.st 0 0 4 0, 0x1002), (.ldf 0 0 4 0, 0x1002),
    (.ldf 32 0 2 0, 0x1004), (.lda 0 0 1 0, 0x1002), (.amo 0 0 0 7 true false false false, 0x1002), (.amo 0 0 0 0 true true false false, 0x1003),
    (.br 0 0 3, 0x1002), (.ret 0 1 0, 0x1003), (.fence 0 1 0, 0x1002), (.fence 1 1 6, 0x1002), (.fence 0x21 1 0, 0x1003), (.qcfg 16 0, 0x1004)]
    : List (Instr × BitVec 16)), faultOf p.1 = p.2 ∧ ¬ WellFormed p.1 := by decide +kernel

theorem smoke_vector : ∀ p ∈ ([(.vadd { vw 8 0 1 2 3 0 with cl := ⟨0, 0, 0, 4⟩ }, 0x1002), (.vadd { vw 8 0 1 2 3 0 with cl := ⟨1, 1, 2, 3⟩ }, 0x1002),
    (.vadd { vw 8 0 1 2 3 0 with cl := ⟨1, 0, 0, 0⟩ }, 0x1003), (.vadd { vw 8 0 1 2 3 0 with cl := ⟨0, 0, 5, 0⟩ }, 0x1003),
    (.vadd (vw 8 0 96 2 3 0), 0x1002), (.vadd (vw 8 0 80 2 3 0), 0x1006), (.vadd (vw 8 0 1 2 3 1), 0x1003), (.vadd (vw 0xD 0 1 2 3 0), 0x1005),
    (.vld (vw 8 0 64 80 0 0), 0x1006), (.vld (vw 8 0 1 2 0 0), 0x1006), (.vldh (vw 8 0 1 80 0 0), 0x1006), (.vasylt (vw 8 0 1 2 64 0), 0x1006),
    (.vcmp (vw 8 0 16 2 3 0), 0x1003), (.vcmp (vw 8 0 1 2 3 7), 0x1002), (.vcmp (vw 2 0 1 2 3 6), 0x1002), (.vsel (vw 0xF 0 1 2 3 0), 0x1005),
    (.vloop (vw 0 0 8 0 0 0), 0x1003), (.vloop (vw 0 0 0 0 32 0), 0x1003), (.pset (vw 0 1 0 0 0 0), 0x1003), (.pset (vw 0 0 0 0 32 1), 0x1006),
    (.vaddw (vw 0xA 0 1 2 3 2), 0x1003), (.vcvt (vw 8 0 1 2 0x0B 2), 0x1005), (.vcvt (vw 0xF 0 1 2 0x2B 2), 0x1006),
    (.vsat (vw 8 0 1 2 0 2), 0x1005), (.vmov (vw 8 0 80 1 0 0), 0x1006), (.vld (vw 0xF 0 1 95 0 0x14), 0x1006),
    (.slabpwr (vw 0 0 0 4 0 0), 0x1003), (.slabpwr (vw 0 0 0 0 0 3), 0x1002), (.vst { vw 8 0 1 80 0 0 with z := true }, 0x1001),
    (.slabretype (vw 8 0 1 0 2 0), 0x1003)] : List (Instr × BitVec 16)), faultOf p.1 = p.2 ∧ ¬ WellFormed p.1 := by decide +kernel

theorem smoke_system : ∀ p ∈ ([(.cairnE ⟨.v, vw 1 0 0 0 0 0⟩, 0x1003), (.cairnE (ew .m 1 0 0 0), 0x1003), (.rdtimeE (ew .c 0 0 0 0), 0x1006),
    (.wrcsrE (ew .v 0 1 0 0), 0x1006), (.rdcsrE (ew .v 80 0 32 0), 0x1003), (.bankmodeE (ew .v 64 80 0 0), 0x1003), (.qcfgE (ew .v 16 80 0 0), 0x1004)]
    : List (Instr × BitVec 16)), faultOf p.1 = p.2 ∧ ¬ WellFormed p.1 := by decide +kernel

theorem smoke_matrix : ∀ p ∈ ([(.mldb (mw 8 0 0 0 0), 0x1005), (.mldb (mw 0xA 1 0 0 0), 0x1003), (.mldb (mw 0xA 0 1 0 0), 0x1003),
    (.mldb (mw 0xA 0 0 1 0), 0x1003), (.mma (mw 0xA 0 96 0 0), 0x1002), (.mmap (mw 8 0 0 0 64), 0x1003), (.mchb (mw 1 0 0 0 0), 0x1003),
    (.mzero (mw 0 0 0 0 1), 0x1003), (.manch (mw 0 0 0 0 128), 0x1006), (.manch (mw 0 0 0 0 1024), 0x1003), (.mloop (mw 0 8 0 0 0), 0x1003),
    (.mloop (mw 0 0 0 0 32), 0x1003), (.mldbp (mw 0xA 0 0 0 0), 0x1005)] : List (Instr × BitVec 16)),
    faultOf p.1 = p.2 ∧ ¬ WellFormed p.1 := by decide +kernel

theorem smoke_copy : ∀ p ∈ ([(.cnest (cw 0 1 0 0 80 0), 0x1003), (.cnest (cw 0 0 0 8 80 0), 0x1003), (.cnest (cw 0 0 0 0 1 0), 0x1006),
    (.ccopy (cw 0 8 1 80 81 0), 0x1003), (.ccopy (cw 0 0xF 8 80 81 0x2000), 0x1005), (.ccopy (cw 0 8 0 1 81 0), 0x1006), (.ccopy (cw 0 8 0 96 81 0), 0x1002),
    (.ccopy (cw (1 <<< 32) 8 0 64 81 0), 0x1003), (.cmcast (cw 0 8 0 80 81 0), 0x1003), (.cgath (cw 0 8 0 80 81 0x60), 0x1002),
    (.cgath (cw 0 8 0 80 81 0x50), 0x1006), (.cgath (cw 0 8 0 80 81 0x300), 0x1002), (.cfill (cw 0 8 0 80 1 0), 0x1003),
    (.cfoll (cw 0 8 0 80 81 0), 0x1003), (.catom (cw 0 2 0 80 81 7), 0x1002), (.catom (cw 0 2 0 80 95 2), 0x1006), (.catom (cw 0 8 0 80 81 0), 0x1005),
    (.cloop (cw 1 0 0 0 0 0), 0x1003)] : List (Instr × BitVec 16)), faultOf p.1 = p.2 ∧ ¬ WellFormed p.1 := by decide +kernel

/-! ### One step -/

/-- The S word at the program counter, from reset (log 1). -/
def sAt (w : Nat) : State := State.reset.withFetchWord 32 w

/-- What is asked of the state after an outcome; false for a stop. -/
def after (o : Out) (p : State → Bool) : Bool :=
  match o with
  | .next t => p t
  | _ => false

/-- addi s5, s0, 16 (R178): the word runs, s5 is 16, the stream goes on. -/
theorem test_step_addi : after (step (sAt 0x04500010)) (fun t => t.getS 5 == 16 && t.vc.sS.pc == 0x4004) = true := by decide +kernel

/-- OP 0x00 with FN 0xFF (R433): ILLEGAL_OP, and the stream stays. -/
theorem test_step_illegal : after (step (sAt 0xFF)) (fun t => t.vc.sS.pc == 0x4000 && t.vc.stopped
    && t.dev.faults.records.map (fun r => r.bits.extractLsb' 0 16) == [0x1001]) = true := by decide +kernel

/-- vany.f32 p2, p1 (spec/10): with no lane of p1 set, p2 stays zero and the V stream goes on by 8. -/
theorem test_step_vector : after (step (State.reset.withFetchWord 64 0x4480020200000000)) (fun t => t.vc.sV.pc == 0x4008) = true := by
  decide +kernel

/-- The constant of R205 in its four words. -/
theorem test_lih : after (exec (.lih 5 3 0x0123) ((sAt 0).setS 5 0x456789ABCDEF)) (fun t => t.getS 5 == 0x0123456789ABCDEF) = true := by
  decide +kernel

/-- cmpi.ltu c1, s5, -1 compares with all ones (R204). -/
theorem test_cmpi : after (exec (.cmpi 6 1 5 0x3FFF) ((sAt 0).setS 5 7)) (fun t => t.getC 1) = true := by decide +kernel

/-- The overflow of DIV, and REM in that case (R201). -/
theorem test_div : after (exec (.div 3 1 2) (((sAt 0).setS 1 0x8000000000000000).setS 2 0xFFFFFFFFFFFFFFFF))
    (fun t => t.getS 3 == 0x8000000000000000) = true := by decide +kernel
theorem test_rem : after (exec (.rem 3 1 2) (((sAt 0).setS 1 0x8000000000000000).setS 2 0xFFFFFFFFFFFFFFFF))
    (fun t => t.getS 3 == 0) = true := by decide +kernel

/-- MULH of two negative numbers: (−1) × (−2) = 2, whose high half is 0; MULH.n64 of the same patterns is 2^64 − 3 (R201). -/
theorem test_mulh : after (exec (.mulh 3 1 2) (((sAt 0).setS 1 0xFFFFFFFFFFFFFFFF).setS 2 0xFFFFFFFFFFFFFFFE)) (fun t => t.getS 3 == 0) = true := by
  decide +kernel
theorem test_mulh_n64 : after (exec (.mulhN64 3 1 2) (((sAt 0).setS 1 0xFFFFFFFFFFFFFFFF).setS 2 0xFFFFFFFFFFFFFFFE))
    (fun t => t.getS 3 == 0xFFFFFFFFFFFFFFFD) = true := by decide +kernel

/-- BFX reads the bits above bit 63 as zero: 8 bits from position 60 of all ones are 15 (R203). -/
theorem test_bfx : after (exec (.bfx 3 1 60 7) ((sAt 0).setS 1 0xFFFFFFFFFFFFFFFF)) (fun t => t.getS 3 == 15) = true := by decide +kernel

/-- A write of s0 is discarded (R199). -/
theorem test_s0 : after (exec (.addi 0 0 5) (sAt 0)) (fun t => t.getS 0 == 0 && t.vc.sS.pc == 0x4004) = true := by decide +kernel

/-- FADD 1.0 + 1.0 in FP64 is 2.0 (R206). -/
theorem test_fadd : after (exec (.fadd 3 1 2 0 0) (((sAt 0).setF 1 ⟨0x3FF0000000000000, 53⟩).setF 2 ⟨0x3FF0000000000000, 53⟩))
    (fun t => (t.getF 3).v == 0x4000000000000000) = true := by decide +kernel

/-- FMIN takes −0 as less than +0 (R208). -/
theorem test_fmin : after (exec (.fmin 3 1 2 0) (((sAt 0).setF 1 ⟨0, 53⟩).setF 2 ⟨0x8000000000000000, 53⟩))
    (fun t => (t.getF 3).v == 0x8000000000000000) = true := by decide +kernel

/-- The class mask of −0 is bit 3 (R210). -/
theorem test_fclass : after (exec (.fclass 3 1 0) ((sAt 0).setF 1 ⟨0x8000000000000000, 0⟩)) (fun t => t.getS 3 == 8) = true := by decide +kernel

/-- A store is read back, sign-extended by a signed load and not by an unsigned one (R215). -/
theorem test_store : after (exec (.st 5 0 1 64) ((sAt 0).setS 5 0xFFF0)) (fun t => after (exec (.ld 6 0 1 64) t) fun u =>
    u.getS 6 == 0xFFFFFFFFFFFFFFF0) = true := by decide +kernel
theorem test_load_n16 : after (exec (.st 5 0 1 64) ((sAt 0).setS 5 0xFFF0)) (fun t => after (exec (.ld 6 0 5 64) t) fun u =>
    u.getS 6 == 0xFFF0) = true := by decide +kernel

/-- amo.add.i64: s5 takes the old value, memory the sum (R217). -/
theorem test_amo : after (exec (.amo 5 6 7 0 true false false false) (((sAt 0).setS 6 0x5000).setS 7 9))
    (fun t => t.getS 5 == 0 && t.mem.load 0x5000 8 == 9) = true := by decide +kernel

/-- semwait m4, 2 take with m4 = 2 leaves 0 (R226). -/
theorem test_semwait : after (exec (.semwait 4 true 2) ((sAt 0).setM 4 2)) (fun t => t.getM 4 == 0) = true := by decide +kernel

/-- A taken BR goes to its target after the delay slot, though the slot rewrites b2 (R222). -/
theorem test_br : after (exec (.br 2 1 1) (((sAt 0).setC 1 true).setB 2 0x6000)) (fun t => after (exec (.pbt 2 8) t) fun u =>
    u.vc.sS.pc == 0x6000 && u.getB 2 == 0x4024) = true := by decide +kernel

/-- HALT halts its stream (R304). -/
theorem test_halt : after (exec .halt (sAt 0)) (fun t => t.vc.sS.halted) = true := by decide +kernel

/-- TRAP 5: status 0x0001, INFO 5, and the stream stands past it (R306). -/
theorem test_trap : after (exec (.trap 5) (sAt 0)) (fun t => t.vc.sS.pc == 0x4004
    && t.dev.faults.records.map (fun r => (r.bits.extractLsb' 0 16, r.bits.extractLsb' 384 32)) == [(1, 5)]) = true := by decide +kernel

/-- −8 shifted right by one is −4 (R242: copies of the sign bit). -/
theorem test_vsra : after (exec (.vsra (vw 3 0 1 2 3 0)) { (sAt 0) with vc := { (sAt 0).vc with st := { (sAt 0).vc.st with
    rows := ((sAt 0).vc.st.rows.set 2 ⟨0xFFFFFFFFFFFFFFF8, 0⟩).set 3 ⟨0x01, 0⟩ } } }) (fun t => (t.row 1).data == 0xFFFFFFFFFFFFFFFC) = true := by decide +kernel

/-- Every chiplet at step 10 after reset (R350). -/
theorem test_reset_chipst : (devRead State.reset .pf 0x5000018 8).1 = 0x0A0A0A0A0A0A0A0A := by decide +kernel

/-- SCHCFG is written by its fields (R323). -/
theorem test_schcfg : after (exec (.registerWrite 0 0x4000008 8 0x0305) State.reset)
    (fun t => t.dev.sched.age == 3 && t.dev.sched.ywin == 5) = true := by decide +kernel


/-! ### Witnesses: states and operands that meet the hypotheses of the statements -/

theorem ofOpt {ε α : Type} {x : Except ε α} {a : α} (h : x.toOption = some a) : x = .ok a := by
  cases x with
  | ok b => simpa [Except.toOption] using h
  | error e => simp [Except.toOption] at h

/-- A vcore running on core 0, its S stream at 0x4000, with frame 0 mapped read, write, execute. -/
def d0 : State := sAt 0
def privileged (s : State) : State := { s with vc := { s.vc with id := { s.vc.id with priv := true } } }
def inSlot (s : State) : State := { s with vc := { s.vc with delay := some ⟨s.vc.sS.pc - 4, 0x6000, true⟩ } }
/-- SCRATCH in banks 0 to 31. -/
def scratchy (s : State) : State := s.setStore { s.vc.st with bkmode := 0xAAAAAAAAAAAAAAAA }
def home8 (a : Nat) : Place := .home a a 0 0

theorem notInSlot {s : State} (h : s.vc.delay = none) : ¬ InDelaySlot s := by
  rintro ⟨x, g, -⟩
  rw [h] at g
  cases g

theorem d0_noAlias : NoAlias d0 := by unfold NoAlias; decide +kernel

theorem witness_FpMovesAndTests : (31 : BitVec 6).toNat < 32 ∧ (6 : BitVec 3) ≠ 7 := by decide

theorem witness_FpArithmetic : (31 : BitVec 6).toNat < 32 ∧ drawFault d0 4 d0.vc.sS.fctl = [] := by decide +kernel

theorem witness_FpConvert : fmtOfCode 0 = some .i8 ∧ Fmt.i8.isInt = true ∧ fmtOfCode 7 = some .n64 ∧ Fmt.n64.isInt = true
    ∧ fmtOfCode 0x0A = some .f64 ∧ Fmt.f64.isInt = false ∧ fmtOfCode 0x0D = some .bf16 ∧ Fmt.bf16.isInt = false
    ∧ drawFault d0 0 d0.vc.sS.fctl = [] ∧ (31 : BitVec 6).toNat < 32 := by decide +kernel

theorem witness_ScalarLoads : NoAlias d0 ∧ (3 : BitVec 3) ≠ 7 ∧ (31 : BitVec 6).toNat < 32
    ∧ (Loadable d0 (vaOf d0 0 0x3FF) 1 [(home8 0x3FF, 1)] ∧ Loadable d0 (vaOf d0 0 0x3F8) (2 ^ ((3 : BitVec 3).toNat % 4)) [(home8 0x3F8, 8)])
    ∧ (0 < 8 ∧ 248 % 256 + 8 ≤ 256 ∧ 248 < 2 ^ 47) :=
  ⟨d0_noAlias, by decide, by decide, ⟨⟨ofOpt (by decide +kernel), by decide +kernel, by decide +kernel, by decide +kernel⟩,
    ⟨ofOpt (by decide +kernel), by decide +kernel, by decide +kernel, by decide +kernel⟩⟩, by decide⟩

theorem ofErr {ε α : Type} {x : Except ε α} {e : ε} (h : (match x with | .error e => some e | .ok _ => none) = some e) : x = .error e := by
  cases x with
  | ok b => cases h
  | error e' => simpa using h

/-- Another stage-1 leaf for the first GiB; the second GiB mapped to IPA 2^30, with a stage-2 leaf of its own. -/
def dEntry (e : Nat) : State := { d0 with mem := d0.mem.store 0x3000 8 e }
def dLeaf (pa : Nat) (r : Bool) (p : BitVec 2) : State :=
  let s1 := { d0 with mem := d0.mem.store 0x3008 8 0x40000383 }
  (mapLeaf s1 0 ⟨some 0, 2 ^ 30, 2, pa, r, true, true, 0, p, false⟩).getD s1
def gib : Word := 0x40000000

/-- VA_RANGE at 2^57 and at the top; LOCAL_BANK at the window's first and last byte. -/
theorem witness_refusedVa : AccessRefused d0 accLoad 0x200000000000000 8 ⟨0x2001, 0x200000000000000, 0⟩
    ∧ AccessRefused d0 accStore 0xFFFFFFFFFFFFFFFF 1 ⟨0x2001, 0xFFFFFFFFFFFFFFFF, 0⟩
    ∧ AccessRefused d0 accLoad 0x1FFFFFFFFD00000 8 ⟨0x200B, 0x1FFFFFFFFD00000, 0⟩
    ∧ AccessRefused d0 accStore 0x1FFFFFFFFFFFFFF 1 ⟨0x200B, 0x1FFFFFFFFFFFFFF, 31⟩ :=
  ⟨.inl (by decide), .inl (by decide), .inr (.inl (by decide +kernel)), .inr (.inl (by decide +kernel))⟩

/-- S1_FAULT past the first GiB; S1_PERMISSION; QUARRY_OFF and QUARRY_ACCESS; a misaligned DEVICE access; OWNER of a FREE frame at its
first byte. -/
theorem witness_refusedLeaf : AccessRefused d0 accLoad gib 8 ⟨0x2002, gib, 2⟩
    ∧ AccessRefused (dEntry 0x303) accLoad 0 8 ⟨0x2003, 0, 1⟩
    ∧ AccessRefused (dEntry 0x783) accLoad 0 8 ⟨0x2008, 0, 0⟩
    ∧ AccessRefused (dEntry 0x783) accStore 0 8 ⟨0x2007, 0, 0⟩
    ∧ AccessRefused (dEntry 0xB83) accLoad 1 2 ⟨0x2009, 1, 0⟩
    ∧ AccessRefused d0 accLoad 0x10000 8 ⟨0x3001, 0x10000, 0x200⟩ := by
  refine ⟨.inr (.inr ⟨by decide, .inl ⟨mkFault 0x2002 gib 2, ofErr (by decide +kernel), by decide +kernel⟩⟩),
    .inr (.inr ⟨by decide, .inr ⟨0x303, 2, ofOpt (by decide +kernel), .inl (by decide +kernel)⟩⟩),
    .inr (.inr ⟨by decide, .inr ⟨0x783, 2, ofOpt (by decide +kernel), .inr ⟨by decide, .inr (.inl (by decide +kernel))⟩⟩⟩),
    .inr (.inr ⟨by decide, .inr ⟨0x783, 2, ofOpt (by decide +kernel), .inr ⟨by decide, .inl (by decide +kernel)⟩⟩⟩),
    .inr (.inr ⟨by decide, .inr ⟨0xB83, 2, ofOpt (by decide +kernel), .inr ⟨by decide, .inr (.inr (.inl (by decide +kernel)))⟩⟩⟩),
    .inr (.inr ⟨by decide, .inr ⟨0x383, 2, ofOpt (by decide +kernel), .inr ⟨by decide, .inr (.inr (.inr ⟨by decide, by decide,
      .inr ⟨⟨0x10000, true, true, true, 0, 0⟩, ofOpt (by decide +kernel), .inr ⟨by decide, by decide +kernel, .inr (.inr
        ⟨by decide +kernel, by decide +kernel, .inr ⟨by decide +kernel, .inr (.inl (by decide +kernel))⟩⟩)⟩⟩⟩))⟩⟩⟩)⟩

/-- S2_FAULT past the leaf; S2_PERMISSION; UNBACKED; ALIAS of frame 0 under PROT 1. -/
theorem witness_refusedIpa :
    AccessRefused { dLeaf 0 true 0 with mem := (dLeaf 0 true 0).mem.store 0x3008 8 0x80000383 } accLoad gib 8 ⟨0x2005, 0x80000000, 2⟩
    ∧ AccessRefused (dLeaf 0 false 0) accLoad gib 8 ⟨0x2006, gib, 1⟩
    ∧ AccessRefused (dLeaf (2 ^ 46) true 0) accStore gib 8 ⟨0x200A, gib, 0⟩
    ∧ AccessRefused (dLeaf 0 true 1) accStore gib 8 ⟨0x3002, gib, 0⟩ := by
  refine ⟨.inr (.inr ⟨by decide, .inr ⟨0x80000383, 2, ofOpt (by decide +kernel), .inr ⟨by decide, .inr (.inr (.inr ⟨by decide, by decide,
      .inl ⟨mkFault 0x2005 0x80000000 2, ofErr (by decide +kernel), by decide +kernel⟩⟩))⟩⟩⟩),
    .inr (.inr ⟨by decide, .inr ⟨0x40000383, 2, ofOpt (by decide +kernel), .inr ⟨by decide, .inr (.inr (.inr ⟨by decide, by decide,
      .inr ⟨⟨0, false, true, true, 0, 0⟩, ofOpt (by decide +kernel), .inl (by decide +kernel)⟩⟩))⟩⟩⟩),
    .inr (.inr ⟨by decide, .inr ⟨0x40000383, 2, ofOpt (by decide +kernel), .inr ⟨by decide, .inr (.inr (.inr ⟨by decide, by decide,
      .inr ⟨⟨2 ^ 46, true, true, true, 0, 0⟩, ofOpt (by decide +kernel), .inr ⟨by decide, by decide +kernel,
        .inl (by decide +kernel)⟩⟩⟩))⟩⟩⟩),
    .inr (.inr ⟨by decide, .inr ⟨0x40000383, 2, ofOpt (by decide +kernel), .inr ⟨by decide, .inr (.inr (.inr ⟨by decide, by decide,
      .inr ⟨⟨0, true, true, true, 0, 1⟩, ofOpt (by decide +kernel), .inr ⟨by decide, by decide +kernel,
        .inr (.inr ⟨by decide +kernel, by decide +kernel, .inr ⟨by decide +kernel, .inr (.inr ⟨0, 0, 0, false, by decide +kernel,
          .inr (by decide +kernel)⟩)⟩⟩)⟩⟩⟩))⟩⟩⟩)⟩

/-- A load past the first GiB raises S1_FAULT at its word. -/
theorem test_LD_refused : after (exec (.ld 5 6 3 0) (d0.setS 6 gib)) (fun t => (t.getS 5 == 0) && (t.vc.sS.pc == 0x4000) && t.vc.stopped
    && ((t.dev.faults.records.getLast?.map fun r => (r.bits.extractLsb' 0 16, r.bits.extractLsb' 256 64)) == some (0x2002, gib))) = true := by
  decide +kernel

theorem witness_ScalarStores : NoAlias d0 ∧ d0.mem.wf = true ∧ d0.vc.st.scratch.wf = true ∧ (3 : BitVec 3).toNat < 4
    ∧ Storable d0 (vaOf d0 0 0x3F8) 8 [(home8 0x3F8, 8)] ∧ Storable d0 (vaOf d0 0 0x3FF) 1 [(home8 0x3FF, 1)] :=
  ⟨d0_noAlias, by decide +kernel, by decide +kernel, by decide, ⟨ofOpt (by decide +kernel), by decide +kernel⟩,
    ⟨ofOpt (by decide +kernel), by decide +kernel⟩⟩

/-- s6 at an object, aligned to 64 bytes; s7 four bytes on. -/
def dObj : State := (d0.setS 6 0x5000).setS 7 0x5004

theorem witness_Atomics : (6 : BitVec 3) ≠ 7 ∧ ¬ ((dObj.getS 7).toNat % 8 = 0 ∧ True)
    ∧ ((dObj.getS 6).toNat % 8 = 0 ∧ (dObj.getS 6).toNat % 64 = 0) ∧ NoAlias dObj ∧ dObj.mem.wf = true
    ∧ atomicPlace dObj accAtomic (dObj.getS 6) 8 = .ok (home8 0x5000) ∧ 0x5000 < 2 ^ 47
    ∧ (let s1 := homeAccess (releaseActions dObj (dObj.getS 6)) (home8 0x5000); someLocked s1 (boundTo s1 (dObj.getS 6)) = false) :=
  ⟨by decide, by decide +kernel, by decide +kernel, by unfold NoAlias; decide +kernel, by decide +kernel, ofOpt (by decide +kernel), by decide,
    by decide +kernel⟩

theorem witness_SyncObjects : (dObj.getS 7).toNat % 64 ≠ 0 ∧ (dObj.getS 6).toNat % 64 = 0 ∧ NoAlias dObj ∧ dObj.mem.wf = true
    ∧ (∀ l ∈ dObj.vc.st.cache, homeRefuses dObj l.block = false)
    ∧ atomicPlace dObj accObjRead (dObj.getS 6) 8 = .ok (home8 0x5000) ∧ atomicPlace dObj accObjWrite (dObj.getS 6) 8 = .ok (home8 0x5000) :=
  ⟨by decide +kernel, by decide +kernel, by unfold NoAlias; decide +kernel, by decide +kernel, by decide +kernel, ofOpt (by decide +kernel),
    ofOpt (by decide +kernel)⟩

/-- BIND of the greatest range, 2^40 bytes, and of the least, 256; a table that is full, without the entry. -/
theorem witness_Bindings : (0x40 : Word).toNat % 64 = 0 ∧ (0x100 : Word).toNat % 256 = 0 ∧ (0x10000000000 : Word).toNat ≤ 2 ^ 40
    ∧ 256 ≤ (0x100 : Word).toNat ∧ (⟨0x40, 0x100, 0x100⟩ : Binding) ∉ List.replicate 256 (⟨0, 0, 0x100⟩ : Binding)
    ∧ (⟨0x40, 0x100, 0x100⟩ : Binding) ∉ d0.vc.st.bindings ∧ d0.vc.st.bindings.length < 256 ∧ ¬ (1 : Word).toNat % 64 = 0 := by decide +kernel

theorem witness_Transfers : InDelaySlot (inSlot d0) ∧ ¬ InDelaySlot d0 ∧ decides d0 0 1 = false ∧ decides d0 0 0 = true
    ∧ d0.vc.regs.shadow.length < 64
    ∧ (d0.setRegs { d0.vc.regs with shadow := [0] }).vc.regs.shadow = (d0.getB 0) :: [] := by
  refine ⟨⟨_, rfl, ?_⟩, ?_, ?_, ?_, ?_, ?_⟩
  · decide +kernel
  · exact notInSlot (by decide +kernel)
  all_goals decide +kernel

/-- A full shadow stack, with room below SSTK for a spill and a spilled entry at 0x5000. -/
def dFull : State := d0.setRegs { d0.vc.regs with shadow := .replicate 64 8, sstk := 0x5008, sscnt := 1 }
def dSpilled : State := d0.setRegs { d0.vc.regs with sstk := 0x5008, sscnt := 1 }

theorem witness_ShadowStack : ¬ InDelaySlot dFull ∧ decides dFull 0 0 = true ∧ NoAlias dFull ∧ dFull.mem.wf = true
    ∧ dFull.vc.st.scratch.wf = true ∧ dFull.vc.regs.shadow.length = 64 ∧ spillPlace dFull dFull.vc.regs.sstk false = .ok [(home8 0x5008, 8)]
    ∧ ¬ InDelaySlot dSpilled ∧ dSpilled.vc.regs.shadow = [] ∧ dSpilled.vc.regs.sscnt ≠ 0
    ∧ spillPlace dSpilled (dSpilled.vc.regs.sstk - 8) true = .ok [(home8 0x5000, 8)]
    ∧ BitVec.ofNat 64 (natLE (readPieces dSpilled (dSpilled.vc.regs.sstk - 8) [(home8 0x5000, 8)]).1) = dSpilled.getB 0
    ∧ (∃ e rest, dFull.vc.regs.shadow = e :: rest ∧ e ≠ dFull.getB 0) ∧ d0.vc.regs.shadow = [] ∧ d0.vc.regs.sscnt = 0 := by
  refine ⟨?_, by decide +kernel, by unfold NoAlias; decide +kernel, by decide +kernel, by decide +kernel, by decide +kernel, ofOpt (by decide +kernel),
    ?_, by decide +kernel, by decide +kernel, ofOpt (by decide +kernel), by decide +kernel, ⟨8, .replicate 63 8, by decide +kernel, by decide +kernel⟩,
    by decide +kernel, by decide +kernel⟩
  · exact notInSlot (by decide +kernel)
  · exact notInSlot (by decide +kernel)

theorem witness_DelaySlotRunsOnce : ¬ InDelaySlot d0 ∧ (d0.getB 2).toNat % 4 = 0 ∧ ∃ t, exec (.br 2 1 1) d0 = .next t :=
  ⟨notInSlot (by decide +kernel), by decide +kernel, _, rfl⟩

theorem witness_Semaphores : (d0.setS 1 0xFFFF).getS 1 = 0xFFFF ∧ 0xFFFF < ((d0.setS 1 0x10000).getS 1).toNat
    ∧ ((0 : Int) ≤ (d0.getM 4).toNat + (d0.getS 0).toNat + (0 : BitVec 14).toInt ∧ ((d0.getM 4).toNat : Int) + (d0.getS 0).toNat + (0 : BitVec 14).toInt ≤ 0xFFFF)
    ∧ ((d0.getM 4).toNat : Int) + (d0.getS 0).toNat + (0x3FFF : BitVec 14).toInt < 0
    ∧ (0 : BitVec 14).toNat ≤ (d0.getM 4).toNat ∧ (d0.getM 4).toNat < (1 : BitVec 14).toNat := by decide +kernel

/-- A copy in flight, for which a fence over copies waits. -/
def dCopy : State := d0.setStore { d0.vc.st with
  ops := [⟨0, .c, false, 0, 0, cl0, .copy ⟨.cfill (cw 7 8 0 81 0 15), 0, 0, 0, 16, 0, 0, 0, 0, 0, none, none, [], [], false⟩, false⟩], nextId := 1 }

theorem witness_Fences : NoAlias d0 ∧ (∀ l ∈ d0.vc.st.cache, homeRefuses d0 l.block = false) ∧ fenceWaits d0 0x1F 0x1F = false
    ∧ (∀ o ∈ d0.vc.st.ops, o.kind.isCopy = false) ∧ fenceWaits dCopy 4 1 = true := by
  unfold NoAlias; decide +kernel

theorem witness_Waited : Waited d0 cl0 ∧ Waited (d0.setM 3 15) ⟨3, 15, 3, 3⟩ ∧ ¬ Waited d0 ⟨3, 1, 0, 0⟩ := by unfold Waited; decide +kernel

theorem witness_TimeHaltAck : Waited d0 cl0 ∧ d0.vc.st.chain = none ∧ (∀ o ∈ d0.vc.st.ops, o.kind.isCopy = false) := by
  unfold Waited; decide +kernel

theorem witness_ControlRegisterAccess : ((0x81 : BitVec 12).toNat ≠ 0x80) ∧ (privileged d0).vc.id.priv = true ∧ Waited d0 cl0 := by
  unfold Waited; decide +kernel

theorem witness_TrapForms : Waited d0 cl0 ∧ Plain d0 .v ∧ Plain d0 .m ∧ Plain d0 .c ∧ SetFits d0 ⟨0, 0, 5, 1⟩
    ∧ (∀ st, ∀ o ∈ d0.vc.st.ops, o.st ≠ st) ∧ Waited dCopy cl0 ∧ ¬ ∀ o ∈ dCopy.vc.st.ops, o.st ≠ StreamId.c := by
  refine ⟨?_, ?_, ?_, ?_, ?_, fun st o h => (List.not_mem_nil h).elim, ?_, by decide +kernel⟩
  all_goals first | (unfold Waited; decide +kernel) | (unfold Plain; decide +kernel) | (unfold SetFits; decide +kernel)

theorem witness_MeetingForms : (privileged d0).vc.id.priv = true ∧ Waited (privileged d0) cl0 ∧ (privileged d0).vc.st.chain = none
    ∧ d0.vc.id.priv = false ∧ (d0.getS 0).toNat % 4 ≠ 3 ∧ operandBad (d0.getS 0) 0xFFFFFFFF0000FFFC = none ∧ d0.vc.st.chain = none
    ∧ Waited d0 cl0 := by
  unfold Waited; decide +kernel

theorem witness_BankAndTlbOperations : bankmodeChecks d0 0 = [] ∧ tlbinvChecks (privileged d0) 2 = [] ∧ Waited d0 cl0 := by
  unfold Waited; decide +kernel

/-- A page of device 1 at VA 0x40000000, by a leaf of each stage, and a route to that device. -/
def dRemote : State :=
  let s := (mapLeaf { (d0.setS 6 0x40000000) with mem := d0.mem.store 0x3008 8 0x40000383 } 0
    ⟨some 0, 0x40000000, 0, 2 ^ 47, true, true, false, 0, 0, false⟩).getD d0
  { s with dev := { s.dev with links := { s.dev.links with routes := [(1, 0, 1)], ports := s.dev.links.ports.set 0 { s.dev.links.ports.get 0 with up := true } } } }

/-- The other device's home lets the access through where its table has the frame in world 0's hands. -/
theorem dRemote_place (h : Config.remoteOwner 1 0 dRemote.steps = .world 0 0 0 false) :
    placeOf dRemote dRemote.who accRead gib 64 none = .ok (.remote 1 0 0 0) := by
  have hw : walk dRemote dRemote.who gib = .ok (0x40000383, 2) := ofOpt (by decide +kernel)
  have h2 : s2Walk dRemote dRemote.who 0x40000000 gib = .ok ⟨2 ^ 47, true, true, false, 0, 0⟩ := ofOpt (by decide +kernel)
  have hf : frameFault dRemote dRemote.who true 1 (dRemote.remoteFrame 1 0) ⟨2 ^ 47, true, true, false, 0, 0⟩ 0 64 0x40000000 none = none := by
    unfold State.remoteFrame; rw [show (0 : Nat) / 2 ^ 16 = 0 from rfl, h]; decide +kernel
  have hr : resolveIpa dRemote dRemote.who accRead 0x40000000 64 gib false none = .ok (.remote 1 0 0 0) := by
    unfold resolveIpa
    rw [h2]
    dsimp only
    rw [if_neg (by decide +kernel), if_neg (by decide +kernel), if_neg (by decide +kernel), if_neg (by decide +kernel), if_neg (by decide +kernel)]
    rw [show (if isRegSpace (2 ^ 47 % 2 ^ 47) = true then none else frameFault dRemote dRemote.who (dRemote.who.core.isSome && !false) (2 ^ 47 / 2 ^ 47)
      (dRemote.remoteFrame (2 ^ 47 / 2 ^ 47) (2 ^ 47 % 2 ^ 47)) ⟨2 ^ 47, true, true, false, 0, 0⟩ (2 ^ 47 % 2 ^ 47) 64 0x40000000 none) = none from hf]
    rfl
  unfold placeOf
  rw [if_neg (by decide), if_neg (by decide), hw]
  unfold leafPlace
  exact hr

theorem dRemote_pieces (h : Config.remoteOwner 1 0 dRemote.steps = .world 0 0 0 false) :
    pieces dRemote dRemote.who accRead (dRemote.getS 6) 64 = .ok [(.remote 1 0 0 0, 64)] := by
  rw [show dRemote.getS 6 = gib by decide +kernel]
  unfold pieces
  rw [show (64 : Nat) / 2 ^ 16 + 3 = 2 + 1 from rfl, piecesOf, if_neg (by decide)]
  dsimp only
  rw [show (min 64 (min (pageLeft gib) (if windowBase ≤ gib.toNat then bankBytes - (gib.toNat - windowBase) % bankBytes else 64))) = 64 by decide]
  rw [show (accRead.scalar && gib == gib && (64 : Nat) == 64) = accRead.scalar by decide, dRemote_place h]
  rfl

/-- Where the other device has not answered, the word waits. -/
theorem dRemote_waits (h : Config.remoteAnswered dRemote.steps = false) (h1 : Config.remoteOwner 1 0 dRemote.steps = .world 0 0 0 false)
    (h2 : Config.remotePoison 1 0 dRemote.steps = false) : (loadWaits dRemote .s (dRemote.getS 6) 64).isSome = true := by
  have hd : dataFault dRemote (dRemote.getS 6) [(.remote 1 0 0 0, 64)] = none := by
    have hb : blockFault dRemote (dRemote.getS 6) (.remote 1 0 0 0) 0 0 64 = none := by
      unfold blockFault
      dsimp only
      rw [show dRemote.line (blockOf 1 (0 * 256)) = none by decide +kernel, h2]
      rfl
    show firstFault ([(Place.remote 1 0 0 0, 64)].filterMap fun p => firstFault ([0].filterMap fun _ => blockFault dRemote (dRemote.getS 6) (.remote 1 0 0 0) 0 0 64)) = none
    simp only [List.filterMap_cons, List.filterMap_nil, hb]
    rfl
  unfold loadWaits remotePending
  rw [dRemote_pieces h1]
  dsimp only
  rw [h, hd, if_pos (by decide +kernel)]
  rfl
/-- A slot descriptor of zeros at 0x5000, which names no generator; one at 0x5040 that R153 forbids. -/
theorem witness_SlotStaging : NoAlias dObj ∧ (0 : BitVec 6).toNat = (0 : Fin 16).val ∧ (dObj.getS 6).toNat % 64 = 0
    ∧ (dObj.getS 7).toNat % 64 ≠ 0 ∧ (loadWaits dObj .s (dObj.getS 6) 64).isNone = true
    ∧ (Config.remoteAnswered dRemote.steps = false → Config.remoteOwner 1 0 dRemote.steps = .world 0 0 0 false →
      Config.remotePoison 1 0 dRemote.steps = false → (loadWaits dRemote .s (dRemote.getS 6) 64).isSome = true)
    ∧ (dRemote.getS 6).toNat % 64 = 0 ∧ (∃ x s1, loadBytes dObj accRead (dObj.getS 6) 64 = .ok (x, s1) ∧ slotFault (BitVec.ofNat 512 x) = none
      ∧ nbits x 20 4 ≠ 3) ∧ (slotFault (0x600000 : BitVec 512)).isSome = true ∧ Waited dObj cl0 := by
  refine ⟨by unfold NoAlias; decide +kernel, by decide, by decide +kernel, by decide +kernel, by decide +kernel, dRemote_waits, by decide +kernel, ?_,
    by decide +kernel, by unfold Waited; decide +kernel⟩
  exact ⟨0, _, rfl, by decide +kernel, by decide +kernel⟩

/-! Vector words -/

theorem okWith {ε α : Type} {x : Except ε α} (q : α → Bool)
    (h : (match x with | .ok a => q a | .error _ => false) = true) : ∃ a, x = .ok a ∧ q a = true := by
  cases x with
  | ok a => exact ⟨a, rfl, h⟩
  | error e => cases h

/-- The fields of VReady in their order, decided together. -/
def readyB (s : State) (w : VWord) (srcs : List (BitVec 7 × Fmt)) (fd : Fmt) (pdst rounds : Bool) : Bool :=
  let codes : List (BitVec 7) := srcs.map (·.1)
  let named := if pdst then codes else w.dst :: codes
  let da := dstAnchor s pdst w.dst codes
  let hs := handlesOf codes
  decide (w.cl.wn.toNat ≤ (s.getM w.cl.wi).toNat
    ∧ (∀ h ∈ handlesOf named, (s.vc.st.handle h).bound = true ∧ (s.vc.st.handle h).esz = 5)
    ∧ (∀ r ∈ rowsOf s named, (s.vc.st.cluster (clusterOf r)).power = .powered)
    ∧ (fd = .xa → pdst = false → da.isSome = true)
    ∧ (∀ x ∈ srcs, (srcAnchor s da x.1 x.2).isSome = true)
    ∧ (rounds = true → (vMode s).toNat ≤ 5 ∧ drawFault s (vMode s) s.vc.sV.fctl = [])
    ∧ (∀ r ∈ rowsOf s codes, s.vc.st.marks.rowUe r = false)
    ∧ (∀ h ∈ hs, hs.count h ≤ (s.vc.st.handle h).fill)
    ∧ popFaults s hs = []
    ∧ (pdst = false → isHndCode w.dst = true → (s.vc.st.handle (w.dst.toNat - 64)).free + hs.count (w.dst.toNat - 64) ≠ 0))

theorem ready {s : State} {w : VWord} {srcs : List (BitVec 7 × Fmt)} {fd : Fmt} {pdst rounds : Bool}
    (h : readyB s w srcs fd pdst rounds = true) : VReady s w srcs fd pdst rounds :=
  have f := of_decide_eq_true (show decide _ = true from h)
  have g := f.2.2.2.2
  ⟨f.1, f.2.1, f.2.2.1, f.2.2.2.1, g.1, g.2.1, g.2.2.1, g.2.2.2.1, g.2.2.2.2.1, g.2.2.2.2.2⟩

/-- Slab a0: XA128 over rows 0 to 127; h0 bound with room, h1 with one filled entry; SCRATCH in banks 0 to 31. -/
def dv : State :=
  let s := scratchy d0
  { s with vc := { s.vc with
      regs := { s.vc.regs with a := s.vc.regs.a.set 0 0x2E8000, k := s.vc.regs.k.set 0 0x5000, p := s.vc.regs.p.set 2 1 }
      st := { s.vc.st with
        h := (s.vc.st.h.set 0 ⟨true, 40, 5, [], 4⟩).set 1 ⟨true, 41, 5, [⟨0, 0, 0, true⟩], 3⟩ } } }

/-- Row, entry and k operands, .xa, a predicate. -/
theorem witness_VectorArithmetic :
    VReady dv (vw 8 0 1 2 3 0) [(2, .f32), (3, .f32)] (vFmt (vw 8 0 1 2 3 0)) false true
    ∧ VReady dv (vw 3 2 64 65 80 0) [(65, .i64), (80, .i64)] (vFmt (vw 3 2 64 65 80 0)) false false
    ∧ VReady dv (vw 14 0 1 2 3 0) [(2, .xa), (3, .xa)] (vFmt (vw 14 0 1 2 3 0)) false false
    ∧ VReady dv (vw 8 0 1 2 3 4) [(2, .f32), (3, .f32), (4, .f32)] (vFmt (vw 8 0 1 2 3 4)) false true :=
  ⟨ready (by decide +kernel), ready (by decide +kernel), ready (by decide +kernel), ready (by decide +kernel)⟩

theorem witness_VectorFunctions :
    VReady dv (vw 9 0 63 65 0 0) [(65, .f16)] (vFmt (vw 9 0 63 65 0 0)) false false ∧ (vFmt (vw 9 0 63 65 0 0)).isMx = false
    ∧ VReady dv (vw 9 0 63 65 0 0) [(65, .f16)] (vFmt (vw 9 0 63 65 0 0)) false true
    ∧ VReady dv (vw 0 0 63 0 1 0) [(0, .i8), (1, .i8)] (vFmt (vw 0 0 63 0 1 0)) false false :=
  ⟨ready (by decide +kernel), by decide, ready (by decide +kernel), ready (by decide +kernel)⟩

theorem witness_VectorLogic : VReady dv (vw 3 18 64 65 2 0) [(65, .i64), (2, .i64)] (vFmt (vw 3 18 64 65 2 0)) false false
    ∧ VReady dv (vw 3 18 64 65 0 0) [(65, .i64)] (vFmt (vw 3 18 64 65 0 0)) false false :=
  ⟨ready (by decide +kernel), ready (by decide +kernel)⟩

/-- I32 to FP32, FP32 to FP16 with the last part, N16 to I8 under VSAT, FP16 to MX8. -/
theorem witness_VectorConvert :
    (fmtOfCode ((2 : BitVec 7).extractLsb' 0 5) = some .i32 ∧ fmtOfCode ((0x4B : BitVec 7).extractLsb' 0 5) = some .f32 ∧ Fmt.f32.isMx = false
      ∧ ((vw 15 0 1 2 0x4B 2).cvtPart + 1) * Fmt.i32.lanes ≤ Fmt.f32.lanes ∧ VReady dv (vw 15 0 1 2 0x4B 2) [(2, .i32)] .f32 false true)
    ∧ (fmtOfCode (typeToCode 0) = some .i8 ∧ fmtOfCode ((5 : BitVec 7).extractLsb' 0 5) = some .n16 ∧ (1 + 1) * Fmt.n16.lanes ≤ Fmt.i8.lanes
      ∧ VReady dv (vw 0 0 1 2 1 5) [(2, .n16)] .i8 false false)
    ∧ (fmtOfCode ((0x0C : BitVec 7).extractLsb' 0 5) = some .f16 ∧ fmtOfCode ((0x13 : BitVec 7).extractLsb' 0 5) = some .mx8 ∧ Fmt.mx8.isMx = true
      ∧ ((vw 15 0 1 2 0x13 0x0C).cvtPart + 1) * Fmt.f16.lanes ≤ Fmt.mx8.lanes ∧ VReady dv (vw 15 0 1 2 0x13 0x0C) [(2, .f16)] .mx8 false true) :=
  ⟨⟨by decide, by decide, by decide, by decide +kernel, ready (by decide +kernel)⟩, ⟨by decide, by decide, by decide, ready (by decide +kernel)⟩,
    ⟨by decide, by decide, by decide, by decide +kernel, ready (by decide +kernel)⟩⟩

theorem witness_VectorWiden : fmtOfCode (typeToCode 0) = some .i8 ∧ Fmt.i8.wide = some .i16
    ∧ VReady dv (vw 0 0 1 2 3 1) [(2, .i16), (3, .i8)] .i16 false false ∧ VReady dv (vw 0 0 1 2 3 1) [(2, .i8), (3, .i8)] .i16 false false :=
  ⟨by decide, by decide, ready (by decide +kernel), ready (by decide +kernel)⟩

theorem witness_VectorMoves :
    VReady dv (vw 14 0 1 2 3 2) [(2, .xa), (3, .xa)] .xa false false
    ∧ VReady dv (vw 14 0 1 2 0 0) [(2, .xa)] .xa false false ∧ VReady dv (vw 8 0 1 80 0 0) [] .f32 false true
    ∧ (isKCode 1 = false ∧ VReady dv (vw 8 0 1 80 0 0) [(80, .f32)] .f32 false false)
    ∧ (isKCode 80 = true ∧ Waited dv cl0 ∧ (dv.vc.st.cluster (clusterOf (dv.vRow 2))).power = .powered ∧ dv.vc.st.marks.rowUe (dv.vRow 2) = false)
    ∧ (vFmt (vw 15 0 1 2 0 0x13) = .mx8 ∧ Fmt.mx8.isMx = true ∧ VReady dv (vw 15 0 1 2 0 0x13) [(2, .mx8)] .mx8 false false) :=
  ⟨ready (by decide +kernel), ready (by decide +kernel), ready (by decide +kernel), ⟨by decide, ready (by decide +kernel)⟩,
    by unfold Waited; decide +kernel, ⟨by decide, by decide, ready (by decide +kernel)⟩⟩

theorem witness_VectorReductions : VReady dv (vw 8 0 1 2 0 0) [(2, .f32)] .f32 false true ∧ VReady dv (vw 14 2 1 2 0 0) [(2, .xa)] .xa false false
    ∧ ([1, 2] : List Nat).Perm [2, 1] := ⟨ready (by decide +kernel), ready (by decide +kernel), by decide⟩

/-- One term of −1 with an anchor of 0: a chain of one term, whose sum lies within the bounds; and 255 terms. -/
theorem witness_ChainOrder :
    let t : Term := ⟨.fin true 1 0 false, none, true, false⟩
    ([t] : List Term).Perm [t] ∧ (∀ x ∈ [t], x.v.isFin = true) ∧ [t].length ≤ 255
    ∧ (termUnits ⟨0, false⟩ true 1 0 false).1 = max (-(xmax : Int)) (min xmax (termUnits ⟨0, false⟩ true 1 0 false).1)
    ∧ -(xmax : Int) ≤ (termUnits ⟨0, false⟩ true 1 0 false).1 ∧ (termUnits ⟨0, false⟩ true 1 0 false).1 ≤ xmax
    ∧ (xmax : Int) < 2 * xmax ∧ 2 * (xmax : Int) < 2 ^ 135 :=
  ⟨.refl _, by and_intros <;> decide +kernel⟩

theorem witness_VectorPredicates : (15 : BitVec 7).toNat < 16 ∧ (6 : BitVec 3) ≠ 7
    ∧ VReady dv (vw 8 0 15 2 3 6) [(2, .f32), (3, .f32)] (vFmt (vw 8 0 15 2 3 6)) true false
    ∧ Waited dv cl0 := ⟨by decide, by decide, ready (by decide +kernel), by unfold Waited; decide +kernel⟩

theorem witness_VectorAssays : VReady dv (vw 8 0 1 2 0 0) [(2, .f32)] (vFmt (vw 8 0 1 2 0 0)) false false ∧ isRowCode 1 = true
    ∧ dv.vc.st.hazard (dv.vRow 1) = false ∧ (vFmt (vw 8 0 1 2 0 0)).isInt = false ∧ vFmt (vw 8 0 1 2 0 0) ≠ .f64 :=
  ⟨ready (by decide +kernel), by decide, by decide +kernel, by decide, by decide⟩

theorem dv_noAlias : NoAlias dv := by unfold NoAlias; decide +kernel
theorem dv_oneLine : OneLine dv := by unfold OneLine; decide +kernel

/-- Rows of FP32 at k0 = 0x5000, an entry of them in h0, a plane of their assays; one lane active. -/
theorem witness_VectorLoads : Waited dv cl0 ∧ NoAlias dv ∧ OneLine dv ∧ RowReady dv (vw 8 2 1 80 0 0) (memFmt (vw 8 2 1 80 0 0))
    ∧ (∃ ps, vParts dv (vw 8 2 1 80 0 0) accRead (memFmt (vw 8 2 1 80 0 0)) (dv.active 2 512) 512 = .ok ps
      ∧ (vPartsFault dv (vw 8 2 1 80 0 0) (memFmt (vw 8 2 1 80 0 0)) ps == none && !remotePending dv (piecesOfParts ps)) = true)
    ∧ (dv.vc.st.handle 0).bound = true ∧ (dv.vc.st.handle 0).esz.toNat ≤ 5 ∧ (dv.vc.st.handle 0).free ≠ 0
    ∧ entryLanes (memFmt (vw 8 2 64 80 0 0)) (dv.vc.st.handle 0).esz.toNat = 512
    ∧ (memFmt (vw 8 0 1 80 0 0)).isInt = false
    ∧ (∃ plane, rowParts dv dv.who accRead (memEa dv (vw 8 0 1 80 0 0)) 8 [(0, planeBytes .f32)] = .ok plane
      ∧ (partsFault dv (memEa dv (vw 8 0 1 80 0 0)) 8 plane == none && !remotePending dv (plane.map Part.piece)) = true) :=
  ⟨by unfold Waited; decide +kernel, dv_noAlias, dv_oneLine, by unfold RowReady; decide +kernel, okWith _ (by decide +kernel), by decide +kernel,
    by decide +kernel, by decide +kernel, by decide +kernel, by decide, okWith _ (by decide +kernel)⟩

theorem witness_VectorStores : Waited dv cl0 ∧ NoAlias dv ∧ dv.mem.wf = true ∧ dv.vc.st.scratch.wf = true
    ∧ RowReady dv (vw 8 2 1 80 0 0) .f32 ∧ RowIntact dv (dv.vRow 1)
    ∧ (∃ ps, vParts dv (vw 8 2 1 80 0 0) accWrite .f32 (dv.active 2 512) 512 = .ok ps ∧ true = true)
    ∧ (dv.vc.st.handle 1).bound = true ∧ (popEntry dv 1).isSome = true ∧ entryBad dv 1 = false
    ∧ (∃ plane, rowParts dv dv.who accWrite (memEa dv (vw 8 0 1 80 0 0)) 8 [(0, planeBytes .f32)] = .ok plane ∧ true = true) :=
  ⟨by unfold Waited; decide +kernel, dv_noAlias, by decide +kernel, by decide +kernel, by unfold RowReady; decide +kernel,
    by unfold RowIntact; decide +kernel, okWith (fun _ => true) (by decide +kernel), by decide +kernel, by decide +kernel, by decide +kernel,
    okWith (fun _ => true) (by decide +kernel)⟩

theorem witness_VectorGather : Waited dv cl0 ∧ NoAlias dv ∧ OneLine dv ∧ RowReady dv (vw 8 2 1 80 2 0) (vFmt (vw 8 2 1 80 2 0))
    ∧ RowIntact dv (dv.vRow 2) ∧ RowIntact dv (dv.vRow 1) ∧ isHndCode 1 = false ∧ (vFmt (vw 8 2 1 80 2 0)).isMx = false
    ∧ (dv.vc.st.cluster (clusterOf (dv.vRow 2))).power = .powered
    ∧ (∃ l, gatherPieces dv (vw 8 2 1 80 2 0) accRead .f32 (readRow dv .v (dv.vRow 2)).1 (lanesIn (dv.active 2 512) 512) = .ok l
      ∧ (!remotePending dv (l.flatMap fun x => x.2.2) && l.all fun x => dataFault dv x.2.1 x.2.2 == none) = true)
    ∧ (∃ l, gatherPieces dv (vw 8 2 1 80 2 0) accWrite .f32 (readRow dv .v (dv.vRow 2)).1 (lanesIn (dv.active 2 512) 512) = .ok l ∧ true = true) :=
  ⟨by unfold Waited; decide +kernel, dv_noAlias, dv_oneLine, by unfold RowReady; decide +kernel, by unfold RowIntact; decide +kernel,
    by unfold RowIntact; decide +kernel, by decide, by decide, by decide +kernel, okWith _ (by decide +kernel),
    okWith (fun _ => true) (by decide +kernel)⟩

/-- One entry is filled: VADV of one completes, of two waits. -/
theorem witness_EntryAdvance : (65 : BitVec 7).toNat - 64 < 16 ∧ (dv.vc.st.handle 1).bound = true ∧ Waited dv cl0 ∧ dv.vc.sV.part = none ∧ dv.vc.sV.part.getD 0 ≤ 1
    ∧ (vw 0 0 0 65 0 1).imm14.toNat - dv.vc.sV.part.getD 0 ≤ (dv.vc.st.handle 1).fill
    ∧ (dv.vc.st.handle 1).fill < (vw 0 0 0 65 0 2).imm14.toNat - dv.vc.sV.part.getD 0 := by
  unfold Waited; decide +kernel

theorem witness_VectorBranch : Waited dv cl0 ∧ SetFits dv cl0 ∧ dv.vc.sV.loop = none ∧ (dv.getP 2).getLsbD 0 ≠ (2 : BitVec 5).getLsbD 4
    ∧ ¬ ((18 : BitVec 5) = 0 ∨ (dv.getP 2).getLsbD 0 ≠ (18 : BitVec 5).getLsbD 4) := by
  unfold Waited SetFits; decide +kernel

/-- SLABDEF of a1 with 16 rows of FP32 from row 240; SLABRETYPE of a0. -/
theorem witness_SlabWords : (1 : BitVec 7).toNat < 16 ∧ Waited dv cl0 ∧ dv.vc.st.chain = none ∧ (0x1610F0 : Word).toNat < 2 ^ 32
    ∧ (0x1610F0 : Word).toNat % 256 + (0x1610F0 : Word).toNat / 2 ^ 8 % 512 ≤ 256 ∧ slabIsXa 0x1610F0 = false
    ∧ slabFmt 0x1610F0 = 0x0B ∧ (∀ r < 256, (dv.vc.st.cluster (clusterOf r)).power = .powered)
    ∧ (dv.getA 0).toNat % 256 + (dv.getA 0).toNat / 2 ^ 8 % 512 ≤ 256 := by
  unfold Waited; decide +kernel

/-- n1 runs four iterations, n0 none; the words after 0x4000 are NOPs. -/
def dl : State := dv.setRegs { dv.vc.regs with n := dv.vc.regs.n.set 1 4 }
def inLoop (s : State) : State := { s with vc := { s.vc with sV := { s.vc.sV with
  pc := 0x4008, loop := some ⟨[some (.v 0)], 0x4008, 0, 0, 0, 4, 4, cl0, []⟩ } } }

theorem witness_Loops : Waited dl cl0 ∧ firstForbidden (fetchBody dl .v 2 ((dl.stream .v).pc + StreamId.v.size)) = none
    ∧ nestCount (dl.nest 1) ≠ 0 ∧ nestCount (dl.nest 0) = 0 ∧ SetFits dl cl0 ∧ nestBusy dl 1 = false
    ∧ ((inLoop dl).stream .v).loop.isSome = true ∧ isDelivered (inLoop dl) .v = false :=
  ⟨by unfold Waited; decide +kernel, by decide +kernel, by decide +kernel, by decide +kernel, by unfold SetFits; decide +kernel,
    by decide +kernel, by decide +kernel, by decide +kernel⟩

/-! Matrix and copy words -/

/-- Slab a2 is row 5, XA128, a3 row 6 of FP32; latch 1 holds a tile of BF16; k1 is 0. -/
def dm : State := { dv with vc := { dv.vc with
  regs := { dv.vc.regs with a := (dv.vc.regs.a.set 2 0x2E0105).set 3 0x160106, k := dv.vc.regs.k.set 2 0x5040 }
  st := { dv.vc.st with latch1 := .tile .bf16 false [] 0 } } }
def chained (s : State) : State := s.setStore { s.vc.st with chain := some ⟨2, 0x2E0105, .replicate 128 chainZero⟩ }

theorem oneRow {s : State} {d : Word} {n : Nat} (h : slabRow0 d = n ∧ slabRows d = 1)
    (g : issuedPower s .m (clusterOf n) = .powered ∧ s.vc.st.marks.rowUe n = false) : SlabReady s d := by
  intro r hr
  unfold slabHas at hr
  rw [h.1, h.2, Bool.and_eq_true, decide_eq_true_eq, decide_eq_true_eq] at hr
  obtain rfl : r = n := by omega
  exact g

/-- MLDB of BF16 at core-store address 0, inside SCRATCH and outside it; a bank still filling; a pattern that is legal, and one whose last
entry is not. -/
theorem witness_MatrixLoads : Waited dm cl0 ∧ bankState dm.vc.st 0 (tileBytes .bf16 false) = [] ∧ dm.vc.st.nextBank = false
    ∧ dm.vc.st.latch0 = .empty ∧ (bankState d0.vc.st 0 256).length = 1 ∧ scratchFault dm 0 256 = none
    ∧ (∀ i < 128, dm.vc.st.scratch.load (0 + 2 * i) 2 / 2 ^ 7 % 2 ^ 8 = 0)
    ∧ (dm.vc.st.scratch.store 254 2 0x80).load (0 + 2 * 127) 2 / 2 ^ 7 % 2 ^ 8 ≠ 0 := by unfold Waited; decide +kernel

theorem witness_MatrixChains : Waited dm cl0 ∧ dm.vc.st.chain = none ∧ slabIsXa (dm.getA 2) = true ∧ 0 < slabRows (dm.getA 2)
    ∧ slabRows (dm.getA 2) ≤ 128 ∧ slabRow0 (dm.getA 2) + slabRows (dm.getA 2) ≤ 256 ∧ SlabReady dm (dm.getA 2)
    ∧ (chained dm).vc.st.chain = some ⟨2, 0x2E0105, .replicate 128 chainZero⟩ ∧ ChainFits ⟨2, 0x2E0105, .replicate 128 chainZero⟩
    ∧ SlabReady (chained dm) 0x2E0105 ∧ NoFlips dm ∧ dm.vc.st.latch1 = .tile .bf16 false [] 0 ∧ mFmt (mw 0xA 2 81 0 0) = .bf16 ∧ IxReady dm 81
    ∧ ixList dm 81 1 = some [0] ∧ 32 * ((mw 0xA 2 81 0 0).addr.toNat : Int) + loopOffset dm .m = 0 ∧ (∀ k ∈ [0], bankState dm.vc.st (k * aStride .bf16 : Nat) (aStride .bf16) = [] ∧ scratchFault dm (k * aStride .bf16) (aStride .bf16) = none)
    ∧ dv.vc.st.latch1 = .empty :=
  ⟨by unfold Waited; decide +kernel, by decide +kernel, by decide +kernel, by decide +kernel, by decide +kernel, by decide +kernel,
    oneRow (n := 5) (by decide +kernel) (by decide +kernel), by decide +kernel, by unfold ChainFits; decide +kernel,
    oneRow (n := 5) (by decide +kernel) (by decide +kernel), by unfold NoFlips; decide +kernel, by decide +kernel, by decide,
    by unfold IxReady RowIntact; decide +kernel, by decide +kernel, by decide +kernel, by decide +kernel, by decide +kernel⟩

/-- MMAP of FP32 windows 0 and 3 on the row of a3, its index in k1. -/
def dp : State := dm.setStore { dm.vc.st with latch1 := .pattern (.replicate 128 0x8000) }
theorem witness_MatrixRows : Waited dp cl0 ∧ dp.vc.st.latch1 = .pattern (.replicate 128 0x8000) ∧ (List.replicate 128 (0x8000 : BitVec 16)).length = 128
    ∧ ixList dp 81 (slabRows (dp.getA 3)) = some [0] ∧ IxReady dp 81 ∧ fmtAt (slabFmt (dp.getA 3)) = mFmt (mw 8 3 81 0 0x18)
    ∧ ((mw 8 3 81 0 0x18).addr.extractLsb' 3 3).toNat < Fmt.f32.lanes / 128 ∧ slabRow0 (dp.getA 3) + slabRows (dp.getA 3) ≤ 256
    ∧ SlabReady dp (dp.getA 3) ∧ (∀ k ∈ [0], issuedPower dp .m (clusterOf (k % 256)) = .powered ∧ RowIntact dp (k % 256))
    ∧ (∀ r < 256, issuedPower dp .m (clusterOf r) = .powered)
    ∧ (∀ c, dp.vc.st.chain = some c → c.slab.toNat ≠ 3) ∧ slabIsXa (dp.getA 2) = true :=
  ⟨by unfold Waited; decide +kernel, by decide +kernel, by decide +kernel, by decide +kernel, by unfold IxReady RowIntact; decide +kernel,
    by decide +kernel, by decide, by decide +kernel, oneRow (n := 6) (by decide +kernel) (by decide +kernel),
    by unfold RowIntact; decide +kernel, by decide +kernel, fun c h => absurd (h.symm.trans (show dp.vc.st.chain = none by decide +kernel)) (by simp), by decide +kernel⟩

/-- All sixteen slots taken; a CNEST in flight on n0. -/
def dFullSlots : State := dm.setStore { dm.vc.st with
  ops := (List.range 16).map fun i => ⟨i, .c, false, 0, 0, cl0, .copy ⟨.cfill (cw 7 8 0 81 0 15), 0, 0, 0, 16, 0, 0, 0, 0, 0, none, none, [], [], false⟩, false⟩
  nextId := 16 }
def dNesting : State := dm.setStore { dm.vc.st with
  ops := [⟨0, .c, false, 0, 0, cl0, .copy ⟨.cnest (cw 0 0 0 0 80 0), 0, 0, 0, 1, 0, 0, 0, 0, 0, none, none, [], [], false⟩, false⟩], nextId := 1 }

def sound (s : State) (i : Instr) : Bool := copyChecks s i (copyOf s i) == []

/-- Each command of the C stream between [k0] and [k2], and the index commands by row v3 and by entry. -/
theorem witness_CopyIssue : Waited dm cl0 ∧ slotsUsed dm < 16 ∧ nestBusy dm 0 = false ∧ nestBusy dNesting 0 = true ∧ 16 ≤ slotsUsed dFullSlots
    ∧ (∀ i ∈ [Instr.ccopy (cw 0 8 0 80 82 15), .ctrans (cw 0 8 0 80 82 0), .cfill (cw 7 8 0 80 0 15), .cfoll (cw 0x01A0000000000000 8 8 80 82 0), .crem (cw 0x5000 8 0 80 82 15),
        .catom (cw 0 3 0 80 81 0), .cgath (cw 0 8 0 80 82 3), .cscat (cw 0 8 0 80 82 0x41)], sound dm i = true)
    ∧ (ixRow dm 3).isSome = true ∧ (ixRow dm 65).isSome = true ∧ popsBefore dm dm.vc.st.nextId 1 = false
    ∧ (dm.getK 2 + 0).toNat % 64 = 0 ∧ (∃ ps, pieces dm dm.who accCopyRead (dm.getK 2 + 0) 64 = .ok ps
      ∧ (!remotePending dm ps && dataFault dm (dm.getK 2 + 0) ps == none) = true) ∧ nestBad 0 = none :=
  ⟨by unfold Waited; decide +kernel, by
    and_intros
    all_goals first | decide +kernel | exact okWith _ (by decide +kernel)⟩

/-- A CFILL of 16 elements of FP32 into the last bytes of bank 0. -/
def fill : CopyOp := ⟨.cfill (cw 7 8 0 80 0 15), BitVec.ofNat 64 (windowBase + (bankBytes - 64)), 0, 0, 16, 0, 0, 0, 0, 0, none, none, [], [], false⟩
def dFill : State := dm.setStore { dm.vc.st with ops := [⟨0, .c, false, 0, 0, ⟨0, 0, 5, 1⟩, .copy fill, false⟩], nextId := 1 }
theorem witness_CopyFill : ∃ s0, dFill.focusCore 0 = some s0 ∧ (∃ o, copyAt s0 0 = some (o, fill)) ∧ isHndCode 80 = false
    ∧ (cw 7 8 0 80 0 15).nested = false ∧ fill.count ≤ 16 ∧ Fmt.f32.width % 8 = 0 ∧ s0.vc.st.scratch.wf = true
    ∧ fill.dbase.toNat = windowBase + (bankBytes - 64) ∧ (bankBytes - 64) + 16 * 4 ≤ coreStoreBytes ∧ s0.vc.st.scratchOk 0 = true
    ∧ (∀ t < 16, (bankBytes - 64 + t * 4) % bankBytes + 4 ≤ bankBytes) ∧ s0.getM 5 ≠ 0xFFFF :=
  ⟨dFill, rfl, ⟨_, rfl⟩, by and_intros <;> decide +kernel⟩

/-! Events -/

/-- One operation in flight, its SET counting m5 up. -/
def dOp (k : OpKind) : State := dm.setStore { dm.vc.st with ops := [⟨0, .c, false, 0, 0, ⟨0, 0, 5, 1⟩, k, false⟩], nextId := 1 }
def oneOp (k : OpKind) : EngOp := ⟨0, .c, false, 0, 0, ⟨0, 0, 5, 1⟩, k, false⟩
/-- A command that has moved its one element. -/
def movedAll (i : Instr) : CopyOp := ⟨i, 0, 0, 0, 1, 0, 0, 0, 0, 1, none, none, [], [], false⟩

theorem opFits {s : State} {o : EngOp} (h : s.vc.st.loopEnds = [])
    (g : o.cl.so = 1 ∧ (s.getM o.cl.si) ≠ 0xFFFF) : OpFits s o := by
  exact ⟨h, fun _ => g.2, fun e => absurd (g.1.symm.trans e) (by decide)⟩

/-- A load of each kind, each tail of a copy, BANKMODE of a SCRATCH bank to FIFO, and TLBINV. -/
theorem witness_EngineEvents :
    (firstLoad (dOp (.mldb 0 .bf16 false 0 0)) = some (oneOp (.mldb 0 .bf16 false 0 0))
      ∧ scratchFault (dOp (.mldb 0 .bf16 false 0 0)) 0 (tileBytes .bf16 false) = none
      ∧ OpFits (dOp (.mldb 0 .bf16 false 0 0)) (oneOp (.mldb 0 .bf16 false 0 0)))
    ∧ (firstLoad (dOp (.mldbp 1 0)) = some (oneOp (.mldbp 1 0)) ∧ scratchFault (dOp (.mldbp 1 0)) 0 256 = none
      ∧ OpFits (dOp (.mldbp 1 0)) (oneOp (.mldbp 1 0))
      ∧ ∀ e ∈ (List.range 128).map fun i => BitVec.ofNat 16 ((dOp (.mldbp 1 0)).vc.st.scratch.load (2 * i) 2), e.extractLsb' 7 8 = 0)
    ∧ (let c := movedAll (.cmcast (cw 0 8 8 80 82 1))
      let s := dOp (.copy c)
      copyAt s 0 = some (oneOp (.copy c), c) ∧ c.count ≤ c.done ∧ (cMask (cw 0 8 8 80 82 1)).getLsbD 0 = true ∧ 0 ∉ c.delivered
      ∧ (s.vcores.countP (fun u => u.onCore 0) ≤ 1) ∧ (∀ u ∈ s.vcores, u.onCore 0 = true → u.regs.m.get (cSem (cw 0 8 8 80 82 1)).toFin ≠ 0xFFFF))
    ∧ (let c := movedAll (.cfoll (cw 0x01A0000000000000 8 8 80 82 0))
      copyAt (dOp (.copy c)) 0 = some (oneOp (.copy c), c) ∧ c.count ≤ c.done ∧ c.tailDone = false ∧ (dOp (.copy c)).vc.st.follow.length < 8)
    ∧ (let c := movedAll (.crem (cw 0x5000 8 0 80 82 15))
      let s := dOp (.copy c)
      copyAt s 0 = some (oneOp (.copy c), c) ∧ c.count ≤ c.done ∧ c.tailDone = false ∧ NoAlias s ∧ s.mem.wf = true ∧ 0x5000 < 2 ^ 47
      ∧ atomicPlace s ⟨true, true, false, true, false, true, false⟩ 0x5000 8 = .ok (home8 0x5000)
      ∧ ∀ l ∈ s.vc.st.cache, homeRefuses s l.block = false)
    ∧ (let k : OpKind := .bankmode 0x363 4
      firstBankmode (dOp k) = some (oneOp k) ∧ (dOp k).vc.st.bankMode (bmBank 0x363) ≠ 1 ∧ (dOp k).getM 4 ≠ 0xFFFF
      ∧ (∀ l ∈ (dOp k).vc.st.cache, l.way ≠ bmBank 0x363) ∧ bmMode 0x363 = 3 ∧ ((dOp k).vc.st.handle (bmHandle 0x363)).bound = false ∧ OpFits ((dOp k).setM 4 ((dOp k).getM 4 + 1)) (oneOp k))
    ∧ (let k : OpKind := .tlbinv 0x4000 0 4
      (dOp k).op? 0 = some (oneOp k) ∧ (dOp k).getM 4 ≠ 0xFFFF ∧ OpFits ((dOp k).setM 4 ((dOp k).getM 4 + 1)) (oneOp k))
    ∧ ∀ k, (dOp k).focusCore 0 = some (dOp k) :=
  ⟨⟨rfl, by decide +kernel, opFits (by decide +kernel) (by decide +kernel)⟩,
    ⟨rfl, by decide +kernel, opFits (by decide +kernel) (by decide +kernel),
      fun e h => eq_of_beq (List.all_eq_true (p := fun e : BitVec 16 => e.extractLsb' 7 8 == 0).mp (by decide +kernel) e h)⟩,
    ⟨rfl, by decide, by decide, by decide, by decide +kernel, by decide +kernel⟩,
    ⟨rfl, by decide, by decide, by decide +kernel⟩,
    ⟨rfl, by decide, by decide, by unfold NoAlias; decide +kernel, by decide +kernel, by decide, ofOpt (by decide +kernel), by decide +kernel⟩,
    ⟨rfl, by decide +kernel, by decide +kernel, by decide +kernel, by decide, by decide +kernel, opFits (by decide +kernel) (by decide +kernel)⟩,
    ⟨rfl, by decide +kernel, opFits (by decide +kernel) (by decide +kernel)⟩, fun _ => rfl⟩

/-- The S stream and, with its clauses, the V stream wait at a form; m5 is 3. The rest has halted. -/
def dPoint (k : PointKind) (cl : Clauses) : State :=
  let s := d0.setM 5 3
  { s with vc := { s.vc with
      sS := { s.vc.sS with point := some ⟨k, 0x4000, cl0⟩ }
      sV := { s.vc.sV with halted := false, pc := 0x4008, point := some ⟨k, 0x4008, cl⟩ } } }
/-- A second vcore of the node, on core 1; a vcore of a gang job; frames 64 to 127 in world 0, with the header of an image. -/
def withMate (s : State) : State := { s with others := [{ s.vc with res := .core 1, id := { s.vc.id with vcid := 1 } }] }
def ganged (s : State) : State := { s with vc := { s.vc with id := { s.vc.id with gang := true } } }
def framed (s : State) : State := { s with
  mem := s.mem.store 0x400000 1 1
  dev := { s.dev with bedrock := { s.dev.bedrock with
    frames := s.dev.bedrock.frames ++ (List.range 64).map fun i => (64 + i, .world 0 0 0 false) } } }
def fifoed (s : State) : State := s.setStore { s.vc.st with h := s.vc.st.h.set 1 ⟨true, 41, 5, [⟨0, 0, 0, true⟩], 3⟩ }

theorem mayCommit {s : State} {k : PointKind → Bool} (h : (commitReady s k && (openFifo s).isNone && !moveWaits (flushAll s)
    && !s.vc.cutbackDue && !s.vc.regs.yieldack) = true) : MayCommit s k := by
  simp only [Bool.and_eq_true, Bool.not_eq_true', Option.isNone_iff_eq_none] at h
  exact ⟨h.1.1.1.1, h.1.1.1.2, h.1.1.2, h.1.2, h.2⟩

theorem pointsFit (k : PointKind) : PointsFit (dPoint k ⟨0, 0, 5, 1⟩) := by
  intro st h
  cases st with
  | s => exact absurd rfl h
  | v => exact ⟨rfl, fun p hp _ => by
      cases hp
      exact ⟨(by decide : 3 ≤ (3 : BitVec 16).toNat), (by decide : (3 : BitVec 16).toNat ≤ 0xFFFC)⟩⟩
  | m => exact ⟨rfl, fun p hp => by cases hp⟩
  | c => exact ⟨rfl, fun p hp => by cases hp⟩

theorem noSets (k : PointKind) : NoSets (dPoint k cl0) := by
  intro st h
  cases st with
  | s => exact absurd rfl h
  | v => exact ⟨rfl, fun p hp => by
      cases hp
      exact ⟨(by decide : cl0.so ≠ 1), (by decide : cl0.so ≠ 2)⟩⟩
  | m => exact ⟨rfl, fun p hp => by cases hp⟩
  | c => exact ⟨rfl, fun p hp => by cases hp⟩

/-- The 64 pages of a save area at 0x400000. -/
def imgPieces : List Piece := (List.range 64).map fun i => (home8 (0x400000 + i * 2 ^ 16), 2 ^ 16)
def saver : State := framed (dPoint (.ctxsave 0x400000) ⟨0, 0, 5, 1⟩)
def restorer : State := framed (dPoint (.ctxrst 0x400000) cl0)

theorem imgPieces_home : ∀ p ∈ imgPieces, ∀ d pa k pr, p.1 ≠ .remote d pa k pr := by
  intro p h
  simp only [imgPieces, List.mem_map] at h
  obtain ⟨i, -, rfl⟩ := h
  intro d pa k pr e
  cases e

theorem saver_pieces : pieces (flushAll saver) (flushAll saver).who accWrite 0x400000 imageSize = .ok imgPieces := ofOpt (by decide +kernel)
theorem restorer_pieces : pieces (flushAll restorer) (flushAll restorer).who accRead 0x400000 imageSize = .ok imgPieces :=
  ofOpt (by decide +kernel)

theorem framed_noSets {s : State} (h : NoSets s) : NoSets (framed s) := fun st g => h st g

theorem witness_MeetingEvents :
    NoAlias (dPoint .rdv cl0) ∧ meets (dPoint .rdv ⟨0, 0, 5, 1⟩) (· == .rdv) = true ∧ PointsFit (dPoint .rdv ⟨0, 0, 5, 1⟩)
    ∧ meets d0 (· == .rdv) = false ∧ MayCommit (dPoint .cairn ⟨0, 0, 5, 1⟩) (· == .cairn) ∧ commitReady d0 (· == .cairn) = false
    ∧ (commitReady (fifoed (dPoint .cairn cl0)) (· == .cairn) = true
      ∧ openFifo (fifoed (dPoint .cairn cl0)) = some (1, ⟨true, 41, 5, [⟨0, 0, 0, true⟩], 3⟩))
    ∧ (let s := withMate (dPoint .sstep cl0)
      s.vc.id.gang = false ∧ s.vc.ended = false ∧ MayCommit s (· == .sstep)
      ∧ (∃ v ∈ s.others, v.ofNode s.vc.id.node = true ∧ v.live = true ∧ v.ended = false) ∧ s.others.any (waitingVcore s.vc.id.node) = false)
    ∧ (MayCommit (dPoint .sstep cl0) (· == .sstep) ∧ NoSets (dPoint .sstep cl0) ∧ LastVcore (dPoint .sstep cl0))
    ∧ (let s := ganged (dPoint .sstep ⟨0, 0, 5, 1⟩)
      s.vc.id.gang = true ∧ MayCommit s (· == .sstep) ∧ LastVcore s)
    ∧ (MayCommit saver isSave ∧ saveAddr saver = .ok 0x400000
      ∧ pieces (flushAll saver) (flushAll saver).who accWrite 0x400000 imageSize = .ok imgPieces)
    ∧ (let s := restorer
      commitReady s isRestore = true ∧ NoSets s ∧ saveAddr s = .ok 0x400000 ∧ moveWaits (flushAll s) = false
      ∧ pieces (flushAll s) (flushAll s).who accRead 0x400000 imageSize = .ok imgPieces
      ∧ imageBad (readImage (flushAll s) 0 imgPieces) s.vc.id.ctx = none ∧ homePiecesFault (flushAll s) 0x400000 imgPieces = none) :=
  ⟨by unfold NoAlias; decide +kernel, by decide +kernel, pointsFit _, by decide +kernel, mayCommit (by decide +kernel), by decide +kernel,
    ⟨by decide +kernel, by decide +kernel⟩,
    ⟨by decide +kernel, by decide +kernel, mayCommit (by decide +kernel), ⟨_, List.mem_cons_self, by decide +kernel⟩, by decide +kernel⟩,
    ⟨mayCommit (by decide +kernel), noSets _, fun v h => by cases h⟩,
    ⟨rfl, mayCommit (by decide +kernel), fun v h => by cases h⟩,
    ⟨mayCommit (by decide +kernel), ofOpt (by decide +kernel), saver_pieces⟩,
    ⟨by decide +kernel, framed_noSets (noSets _), ofOpt (by decide +kernel), by decide +kernel,
      restorer_pieces, by decide +kernel, homePiecesFault_none (by decide +kernel) _ _ imgPieces_home⟩⟩

/-- The node of the vcore in focus, running on core 0; stopped domain 0. -/
def node0 : Node :=
  { (default : Node) with key := 0, phase := .running, cores := [0], started := true }
def noded (n : Node) : State := { d0 with dev := { d0.dev with sched := { d0.dev.sched with nodes := [n] } } }
def stopOf (n : Nat) : Stop := ⟨0, n, false, false, []⟩
def stoppedAt (n : Nat) (s : State) : State := { s with
  vc := { s.vc with stopped := true }
  dev := { s.dev with faults := { s.dev.faults with stops := [stopOf n] } } }
def haltedAll (s : State) : State := { s with vc := { s.vc with sS := { s.vc.sS with halted := true } } }

theorem witness_VcoreEnds :
    (let s := haltedAll (withMate (noded node0));
      s.vc.stopped = false ∧ s.vc.st.ops = [] ∧ s.vc.st.follow = [] ∧ (∀ st, (s.stream st).halted = true ∧ (s.stream st).point = none)
      ∧ NoAlias s ∧ moveWaits (flushAll s) = false ∧ s.vc.id.gang = false ∧ (ganged s).vc.id.gang = true
      ∧ (∃ v ∈ s.others, v.ofNode s.vc.id.node = true ∧ v.live = true ∧ v.ended = false)
      ∧ ∃ v ∈ (ganged s).others, v.ofNode s.vc.id.node = true ∧ v.live = true ∧ v.finished = false)
    ∧ LastVcore (haltedAll (noded node0)) ∧ (∀ n ∈ (noded node0).dev.sched.nodes, n.key = 0 → n.phase = .running)
    ∧ (let s := stoppedAt 16 (noded node0);
      s.stop? s.vc.id.fdom = some (stopOf 16) ∧ s.dev.faults.fhold ≠ 0 ∧ s.dev.faults.fhold.toNat ≤ (stopOf 16).ticks
      ∧ imageable s s.vc = true ∧ s.vc.id.gang = false ∧ NoAlias s ∧ moveWaits (flushAll s) = false)
    ∧ { d0.dev.faults with fhold := 0 }.fhold = 0 :=
  ⟨⟨rfl, rfl, rfl, fun st => by cases st <;> exact ⟨rfl, rfl⟩, by unfold NoAlias; decide +kernel, by decide +kernel, rfl, rfl,
      ⟨_, List.mem_cons_self, by decide +kernel⟩, ⟨_, List.mem_cons_self, by decide +kernel⟩⟩,
    (fun v h => by cases h), by decide +kernel,
    ⟨by decide +kernel, by decide +kernel, by decide +kernel, by decide +kernel, rfl, by unfold NoAlias; decide +kernel, by decide +kernel⟩, rfl⟩

/-- Queue 0 of world 0 with four entries from 0x5000 on, READ 0 and WRITE w; one node header there, with one operating point: step 10, one
core, no energy. Node 7 takes that header. -/
def opEntry : BitVec 128 := (10 <<< 64) ||| (2 <<< 68) ||| (1 <<< 80)
def hdrWord : Nat := (0x5400 <<< 64) ||| (1 <<< 192) ||| (0x5C00 <<< 384)
def dq (w : Nat) : State := { d0 with
  mem := ((d0.mem.store 0x10000 64 ((1 <<< 63) ||| (2 <<< 48) ||| (0x5000 <<< 64) ||| (0x1000 <<< 128) ||| (w <<< 256))).store 0x5000 256 hdrWord).store
    0x5400 16 opEntry.toNat
  dev := { d0.dev with
    sched := { d0.dev.sched with qtbase := 0x10000, queues := ⟨some 0, none, false, false, [], regionOf rcbInherit⟩ :: .replicate 1023 queueOff }
    host := { d0.dev.host with ready := true }
    bedrock := { d0.dev.bedrock with
      ctxs := [⟨0, 0, 0, 0x1000⟩]
      worlds := d0.dev.bedrock.worlds.set 0 { (d0.world 0) with phase := .running } } } }
/-- One vcore whose S stream begins at 0x4000. -/
def launchRec : Rec64 := 1 ||| (0x4000 <<< 64)
def node7 (ph : NodePhase) : Node :=
  { (default : Node) with key := 7, header := BitVec.ofNat 2048 hdrWord, table := [opEntry], phase := ph, launch := some launchRec }
def dqn (ph : NodePhase) : State :=
  { dq 0 with dev := { (dq 0).dev with sched := { (dq 0).dev.sched with nodes := [node7 ph], due := true } } }
/-- Descriptors cleared: no queue is live. -/
def unlive (s : State) : State := { s with mem := d0.mem }
def expired : State := noded { node0 with polite := some (4, 4) }
def stalled : State := { d0 with
  vc := { d0.vc with sS := { d0.vc.sS with wait := { d0.vc.sS.wait with waiting := true } } }
  dev := { d0.dev with sched := { d0.dev.sched with stallNow := 2, stalls := [(0, 2, 0)] } } }

theorem witness_SchedulerEvents :
    (let s := dq 1;
      queueAt s 0 = some 0x10000 ∧ 0 < s.dev.sched.queues.length ∧ s.dev.host.ready = true ∧ queueLive s (queueDesc s 0) = true
      ∧ 0 < ((4 : BitVec 32) - qWrite (queueDesc s 0)).toNat
      ∧ ((4 : BitVec 32) - qWrite (queueDesc s 0)).toNat + (qWrite (queueDesc s 0) - qRead (queueDesc s 0)).toNat ≤ 2 ^ qLog2n (queueDesc s 0)
      ∧ 0 < 1024 ∧ s.mem.wf = true ∧ (1 : BitVec 32) = qWrite (queueDesc s 0) ∧ (s.queue 0).noticed = false)
    ∧ (let s := dropDead (dq 0)
      visitedSlot s = some 0 ∧ (s.dev.sched.queues.findIdx? fun x => x.slot == some 0) = some 0 ∧ queueLive s (queueDesc s 0) = true
      ∧ queueWho s (queueDesc s 0) = some ⟨0, 0, 0, 0x1000, false, none⟩ ∧ qRead (queueDesc s 0) = qWrite (queueDesc s 0)
      ∧ visitedSlot s ≠ some 5)
    ∧ (let s := dropDead (dq 1)
      visitedSlot s = some 0 ∧ (s.dev.sched.queues.findIdx? fun x => x.slot == some 0) = some 0 ∧ queueLive s (queueDesc s 0) = true
      ∧ goneCode s 0 (qRead (queueDesc s 0)) hdrWord = none ∧ s.dev.power.grade ≠ 3 ∧ (s.queue 0).blocked = false ∧ qRead (queueDesc s 0) ≠ qWrite (queueDesc s 0)
      ∧ (s.dev.sched.nodes.filter fun n => s.worldPart n.world == s.worldPart 0).length < 1024 * (s.partQuarters (s.worldPart 0)).length
      ∧ schedRead s ⟨0, 0, 0, 0x1000, false, none⟩ (qRing (queueDesc s 0)) 256 = .ok hdrWord ∧ badByte hdrWord headerReserved 256 = none
      ∧ nbits hdrWord (8 * 0x18) 4 = 1 ∧ readTable s ⟨0, 0, 0, 0x1000, false, none⟩ (BitVec.ofNat 64 (nbits hdrWord 64 64)) 1 = .ok [opEntry]
      ∧ tableFault (BitVec.ofNat 64 (nbits hdrWord 64 64)) [opEntry] = [] ∧ rangeFault s 0 hdrWord (predsOf s 0 0 hdrWord) = [])
    ∧ passOrder (dq 0) = [] ∧ passOrder (dqn .ready) = [node7 .ready] ∧ (dqn .ready).node? 7 = some (node7 .ready)
    ∧ (dqn .ready).dev.sched.due = true ∧ d0.dev.sched.due = false ∧ (node7 .ready).launch.isSome = true ∧ candidate (dqn .ready) (node7 .ready) = true
    ∧ (dqn .ready).dev.power.grade ≠ 3 ∧ queueLive d0 (queueDesc d0 0) = false
    ∧ queueLive (unlive (dq 0)) (queueDesc (unlive (dq 0)) 0) = false
    ∧ (admits (dqn .ready) (node7 .ready)).isSome = true
    ∧ (let s := dqn .selected
      s.node? 7 = some (node7 .selected) ∧ (node7 .selected).started = false ∧ s.isStopped (nodeFdom s (node7 .selected)) = false
      ∧ queueLive s (queueDesc s 0) = true ∧ queueLive (unlive s) (queueDesc (unlive s) 0) = false
      ∧ (∃ s1, writeOpstart s (node7 .selected) = .ok s1 ∧ true = true) ∧ s.dev.power.grade = 0 ∧ (∀ v ∈ s.vcores, v.ofNode 7 = false)
      ∧ lrVcnt launchRec ≤ 1024)
    ∧ (expired.node? 0 = some { node0 with polite := some (4, 4) } ∧ expired.atBoundary = true ∧ expired.vc.regs.yieldack = false ∧ expired.vc.resident = true
      ∧ expired.vc.stopped = false ∧ expired.vc.ni = false ∧ expired.vc.id.gang = false ∧ node0.phase = .running ∧ node0.key = expired.vc.id.node
      ∧ { expired with dev := { expired.dev with time := 1 } }.atBoundary = false ∧ NoAlias expired ∧ moveWaits (flushAll expired) = false
      ∧ ∀ v ∈ expired.others, v.ofNode 0 = false)
    ∧ (let s := { d0 with dev := { d0.dev with power := { d0.dev.power with chips := d0.dev.power.chips.set 3 ⟨false, false, false, false, 10, 16, 0, none, none⟩ } } }
      s.atBoundary = true ∧ 16 ≤ (s.chip 3).idle ∧ chipEmpty s 3 = true ∧ (s.chip 0).idle < 16)
    ∧ ((noded { node0 with overTicks := 8 }).node? 0 = some { node0 with overTicks := 8 } ∧ ({ node0 with overTicks := 8 } : Node).demoted = false)
    ∧ (stalled.focusCore 0 = some stalled ∧ stalled.dev.sched.stallNow ≠ 0 ∧ stalled.vc.stopped = false
      ∧ ∃ x ∈ stalled.dev.sched.stalls, x.1 = stalled.vc.id.node * 1024 + stalled.vc.id.vcid.toNat ∧ stalled.dev.sched.stallNow.toNat ≤ x.2.1
        ∧ x.2.2 = issuedWords stalled.vc)
    ∧ (stalled.atBoundary = true ∧ stalled.vc.resident = true ∧ stalled.vc.st.ops = [] ∧ stalled.vc.st.follow = [] ∧ (stalled.stream .s).halted = false
      ∧ ∀ st, (stalled.stream st).halted = false → (stalled.stream st).wait.waiting = true ∧ (stalled.stream st).wait.cause.toNat ≤ 3)
    ∧ d0.dev.sched.stallNow = 0 :=
  ⟨by and_intros <;> decide +kernel,
    by and_intros <;> decide +kernel,
    by and_intros <;> decide +kernel,
    by
      and_intros
      all_goals first
        | decide +kernel
        | rfl
        | exact okWith (fun _ => true) (by decide +kernel)
        | unfold NoAlias; decide +kernel
        | intro st; cases st <;> decide +kernel⟩

/-! Events of power, of faults and of the host -/

def powered (f : Power6 → Power6) (s : State) : State := { s with dev := { s.dev with power := f s.dev.power } }
def chip7 (x : Chip) (s : State) : State := powered (fun p => { p with chips := p.chips.set 7 x }) s
def hosted (s : State) : State := { s with dev := { s.dev with bedrock := { s.dev.bedrock with frames := (16, .host) :: s.dev.bedrock.frames } } }
def atTime (n : Nat) (s : State) : State := { s with dev := { s.dev with time := n } }

/-- 999 equal samples; a curve. -/
def sampled (w : Nat) : State := powered (fun p => { p with samples := .replicate 999 w }) d0
def curve0 : Curve := ⟨1, 0, 100, 0, 0, 0, 0, [(0, 500), (1, 600)]⟩

/-- A chiplet hot for 1 ms; one cool for 1 s at a boundary; an empty one in grade 2; all gated with a node ready; a response overdue. -/
theorem witness_PowerEvents :
    (let s := atTime 1000000 (chip7 ⟨false, false, false, false, 10, 0, 110, some 0, none⟩ d0);
      (s.chip 7).hotSince = some 0 ∧ 0 + 1000000 ≤ s.dev.time ∧ (s.chip 0).hotSince = none ∧ (s.chip 7).coolSince = none)
    ∧ (let s := { atTime 1000000000 (chip7 ⟨true, false, false, false, 10, 0, 84, none, some 0⟩ d0) with
          dev := { (atTime 1000000000 (chip7 ⟨true, false, false, false, 10, 0, 84, none, some 0⟩ d0)).dev with sched := { d0.dev.sched with tick := 10000 } } }
      (s.chip 7).offline = true ∧ (s.chip 7).fatal = false ∧ s.dev.time = s.dev.sched.tick * 100000 ∧ (s.chip 7).coolSince = some 0
      ∧ s.dev.sched.deadQuarters.toList.getD (7 / 2) false = false)
    ∧ (gateReady (powered (fun p => { p with grade := 2 }) d0) 7 = true ∧ (∀ j < 8, 7 < j → gateReady d0 j = false) ∧ gateReady d0 7 = false)
    ∧ (let s := powered (fun p => { p with chips := .replicate 8 ⟨false, false, true, false, 10, 0, 0, none, none⟩ }) (dqn .ready)
      (s.chip 7).gated = true ∧ chipWanted s 7 = true)
    ∧ (let s := powered (fun p => { p with grade := 3, done := true, doneAt := 10000001 }) d0
      s.dev.power.grade ≠ 0 ∧ s.dev.power.done = true ∧ s.dev.power.late = false ∧ s.dev.power.trigger + responseBound s < s.dev.power.doneAt)
    ∧ d0.dev.power.checking = none ∧ d0.dev.host.cmbBusy = false ∧ (d0.chip 0).gated = false ∧ d0.dev.power.pending = none
    ∧ (hostCurve (hosted d0) 0x100000 4).isSome = true ∧ d0.dev.power.hbmLevel.get 0 < 1
    ∧ (let s := powered (fun p => { p with floor := true }) (sampled 500)
      averageBounds s = (0, 2600) ∧ (s.dev.power.samples.take 999).sum ≤ 2600 * ((s.dev.power.samples.take 999).length + 1))
    ∧ (powered (fun p => { p with checking := some ([], false) }) d0).dev.power.checking = some ([], false)
    ∧ { d0.dev.host with cmbBusy := true }.cmbBusy = true
    ∧ (powered (fun p => { p with pending := some curve0, current := some curve0 }) d0).dev.power.current = some curve0
    ∧ d0.dev.sched.launched = false ∧ (0xFFFFFFFF : BitVec 32).msb = true ∧ (1 : BitVec 32).msb = false :=
  by and_intros <;> decide +kernel

/-- The fault queue of domain 0 at 0x20000: 16 records from 0x6000 on. -/
def dfq (live : Nat) : State := { dq 0 with
  mem := (dq 0).mem.store 0x20000 64 ((live <<< 63) ||| (4 <<< 52) ||| (0x6000 <<< 64))
  dev := { (dq 0).dev with faults := { (dq 0).dev.faults with fqtbase := 0x20000, records := [⟨1, 0, false, some (0, 0), none⟩] } } }
/-- An action in progress on domain 0, stopped or not. -/
def acting (act : BitVec 2) (l : List Stop) (s : State) : State := { s with
  vc := { s.vc with stopped := !l.isEmpty }
  dev := { s.dev with faults := { s.dev.faults with busy := true, action := some (act, 0), stops := l } } }
/-- Block 64 dirty in the cache, its write-back failing since time 0. -/
def locked (s : State) : State := s.setStore { s.vc.st with cache := [⟨64, 3, 5, 1, 0, 0, 0x4000, false, 0, some 0⟩] }

theorem noBlocked (q : Nat) : ((List.replicate 1024 queueOff).getD q queueOff).blocked = false := by
  rw [List.getD_eq_getElem?_getD, List.getElem?_replicate]
  split <;> rfl

theorem witness_FaultEvents :
    (let s := dfq 1;
      fqAt s 0 = some 0x20000 ∧ s.mem.wf = true ∧ fqLive (s.mem.load 0x20000 64) = true
      ∧ (fqTail (s.mem.load 0x20000 64) - fqHead (s.mem.load 0x20000 64)).toNat < 2 ^ fqLog2n (s.mem.load 0x20000 64)
      ∧ fqWho s (s.mem.load 0x20000 64) = some ⟨0, 0, 0, 0x1000, false, none⟩
      ∧ pieces s ⟨0, 0, 0, 0x1000, false, none⟩ accWrite (fqSlot (s.mem.load 0x20000 64) 0) 64 = .ok [(home8 0x6000, 64)] ∧ 0x6000 + 64 ≤ 0x20000)
    ∧ (fqAt (dfq 0) 0 = some 0x20000 ∧ (dfq 0).mem.wf = true ∧ fqLive ((dfq 0).mem.load 0x20000 64) = false)
    ∧ (actionDue (acting 3 [] d0) 0 3 = true ∧ (acting 3 [] d0).stop? 0 = none)
    ∧ (actionDue (acting 1 [⟨0, 0, true, false, []⟩] d0) 0 1 = true
      ∧ (acting 1 [⟨0, 0, true, false, []⟩] d0).stop? d0.vc.id.fdom = some ⟨0, 0, true, false, []⟩)
    ∧ ((∀ act ∈ [(1 : BitVec 2), 2, 3], actionDue (acting act [stopOf 0] (noded node0)) 0 act = true)
      ∧ let s := acting 1 [stopOf 0] (noded node0)
      s.stop? s.vc.id.fdom = some (stopOf 0) ∧ s.vc.resident = true ∧ s.vc.stopped = true ∧ (∀ v ∈ s.others, v.live = true → v.id.fdom ≠ 0)
      ∧ (∀ q < 1024, (s.queue q).blocked = false) ∧ (∀ n ∈ s.dev.sched.nodes, nodeFdom s n = 0 → n.phase = .running)
      ∧ quarantined s s.vc = false ∧ ∀ n ∈ s.dev.sched.nodes, n.gang = false)
    ∧ (let s := locked d0
      s.focusCore 0 = some s ∧ NoAlias s ∧ OneLine s ∧ (∀ l ∈ s.vc.st.cache, l.lockedAt = some 0 ∧ l.dirty ≠ 0 ∧ l.block * 256 / 2 ^ 47 = s.devId)
      ∧ s.vc.cutbackDue = false ∧ s.vc.st.marks.flips = [] ∧ s.mem.wf = true ∧ s.dev.time < 0 + 100000000 ∧ 0 + 100000000 ≤ (atTime 100000000 s).dev.time ∧ s.vc.sS.wait.waiting = false)
    ∧ ((0x8800000000000000 : Word).getLsbD 63 = true ∧ nbits (0x8800000000000000 : Word).toNat 60 3 = 0
      ∧ (0x8800000000000000 : Word).getLsbD 59 = true ∧ nbits (0x9000000000000000 : Word).toNat 60 3 = 1
      ∧ nbits (0xD000000000000000 : Word).toNat 60 3 = 5 ∧ d0.dev.faults.injaddr.toNat / 2 ^ 47 = d0.devId
      ∧ d0.dev.errors.flips.block 0 = [] ∧ d0.dev.errors.l2Flips.block 0 = [])
    ∧ { d0 with dev := { d0.dev with l2 := [⟨0, 0, false, .free, []⟩] } }.inL2 0 = true
    ∧ (atTime 5 d0).dev.faults.melogAt ≠ 5 :=
  ⟨⟨by decide +kernel, by decide +kernel, by decide +kernel, by decide +kernel, by decide +kernel, ofOpt (by decide +kernel), by decide⟩,
    by decide +kernel, by decide +kernel, by decide +kernel,
    ⟨by decide +kernel, by decide +kernel, rfl, rfl, by decide +kernel, fun q _ => noBlocked q, by decide +kernel, by decide +kernel, by decide +kernel⟩,
    ⟨rfl, by unfold NoAlias; decide +kernel, by unfold OneLine; decide +kernel, by and_intros <;> decide +kernel⟩, by decide +kernel, by decide +kernel, by decide +kernel⟩

/-- World 0 running and served by function 1, with frames of its own; the port up. -/
def dhost : State := { dq 0 with dev := { (dq 0).dev with
  host := { (dq 0).dev.host with portUp := true, phase := 5, vfworld := (dq 0).dev.host.vfworld.set 1 0x10, layout := 4 }
  links := { (dq 0).dev.links with
    ports := (dq 0).dev.links.ports.set 0 ⟨true, 4, 1, 2, false, 0, 0, 7⟩, outstanding := [⟨0, 0, .s, 9, 0x800000000000, true⟩] }
  bedrock := { (dq 0).dev.bedrock with frames := [(0, .world 0 0 0 true)] } } }

theorem witness_HostEvents :
    (0 = 0 ∨ 8 < 0 + 0 % 8) ∧ (8 < 4 + 0x4000005 % 8) ∧ (∀ q, devReg (0x4000000 / 8 * 8) ≠ .notify q)
    ∧ (5 ≤ ((5 : Word).extractLsb' 0 3).toNat ∧ ((4 : Word).extractLsb' 0 3).toNat < 5)
    ∧ (dhost.dev.host.layout ≠ dhost.dev.host.applied ∧ dhost.atBoundary = true ∧ (atTime 1 dhost).atBoundary = false ∧ (∀ n ∈ dhost.dev.sched.nodes, holdsLayout dhost dhost.dev.host.layout.toNat n = false))
    ∧ d0.dev.host.layout = d0.dev.host.applied ∧ d0.dev.host.portUp = false
    ∧ (dhost.dev.host.portUp = true ∧ (16 : Nat) ≤ 2 ^ 16 - 0x4000 % 2 ^ 16 ∧ hostPlace dhost 1 0x4000 false = some 0x4000
      ∧ macFaults dhost false 0x4000 16 0x4000 = none ∧ homePiecesFault dhost 0 [(.home 0x4000 0 0 0, 16)] = none ∧ hostPlace dhost 1 0x4000 true = some 0x4000 ∧ dhost.mem.wf = true
      ∧ hostPlace dhost 0 0x4000 false = none)
    ∧ d0.dev.host.phase.toNat ≤ 3 ∧ 3 < dhost.dev.host.phase.toNat
    ∧ (bytesAt ([1] ++ List.replicate 16 0) 1 8 % 8 = 0 ∧ bytesAt ([1] ++ List.replicate 16 0) 0 1 = 1 ∧ bytesAt [0] 0 1 ≠ 1
      ∧ bytesAt [0, 4] 1 8 % 8 ≠ 0)
    ∧ ((dhost.dev.links.ports.get 1).up = false ∧ (dhost.dev.links.ports.get 1).lanes = 0 ∧ (dhost.dev.links.ports.get 0).lanes ≠ 0)
    ∧ ((dhost.dev.links.ports.get 0).up = true ∧ (dhost.dev.links.ports.get 0).retraining = false
      ∧ (dhost.dev.links.ports.get 0).lastFlit < bytesAt [8] 0 4)
    ∧ (dhost.dev.links.outstanding[0]? = some ⟨0, 0, .s, 9, 0x800000000000, true⟩ ∧ dhost.focusOn 0 0 = some dhost ∧ dhost.vc.stopped = false) :=
  ⟨by decide, by decide, by rintro q ⟨⟩, by and_intros <;> decide +kernel⟩

/-! Events of Bedrock -/

/-- A request block: CMD, WORLD, COMP and three operands. -/
def blk (cmd w c op0 op1 op2 : Nat) : Nat := cmd ||| (w <<< 16) ||| (c <<< 24) ||| (op0 <<< 64) ||| (op1 <<< 128) ||| (op2 <<< 192)
def leaf64 : Leaf := ⟨some 0, 0x40000000, 0, 0x200000, true, false, false, 0, 0, false⟩
/-- World 0 in a phase with compartment 0, a leaf of 64 KiB besides that of the first GiB, two HOST frames from 0x100000 on; a request. -/
def dw (ph : WorldPhase) (c : Comp) (b : Nat) : State := { d0 with dev := { d0.dev with
  bedrock := { d0.dev.bedrock with
    worlds := d0.dev.bedrock.worlds.set 0 { (d0.world 0) with phase := ph, comps := worldOff.comps.set 0 c }
    leaves := leaf64 :: d0.dev.bedrock.leaves
    frames := [(16, .host), (17, .host), (0, .world 0 0 0 false), (32, .world 0 0 0 false)]
    request := some (0x110000, b) } } }
def compOn : Comp := { compOff with created := true }

/-- The leaf that a request asks for, with its frame taken; a carve-out with no room for a table. -/
def newLeaf : Leaf := ⟨some 0, 0x40010000, 0, 0x210000, true, false, false, 0, 0, false⟩
def mapping (s : State) : State := setFrames (setWorld s 0 (s.world 0)) 0x21 1 (.world 0 0 0 false)
def fullCarve (s : State) : State :=
  let u := setWorld s 0 { s.world 0 with s2root := none }
  setBedrock u { u.dev.bedrock with metaSlots := [(0, 131071)] }

theorem witness_WorldEvents :
    Asked (dw .free compOff 1) 1 0x110000 1 ∧ (d0.dev.bedrock.request = none ∧ rqCmd 1 ≠ 2 ∧ nbits (1 <<< 63) 32 32 ≠ 0)
    ∧ (16 ≤ rqWorld (blk 1 16 0 0 0 0) ∧ ((dw .free compOff 1).world 0).phase = .free ∧ rqOp (blk 1 0 0 1 0 3) 2 < 4
      ∧ ((dw .building compOn 1).world 0).phase ≠ .free)
    ∧ (Asked (dw .building compOn (blk 2 0 1 0 0 0)) 2 0x110000 (blk 2 0 1 0 0 0) ∧ ((dw .building compOn 0).world 0).phase = .building
      ∧ 8 ≤ rqComp (blk 2 0 8 0 0 0) ∧ (((dw .building compOn 0).world 0).comp 0).created = true
      ∧ (((dw .building compOn 0).world 0).comp 1).created = false)
    ∧ (let b := blk 3 0 0 0x40010000 0x210000 4
      let s := dw .running compOn b
      Asked s 3 0x110000 b ∧ (s.world 0).phase = .running ∧ ((s.world 0).comp 0).created = true
      ∧ rqOp b 2 % 4 ≠ 3 ∧ rqOp b 2 / 256 = 0 ∧ BitVec.ofNat 2 (nbits (rqOp b 2) 6 2) = 0 ∧ rqOp b 0 % leafBytes (rqOp b 2 % 4) = 0
      ∧ rqOp b 1 % leafBytes (rqOp b 2 % 4) = 0 ∧ rqOp b 0 < 2 ^ 56 ∧ rqOp b 1 < 2 ^ 56
      ∧ (∀ x ∈ s.dev.bedrock.leaves, x.world = some 0 → x.ipa + leafBytes x.size ≤ rqOp b 0 ∨ rqOp b 0 + 2 ^ 16 ≤ x.ipa)
      ∧ rqOp b 1 / 2 ^ 47 = s.devId ∧ rqOp b 1 % 2 ^ 47 < hbmSize ∧ s.inCarve 0x210000 = false ∧ s.inCarve (0x210000 + 2 ^ 16 - 1) = false
      ∧ s.frame (0x210000 / 2 ^ 16) = .free ∧ (∀ y ∈ s.dev.bedrock.poisoned, y.1 ≠ 0)
      ∧ (mapLeaf (mapping s) 0 newLeaf).isSome = true ∧ (mapLeaf (mapping (fullCarve s)) 0 newLeaf).isNone = true)
    ∧ ((rqOp (blk 3 0 0 0x40000000 0x210000 4) 0 < 0x40010000 ∧ (rqOp (blk 3 0 0 0x40000000 0x210000 0x14) 2).testBit 4 = true))
    ∧ (leafAt (dw .running compOn 0) 0 0x50000000 0 = none ∧ leafAt (dw .running compOn 0) 0 0x40000000 0 = some leaf64
      ∧ leafFrames d0 leaf64 = some 32)
    ∧ (Asked (dw .building compOn 5) 5 0x110000 5 ∧ (dw .building compOn 5).ctxOf 0 0 = none)
    ∧ Asked (dw .building compOn 6) 6 0x110000 6 ∧ Asked (dw .running compOn 7) 7 0x110000 7 ∧ Asked (dw .running compOn 0xF) 0xF 0x110000 0xF
    ∧ (((dw .destroying compOff 0).world 0).phase = .destroying ∧ (d0.world 0).phase ≠ .destroying) :=
  ⟨by unfold Asked; decide +kernel, by decide +kernel, by decide +kernel, by unfold Asked; decide +kernel,
    by
      simp only [Asked]
      exact ⟨⟨rfl, by decide, rfl, rfl⟩, rfl, rfl, by and_intros <;> decide +kernel⟩,
    by decide +kernel, by decide +kernel, by unfold Asked; decide +kernel, by unfold Asked; decide +kernel, by unfold Asked; decide +kernel,
    by unfold Asked; decide +kernel, by decide +kernel⟩

/-- The park key of compartment 0, a page of zeros, and its entry in the evicted-page table. -/
def parkKey : List Byte := compOff.keys.park
def page0 : List Byte := .replicate (2 ^ 16) 0
def gone : Evicted := ⟨0, 0, 0x50000000, 1, { leaf64 with ipa := 0x50000000 }⟩
def returning (e : List Evicted) (mem : Memory) : State :=
  let s := dw .running compOn (blk 9 0 0 0x50000000 0x210000 0x100000)
  { s with mem := mem, dev := { s.dev with bedrock := { s.dev.bedrock with evicted := e } } }
theorem returning_mem (e : List Evicted) (m : Memory) : (returning e m).mem = m := rfl
/-- The page as Bedrock wrote it. -/
def sealed0 : Memory := d0.mem.putBytes 0x100000 (evictBuffer parkKey 0 0 0x50000000 1 page0)
/-- A checkpoint of a compartment without frames, of an epoch, its bytes in HOST frames. -/
def restoring (epoch : Nat) : State :=
  { dw .running { compOn with quarantined := true } (blk 0xE 0 0 0x100000 56 0) with mem := d0.mem.putBytes 0x100000 (ckptBytes parkKey epoch []) }

theorem parkKey_rounds : ((aesKeys parkKey).getD 14 []).length = 16 := by decide +kernel

theorem evictBuffer_length (w c ipa v : Nat) (page : List Byte) : (evictBuffer parkKey w c ipa v page).length = evictLen := by
  unfold evictBuffer evictTrailer evictLen
  rw [List.length_append, CryptoLaws.length_fitBytes, CryptoLaws.length_fitBytes]

theorem openEvicted_sealed : openEvicted parkKey 0 0 0x50000000 (sealed0.bytes 0x100000 evictLen) = some (1, page0) := by
  have h := MemoryLaws.bytes_putBytes 0x100000 (evictBuffer parkKey 0 0 0x50000000 1 page0) (show d0.mem.wf = true by decide +kernel)
  rw [evictBuffer_length] at h
  unfold sealed0
  rw [h]
  exact CryptoLaws.openEvicted_evict parkKey_rounds 0 0 _ 1 page0 List.length_replicate (by decide)

theorem bytesAt_bytes (m : Memory) (a n k : Nat) (h : k + 16 ≤ n) : bytesAt ((m.bytes a n).drop k) 8 8 = natLE (m.bytes (a + k + 8) 8) := by
  unfold bytesAt
  congr 1
  rw [MemoryLaws.bytes_eq_map, MemoryLaws.bytes_eq_map]
  apply List.ext_getElem
  · simp; omega
  · intro i h1 h2
    simp [Nat.add_assoc]

/-- Memory that Bedrock has not written: its trailer names another page. -/
theorem openEvicted_unwritten : openEvicted parkKey 0 0 0x50000000 (d0.mem.bytes 0x100000 evictLen) = none :=
  CryptoLaws.openEvicted_other (by decide) (by rw [bytesAt_bytes _ _ _ _ (by decide)]; decide +kernel)

theorem putBytes_read (b : List Byte) (h : b.length = 56) : (d0.mem.putBytes 0x100000 b).bytes 0x100000 56 = b := by
  have g := MemoryLaws.bytes_putBytes 0x100000 b (show d0.mem.wf = true by decide +kernel)
  rwa [h] at g

theorem restoring_mem (epoch : Nat) : (restoring epoch).mem = d0.mem.putBytes 0x100000 (ckptBytes parkKey epoch []) := by
  unfold restoring; dsimp only
theorem openCkpt_written (epoch : Nat) (h : epoch < 2 ^ 64) : openCkpt parkKey ((restoring epoch).mem.bytes 0x100000 56) = some (epoch, []) := by
  rw [restoring_mem, putBytes_read _ (CryptoLaws.length_ckptBytes parkKey_rounds epoch []), CryptoLaws.openCkpt_ckpt parkKey_rounds h]

theorem ckptBytes_long (epoch : Nat) (l : List Byte) : 16 < (ckptBytes parkKey epoch l).length := by
  rw [CryptoLaws.length_ckptBytes parkKey_rounds]
  exact Nat.lt_add_left _ (by decide)

/-- Compartment 1 without frames. -/
def saving (b : Nat) : State :=
  let s := dw .running compOn b
  setWorld s 0 { s.world 0 with comps := (s.world 0).comps.set 1 compOn }

/-- For CKPT both outcomes of the range; for CRESTORE a checkpoint of the epoch, one of another and none. -/
theorem witness_PageEvents :
    (let b := blk 8 0 0 0x40000000 0x100000 0
      let s := dw .running compOn b
      Asked s 8 0x110000 b ∧ (s.world 0).phase = .running ∧ ((s.world 0).comp 0).created = true ∧ (s.world 0).isOpen = false
      ∧ leafAt s 0 (rqOp b 0) 0 = some leaf64 ∧ hostRange s (rqOp b 1) evictLen = some 0x100000 ∧ (leafFrames s leaf64).isSome = true
      ∧ leaf64.keyid = 0 ∧ leaf64.world = some 0)
    ∧ (let b := blk 9 0 0 0x50000000 0x210000 0x100000
      let s := returning [] d0.mem
      Asked s 9 0x110000 b ∧ (s.world 0).phase = .running ∧ ((s.world 0).comp 0).created = true ∧ ((s.world 0).comp 0).keys.park = parkKey
      ∧ hostRange s (rqOp b 2) evictLen = some 0x100000 ∧ rqOp b 1 % 2 ^ 16 = 0
      ∧ rqOp b 1 / 2 ^ 47 = s.devId ∧ rqOp b 1 % 2 ^ 47 < hbmSize ∧ s.inCarve 0x210000 = false
      ∧ s.frame (0x210000 / 2 ^ 16) = .free)
    ∧ (openEvicted parkKey 0 0 0x50000000 ((returning [] d0.mem).mem.bytes 0x100000 evictLen) = none
      ∧ openEvicted parkKey 0 0 0x50000000 ((returning [gone] sealed0).mem.bytes 0x100000 evictLen) = some (gone.version, page0)
      ∧ ((returning [gone] sealed0).dev.bedrock.evicted.find? fun e => e.world == 0 && e.comp == 0 && e.ipa == 0x50000000) = some gone
      ∧ gone.leaf.prot ≠ 2 ∧ { gone with version := 2 }.version ≠ 1)
    ∧ (let b := blk 0xD 0 1 0x100000 56 0
      let s := saving b
      Asked s 0xD 0x110000 b ∧ (s.world 0).phase = .running ∧ ((s.world 0).comp 1).created = true ∧ ((s.world 0).comp 1).quarantined = false
      ∧ ((s.world 0).comp 1).keys.park = parkKey ∧ ((s.world 0).comp 1).epoch = 0 ∧ hostRange s (rqOp b 0) (rqOp b 1) = some 0x100000
      ∧ compLeaves s 0 1 = [] ∧ (ckptBytes parkKey 0 []).length = rqOp b 1 ∧ s.mem.wf = true ∧ hostRange s 0x200000 1 = none)
    ∧ (let b := blk 0xD 0 1 0x100000 16 0
      Asked (saving b) 0xD 0x110000 b ∧ hostRange (saving b) (rqOp b 0) (rqOp b 1) = some 0x100000 ∧ rqOp b 1 = 16)
    ∧ (∀ l, 16 < (ckptBytes parkKey 0 l).length)
    ∧ (Asked (restoring 0) 0xE 0x110000 (blk 0xE 0 0 0x100000 56 0) ∧ hostRange (restoring 0) 0x100000 56 = some 0x100000
      ∧ (((restoring 0).world 0).comp 0).quarantined = true ∧ (((restoring 0).world 0).comp 0).keys.park = parkKey
      ∧ (((restoring 0).world 0).comp 0).epoch = 0)
    ∧ (openCkpt parkKey ((restoring 0).mem.bytes 0x100000 56) = some (0, []) ∧ openCkpt parkKey ((restoring 5).mem.bytes 0x100000 56) = some (5, [])
      ∧ openCkpt parkKey (d0.mem.bytes 0x100000 55) = none ∧ hostRange (restoring 0) 0x100000 55 = some 0x100000)
    ∧ (let b := blk 0x10 0 0 0x100000 0 0
      let s := dw .running compOn b
      Asked s 0x10 0x110000 b ∧ frameRange s b = .ok (16, 1) ∧ allFrames s 16 1 .host = true ∧ allFrames s 16 1 .free = false)
    ∧ (let b := blk 0x11 0 0 0x300000 0 0
      let s := dw .running compOn b
      Asked s 0x11 0x110000 b ∧ frameRange s b = .ok (48, 1) ∧ allFrames s 48 1 .host = false ∧ allFrames s 48 1 .free = true)
    ∧ frameRange d0 (blk 0x11 0 0 0x300000 0 4) = .error 10 ∧ frameRange d0 (blk 0x10 0 0 0x300001 0 0) = .error 4 :=
  ⟨by unfold Asked; decide +kernel, by unfold Asked; decide +kernel,
    ⟨by rw [returning_mem]; exact openEvicted_unwritten, by rw [returning_mem]; exact openEvicted_sealed, by decide +kernel, by decide +kernel, by decide⟩,
    by and_intros <;> decide +kernel,
    by unfold Asked; decide +kernel, ckptBytes_long 0, by unfold Asked; decide +kernel,
    ⟨openCkpt_written 0 (by decide), openCkpt_written 5 (by decide), by decide +kernel, by decide +kernel⟩,
    ⟨by unfold Asked; decide +kernel, ofOpt (by decide +kernel), by decide +kernel, by decide +kernel⟩,
    ⟨by unfold Asked; decide +kernel, ofOpt (by decide +kernel), by decide +kernel, by decide +kernel⟩, rfl, rfl⟩

/-- Session 3 secured with a key; an owner that has claimed compartment 0 with it. -/
def session3 (k : List Byte) : Session := ⟨3, 5, [], k, parkKey, 0⟩
def secured (k : List Byte) (s : State) : State := { s with dev := { s.dev with bedrock := { s.dev.bedrock with sessions := [session3 k] } } }

/-- A request of session 3 as its owner sends it: sealed, with its tag behind. -/
def sealed3 (m : List Byte) : List Byte := (gcmSeal parkKey 0 m).1 ++ (gcmSeal parkKey 0 m).2

theorem take_sealed3 (k m : List Byte) : (session3 k).take (sealed3 m) = some m := by
  have ht : (gcmSeal parkKey 0 m).2.length = 16 := by
    rw [CryptoLaws.gcmSeal_eq]; exact CryptoLaws.length_gcmTag parkKey_rounds _ _
  unfold Session.take sealed3
  rw [if_pos (by rfl), List.length_append, ht, Nat.add_sub_cancel, List.take_left' rfl, List.drop_left' rfl]
  exact CryptoLaws.gcmOpen_seal parkKey_rounds 0 m

/-- A message too short to end in a tag. -/
theorem take_none (k : List Byte) : (session3 k).take [] = none := by
  unfold Session.take gcmOpen
  rw [if_pos (by rfl)]
  refine if_neg fun e => ?_
  have h := congrArg List.length e
  rw [show (session3 k).keys.take 32 = parkKey from rfl, CryptoLaws.length_gcmTag parkKey_rounds] at h
  exact absurd h (by decide)
def claimed : Comp := { compOn with claim := some [7] }
def gateMsg : List Byte := [0, 1, 0, 1] ++ List.replicate 32 0
def gated (ph : GatePhase) (s : State) : State := { s with dev := { s.dev with bedrock := { s.dev.bedrock with
  gates := [gateOf 0 (gateMsg.drop 1) ph 4] } } }
def bedrocked (f : Bedrock → Bedrock) : State := { d0 with dev := { d0.dev with bedrock := f d0.dev.bedrock } }
/-- A GATE_CLOSE of gate 1 passed by the host. -/
def closeMsg : List Byte := [0, 0, 0, 0, 0, BitVec.ofNat 8 spdmVendor, 4, 0, 1]

/-- Reset with no copy of a record to select from. -/
def uncopied : Config6 := { recordReset with copies := [] }
def booting : State := { State.reset with dev := { State.reset.dev with bedrock := { State.reset.dev.bedrock with record := uncopied } } }

/-- Firmware older than a record's minimum. -/
theorem witness_oldFirmware (s : State) : ∃ r : Config6, imageRuns s (selectRecord r) 0 = false :=
  ⟨{ uncopied with versions := [(Config.image 0 s.dev.bedrock.firmware).2.1 + 1] }, by simp [imageRuns, selectRecord, uncopied]⟩

/-- A device asleep whose retention SRAM holds what it wrapped; one whose retention SRAM is blank. -/
def sleeping (r : List Byte) : State := bedrocked fun b => { b with sleep := .asleep, retention := r }
theorem sleeping_retained (r : List Byte) : retained (sleeping r) = retained d0 := by
  simp only [retained, sleeping, bedrocked]


/-- A wake finds what was kept where AES unwraps what it wrapped and each stack has refreshed itself; a blank SRAM unwraps to nothing. -/
theorem witness_wake :
    (let k := (bootSecrets d0.dev.bedrock.record).wrapping
     let s := sleeping (keyWrap k (retained d0))
     keyUnwrap k (keyWrap k (retained d0)) = some (retained d0) → (∀ i < 12, Config.stackKept s.steps i = true) →
      s.dev.bedrock.sleep = .asleep ∧ keyUnwrap (bootSecrets s.dev.bedrock.record).wrapping s.dev.bedrock.retention = some (retained s)
        ∧ ∀ i < 12, Config.stackKept s.steps i = true)
    ∧ keyUnwrap (bootSecrets (sleeping []).dev.bedrock.record).wrapping (sleeping []).dev.bedrock.retention ≠ some (retained (sleeping [])) :=
  ⟨fun h g => ⟨rfl, by rw [sleeping_retained]; exact h, g⟩, by
    rw [show (sleeping []).dev.bedrock.retention = [] from rfl,
      show ∀ k, keyUnwrap k [] = none from fun k => rfl]
    exact fun h => nomatch h⟩

theorem witness_OwnerEvents :
    (let s := secured [7] (dw .building compOn 0);
      (s.session 3).secured = true ∧ s.session 3 = session3 [7] ∧ bytesAt [0, 0, 9] 0 1 < 16 ∧ (d0.session 3).take [0] = some [0] ∧ (s.world 0).phase = .building ∧ ((s.world 0).comp 0).created = true
      ∧ ((s.world 0).comp 0).claim = none ∧ (d0.session 3).secured = false)
    ∧ ((∀ w c, (d0.session 3).owns d0 w c = false) ∧ (let s := secured [7] (dw .building claimed 0);
      (s.session 3).owns s 0 0 = true ∧ (s.world 0).phase = .building))
    ∧ (let s := secured [7] (dw .running claimed 0)
      let g := gateOf 0 (gateMsg.drop 1) (.asked ((s.session 3).owns s 0 (bytesAt gateMsg 2 1))) 3
      (s.session 3).owns s 0 g.srcc = true ∧ (s.world 0).phase = .running ∧ gateOk g = true
      ∧ (s.dev.bedrock.gates.find? fun x => x.world == 0 && x.no == g.no) = none
      ∧ (let u := gated (.asked false) s
        (u.dev.bedrock.gates.find? fun x => x.world == 0 && x.no == g.no) = some (gateOf 0 (gateMsg.drop 1) (.asked false) 4)
        ∧ sameGate g (gateOf 0 (gateMsg.drop 1) (.asked false) 4) = true ∧ (u.session 3).owns u 0 g.srcc = true))
    ∧ ((gated (.closing [(0, 0, 0)]) dCopy).dev.bedrock.gates[0]? = some (gateOf 0 (gateMsg.drop 1) (.closing [(0, 0, 0)]) 4)
      ∧ (∃ x ∈ [((0, 0, 0) : Nat × Nat × Nat)], x ∈ worldCopies (gated (.closing [(0, 0, 0)]) dCopy) 0)
      ∧ ∀ x ∈ [((0, 0, 0) : Nat × Nat × Nat)], x ∉ worldCopies (gated (.closing [(0, 0, 0)]) d0) 0)
    ∧ (Asked (dw .running compOn (blk 0xA 0 0 0x100000 16 0)) 0xA 0x110000 (blk 0xA 0 0 0x100000 16 0)
      ∧ hostRange (dw .running compOn 0) 0x100000 16 = some 0x100000 ∧ hostRange d0 0x100000 16 = none
      ∧ (closeHeld (gated (.closing [(0, 0, 0)]) dCopy) closeMsg).isSome = true ∧ (closeHeld d0 closeMsg).isNone = true)
    ∧ Asked (dw .running compOn (blk 0xC 0 0 0x100000 16 0)) 0xC 0x110000 (blk 0xC 0 0 0x100000 16 0)
    ∧ (let s := powered (fun p => { p with chips := .replicate 8 ⟨false, false, true, false, 10, 0, 0, none, none⟩ }) (dw .running compOn 0xB)
      Asked s 0xB 0x110000 0xB ∧ (∀ c < 8, (s.chip c).gated = true) ∧ (∀ n ∈ s.dev.sched.nodes, n.phase ≠ .running)
      ∧ ¬ ∀ c < 8, ((dw .running compOn 0xB).chip c).gated = true)
    ∧ ((bedrocked fun b => { b with sleep := .asleep }).dev.bedrock.sleep = .asleep ∧ (bedrocked fun b => { b with sleep := .lost }).dev.bedrock.sleep = .lost
      ∧ d0.dev.bedrock.sleep = .awake ∧ (bedrocked fun b => { b with sleep := .dark }).dev.bedrock.sleep = .dark ∧ d0.dev.host.ready = false
      ∧ { dhost with dev := { dhost.dev with bedrock := { dhost.dev.bedrock with sleep := .lost } } }.dev.host.ready = true)
    ∧ (booting.dev.host.ready = false ∧ booting.dev.host.phase = 0 ∧ booting.dev.bedrock.firmware = []
      ∧ (∀ k < 2, (selectRecord booting.dev.bedrock.record).versions.getD k 0 = 0) ∧ dhost.dev.host.ready = true
      ∧ dhost.dev.host.phase ≠ 0) :=
  ⟨by decide +kernel, ⟨fun _ _ => rfl, by decide +kernel⟩, by decide +kernel, by decide +kernel, by unfold Asked; decide +kernel,
    by unfold Asked; decide +kernel, by unfold Asked; decide +kernel, by decide +kernel, by decide +kernel⟩

/-! Steps -/

theorem witness_StepRunsDecodedWord : d0.dormant = false ∧ (bedrocked fun b => { b with sleep := .dark }).dormant = true ∧ d0.turn = .stream 0 .s ∧ turnWord d0 0 .s = .word d0 (.s 0) ∧ decode (.s 0) = .ok (.add 0 0 0)
    ∧ State.reset.turn = .event .powerGood ∧ encode .powerGood = none
    ∧ heard State.reset .powerGood = true ∧ heard State.reset (.linkDown 0 false) = false
    ∧ d0.focusCore 0 = some d0 ∧ d0.dev.power.clusterGated.toList.getD 0 false = false ∧ d0.vc.stopped = false
    ∧ (d0.vc.id.gang && (d0.vc.ended || gangApart d0)) = false ∧ isDelivered d0 .s = false ∧ (d0.stream .s).halted = false ∧ (d0.stream .s).point = none
    ∧ (d0.stream .s).loop = none ∧ (d0.stream .s).pc.extractLsb' 0 2 = 0
    ∧ placeOf d0 d0.who accFetch (d0.stream .s).pc StreamId.s.bytes none = .ok (home8 0x4000)
    ∧ heldBlock d0 .s (blockOf d0.devId 0x4000) = none ∧ macFaults d0 false 0x4000 4 0x4000 = none ∧ homeDataFault d0 0x4000 (d0.stream .s).pc 0 = none :=
  ⟨rfl, rfl, rfl, rfl, by decide +kernel, rfl, rfl, by decide +kernel, by decide +kernel, rfl, by decide +kernel, rfl, rfl, by decide +kernel, rfl, rfl, rfl, by decide +kernel, ofOpt (by decide +kernel),
    by decide +kernel, rfl, homeDataFault_none (by decide +kernel) _ _ _⟩

/-- The V stream under a rounding mode that is reserved. -/
def dMode6 : State := { d0 with vc := { d0.vc with sV := { d0.vc.sV with fctl := 6 } } }

/-- An illegal V word that waits for nothing, and one that waits for m3 to reach 1; one with a reserved field that also meets a reserved
mode; a load of a latch bank of a type that it may not have. -/
theorem witness_IllegalWords : (∃ x : Code, (decode x).instr? = none ∧ stateReserved dMode6 x = true ∧ stateReserved d0 x = false
      ∧ faultOf (.vadd (vw 8 0 1 2 3 1)) = 0x1003 ∧ (parse x).isSome = true)
    ∧ (decode (.m 0x0180000000000000)).instr? = none ∧ loadsLatch (.m 0x0180000000000000) = true
    ∧ waitMet d0 .v (codeClauses (.v 0x8F00000000006200)) = false
    ∧ (decode (.v 0x8F00000000000000)).instr? = none ∧ Waited d0 (codeClauses (.v 0x8F00000000000000))
    ∧ (decode (.v 0x8F00000000006200)).instr? = none ∧ ¬ Waited d0 (codeClauses (.v 0x8F00000000006200)) := by
  refine ⟨⟨.v 0x018001040c080000, by decide +kernel⟩, by decide +kernel, by decide +kernel, ?_, ?_⟩
  · unfold waitMet waitOk
    simp [show d0.vc.st.lowered = [] from rfl]
    decide
  · unfold Waited
    decide +kernel

theorem witness_DecodeEncode : encode (.addi 5 0 16) = some (.s 0x04500010) ∧ WellFormed (.addi 5 0 16) := by decide +kernel

theorem witness_InvariantKept : Intact State.reset := ⟨rfl, fun v h => by cases h with
  | head => rfl
  | tail _ h => cases h⟩

/-- The promised turns by number: of a number, its kind and up to three operands. -/
def turnNo (n : Nat) : Turn :=
  let k := n.unpair.1
  let a := n.unpair.2.unpair.1
  let b := n.unpair.2.unpair.2.unpair.1
  let c := n.unpair.2.unpair.2.unpair.2
  match k with
  | 0 => .stream a (if b = 0 then .s else if b = 1 then .v else if b = 2 then .m else .c)
  | 1 => .event (.rdvMatch a) | 2 => .event (.cairnCommit a) | 3 => .event (.superstepEnd a) | 4 => .event (.gangBarrier a)
  | 5 => .event (.vcoreComplete a) | 6 => .event (.latchBankFilled a) | 7 => .event (.copyCommandComplete a b c)
  | 8 => .event (.cmcastDelivery a b c) | 9 => .event (.cfollDelivery a b) | 10 => .event (.cremCompletionWord a b)
  | 11 => .event (.bankmodeComplete a b) | 12 => .event (.tlbinvComplete a b) | 13 => .event (.mapperRead a)
  | 14 => .event (.binderPlace a) | 15 => .event .tickBoundary | 17 => .event (.ctxsaveCommit a) | 18 => .event (.ctxrstMatch a)
  | 19 => .event (.chipletUngate a) | _ => .event .selection

theorem turnNo_all (x : Turn) (h : x.promised = true) : ∃ n, turnNo n = x := by
  have code (k a b c : Nat) (y : Turn) (e : turnNo (Nat.pair k (Nat.pair a (Nat.pair b c))) = y) : ∃ n, turnNo n = y := ⟨_, e⟩
  unfold Turn.promised at h
  split at h
  · next core st => exact code 0 core (match st with | .s => 0 | .v => 1 | .m => 2 | .c => 3) 0 _ (by cases st <;> simp [turnNo])
  · split at h
    · next a => exact code 1 a 0 0 _ (by simp [turnNo])
    · next a => exact code 2 a 0 0 _ (by simp [turnNo])
    · next a => exact code 3 a 0 0 _ (by simp [turnNo])
    · next a => exact code 4 a 0 0 _ (by simp [turnNo])
    · next a => exact code 5 a 0 0 _ (by simp [turnNo])
    · next a => exact code 17 a 0 0 _ (by simp [turnNo])
    · next a => exact code 18 a 0 0 _ (by simp [turnNo])
    · next a => exact code 6 a 0 0 _ (by simp [turnNo])
    · next a b c => exact code 7 a b c _ (by simp [turnNo])
    · next a b c => exact code 8 a b c _ (by simp [turnNo])
    · next a b => exact code 9 a b 0 _ (by simp [turnNo])
    · next a b => exact code 10 a b 0 _ (by simp [turnNo])
    · next a b => exact code 11 a b 0 _ (by simp [turnNo])
    · next a b => exact code 12 a b 0 _ (by simp [turnNo])
    · next a => exact code 13 a 0 0 _ (by simp [turnNo])
    · next a => exact code 19 a 0 0 _ (by simp [turnNo])
    · next a => exact code 14 a 0 0 _ (by simp [turnNo])
    · exact code 15 0 0 0 _ (by simp [turnNo])
    · exact code 16 0 0 0 _ (by simp [turnNo])
    · cases h
  · cases h

/-- There is a fair schedule; and where every step from an intact state answers an intact one (InvariantKept), there is a run. -/
theorem witness_Fair : (∃ sched : Nat → Turn, ∀ x : Turn, x.promised = true → ∀ n, ∃ m, n ≤ m ∧ sched m = x)
    ∧ ((∀ s, Intact s → Gives (step s) Intact) → ∃ run : Nat → State, run 0 = State.reset ∧ ∀ n, step (run n) = .next (run (n + 1))) := by
  refine ⟨⟨fun m => turnNo m.unpair.2, fun x h n => ?_⟩, fun h => ?_⟩
  · obtain ⟨k, e⟩ := turnNo_all x h
    exact ⟨Nat.pair n k, Nat.left_le_pair n k, by simpa using e⟩
  · choose f hf using h
    let run : Nat → { s : State // Intact s } := fun n => n.rec ⟨State.reset, witness_InvariantKept⟩ fun _ x => ⟨f x.1 x.2, (hf x.1 x.2).2⟩
    exact ⟨fun n => (run n).1, rfl, fun n => (hf (run n).1 (run n).2).1⟩

end Sys2Proof.Tests
end

section
/-! Chains (spec/03_arithmetic.md R80 to R82): adding a term joins the chain with that term's own contribution, and joining is
commutative; from it, what the accumulator holds and how a chain of finite terms settles (R81). -/

namespace Sys2Proof.Machine

/-- The whole units that a term adds to the accumulator, clamped to ±XMAX (R80); a special term adds none. -/
def Term.clampedUnits (a : Anchor) (t : Term) : Int :=
  match t.v with
  | .fin n s e st => max (-xmax) (min xmax (termUnits a n s e st).1)
  | _ => 0

/-- Two chains of disjoint terms as one. -/
def ChainAcc.join (c d : ChainAcc) : ChainAcc :=
  ⟨c.acc + d.acc, c.total + d.total, c.sat || d.sat, c.nan || d.nan, c.nanNew || d.nanNew, c.pinf || d.pinf, c.ninf || d.ninf,
    maxU c.u d.u, c.exact && d.exact⟩

/-- No term of the chain is special (R82). -/
def ChainAcc.Finite (c : ChainAcc) : Prop := c.nan = false ∧ c.pinf = false ∧ c.ninf = false

/-! ### One term -/

section
variable (c : ChainAcc) (a : Anchor) {t : Term}

theorem ChainAcc.add_nan {b : Bool} (h : t.v = .nan b) :
    c.add a t = { c with nan := true, nanNew := c.nanNew || t.nv, exact := false } := by
  simp only [ChainAcc.add, h]

theorem ChainAcc.add_inf {n : Bool} (h : t.v = .inf n) :
    c.add a t = { c with pinf := c.pinf || !n, ninf := c.ninf || n, exact := false } := by
  simp only [ChainAcc.add, h]

/-- A finite term adds its clamped units, and it saturates the chain just where the clamp changes it. -/
theorem ChainAcc.add_fin {n st : Bool} {s : Nat} {e : Int} (h : t.v = .fin n s e st) :
    c.add a t =
      { c with
        acc := c.acc + BitVec.ofInt 136 (t.clampedUnits a)
        total := c.total + t.clampedUnits a
        sat := c.sat || decide (t.clampedUnits a ≠ (termUnits a n s e st).1)
        u := maxU c.u t.u
        exact := c.exact && t.exact && !(termUnits a n s e st).2 && decide (t.clampedUnits a = (termUnits a n s e st).1) } := by
  have hclamp : t.clampedUnits a = max (-(xmax : Int)) (min (xmax : Int) (termUnits a n s e st).1) := by simp only [Term.clampedUnits, h]
  generalize t.clampedUnits a = k at hclamp
  simp only [ChainAcc.add, h]
  generalize (termUnits a n s e st).1 = i at hclamp
  have hk : (if (xmax : Int) < i then (xmax : Int) else if i < -(xmax : Int) then -(xmax : Int) else i) = k := by omega
  have hbeyond : (decide ((xmax : Int) < i) || decide (i < -(xmax : Int))) = decide (k ≠ i) := by
    rw [← Bool.decide_or, decide_eq_decide]; omega
  rw [hk, hbeyond]
  simp
end

theorem Term.clampedUnits_of_inf (a : Anchor) {t : Term} {n : Bool} (h : t.v = .inf n) : t.clampedUnits a = 0 := by
  simp only [Term.clampedUnits, h]

theorem Term.clampedUnits_of_nan (a : Anchor) {t : Term} {b : Bool} (h : t.v = .nan b) : t.clampedUnits a = 0 := by
  simp only [Term.clampedUnits, h]

theorem Val.exists_fin_of_isFin {v : Val} (h : v.isFin = true) : ∃ n s e st, v = .fin n s e st := by
  cases v with
  | fin n s e st => exact ⟨n, s, e, st, rfl⟩
  | inf n => cases h
  | nan b => cases h

theorem Term.clampedUnits_bounds (a : Anchor) (t : Term) : -(xmax : Int) ≤ t.clampedUnits a ∧ t.clampedUnits a ≤ xmax := by
  unfold Term.clampedUnits
  split <;> omega

@[simp] theorem ChainAcc.add_acc (c : ChainAcc) (a : Anchor) (t : Term) :
    (c.add a t).acc = c.acc + BitVec.ofInt 136 (t.clampedUnits a) := by
  cases hv : t.v with
  | fin n s e st => rw [c.add_fin a hv]
  | inf n => simp [c.add_inf a hv, Term.clampedUnits_of_inf a hv]
  | nan b => simp [c.add_nan a hv, Term.clampedUnits_of_nan a hv]

theorem ChainAcc.Finite.add {c : ChainAcc} (hc : c.Finite) (a : Anchor) {t : Term} (ht : t.v.isFin = true) : (c.add a t).Finite := by
  obtain ⟨n, s, e, st, hv⟩ := Val.exists_fin_of_isFin ht
  rwa [c.add_fin a hv]

/-- A finite term that the clamp leaves as it is saturates nothing. -/
theorem ChainAcc.add_sat_of_unclamped (c : ChainAcc) (a : Anchor) {t : Term} (ht : t.v.isFin = true)
    (h : ∀ n s e st, t.v = .fin n s e st → t.clampedUnits a = (termUnits a n s e st).1) : (c.add a t).sat = c.sat := by
  obtain ⟨n, s, e, st, hv⟩ := Val.exists_fin_of_isFin ht
  simp [c.add_fin a hv, h n s e st hv]

/-! ### The order of the terms -/

theorem maxU_right_comm (x y z : Option Int) : maxU (maxU x y) z = maxU (maxU x z) y := by
  cases x <;> cases y <;> cases z <;> simp [maxU, max_comm, max_left_comm]

theorem ChainAcc.join_right_comm (c d e : ChainAcc) : (c.join d).join e = (c.join e).join d := by
  simp only [ChainAcc.join, add_right_comm c.acc, add_right_comm c.total, Bool.or_right_comm _ d.sat, Bool.or_right_comm _ d.nan,
    Bool.or_right_comm _ d.nanNew, Bool.or_right_comm _ d.pinf, Bool.or_right_comm _ d.ninf, maxU_right_comm c.u d.u,
    Bool.and_right_comm _ d.exact]

theorem ChainAcc.add_eq_join (c : ChainAcc) (a : Anchor) (t : Term) : c.add a t = c.join (chainZero.add a t) := by
  have maxU_none : maxU c.u none = c.u := by cases c.u <;> rfl
  cases hv : t.v with
  | fin n s e st => simp [ChainAcc.add_fin _ a hv, ChainAcc.join, chainZero, maxU, Bool.and_assoc]
  | inf n => simp [ChainAcc.add_inf _ a hv, ChainAcc.join, chainZero, maxU_none]
  | nan b => simp [ChainAcc.add_nan _ a hv, ChainAcc.join, chainZero, maxU_none]

theorem ChainAcc.add_right_comm (c : ChainAcc) (a : Anchor) (t t' : Term) : (c.add a t).add a t' = (c.add a t').add a t := by
  rw [add_eq_join _ a t', add_eq_join c a t, join_right_comm, ← add_eq_join c a t', ← add_eq_join _ a t]

/-- R81: a chain is a function of the multiset of its terms, in the accumulator and in all else that it keeps. -/
theorem foldl_add_eq_of_perm (a : Anchor) {l l' : List Term} (h : l.Perm l') (c : ChainAcc) :
    l.foldl (fun c t => c.add a t) c = l'.foldl (fun c t => c.add a t) c :=
  h.foldl_eq' (fun t _ t' _ c => c.add_right_comm a t t') c

/-! ### What the accumulator holds -/

theorem foldl_add_acc (a : Anchor) (l : List Term) (c : ChainAcc) :
    (l.foldl (fun c t => c.add a t) c).acc = c.acc + BitVec.ofInt 136 (l.map (Term.clampedUnits a)).sum := by
  induction l generalizing c with
  | nil => simp
  | cons t l ih => simp [ih, BitVec.ofInt_add, BitVec.add_assoc]

/-- The accumulator does not wrap while the sum of the clamped terms is a 136-bit number. -/
theorem chain_toInt_eq_sum (a : Anchor) (l : List Term) (hlo : -(2 : Int) ^ 135 ≤ (l.map (Term.clampedUnits a)).sum)
    (hhi : (l.map (Term.clampedUnits a)).sum < (2 : Int) ^ 135) :
    (l.foldl (fun c t => c.add a t) chainZero).acc.toInt = (l.map (Term.clampedUnits a)).sum := by
  rw [foldl_add_acc]
  simp only [chainZero, zero_add]
  exact BitVec.toInt_ofInt_eq_self (w := 136) (by decide) hlo hhi

/-- 255 terms of at most XMAX each stay within ±2^135. -/
theorem sum_clampedUnits_bounds (a : Anchor) {l : List Term} (h : l.length ≤ 255) :
    -(2 : Int) ^ 135 ≤ (l.map (Term.clampedUnits a)).sum ∧ (l.map (Term.clampedUnits a)).sum < (2 : Int) ^ 135 := by
  have hhi := List.sum_le_card_nsmul (l.map (Term.clampedUnits a)) xmax (by simp [Term.clampedUnits_bounds])
  have hlo := List.card_nsmul_le_sum (l.map (Term.clampedUnits a)) (-xmax) (by simp [Term.clampedUnits_bounds])
  simp only [List.length_map, nsmul_eq_mul, xmax] at hhi hlo
  omega

/-! ### How a chain of finite terms settles -/

theorem foldl_add_finite (a : Anchor) {l : List Term} (h : ∀ t ∈ l, t.v.isFin = true) :
    (l.foldl (fun c t => c.add a t) chainZero).Finite :=
  List.foldlRecOn l _ ⟨rfl, rfl, rfl⟩ fun _ hc t ht => hc.add a (h t ht)

theorem foldl_add_sat_of_unclamped (a : Anchor) {l : List Term} (h : ∀ t ∈ l, t.v.isFin = true ∧
      ∀ n s e st, t.v = .fin n s e st → t.clampedUnits a = (termUnits a n s e st).1) :
    (l.foldl (fun c t => c.add a t) chainZero).sat = false :=
  List.foldlRecOn (motive := fun c : ChainAcc => c.sat = false) l _ rfl fun c hc t ht => by
    rw [c.add_sat_of_unclamped a (h t ht).1 (h t ht).2, hc]

section
variable {c : ChainAcc} (h : c.Finite)
include h

theorem ChainAcc.Finite.settle_eq : c.settle =
    if (xmax : Int) < c.acc.toInt then (xmax, .sat, false)
    else if c.acc.toInt < -(xmax : Int) then (wrapNat 128 (-(xmax : Int)), .sat, false)
    else (wrapNat 128 c.acc.toInt, if c.sat then .sat else .none, false) := by
  obtain ⟨hnan, hpinf, hninf⟩ := h
  simp [ChainAcc.settle, hnan, hpinf, hninf]

theorem ChainAcc.Finite.settle_of_within (hlo : -(xmax : Int) ≤ c.acc.toInt) (hhi : c.acc.toInt ≤ xmax) :
    c.settle = (wrapNat 128 c.acc.toInt, if c.sat then .sat else .none, false) := by
  rw [h.settle_eq, if_neg (not_lt.2 hhi), if_neg (not_lt.2 hlo)]

theorem ChainAcc.Finite.settle_of_above (hv : (xmax : Int) < c.acc.toInt) : c.settle = (xmax, .sat, false) := by
  rw [h.settle_eq, if_pos hv]

theorem ChainAcc.Finite.settle_of_below (hv : c.acc.toInt < -(xmax : Int)) : c.settle = (wrapNat 128 (-(xmax : Int)), .sat, false) := by
  rw [h.settle_eq, if_neg (by omega), if_pos hv]
end

/-- Settles O30: the terms commute, the clamped terms are summed modulo 2^136, and a finite chain settles by that sum. -/
theorem chainOrder : Obligations.ChainOrder := by
  intro a l l' clamp acc sum
  have hacc : -(2 : Int) ^ 135 ≤ sum l → sum l < (2 : Int) ^ 135 → (acc l).acc.toInt = sum l := chain_toInt_eq_sum a l
  have hshort : l.length ≤ 255 → -(2 : Int) ^ 135 ≤ sum l ∧ sum l < (2 : Int) ^ 135 := sum_clampedUnits_bounds a
  have hxmax : (xmax : Int) < 2 ^ 135 := by decide
  refine ⟨fun h => ?perm, fun hterms hlo hhi => ?exact, hacc, fun h => hacc (hshort h).1 (hshort h).2, fun hfin hsum => ?sign⟩
  case perm =>
    have hsame : acc l = acc l' := foldl_add_eq_of_perm a h chainZero
    exact ⟨congrArg ChainAcc.acc hsame, congrArg (ChainAcc.result · a) hsame⟩
  case exact =>
    have hv : (acc l).acc.toInt = sum l := hacc (by omega) (by omega)
    have hfin : (acc l).Finite := foldl_add_finite a fun t ht => (hterms t ht).1
    have hsat : (acc l).sat = false := foldl_add_sat_of_unclamped a hterms
    simp [hfin.settle_of_within (by omega) (by omega), hv, hsat]
  case sign =>
    have hv : (acc l).acc.toInt = sum l := (hsum.elim hshort id).elim hacc
    have hfin : (acc l).Finite := foldl_add_finite a hfin
    exact ⟨fun h => by rw [hfin.settle_of_above (by omega)], fun h => by rw [hfin.settle_of_below (by omega)]⟩

end Sys2Proof.Machine
end

section
/-! Scalar integer immediates, fields and compares (spec/09_scalar_instructions.md R202 to R205): the model's bit operations as the
arithmetic of the rules, and each word as a write of one register with that result. -/

namespace Sys2Proof.Machine

/-! ### Immediates -/

theorem sx_eq_ofInt {n : Nat} (x : BitVec n) : sx x = BitVec.ofInt 64 x.toInt := rfl

theorem zx_eq_ofNat {n : Nat} (x : BitVec n) : zx x = BitVec.ofNat 64 x.toNat := (BitVec.ofNat_toNat 64 x).symm

theorem add_sx_eq_ofInt {n : Nat} (x : Word) (y : BitVec n) : x + sx y = BitVec.ofInt 64 (x.toInt + y.toInt) := by
  rw [BitVec.ofInt_add, BitVec.ofInt_toInt, sx_eq_ofInt]

/-! ### Shifts as multiplication and division -/

theorem shiftLeft_eq_ofNat {n : Nat} (x : BitVec n) (k : Nat) : x <<< k = BitVec.ofNat n (x.toNat * 2 ^ k) :=
  BitVec.eq_of_toNat_eq (by simp [Nat.shiftLeft_eq])

theorem ushiftRight_eq_ofNat {n : Nat} (x : BitVec n) (k : Nat) : x >>> k = BitVec.ofNat n (x.toNat / 2 ^ k) := by
  rw [← Nat.shiftRight_eq_div_pow, ← BitVec.toNat_ushiftRight, BitVec.ofNat_toNat, BitVec.setWidth_eq]

theorem sshiftRight_eq_ofInt {n : Nat} (x : BitVec n) (k : Nat) : x.sshiftRight k = BitVec.ofInt n (x.toInt / (2 : Int) ^ k) := by
  rw [BitVec.sshiftRight_eq, Int.shiftRight_eq_div_pow]
  norm_cast

/-! ### Fields -/

theorem ushiftRight_and_fieldMask (x : Word) (lo : Nat) (w : BitVec 6) :
    (x >>> lo) &&& fieldMask w = BitVec.ofNat 64 (x.toNat / 2 ^ lo % 2 ^ (w.toNat + 1)) := by
  rw [ushiftRight_eq_ofNat, fieldMask, ← BitVec.ofNat_and, Nat.and_two_pow_sub_one_eq_mod]

theorem getLsbD_fieldMask (w : BitVec 6) (i : Nat) : (fieldMask w).getLsbD i = decide (i < w.toNat + 1) := by
  have hw := w.isLt
  simp only [fieldMask, BitVec.getLsbD_ofNat, Nat.testBit_two_pow_sub_one, Bool.and_eq_right_iff_imp, decide_eq_true_eq]
  omega

/-- Bits lo to lo + n − 1 of x replaced by those of y under a mask of n bits. -/
theorem getLsbD_insert {m : Nat} (x y mask : BitVec m) (lo n : Nat) (hmask : ∀ i < m, mask.getLsbD i = decide (i < n)) {i : Nat}
    (hi : i < m) :
    ((x &&& ~~~(mask <<< lo)) ||| ((y <<< lo) &&& (mask <<< lo))).getLsbD i =
      if lo ≤ i ∧ i < lo + n then y.getLsbD (i - lo) else x.getLsbD i := by
  simp only [BitVec.getLsbD_or, BitVec.getLsbD_and, BitVec.getLsbD_not, BitVec.getLsbD_shiftLeft, hmask (i - lo) (by omega), hi]
  by_cases hlo : lo ≤ i
  · have hin : i - lo < n ↔ i < lo + n := by omega
    by_cases h : i < lo + n <;> simp [hlo, hin, h, Nat.not_lt.2 hlo]
  · simp [hlo, Nat.lt_of_not_le hlo]

theorem getLsbD_setField {n w : Nat} (x : BitVec n) (lo : Nat) (v : BitVec w) {i : Nat} (hi : i < n) :
    (setField x lo v).getLsbD i = if lo ≤ i ∧ i < lo + w then v.getLsbD (i - lo) else x.getLsbD i := by
  have hmask : ∀ j < n, ((BitVec.allOnes w).setWidth n).getLsbD j = decide (j < w) := fun j hj => by simp [hj]
  have hv : v.setWidth n = v.setWidth n &&& (BitVec.allOnes w).setWidth n := by
    ext j hj
    simpa using BitVec.lt_of_getLsbD
  rw [setField, hv, BitVec.shiftLeft_and_distrib, getLsbD_insert x _ _ lo w hmask hi, BitVec.getLsbD_setWidth]
  simp [show i - lo < n by omega]

/-- The word of four 16-bit fields with field h replaced. -/
theorem getLsbD_setField_quarter (x : Word) (h : Nat) (v : BitVec 16) {i : Nat} (hi : i < 64) :
    (setField x (16 * h) v).getLsbD i = if i / 16 = h then v.getLsbD (i % 16) else x.getLsbD i := by
  have hin : 16 * h ≤ i ∧ i < 16 * h + 16 ↔ i / 16 = h := by omega
  rw [getLsbD_setField x (16 * h) v hi]
  simp only [hin]
  split
  case isTrue heq => rw [show i - 16 * h = i % 16 by omega]
  case isFalse => rfl

/-! ### Words that write one register -/

theorem sWrite_gives_of_eq (s : State) (d : BitVec 6) {v w : Word} (h : v = w) : Gives (sWrite s d v) (WritesS s · d w) :=
  h ▸ sWrite_gives s d v

/-- Settles O2: each word writes one s register, and its value is the rule's by the law of its operation above. -/
theorem integerImmediates : Obligations.IntegerImmediates := by
  intro d a n lo w imm k h x s
  have hmask : ∀ i < 64, (fieldMask w).getLsbD i = decide (i < w.toNat + 1) := fun i _ => getLsbD_fieldMask w i
  exact ⟨sWrite_gives_of_eq s d (add_sx_eq_ofInt _ _),
    sWrite_gives_of_eq s d (by rw [zx_eq_ofNat]),
    sWrite_gives_of_eq s d (by rw [zx_eq_ofNat]),
    sWrite_gives_of_eq s d (by rw [zx_eq_ofNat]),
    sWrite_gives_of_eq s d (shiftLeft_eq_ofNat _ _),
    sWrite_gives_of_eq s d (ushiftRight_eq_ofNat _ _),
    sWrite_gives_of_eq s d (sshiftRight_eq_ofInt _ _),
    sWrite_gives_of_eq s d (ushiftRight_and_fieldMask _ _ _),
    ⟨_, sWrite_gives s d _, fun i hi => getLsbD_insert _ _ _ _ _ hmask hi⟩,
    sWrite_gives_of_eq s d (sx_eq_ofInt k),
    ⟨_, sWrite_gives s d _, fun i hi => getLsbD_setField_quarter _ _ x hi⟩⟩

/-! ### Compares -/

/-- The codes of R175. -/
theorem condition_cases : ∀ c : BitVec 3, c = 0 ∨ c = 1 ∨ c = 2 ∨ c = 3 ∨ c = 4 ∨ c = 5 ∨ c = 6 ∨ c = 7 := by decide

theorem condI_eq_wordCondition (c : BitVec 3) (x y : Word) : condI c x y = wordCondition c x y := by
  obtain rfl | rfl | rfl | rfl | rfl | rfl | rfl | rfl := condition_cases c
  · show (x == y) = decide (x = y)
    exact Bool.eq_iff_iff.2 (by rw [beq_iff_eq, decide_eq_true_eq])
  · show (x != y) = decide (x ≠ y)
    exact Bool.eq_iff_iff.2 (by rw [bne_iff_ne, decide_eq_true_eq])
  · exact (BitVec.slt_eq_decide : x.slt y = decide (x.toInt < y.toInt))
  · exact (BitVec.sle_eq_decide : x.sle y = decide (x.toInt ≤ y.toInt))
  · exact (BitVec.slt_eq_decide : y.slt x = decide (y.toInt < x.toInt))
  · exact (BitVec.sle_eq_decide : y.sle x = decide (y.toInt ≤ x.toInt))
  · exact (BitVec.ult_eq_decide : x.ult y = decide (x.toNat < y.toNat))
  · exact (BitVec.ule_eq_decide : y.ule x = decide (y.toNat ≤ x.toNat))

theorem writesC_gives_of_eq (s : State) (c : BitVec 3) {v w : Bool} (h : v = w) :
    Gives (sNext (s.setC c v)) (fun t => WritesC s t c w ∧ SameFlags s t) :=
  h ▸ ⟨_, rfl, writesC_retire s c v⟩

/-- Settles O3: both words write the condition of their operands, and the model's condition is the rule's. -/
theorem integerCompare : Obligations.IntegerCompare :=
  fun cond c a _ imm s => ⟨writesC_gives_of_eq s c (condI_eq_wordCondition cond _ _),
    writesC_gives_of_eq s c (condI_eq_wordCondition cond (s.getS a) (sx imm))⟩

end Sys2Proof.Machine
end

section
/-! Scalar floating-point moves and tests (spec/09_scalar_instructions.md R208 to R211): words that write one register and raise
flags without a check of assays, the order of R208, class masks and floating-point conditions. -/

namespace Sys2Proof.Machine

/-! ### Words that write a register and raise flags -/

@[simp] theorem State.orFlags_regs (s : State) (st : StreamId) (fl : Flags) : (s.orFlags st fl).vc.regs = s.vc.regs :=
  State.setStream_regs s st _

/-- A state that differs from s in its registers only, with flags raised, retired. -/
theorem onlyRegs_orFlags_retire (s : State) (r : Regs) (fl : Flags) : OnlyRegs s (sRetire ((s.setRegs r).orFlags .s fl)) := by
  constructor
  · rw [sRetire_eq]; rfl
  · rw [sRetire_sS]; rfl

theorem orFlags_retire_flags (s : State) (r : Regs) (fl : Flags) :
    (sRetire ((s.setRegs r).orFlags .s fl)).vc.sS.fflags = s.vc.sS.fflags ||| fl
      ∧ (sRetire ((s.setRegs r).orFlags .s fl)).vc.sS.asyte = s.vc.sS.asyte := by
  rw [sRetire_sS]
  exact ⟨rfl, rfl⟩

theorem writesF_orFlags_retire (s : State) (d : BitVec 6) (v : FReg) (fl : Flags) (hd : d.toNat < 32) :
    WritesF s (sRetire ((s.setF d v).orFlags .s fl)) d v where
  toOnlyRegs := onlyRegs_orFlags_retire s _ fl
  value r hr := by rw [← State.getF_setF s d r v hd hr]; simp [State.getF]
  files := by simp [State.setF]

theorem writesC_orFlags_retire (s : State) (c : BitVec 3) (v : Bool) (fl : Flags) :
    WritesC s (sRetire ((s.setC c v).orFlags .s fl)) c v where
  toOnlyRegs := onlyRegs_orFlags_retire s _ fl
  value r := by rw [← State.getC_setC]; simp [State.getC]
  files := by simp [State.setC]

/-- A word that writes one f register and raises no flag. -/
theorem setF_gives (s : State) (d : BitVec 6) (v : FReg) (hd : d.toNat < 32) :
    Gives (sNext (s.setF d v)) (fun u => WritesF s u d v ∧ SameFlags s u) := by
  refine ⟨_, rfl, writesF_retire s d v hd, ?_⟩
  rw [SameFlags, sRetire_sS]
  exact ⟨rfl, rfl⟩

/-- An unchecked result is written with its flags, whatever its assay. -/
theorem fWrite_unchecked_gives (s : State) (d : BitVec 6) (f : Fmt) (x asy : Nat) (fl : Flags) (hd : d.toNat < 32) :
    Gives (fWrite s d f x asy fl false) (fun u => WritesF s u d (fregOf f x asy)
      ∧ u.vc.sS.fflags = s.vc.sS.fflags ||| fl ∧ u.vc.sS.asyte = s.vc.sS.asyte) :=
  ⟨_, rfl, writesF_orFlags_retire s d _ fl hd, orFlags_retire_flags s _ fl⟩

/-! ### The order of R208 -/

theorem Val.units_of_isZero {v : Val} (h : v.isZero = true) (u : Int) : v.units u = 0 := by
  cases v with
  | fin n m e st =>
    have hm : m = 0 := by simpa using (Bool.and_eq_true_iff.1 h).1
    simp [Val.units, hm]
  | inf n => rfl
  | nan b => rfl

theorem ltV_asymm {x y : Val} (h : ltV x y = true) : ltV y x = false := by
  cases x with
  | nan a => cases h
  | inf a => cases y with
    | nan b => rfl
    | inf b =>
      obtain ⟨rfl, -⟩ := Bool.and_eq_true_iff.1 (show (a && !b) = true from h)
      exact Bool.and_false b
    | fin n m e st => simpa [ltV] using h
  | fin n m e st => cases y with
    | nan b => rfl
    | inf b => simpa [ltV] using h
    | fin n' m' e' st' => simpa [ltV, min_comm] using le_of_lt (of_decide_eq_true h)

/-- Zeros of either sign are equal as numbers. -/
theorem ltV_of_isZero {x y : Val} (hx : x.isZero = true) (hy : y.isZero = true) : ltV x y = false := by
  cases x with
  | nan a => rfl
  | inf a => cases hx
  | fin n m e st => cases y with
    | nan b => rfl
    | inf b => cases hy
    | fin n' m' e' st' => simp [ltV, Val.units_of_isZero hx, Val.units_of_isZero hy]

theorem beforeV_iff {x y : Val} :
    beforeV x y = true ↔ ltV x y = true ∨ (x.isZero = true ∧ y.isZero = true ∧ x.sign = true ∧ y.sign = false) := by
  simp [beforeV, and_assoc]

/-- The order of R208 never holds both ways. -/
theorem beforeV_asymm {x y : Val} (h : beforeV x y = true) : beforeV y x = false := by
  refine Bool.eq_false_iff.2 fun h' => ?_
  obtain hlt | ⟨hx, hy, hsx, hsy⟩ := beforeV_iff.1 h
  · obtain hlt' | ⟨hy, hx, -⟩ := beforeV_iff.1 h'
    · simp [ltV_asymm hlt] at hlt'
    · simp [ltV_of_isZero hx hy] at hlt
  · obtain hlt' | ⟨-, -, hsy', -⟩ := beforeV_iff.1 h'
    · simp [ltV_of_isZero hy hx] at hlt'
    · simp [hsy] at hsy'

theorem nvOf_chooseV (lower : Bool) (f : Fmt) (x y : Opnd) (px py : Nat) : (chooseV lower f x y px py).2.2 = nvOf [x.v, y.v] := by
  unfold chooseV
  split
  case h_4 => simp only [apply_ite Prod.snd, ite_self]
  all_goals rfl

/-- The model's choice is the rule's: it tests the order of the larger operand the other way round, and the order is asymmetric. -/
theorem chosen_chooseV (lower : Bool) (f : Fmt) (x y : Opnd) (px py : Nat) :
    Chosen f lower x y px py (chooseV lower f x y px py).1 (chooseV lower f x y px py).2.1 := by
  unfold Chosen chooseV
  cases hx : x.v.isNan <;> cases hy : y.v.isNan
  case false.false =>
    by_cases hxy : beforeV x.v y.v = true
    · cases lower <;> simp [hxy, beforeV_asymm hxy]
    · by_cases hyx : beforeV y.v x.v = true <;> cases lower <;> simp [hxy, hyx]
  all_goals simp

theorem fChoose_gives (lower : Bool) (d a b : BitVec 6) (t : BitVec 2) (s : State) (hd : d.toNat < 32) :
    Gives (fChoose lower d a b (ftFmt t) s) (fun u => ∃ x asy, WritesF s u d (fregOf (ftFmt t) x asy)
      ∧ Chosen (ftFmt t) lower (fArg s t a) (fArg s t b) (fPattern s t a) (fPattern s t b) x asy
      ∧ u.vc.sS.fflags = s.vc.sS.fflags ||| fArgFlags s t a ||| fArgFlags s t b ||| nvOf [(fArg s t a).v, (fArg s t b).v]
      ∧ u.vc.sS.asyte = s.vc.sS.asyte) := by
  let q := chooseV lower (ftFmt t) (fArg s t a) (fArg s t b) (fPattern s t a) (fPattern s t b)
  obtain ⟨u, hu, hw, hfl, hlow⟩ := fWrite_unchecked_gives s d (ftFmt t) q.1 q.2.1 (fArgFlags s t a ||| fArgFlags s t b ||| q.2.2) hd
  refine ⟨u, hu, q.1, q.2.1, hw, chosen_chooseV .., ?_, hlow⟩
  rw [hfl, nvOf_chooseV]
  simp only [BitVec.or_assoc]

/-! ### Class masks -/

/-- The bit of R210 that a value of format f sets in its class mask. -/
def classBit (f : Fmt) : Val → Nat
  | .inf n => if n then 0 else 7
  | .nan sn => if sn then 8 else 9
  | .fin n m e st =>
    if m = 0 then (if n then 3 else 4)
    else if (Val.fin n m e st).lead < 1 - (f.bias : Int) then (if n then 2 else 5)
    else (if n then 1 else 6)

theorem classMask_eq_ofNat (f : Fmt) (v : Val) : classMask f v = BitVec.ofNat 64 (2 ^ classBit f v) := by
  have hbit (k : Nat) : (1 : Word) <<< k = BitVec.ofNat 64 (2 ^ k) := BitVec.eq_of_toNat_eq (by simp [Nat.shiftLeft_eq])
  cases v <;> exact hbit _

/-! ### Conditions of R211 -/

theorem Val.isNan_of_isSnan {v : Val} (h : v.isSnan = true) : v.isNan = true := by
  cases v with
  | nan b => rfl
  | inf n => cases h
  | fin n m e st => cases h

theorem Val.eq_nan_of_isNan {v : Val} (h : v.isNan = true) : ∃ b, v = .nan b := by
  cases v with
  | nan b => exact ⟨b, rfl⟩
  | inf n => cases h
  | fin n m e st => cases h

/-- A NaN is neither below nor above nor equal to anything. -/
theorem unordered_of_isNan {x y : Val} (h : x.isNan = true ∨ y.isNan = true) :
    ltV x y = false ∧ ltV y x = false ∧ eqV x y = false := by
  obtain hx | hy := h
  · obtain ⟨a, rfl⟩ := Val.eq_nan_of_isNan hx
    exact ⟨rfl, by cases y <;> rfl, rfl⟩
  · obtain ⟨b, rfl⟩ := Val.eq_nan_of_isNan hy
    exact ⟨by cases x <;> rfl, rfl, by cases x <;> rfl⟩

/-- The codes of R175 that FCMP has. -/
theorem floatCondition_cases : ∀ {c : BitVec 3}, c ≠ 7 → c = 0 ∨ c = 1 ∨ c = 2 ∨ c = 3 ∨ c = 4 ∨ c = 5 ∨ c = 6 :=
  by decide

/-- The table of R211: the bit. -/
theorem condF_bit {c : BitVec 3} (hc : c ≠ 7) (x y : Val) : (condF c x y).1 =
    if x.isNan || y.isNan then c = 1 || c = 6
    else if c = 0 then eqV x y
    else if c = 1 then !eqV x y
    else if c = 2 then ltV x y
    else if c = 3 then ltV x y || eqV x y
    else if c = 4 then ltV y x
    else if c = 5 then ltV y x || eqV x y
    else false := by
  by_cases hn : x.isNan = true ∨ y.isNan = true
  · obtain ⟨hlt, hgt, heq⟩ := unordered_of_isNan hn
    rw [if_pos (by simpa using hn)]
    obtain rfl | rfl | rfl | rfl | rfl | rfl | rfl := floatCondition_cases hc <;> simp [condF, hlt, hgt, heq, hn]
  · obtain ⟨hx, hy⟩ : x.isNan = false ∧ y.isNan = false := by simpa using hn
    rw [if_neg (by simpa using hn)]
    obtain rfl | rfl | rfl | rfl | rfl | rfl | rfl := floatCondition_cases hc <;> simp [condF, hx, hy]

/-- The table of R211: what raises NV. A signalling NaN is a NaN, so where any NaN raises it the two tests are one. -/
theorem condF_flags {c : BitVec 3} (hc : c ≠ 7) (x y : Val) : (condF c x y).2 =
    if x.isSnan || y.isSnan || ((x.isNan || y.isNan) && 2 ≤ c.toNat && c.toNat ≤ 5) then flNV else 0 := by
  have hx : x.isSnan = true → x.isNan = true := Val.isNan_of_isSnan
  have hy : y.isSnan = true → y.isNan = true := Val.isNan_of_isSnan
  have hloud : (x.isSnan || y.isSnan || (x.isNan || y.isNan)) = (x.isNan || y.isNan) := by
    rw [Bool.or_eq_right_iff_imp]
    simpa using Or.imp hx hy
  have hquiet : nvOf [x, y] = flIf (x.isSnan || y.isSnan) flNV := by simp [nvOf]
  have hcodes : (2 ≤ c.toNat && c.toNat ≤ 5) = (c == 2 || c == 3 || c == 4 || c == 5) := by revert c; decide
  rw [Bool.and_assoc, hcodes]
  obtain rfl | rfl | rfl | rfl | rfl | rfl | rfl := floatCondition_cases hc <;> simp [-Bool.or_eq_true, condF, flIf, hquiet, hloud]

/-- Settles O4: each word writes one register by the law of its operation; the choice, the class and the condition are the rule's. -/
theorem fpMovesAndTests : Obligations.FpMovesAndTests := by
  refine ⟨fun d a b t s => ⟨fun hd => ⟨?fmv, ?fsetasy, ?fmin, ?fmax⟩, ?fasy, ?fclass⟩, fun cond c a b t s hc => ?fcmp⟩
  case fmv => exact setF_gives s d _ hd
  case fsetasy => exact setF_gives s d _ hd
  case fmin => exact fChoose_gives true d a b t s hd
  case fmax => exact fChoose_gives false d a b t s hd
  case fasy => exact sWrite_gives s d _
  case fclass =>
    refine ⟨classBit (ftFmt t) (fArg s t a).v, ?_, ?_⟩
    · rw [← classMask_eq_ofNat]
      exact sWrite_gives s d _
    · cases (fArg s t a).v with
      | inf n => cases n <;> rfl
      | nan sn => cases sn <;> rfl
      | fin n m e st =>
        dsimp only [classBit]
        split_ifs <;> rfl
  case fcmp =>
    intro x y
    refine ⟨_, rfl, ?_, ?_⟩
    · rw [← condF_bit hc]
      exact writesC_orFlags_retire s c _ _
    · obtain ⟨hfl, hlow⟩ := orFlags_retire_flags s _ (fArgFlags s t a ||| fArgFlags s t b ||| (condF cond x y).2)
      rw [← condF_flags hc]
      exact ⟨hfl.trans (by simp only [BitVec.or_assoc]), hlow⟩

end Sys2Proof.Machine
end

section
/-! Vector logic and shifts (spec/10_vector_instructions.md R242): each word is a lane-parallel word by the arithmetic of its rule. -/

namespace Sys2Proof.Machine

section
variable (w : VWord) (s : State)

theorem exec_vand : exec (.vand w) s = vLogic w s fun _ x y => x &&& y := rfl
theorem exec_vor : exec (.vor w) s = vLogic w s fun _ x y => x ||| y := rfl
theorem exec_vxor : exec (.vxor w) s = vLogic w s fun _ x y => x ^^^ y := rfl

theorem exec_vshl : exec (.vshl w) s = vLogic w s fun f x y => x * 2 ^ (y % f.width) % 2 ^ f.width := by
  simp only [← Nat.shiftLeft_eq]; rfl

theorem exec_vshr : exec (.vshr w) s = vLogic w s fun f x y => x / 2 ^ (y % f.width) := by
  simp only [← Nat.shiftRight_eq_div_pow]; rfl

theorem exec_vsra : exec (.vsra w) s = vLogic w s fun f x y => wrapNat f.width (sgn f.width x / (2 : Int) ^ (y % f.width)) := by
  have h (x : Int) (n : Nat) : x / (2 : Int) ^ n = x >>> n := by rw [Int.shiftRight_eq_div_pow, Nat.cast_pow, Nat.cast_ofNat]
  simp only [h]; rfl

theorem exec_vnot : exec (.vnot w) s = vLanes w s [(w.sa, vFmt w)] (vFmt w) false false false
    fun xs _ j => (2 ^ (vFmt w).width - 1 - (srcLane xs 0 j).x, 0, 0) := rfl
end

/-- A word over the patterns of two sources. -/
theorem vLogic_gives {w : VWord} {s : State} (h : VReady s w [(w.sa, vFmt w), (w.sb, vFmt w)] (vFmt w) false false)
    (op : Fmt → Nat → Nat → Nat) : VGives w s [(w.sa, vFmt w), (w.sb, vFmt w)] (vLogic w s op)
      (fun xs _ => laneRes s w (vFmt w) false false fun j => (op (vFmt w) (srcLane xs 0 j).x (srcLane xs 1 j).x, 0, 0)) :=
  vLanes_gives h false false fun xs _ j => (op (vFmt w) (srcLane xs 0 j).x (srcLane xs 1 j).x, 0, 0)

/-- Settles O25: each word is a lane-parallel word by the operation of the rule that its equation above gives. -/
theorem vectorLogic : Obligations.VectorLogic := by
  intro w s
  simp only [exec_vand, exec_vor, exec_vxor, exec_vshl, exec_vshr, exec_vsra, exec_vnot]
  exact ⟨fun h => ⟨vLogic_gives h _, vLogic_gives h _, vLogic_gives h _, vLogic_gives h _, vLogic_gives h _, vLogic_gives h _⟩,
    fun h => vLanes_gives h false false _⟩

end Sys2Proof.Machine
end

section
/-! Vector words that write predicates (spec/10_vector_instructions.md R228, R243, R252, R254, R255): predicate registers under
rotation, active lanes, bits put into active lanes, and votes. -/

namespace Sys2Proof.Machine

/-! ### Predicate registers -/

theorem State.pIdx_lt (s : State) {j : Nat} (hj : j < 16) : s.pIdx j < 16 := by
  unfold State.pIdx
  split <;> omega

/-- Rotation permutes p8 to p15. -/
theorem State.pIdx_inj (s : State) {i j : Nat} (hi : i < 16) (hj : j < 16) : s.pIdx i = s.pIdx j ↔ i = j := by
  unfold State.pIdx
  split <;> split <;> omega

/-- A write of a predicate changes the predicate file alone. -/
theorem State.setP_eq (s : State) (i : Nat) (v : PredBits) : s.setP i v = s.setRegs { s.vc.regs with p := (s.setP i v).vc.regs.p } := by
  unfold State.setP
  split <;> rfl

theorem State.getP_eq_get (s : State) {j : Nat} (hj : j < 16) : s.getP j = s.vc.regs.p.get ⟨s.pIdx j, s.pIdx_lt hj⟩ := by
  simp only [State.getP, List.getD_eq_getElem?_getD, Vector.get]
  simp [s.pIdx_lt hj]

theorem State.getP_setP (s : State) {i j : Nat} (hi : i < 16) (hj : j < 16) (v : PredBits) :
    (s.setP i v).getP j = if j = i then v else s.getP j := by
  have hidx : (s.setP i v).pIdx j = s.pIdx j := by rw [State.setP_eq]; rfl
  have hfile : (s.setP i v).vc.regs.p = s.vc.regs.p.set (s.pIdx i) v (s.pIdx_lt hi) := by
    rw [State.setP, dif_pos (s.pIdx_lt hi), State.setRegs_regs]
  simp only [State.getP_eq_get _ hj, hidx, hfile]
  simpa only [Fin.mk.injEq, s.pIdx_inj hj hi] using get_set_fin s.vc.regs.p ⟨s.pIdx i, s.pIdx_lt hi⟩ ⟨s.pIdx j, s.pIdx_lt hj⟩ v

/-- R182, R228: lane j is active under guard bit g[j], or under its complement, or without a guard. -/
theorem State.testBit_active (s : State) (pred : BitVec 5) (l j : Nat) : (s.active pred l).testBit j =
    (decide (j < l) && (decide (pred = 0) || ((s.getP (pred.extractLsb' 0 4).toNat).getLsbD j ^^ pred.getLsbD 4))) := by
  unfold State.active
  by_cases hp : pred = 0
  · simp [hp, Nat.testBit_two_pow_sub_one]
  · simp only [hp, if_false, decide_false, Bool.false_or]
    cases pred.getLsbD 4 <;>
      cases hj : decide (j < l) <;> simp [Nat.testBit_two_pow_sub_one, hj, BitVec.testBit_toNat, -Nat.and_two_pow_sub_one_eq_mod]

/-- One bit put into each active lane. -/
theorem testBit_putAll_lanesIn (x act n : Nat) (bit : Nat → Bool) (j : Nat) :
    (putAll x ((lanesIn act n).map fun i => ⟨i, 1, if bit i then 1 else 0⟩)).testBit j =
      if j < n ∧ act.testBit j = true then bit j else x.testBit j := by
  have hput := putAll_lanes 1 1 0 le_rfl (fun i : Nat => i) (fun i => if bit i then 1 else 0) (lanesIn act n) x
    (by simpa using lanesIn_nodup act n) j
  have hbit (y : Nat) : y.testBit j = (nbits y j 1).testBit 0 := by rw [testBit_nbits]; simp
  simp only [zero_add, one_mul, find_lanesIn] at hput
  rw [hbit, hput, hbit x]
  by_cases h : j < n ∧ act.testBit j = true
  · simp only [if_pos h]
    cases bit j <;> rfl
  · simp only [if_neg h]

theorem SameRows.getP {s t : State} (h : SameRows s t) (i : Nat) : t.getP i = s.getP i := by
  unfold State.getP State.pIdx
  rw [h.regs]

theorem State.getP_orFlags (s : State) (st : StreamId) (fl : Flags) (i : Nat) : (s.orFlags st fl).getP i = s.getP i := by
  unfold State.getP State.pIdx
  rw [State.orFlags_regs]

/-- Flags gathered from 0 and then raised are gathered from those that stand. -/
theorem or_foldl_or {α : Type} (g : α → Flags) (l : List α) (x : Flags) :
    x ||| l.foldl (fun a j => a ||| g j) 0 = l.foldl (fun a j => a ||| g j) x := by
  have h := List.foldl_assoc (op := (· ||| · : Flags → Flags → Flags)) (l := l.map g) (a₁ := x) (a₂ := 0)
  simpa [List.foldl_map] using h.symm

/-! ### Words that write active lanes of a predicate -/

/-- A word over lanes whose checks pass and whose result is not checked completes with its effect. -/
theorem vWord_completes {w : VWord} {s s2 : State} {srcs : List (BitVec 7 × Fmt)} {fd : Fmt} {pdst rounds : Bool}
    {k : List VSrc → Anchor → State → Eff} (h : VReady s w srcs fd pdst rounds)
    (hk : k (vSources s w srcs pdst).1 (vAnchor s w srcs pdst) (vSources s w srcs pdst).2 = .done s2 none) :
    Completes .v w.cl s2 (vWord w s srcs fd pdst rounds k) := by
  unfold vWord
  dsimp only
  rw [vReady_stall h, vReady_checks h]
  dsimp only
  have hdone := issue_done .v w.cl s s2 [] h.wait firstFault_nil
  rwa [← hk] at hdone

/-- The state that a word leaves with a bit in each active lane of its predicate, and its flags raised. -/
def lanesWritten (w : VWord) (s : State) (act l : Nat) (bit : Nat → Bool × Flags) : State :=
  vPred w (s.orFlags .v ((lanesIn act l).foldl (fun a j => a ||| (bit j).2) 0)) l ((lanesIn act l).map fun j => (j, (bit j).1))

theorem lanesWritten_eq (w : VWord) (s : State) (act l : Nat) (bit : Nat → Bool × Flags) : lanesWritten w s act l bit =
    { s with vc := { s.vc with
        sV := (lanesWritten w s act l bit).vc.sV, regs := { s.vc.regs with p := (lanesWritten w s act l bit).vc.regs.p } } } := by
  unfold lanesWritten vPred
  rw [State.setP_eq]
  rfl

theorem lanesWritten_sV (w : VWord) (s : State) (act l : Nat) (bit : Nat → Bool × Flags) : (lanesWritten w s act l bit).vc.sV =
    { s.vc.sV with fflags := (lanesIn act l).foldl (fun a j => a ||| (bit j).2) s.vc.sV.fflags } := by
  unfold lanesWritten vPred
  rw [State.setP_eq, ← or_foldl_or (fun j => (bit j).2) _ s.vc.sV.fflags]
  rfl

theorem lanesWritten_getP {w : VWord} (hd : w.dst.toNat < 16) (s : State) (act l : Nat) (bit : Nat → Bool × Flags) {i : Nat}
    (hi : i < 16) : (lanesWritten w s act l bit).getP i =
      if i = w.dst.toNat then
        BitVec.ofNat 4096 (putAll ((s.getP w.dst.toNat).toNat % 2 ^ l)
          ((lanesIn act l).map fun j => ⟨j, 1, if (bit j).1 then 1 else 0⟩))
      else s.getP i := by
  unfold lanesWritten vPred
  rw [State.getP_setP _ hd hi, List.map_map]
  simp only [State.getP_orFlags]
  rfl

theorem lanesWritten_getLsbD {w : VWord} (hd : w.dst.toNat < 16) (s : State) (act l : Nat) (bit : Nat → Bool × Flags) {j : Nat}
    (hj : j < 4096) : ((lanesWritten w s act l bit).getP w.dst.toNat).getLsbD j =
      if j < l then (if act.testBit j then (bit j).1 else (s.getP w.dst.toNat).getLsbD j) else false := by
  rw [lanesWritten_getP hd s act l bit hd, if_pos rfl, BitVec.getLsbD_ofNat, testBit_putAll_lanesIn _ act l fun j => (bit j).1,
    Nat.testBit_mod_two_pow, BitVec.testBit_toNat]
  by_cases hl : j < l <;> simp [hj, hl]

/-- A word with one bit and its flags for each active lane. -/
theorem vBits_gives {w : VWord} {s : State} {srcs : List (BitVec 7 × Fmt)} {f : Fmt} (h : VReady s w srcs f true false)
    (hd : w.dst.toNat < 16) (bit : List VSrc → Nat → Bool × Flags) : PGives w s srcs f (vBits w s srcs f bit) bit := by
  unfold PGives
  have hs : SameRows s (vSources s w srcs true).2 := takeSrcs_same _ _
  generalize hx : vSources s w srcs true = x at hs
  obtain ⟨xs, s1⟩ := x
  dsimp only at hs ⊢
  have hends : Completes .v w.cl (lanesWritten w s1 (s.active w.pred f.lanes) f.lanes (bit xs)) (vBits w s srcs f bit) :=
    vWord_completes h (by rw [hx, lanesWritten]; simp only [List.foldl_map, List.map_map]; rfl)
  obtain ⟨t, ht, hends⟩ := hends
  refine ⟨t, ht, _, fun j hj => ?written, fun i hi hne => ?others, lanesWritten_eq .., lanesWritten_sV .., hends⟩
  case written => rw [lanesWritten_getLsbD hd _ _ _ _ hj, hs.getP]
  case others => rw [lanesWritten_getP hd _ _ _ _ hi, if_neg hne, hs.getP]

/-- A word that reads predicates alone has no check but its WAIT. -/
theorem vReady_nil {w : VWord} {s : State} (hw : Waited s w.cl) (f : Fmt) : VReady s w [] f true false where
  wait := hw
  bound _ h := nomatch h
  power _ h := nomatch h
  anchorD _ h := nomatch h
  anchors _ h := nomatch h
  mode h := nomatch h
  intact _ h := nomatch h
  filled _ h := nomatch h
  sound := rfl
  room h := nomatch h

/-! ### Words that write a whole predicate -/

/-- A word without checks that writes every bit of its predicate. -/
theorem setP_gives {w : VWord} {s : State} (hw : Waited s w.cl) (hd : w.dst.toNat < 16) {v : PredBits} {bit : Nat → Bool}
    (hv : ∀ j < 4096, v.getLsbD j = bit j) :
    Gives (issue .v w.cl s [] (.done (s.setP w.dst.toNat v) none)) fun t => ∃ s2,
      (∀ j < 4096, (s2.getP w.dst.toNat).getLsbD j = bit j) ∧ (∀ i < 16, i ≠ w.dst.toNat → s2.getP i = s.getP i)
      ∧ s2 = { s with vc := { s.vc with regs := { s.vc.regs with p := s2.vc.regs.p } } } ∧ WordEnds .v w.cl s2 t (semAfter s2 w.cl) := by
  obtain ⟨t, ht, hends⟩ := issue_done .v w.cl s (s.setP w.dst.toNat v) [] hw firstFault_nil
  refine ⟨t, ht, _, fun j hj => ?_, fun i hi hne => ?_, State.setP_eq s _ v, hends⟩
  · rw [State.getP_setP s hd hd, if_pos rfl, hv j hj]
  · rw [State.getP_setP s hd hi, if_neg hne]

theorem getLsbD_lowOnes {j : Nat} (hj : j < 4096) (n : Nat) : (BitVec.ofNat 4096 (2 ^ n - 1)).getLsbD j = decide (j < n) := by
  rw [BitVec.getLsbD_ofNat, Nat.testBit_two_pow_sub_one, decide_eq_true hj, Bool.true_and]

theorem State.lt_of_testBit_active {s : State} {pred : BitVec 5} {l i : Nat} (h : (s.active pred l).testBit i = true) : i < l := by
  rw [State.testBit_active, Bool.and_eq_true, decide_eq_true_eq] at h
  exact h.1

/-- A mask meets the active lanes in one lane at least. -/
theorem and_active_ne_zero_iff (s : State) (pred : BitVec 5) (l x : Nat) :
    x &&& s.active pred l ≠ 0 ↔ ∃ i < l, (s.active pred l).testBit i = true ∧ x.testBit i = true := by
  constructor
  · intro h
    obtain ⟨i, hi⟩ := Nat.exists_testBit_of_ne_zero h
    obtain ⟨hx, hact⟩ := Bool.and_eq_true_iff.1 ((Nat.testBit_and ..).symm.trans hi)
    exact ⟨i, State.lt_of_testBit_active hact, hact, hx⟩
  · rintro ⟨i, -, hact, hx⟩ h
    simpa [hact, hx] using congrArg (Nat.testBit · i) h

/-- A mask holds every active lane. -/
theorem and_active_eq_iff (s : State) (pred : BitVec 5) (l x : Nat) :
    x &&& s.active pred l = s.active pred l ↔ ∀ i < l, (s.active pred l).testBit i = true → x.testBit i = true := by
  constructor
  · intro h i _ hact
    rw [← h, Nat.testBit_and, Bool.and_eq_true] at hact
    exact hact.1
  · intro h
    refine Nat.eq_of_testBit_eq fun i => ?_
    rw [Nat.testBit_and, Bool.and_eq_right_iff_imp]
    exact fun hact => h i (State.lt_of_testBit_active hact) hact

/-- A vote writes its value into the lanes below L. -/
theorem getLsbD_vote {j : Nat} (hj : j < 4096) (l : Nat) {v : Bool} {P : Prop} [Decidable P] (hv : v = true ↔ P) :
    (if v then BitVec.ofNat 4096 (2 ^ l - 1) else 0).getLsbD j = decide (j < l ∧ P) := by
  by_cases hP : P
  · rw [if_pos (hv.2 hP), getLsbD_lowOnes hj]
    simp [hP]
  · rw [if_neg (hv.not.2 hP)]
    simp [hP]

/-! ### The words -/

section
variable (w : VWord) (s : State)

theorem exec_vcmp : exec (.vcmp w) s = vBits w s [(w.sa, vFmt w), (w.sb, vFmt w)] (vFmt w) fun xs j =>
    condF (w.sc.extractLsb' 0 3) (srcLane xs 0 j).o.v (srcLane xs 1 j).o.v := rfl

theorem exec_vasylt : exec (.vasylt w) s = vBits w s [(w.sa, vFmt w), (w.sb, vFmt w)] (vFmt w) fun xs j =>
    (decide ((srcLane xs 0 j).o.eff <
      if isKCode w.sb then (s.getK (w.sb.setWidth 4)).toNat % 128 else min (srcLane xs 1 j).x 127), 0) := by
  show execVasylt w s = _
  unfold execVasylt
  cases isKCode w.sb <;> rfl

theorem exec_pand : exec (.pand w) s = vBits w s [] (vFmt w) fun _ j =>
    ((s.getP w.sa.toNat).getLsbD j && (s.getP w.sb.toNat).getLsbD j, 0) := rfl
theorem exec_por : exec (.por w) s = vBits w s [] (vFmt w) fun _ j =>
    ((s.getP w.sa.toNat).getLsbD j || (s.getP w.sb.toNat).getLsbD j, 0) := rfl
theorem exec_pnot : exec (.pnot w) s = vBits w s [] (vFmt w) fun _ j => (!(s.getP w.sa.toNat).getLsbD j, 0) := rfl

theorem exec_pset : exec (.pset w) s =
    issue .v w.cl s [] (.done (s.setP w.dst.toNat (BitVec.ofNat 4096 (2 ^ w.imm14.toNat - 1))) none) := rfl
theorem exec_vany : exec (.vany w) s = vVote w s fun on _ => on != 0 := rfl
theorem exec_vall : exec (.vall w) s = vVote w s fun on act => on == act := rfl
end

/-- Settles O31: the lane words write active lanes with the model's bit, which for VCMP is the table of R211; PSET and the votes
write the whole predicate. -/
theorem vectorPredicates : Obligations.VectorPredicates := by
  intro w s hd
  simp only [exec_vcmp, exec_vasylt, exec_pand, exec_por, exec_pnot, exec_pset, exec_vany, exec_vall]
  refine ⟨fun h => ⟨fun hc => ?vcmp, vBits_gives h hd _⟩, fun hw => ?unchecked⟩
  case vcmp =>
    simp only [← condF_bit hc, ← condF_flags hc]
    exact vBits_gives h hd _
  case unchecked =>
    have hnil := vReady_nil hw (vFmt w)
    refine ⟨vBits_gives hnil hd _, vBits_gives hnil hd _, vBits_gives hnil hd _, ?pset, ?vany, ?vall⟩
    case pset => exact setP_gives hw hd fun j hj => getLsbD_lowOnes hj _
    case vany =>
      exact setP_gives hw hd fun j hj => getLsbD_vote hj _ (bne_iff_ne.trans (and_active_ne_zero_iff s w.pred _ _))
    case vall =>
      exact setP_gives hw hd fun j hj => getLsbD_vote hj _ (beq_iff_eq.trans (and_active_eq_iff s w.pred _ _))

end Sys2Proof.Machine
end

section
/-! Vector branches (spec/10_vector_instructions.md R256, R258): lane 0 decides, and a branch that is taken is a jump with its SET. -/

namespace Sys2Proof.Machine

section
variable {st : StreamId} {cl : Clauses}

/-- A take leaves the semaphore of a SET that counts: the word has one or the other. -/
theorem SetFits.of_issued {s t : State} (h : SetFits s cl) (ht : ∀ i, t.getM i = semIssued s cl i) : SetFits t cl := by
  obtain ⟨hup, hdown⟩ := h
  constructor
  · intro h1
    simpa [ht, semIssued, h1] using hup h1
  · intro h2
    simpa [ht, semIssued, h2] using hdown h2

/-- After the take, the SET. -/
theorem applySet_getM_of_issued {s t : State} (p : StopPoint) (h : SetFits s cl) (ht : ∀ i, t.getM i = semIssued s cl i)
    (i : BitVec 6) : (applySet t st p cl).getM i = semAfter s cl i := by
  rw [applySet_getM st cl t p (h.of_issued ht), ht, semIssued, semAfter]
  by_cases h3 : cl.so = 3
  · simp [h3]
  · simp only [h3, false_and, if_false]

/-- A word that goes on at an address, its SET in range. -/
theorem issue_jumps {s s1 : State} (pc : Word) (hw : Waited s cl) (hf : SetFits s1 cl) :
    Gives (issue st cl s [] (.jumps s1 pc)) fun t =>
      t = (s1.withSems st { s1.stream st with pc := pc, cmdix := (s1.stream st).cmdix + 1, wait := waitNone } t.vc.regs.m).withLowered
        t.vc.st.lowered
      ∧ ∀ i, t.getM i = semAfter s1 cl i := by
  unfold issue
  rw [waitMet_of_waited st cl s hw]
  have hm (y : Stream) (i : BitVec 6) : ((takeAt s1 cl).setStream st y).getM i = semIssued s1 cl i := by
    rw [← takeAt_getM]; simp [State.getM]
  refine ⟨_, rfl, ?_, applySet_getM_of_issued _ hf (hm _)⟩
  rw [applySet_eq st cl _ _ (hf.of_issued (hm _)), takeAt_stream, takeAt_eq]
  cases st <;> rfl
end

/-- Lane 0 is active (R228), so VBR is taken (R256). -/
theorem lane0_active_iff (s : State) (pred : BitVec 5) : (s.active pred 1).testBit 0 = true ↔
    pred = 0 ∨ (s.getP (pred.extractLsb' 0 4).toNat).getLsbD 0 ≠ pred.getLsbD 4 := by
  rw [State.testBit_active]
  simp only [zero_lt_one, decide_true, Bool.true_and, Bool.or_eq_true, decide_eq_true_eq, bne_iff_ne]

/-- A closing event that occurs or not. -/
theorem ite_rotate_eq (c : Prop) [Decidable c] (s : State) : (if c then rotate s else s) =
    s.setRegs { s.vc.regs with
      rb := if c then s.vc.regs.rb - 1 else s.vc.regs.rb
      pb := if c then s.vc.regs.pb - 1 else s.vc.regs.pb } := by
  split <;> rfl

theorem exec_vbr (w : VWord) (s : State) : exec (.vbr w) s = issue .v w.cl s []
    (if (s.active w.pred 1).testBit 0 then .jumps (if (sx w.off21).toInt ≤ 0 then rotate s else s) (s.vc.sV.pc + 8 * sx w.off21)
      else .done s none) := rfl

/-- Settles O37: lane 0 decides; a taken branch is a jump from the state, rotated where its offset is not forward. -/
theorem vectorBranch : Obligations.VectorBranch := by
  intro w s hw hf _
  simp only [exec_vbr]
  refine ⟨fun htaken => ?taken, fun huntaken => ?untaken⟩
  case untaken =>
    rw [if_neg ((lane0_active_iff s w.pred).not.2 huntaken)]
    exact issue_done .v w.cl s s [] hw firstFault_nil
  case taken =>
    rw [if_pos ((lane0_active_iff s w.pred).2 htaken)]
    generalize hs1 : (if (sx w.off21).toInt ≤ 0 then rotate s else s) = s1
    rw [ite_rotate_eq] at hs1
    have hfits : SetFits s1 w.cl := by subst hs1; exact hf
    obtain ⟨t, ht, hstate, hsem⟩ := issue_jumps (st := .v) (s.vc.sV.pc + 8 * sx w.off21) hw hfits
    subst hs1
    refine ⟨t, ht, ?_, ?_, ?_, hsem, ?_⟩
    all_goals rw [hstate]; rfl

end Sys2Proof.Machine
end
